-- ==== Sys2Proof/Word.lean ====
section
/-! DEFINITION. The word types of the ICT core (spec 00_scope.md R27, 30_encoding.md R110 to R112). Every value is unsigned. -/

namespace Sys2Proof

/-- A 32-bit word: a logical address, a seed, a timeout, a CRC (R27, R111, R112). -/
abbrev Word := BitVec 32

/-- A 16-bit bus datum `D15..D0` (20_memory.md R80, R81). -/
abbrev Datum := BitVec 16

/-- An 8-bit value: a table index, a vector, one lane of the data bus. -/
abbrev Byte := BitVec 8

/-- A command frame `W2 ++ W1 ++ W0` (30_encoding.md R110). -/
abbrev Frame := BitVec 96

/-- A physical address, held in the 24 bits of the field `A` (30_encoding.md R112). -/
abbrev PhysAddr := BitVec 24

/-- One raw answer of the Board oracle; what its bits mean depends on the question (assumption 2). -/
abbrev Raw := BitVec 16

end Sys2Proof
end

