-- ==== Sys2Proof/Syntax.lean ====
section
/-! DEFINITION. The twenty commands (30_encoding.md R114), one constructor per row of spec/opcode_table.json. Every operand is held at the width its frame field gives it (R111, R116), so no ill-formed command exists. -/

namespace Sys2Proof

/-- A command of the ICT core. -/
inductive Instr where
  /-- IDLE (40_contract.md R152). -/
  | idle
  /-- CHECK (R153). -/
  | check
  /-- BUSW addr (R154). -/
  | busw (addr : Word)
  /-- ACCW addr (R155). -/
  | accw (addr : Word)
  /-- MRD addr (R156). -/
  | mrd (addr : Word)
  /-- MWR addr, data (R157). -/
  | mwr (addr : Word) (data : Datum)
  /-- WINT line, level, timeout (R158). -/
  | wint (line : Byte) (level : Bool) (timeout : Word)
  /-- IACK (R159). -/
  | iack
  /-- ROMALL (42_rom_check.md R262). -/
  | romall
  /-- ROMCHK region (R261). -/
  | romchk (region : Byte)
  /-- ROMRAW (R263). -/
  | romraw
  /-- ROMCRC region (R264). -/
  | romcrc (region : Byte)
  /-- RAMMARCH region, seed (43_ram_check.md R284). -/
  | rammarch (region : Byte) (seed : Word)
  /-- RAMCS seed (R285). -/
  | ramcs (seed : Word)
  /-- RAMADDR region (R286). -/
  | ramaddr (region : Byte)
  /-- RAMFILL region, value (R287). -/
  | ramfill (region : Byte) (value : Datum)
  /-- RAMREAD region (R288). -/
  | ramread (region : Byte)
  /-- IOIN input (44_io_interrupt_check.md R320). -/
  | ioin (input : Byte)
  /-- IOOUT output, active (R321). -/
  | ioout (output : Byte) (active : Bool)
  /-- INTCHK line, externally vectored, timeout, expected vector (R323). -/
  | intchk (line : Byte) (extVec : Bool) (timeout : Word) (vector : Byte)
deriving DecidableEq, Repr

end Sys2Proof
end

