-- ==== Sys2Proof/Decode.lean ====
section
/-! DEFINITION. The decoder, total on every 96-bit frame and on any bytes, and the encoder (30_encoding.md R110 to R118). -/

namespace Sys2Proof

/-- Why a frame is illegal (30_encoding.md R115), or why bytes hold no frame (R110). -/
inductive DecodeError where
  /-- `OP` is not in the table of R114. -/
  | unknownOpcode (op : Byte)
  /-- `RSV ≠ 0`. -/
  | reservedBits
  /-- The table marks `IDX` 0 and it is not. -/
  | nonzeroIdx
  /-- The table marks `B` 0 and it is not. -/
  | nonzeroB
  /-- The table marks `X` 0 and it is not. -/
  | nonzeroX
  /-- The table marks `Y`, or its upper bits, 0 and they are not. -/
  | nonzeroY
  /-- Fewer than 12 bytes (R110: there is no partial frame). -/
  | tooShort
deriving DecidableEq, Repr

/-! ### Frame fields (R110, R111) -/

/-- `OP`, W0 bits 7:0. -/
def opField (f : Frame) : Byte := f.extractLsb' 0 8

/-- `IDX`, W0 bits 15:8. -/
def idxField (f : Frame) : Byte := f.extractLsb' 8 8

/-- `B`, W0 bit 16. -/
def bField (f : Frame) : Bool := f.getLsbD 16

/-- `RSV`, W0 bits 31:17. -/
def rsvField (f : Frame) : BitVec 15 := f.extractLsb' 17 15

/-- `X`, the word W1. -/
def xField (f : Frame) : Word := f.extractLsb' 32 32

/-- `Y`, the word W2. -/
def yField (f : Frame) : Word := f.extractLsb' 64 32

/-- `Y[15:0]`. -/
def yDatum (f : Frame) : Datum := f.extractLsb' 64 16

/-- `Y[7:0]`. -/
def yByte (f : Frame) : Byte := f.extractLsb' 64 8

/-! ### The opcode map (R114) -/

/-- One row of R114: which fields carry operands, how many low bits of `Y` do, and the command they make. -/
structure OpcodeRow where
  usesIdx : Bool
  usesB : Bool
  usesX : Bool
  yBits : Nat
  build : Frame → Instr

/-- The table of R114. -/
def opcodeRow (op : Byte) : Option OpcodeRow :=
  match op.toNat with
  | 0x01 => some ⟨false, false, false, 0, fun _ => .idle⟩
  | 0x02 => some ⟨false, false, false, 0, fun _ => .check⟩
  | 0x03 => some ⟨false, false, true, 0, fun f => .busw (xField f)⟩
  | 0x04 => some ⟨false, false, true, 0, fun f => .accw (xField f)⟩
  | 0x05 => some ⟨false, false, true, 0, fun f => .mrd (xField f)⟩
  | 0x06 => some ⟨false, false, true, 16, fun f => .mwr (xField f) (yDatum f)⟩
  | 0x07 => some ⟨true, true, true, 0, fun f => .wint (idxField f) (bField f) (xField f)⟩
  | 0x08 => some ⟨false, false, false, 0, fun _ => .iack⟩
  | 0x10 => some ⟨false, false, false, 0, fun _ => .romall⟩
  | 0x11 => some ⟨true, false, false, 0, fun f => .romchk (idxField f)⟩
  | 0x12 => some ⟨false, false, false, 0, fun _ => .romraw⟩
  | 0x13 => some ⟨true, false, false, 0, fun f => .romcrc (idxField f)⟩
  | 0x20 => some ⟨true, false, true, 0, fun f => .rammarch (idxField f) (xField f)⟩
  | 0x21 => some ⟨false, false, true, 0, fun f => .ramcs (xField f)⟩
  | 0x22 => some ⟨true, false, false, 0, fun f => .ramaddr (idxField f)⟩
  | 0x23 => some ⟨true, false, false, 16, fun f => .ramfill (idxField f) (yDatum f)⟩
  | 0x24 => some ⟨true, false, false, 0, fun f => .ramread (idxField f)⟩
  | 0x30 => some ⟨true, false, false, 0, fun f => .ioin (idxField f)⟩
  | 0x31 => some ⟨true, true, false, 0, fun f => .ioout (idxField f) (bField f)⟩
  | 0x40 => some ⟨true, true, true, 8, fun f => .intchk (idxField f) (bField f) (xField f) (yByte f)⟩
  | _ => none

/-- The decoding procedure (R118): the opcode, then `RSV`, then each field the row marks 0. -/
def decode (f : Frame) : Except DecodeError Instr :=
  match opcodeRow (opField f) with
  | none => .error (.unknownOpcode (opField f))
  | some row =>
    if rsvField f ≠ 0 then .error .reservedBits
    else if !row.usesIdx && decide (idxField f ≠ 0) then .error .nonzeroIdx
    else if !row.usesB && bField f then .error .nonzeroB
    else if !row.usesX && decide (xField f ≠ 0) then .error .nonzeroX
    else if (yField f).toNat / 2 ^ row.yBits ≠ 0 then .error .nonzeroY
    else .ok (row.build f)

/-- The same table as masks (spec/opcode_table.json): a frame is legal when, under some row's mask, it is the
row's match. -/
def opcodeMasks : List (Frame × Frame) :=
  [ (0x000000000000000000000001, 0xFFFFFFFFFFFFFFFFFFFFFFFF),
    (0x000000000000000000000002, 0xFFFFFFFFFFFFFFFFFFFFFFFF),
    (0x000000000000000000000003, 0xFFFFFFFF00000000FFFFFFFF),
    (0x000000000000000000000004, 0xFFFFFFFF00000000FFFFFFFF),
    (0x000000000000000000000005, 0xFFFFFFFF00000000FFFFFFFF),
    (0x000000000000000000000006, 0xFFFF000000000000FFFFFFFF),
    (0x000000000000000000000007, 0xFFFFFFFF00000000FFFE00FF),
    (0x000000000000000000000008, 0xFFFFFFFFFFFFFFFFFFFFFFFF),
    (0x000000000000000000000010, 0xFFFFFFFFFFFFFFFFFFFFFFFF),
    (0x000000000000000000000011, 0xFFFFFFFFFFFFFFFFFFFF00FF),
    (0x000000000000000000000012, 0xFFFFFFFFFFFFFFFFFFFFFFFF),
    (0x000000000000000000000013, 0xFFFFFFFFFFFFFFFFFFFF00FF),
    (0x000000000000000000000020, 0xFFFFFFFF00000000FFFF00FF),
    (0x000000000000000000000021, 0xFFFFFFFF00000000FFFFFFFF),
    (0x000000000000000000000022, 0xFFFFFFFFFFFFFFFFFFFF00FF),
    (0x000000000000000000000023, 0xFFFF0000FFFFFFFFFFFF00FF),
    (0x000000000000000000000024, 0xFFFFFFFFFFFFFFFFFFFF00FF),
    (0x000000000000000000000030, 0xFFFFFFFFFFFFFFFFFFFF00FF),
    (0x000000000000000000000031, 0xFFFFFFFFFFFFFFFFFFFE00FF),
    (0x000000000000000000000040, 0xFFFFFF0000000000FFFE00FF) ]

/-- Whether a frame is an instance of a row of spec/opcode_table.json. -/
def legalFrame (f : Frame) : Bool := opcodeMasks.any fun row => decide (f &&& row.2 = row.1)

/-! ### Frames as byte streams (R110) -/

/-- The 12 bytes of a frame: W0, W1 and W2, each least-significant byte first. -/
def frameBytes (f : Frame) : List Byte := (List.range 12).map fun k => f.extractLsb' (8 * k) 8

/-- The number a list of bytes stands for, the first byte least significant. -/
def bytesValue : List Byte → Nat
  | [] => 0
  | b :: bs => b.toNat + 256 * bytesValue bs

/-- The frame at the head of a byte stream, and the rest; none where fewer than 12 bytes are left. -/
def takeFrame (bs : List Byte) : Option (Frame × List Byte) :=
  if 12 ≤ bs.length then some (BitVec.ofNat 96 (bytesValue (bs.take 12)), bs.drop 12) else none

/-- Decodes one command from a byte stream, total on any bytes, and gives the rest of the stream. -/
def decodeBytes (bs : List Byte) : Except DecodeError (Instr × List Byte) :=
  match takeFrame bs with
  | none => .error .tooShort
  | some (f, rest) =>
    match decode f with
    | .ok i => .ok (i, rest)
    | .error e => .error e

/-- The frame whose bits are `w`, numbered as spec/opcode_table.json numbers them; bits above `nbits` are 0. -/
def tableFrame (nbits w : Nat) : Frame := BitVec.ofNat 96 (w % 2 ^ nbits)

/-- The command the decoder reads from the bytes of the frame whose bits are `w`. -/
def decodeTableWord (nbits w : Nat) : Option Instr :=
  match decodeBytes (frameBytes (tableFrame nbits w)) with
  | .ok (i, _) => some i
  | .error _ => none

/-! ### The encoder -/

/-- A frame from its fields, `RSV` zero (R110, R111). -/
def frameOf (op idx : Byte) (b : Bool) (x y : Word) : Frame :=
  y ++ (x ++ (0#15 ++ (BitVec.ofBool b ++ (idx ++ op))))

/-- The frame of a command (R114, R116); every field the row marks 0 is 0. -/
def encode : Instr → Frame
  | .idle => frameOf 0x01 0 false 0 0
  | .check => frameOf 0x02 0 false 0 0
  | .busw addr => frameOf 0x03 0 false addr 0
  | .accw addr => frameOf 0x04 0 false addr 0
  | .mrd addr => frameOf 0x05 0 false addr 0
  | .mwr addr data => frameOf 0x06 0 false addr (data.zeroExtend 32)
  | .wint line level timeout => frameOf 0x07 line level timeout 0
  | .iack => frameOf 0x08 0 false 0 0
  | .romall => frameOf 0x10 0 false 0 0
  | .romchk region => frameOf 0x11 region false 0 0
  | .romraw => frameOf 0x12 0 false 0 0
  | .romcrc region => frameOf 0x13 region false 0 0
  | .rammarch region seed => frameOf 0x20 region false seed 0
  | .ramcs seed => frameOf 0x21 0 false seed 0
  | .ramaddr region => frameOf 0x22 region false 0 0
  | .ramfill region value => frameOf 0x23 region false 0 (value.zeroExtend 32)
  | .ramread region => frameOf 0x24 region false 0 0
  | .ioin input => frameOf 0x30 input false 0 0
  | .ioout output active => frameOf 0x31 output active 0 0
  | .intchk line extVec timeout vector => frameOf 0x40 line extVec timeout (vector.zeroExtend 32)

/-- The byte stream of a command. -/
def encodeBytes (i : Instr) : List Byte := frameBytes (encode i)

end Sys2Proof
end

