-- ==== Sys2Proof/Machine/Vocabulary.lean ====
section
/-! DEFINITION. The fixed names of the ICT core: families, cycle fields, lines, check items, result codes, reasons, trace events, and what the core can ask of the Board. -/

namespace Sys2Proof.Machine

/-- The seven CPU families (00_scope.md R3). -/
inductive Family where
  | z80 | m6502 | m68000 | i8086 | m6809 | cdp1802 | hd6309
deriving DecidableEq, Repr

/-- A width in bytes, 1 or 2: of the data bus (R14) or of an access (10_state.md R39). -/
inductive Width where
  | one | two
deriving DecidableEq, Repr

/-- `BYTE_ORDER` (00_scope.md R15). -/
inductive ByteOrder where
  | big | little
deriving DecidableEq, Repr

/-- The address space of a cycle (10_state.md R39, 20_memory.md R71). -/
inductive Space where
  | mem | io
deriving DecidableEq, Repr

/-- The pre-phase a cycle runs first (10_state.md R39, 41_bus_engine.md R203, R204). -/
inductive PrePhase where
  | none | waitSpace | vsync
deriving DecidableEq, Repr

/-- The kind of a bus cycle (41_bus_engine.md R201). -/
inductive CycleKind where
  | read | write | ack
deriving DecidableEq, Repr

/-- The data lanes a cycle uses (10_state.md R39). -/
inductive Lane where
  | both | low | high
deriving DecidableEq, Repr

/-- The phases of the bus-cycle FSM (10_state.md R37). -/
inductive Phase where
  | idle | p0 | p1 | p2 | p3 | p4
deriving DecidableEq, Repr

/-- `ACK_KIND` (00_scope.md R18). -/
inductive AckKind where
  | none | single | double | iack
deriving DecidableEq, Repr

/-- `ACK_SIGNAL` (00_scope.md R21): whether phase 3 polls an acknowledge line. -/
inductive AckSignal where
  | none | line
deriving DecidableEq, Repr

/-- Which acknowledge input ended phase 3 (41_bus_engine.md R211, R234): the family's own line, DTACK among
them, or VPA. `unpolled` is the answer of a family without an acknowledge line (R212). -/
inductive AckSeen where
  | unpolled | ready | vpa
deriving DecidableEq, Repr

/-- The logical interrupt lines (30_encoding.md R117). -/
inductive Line where
  | irq (n : Fin 8)
  | nmi
deriving DecidableEq, Repr

/-- What CHECK can test (30_encoding.md R123). -/
inductive CheckItem where
  | vcc | gnd | reset | pause
  | addr (k : Nat)
  | data (k : Nat)
  | clock
deriving DecidableEq, Repr

/-- The result codes (60_exceptions.md R350 to R354). -/
inductive Code where
  | success | timeout | mismatch | unimplemented | unexpected
deriving DecidableEq, Repr

/-- The reasons of a result (30_encoding.md R120), in the order of their numbers 0 to 22. -/
inductive Info where
  | none | ackTimeout | syncTimeout | waitSpaceTimeout | vsyncTimeout | lineTimeout
  | dataMismatch | crcMismatch | pinMismatch | vectorMismatch
  | reservedAddressBits | noIoSpace | noBlanking | noVsync | noLanes | misaligned
  | noSuchLine | noVector | indexRange | illegalCommand | lineStillActive | bankSwitchFailed | notIdled
deriving DecidableEq, Repr

/-- The `table` field of a result (30_encoding.md R119). -/
inductive TableTag where
  | none | rom | ram | input | output | line
deriving DecidableEq, Repr

/-- The events of the trace (10_state.md R47). -/
inductive Event where
  | cyc (kind : CycleKind) (space : Space) (paddr : PhysAddr) (w : Width) (lane : Lane) (data : Datum)
  | abort (kind : CycleKind) (space : Space) (paddr : PhysAddr) (w : Width) (lane : Lane) (phase : Phase)
  | bank (table : TableTag) (ridx : Byte)
  | aremap (addrIn addrOut : Word)
  | dremap (addr : Word) (dataIn dataOut : Datum)
deriving DecidableEq, Repr

/-- One question to the Board oracle (00_scope.md R26): each sample, each read of the data pins, each
bank-switch result, and the unspecified value of an unused lane (93_implementation_defined.md U7). The `ctx` of a remap
call (R23), of which the spec says no more, is asked for in the same way, and is as free (assumption 19). -/
inductive Query where
  | blanking
  | vsyncInput
  | clockEdge
  | clockInput
  | ackInputs (kind : CycleKind)
  | dataPins
  | unusedLane
  | line (l : Line)
  | priorityLevel
  | pin (item : CheckItem)
  | bankResult (table : TableTag) (ridx : Byte)
  | addressContext (table : TableTag) (ridx : Byte)
  | dataContext (table : TableTag) (ridx : Byte)
deriving DecidableEq, Repr

/-- What the engine does at the signal level, inside the transactions of the trace. -/
inductive Action where
  /-- A question of `Query` and its raw answer. -/
  | sample (q : Query) (raw : Raw)
  /-- The electrical level of a line that was sampled at a logical level (00_scope.md R17). -/
  | lineLevel (l : Line) (logical electrical : Bool)
  /-- The FSM enters the phase this action is recorded in (41_bus_engine.md R200). -/
  | enter
  /-- An output clock phase is driven to a level (R206). -/
  | clock (p : Nat) (level : Bool)
  /-- The address is driven in one step (R208). -/
  | address (a : PhysAddr)
  /-- Byte `k` of the address is latched (R209). -/
  | latchByte (k : Nat) (b : Byte)
  /-- The status flags of phase 2: read/write, memory/IO on a family that has it, interrupt acknowledge, and the lane
  selects on a 16-bit bus (R210). -/
  | status (write : Bool) (space : Option Space) (ack : Bool) (lane : Option Lane)
  /-- The request strobes of phase 3, with the arguments of `AssertStrobes` (R202, R211). -/
  | strobes (kind : CycleKind) (space : Space) (lane : Lane)
  /-- `D15..D0` is driven with this value, the datum on these lanes of it (R214). -/
  | driveData (lane : Lane) (bus : Datum)
  /-- Strobes off, data bus released, idle levels restored (R215). -/
  | terminate
  /-- Every pin is driven to its idle level outside a cycle (40_contract.md R152, R153). -/
  | idlePins
deriving DecidableEq, Repr

/-- One entry of the signal-level record, the MODEL's own (assumption 3): an action, with the phase the FSM is
in and the host mask as they stand at that point. -/
structure Activity where
  phase : Phase
  hostMask : Bool
  act : Action
deriving DecidableEq, Repr

end Sys2Proof.Machine
end

