-- ==== Sys2Proof/Config.lean ====
section
/-! DEFINITION. The configuration record `Cfg` (00_scope.md R11 to R25), the descriptor tables (30_encoding.md R130 to R133), and the opaque constants that stand for what the spec leaves open. -/

namespace Sys2Proof.Machine

/-- A ROM region descriptor (30_encoding.md R130). `bankSwitch` says whether the region has the callback; what
the callback answers is the Board's (10_state.md R45, R46). -/
structure RomRegion where
  bankSwitch : Bool
  start : Word
  length : Nat
  samples : List Datum
  crc32 : Word
  label : String
deriving DecidableEq, Repr

/-- A RAM region descriptor (30_encoding.md R131); `last` is the spec's field `end`. -/
structure RamRegion where
  bankSwitch : Bool
  start : Word
  last : Word
  step : Nat
  mask : Datum
  label : String
deriving DecidableEq, Repr

/-- An Input descriptor (30_encoding.md R132). -/
structure InputEntry where
  bankSwitch : Bool
  address : Word
  mask : Datum
  label : String
deriving DecidableEq, Repr

/-- An Output descriptor (30_encoding.md R133). -/
structure OutputEntry where
  bankSwitch : Bool
  address : Word
  activeMask : Datum
  invertMask : Datum
  label : String
deriving DecidableEq, Repr

/-- The CRC-32 primitive (00_scope.md R24): the default, or another one the Orchestrator supplies. -/
inductive CrcPrimitive where
  | ieee
  | external (id : Nat)
deriving DecidableEq, Repr

/-- The march-test generator (00_scope.md R25): the default of 43_ram_check.md R281, or another one. -/
inductive Generator where
  | lcg
  | external (id : Nat)
deriving DecidableEq, Repr

/-- How many output half-cycles a clock-master engine generates in each of the phases 1 to 4
(41_bus_engine.md R206, an OPEN family parameter). -/
structure HalfCycles where
  p1 : Nat
  p2 : Nat
  p3 : Nat
  p4 : Nat
deriving DecidableEq, Repr

/-- The configuration record (00_scope.md R11 to R25), as plain data. A parameter that is a function of the
family is held at the instance's own family. A function over a finite domain is held as a table
(assumptions 16, 18 and 19). -/
structure Cfg where
  /-- `family` (R11). -/
  family : Family
  /-- `clockMaster` (R12). -/
  clockMaster : Bool
  /-- `CLOCK_MASTER_FAMILIES` (R20). -/
  clockMasterFamilies : List Family
  /-- `PHYS_ADDR_BITS` (R13). -/
  physAddrBits : Nat
  /-- `DATA_BUS_BYTES` (R14). -/
  busWidth : Width
  /-- `BYTE_ORDER` (R15). -/
  byteOrder : ByteOrder
  /-- `HAS_IO_SPACE` (R16). -/
  hasIoSpace : Bool
  /-- `LINES` (R17). -/
  lines : List Line
  /-- The lines for which `LINE_ACTIVE_LOW` holds (R17). -/
  linesActiveLow : List Line
  /-- `ACK_KIND` (R18). -/
  ackKind : AckKind
  /-- `NO_ACK_VALUE` (R18). -/
  noAckValue : Byte
  /-- `AUTOVECTOR_VALUE`, by level (R18). -/
  autovector : Vector Byte 8
  /-- `ACK_ADDR`, by level; entry 0 where the family has no level (41_bus_engine.md R230, R234). -/
  ackAddr : Vector PhysAddr 8
  /-- `POLL_LIMIT` (R19). -/
  pollLimit : Nat
  /-- `SYNC_LIMIT` (R19). -/
  syncLimit : Nat
  /-- `WAIT_SYNC_LIMIT` (R19). -/
  waitSyncLimit : Nat
  /-- `VSYNC_LIMIT` (R19). -/
  vsyncLimit : Nat
  /-- `CLOCK_CHECK_LIMIT` (R19). -/
  clockCheckLimit : Nat
  /-- `SAMPLES` (R19), as the steps of a monotone function with value 1 at 0 (assumption 18). -/
  sampleSteps : List (Nat × Nat)
  /-- `IDLE_CLOCK_LEVEL` by phase; its length is `CLOCK_PHASES` (R20). -/
  idleClockLevel : List Bool
  /-- `nextPhase` (R20), as a table from the recorded levels and the input sample (assumption 16). -/
  nextPhase : List ((List Bool × Bool) × Nat)
  /-- The half-cycle counts (41_bus_engine.md R206). -/
  halfCycles : HalfCycles
  /-- `HOST_MASK_SPAN` (R21). -/
  hostMaskSpan : Bool
  /-- `LATCH_BYTES` (R21). -/
  latchBytes : Nat
  /-- `LATCH_ORDER` (41_bus_engine.md R209). -/
  latchOrder : List Nat
  /-- `ACK_SIGNAL` (R21). -/
  ackSignal : AckSignal
  /-- `CHECK_ITEMS` (R21). -/
  checkItems : List CheckItem
  /-- `HAS_BLANKING` (R21). -/
  hasBlanking : Bool
  /-- `HAS_VSYNC` (R21). -/
  hasVsync : Bool
  /-- `ROM_TABLE` (R22). -/
  romTable : List RomRegion
  /-- `RAM_TABLE` (R22). -/
  ramTable : List RamRegion
  /-- `INPUT_TABLE` (R22). -/
  inputTable : List InputEntry
  /-- `OUTPUT_TABLE` (R22). -/
  outputTable : List OutputEntry
  /-- `addressRemap` (R23), where configured, as a table from its arguments `ctx` and address; what it does not list
  stays (assumption 19). -/
  addressRemap : Option (List ((Raw × Word) × Word))
  /-- `dataRemap` (R23), where configured, as a table from its arguments `ctx`, address and datum; what it does not
  list stays (assumption 19). -/
  dataRemap : Option (List ((Raw × Word × Datum) × Datum))
  /-- The CRC-32 primitive (R24). -/
  crc : CrcPrimitive
  /-- The march generator (R25). -/
  prng : Generator
deriving DecidableEq, Repr

end Sys2Proof.Machine

namespace Sys2Proof.Config

/-- The Board oracle (00_scope.md R26) once the supplied answers are used up: a FREE VALUE for every question,
for every configuration and after every history of commands and signal-level activity (assumption 2). The `ctx` of a
remap call is such a question too (R23, assumption 19). -/
opaque boardAnswer : Machine.Cfg → Nat → List Machine.Activity → Machine.Query → Raw

/-- `crc32Update` of another CRC-32 primitive, by its number (00_scope.md R24). -/
opaque crc32Update : Nat → Word → Byte → Word

/-- `CRC_INIT` of another CRC-32 primitive (00_scope.md R24). -/
opaque crcInit : Nat → Word

/-- `crcFinal` of another CRC-32 primitive (00_scope.md R24). -/
opaque crcFinal : Nat → Word → Word

/-- `prngNext` of another march generator (00_scope.md R25). -/
opaque prngNext : Nat → Word → Word

/-- `prngValue` of another march generator (00_scope.md R25). -/
opaque prngValue : Nat → Word → Nat → Datum

end Sys2Proof.Config
end

