-- ==== Sys2Proof/Machine/Operands.lean ====
section
/-! DEFINITION. Everything computed from the configuration and the operands alone: the address word, address validation, lanes, line numbers, wait bounds, remap tables, region geometry, the march pattern and the CRC feed. -/

namespace Sys2Proof.Machine

/-! ### Widths and data -/

/-- A width as a number of bytes. -/
def Width.bytes : Width → Nat
  | .one => 1
  | .two => 2

/-- `v[8w-1:0]`, zero-extended: a datum cut to an access width (00_scope.md R27, R28). -/
def Width.cut : Width → Datum → Datum
  | .one, d => (d.extractLsb' 0 8).zeroExtend 16
  | .two, d => d

/-- `~v` at width `w` bytes (00_scope.md R27): `v ^ (2^(8w) - 1)`. -/
def Width.invert (w : Width) (d : Datum) : Datum := d ^^^ w.cut (BitVec.allOnes 16)

/-! ### The logical address word (30_encoding.md R112) -/

/-- The field `A`, bits 23:0. -/
def addrField (la : Word) : PhysAddr := la.extractLsb' 0 24

/-- The selector bits 31:24, which cell arithmetic never changes (30_encoding.md R113). -/
def selectors (la : Word) : Byte := la.extractLsb' 24 8

/-- Bit 24: I/O space. -/
def ioBit (la : Word) : Bool := la.getLsbD 24

/-- Bit 25: wait space. -/
def wsBit (la : Word) : Bool := la.getLsbD 25

/-- Bit 26: an 8-bit lane access on a 16-bit bus. -/
def blBit (la : Word) : Bool := la.getLsbD 26

/-- Bit 27: video-sync space. -/
def vsBit (la : Word) : Bool := la.getLsbD 27

/-- Bits 31:28, reserved (20_memory.md R86). -/
def reservedField (la : Word) : BitVec 4 := la.extractLsb' 28 4

/-- The low `PHYS_ADDR_BITS` bits of an address: the only ones driven (20_memory.md R76). -/
def Cfg.drivenBits (c : Cfg) (a : PhysAddr) : PhysAddr :=
  BitVec.ofNat 24 (a.toNat % 2 ^ c.physAddrBits)

/-- `dataBusWidth` (20_memory.md R77): the same for every address. -/
def Cfg.dataBusWidth (c : Cfg) (_la : Word) : Width := c.busWidth

/-- `dataAccessWidth` (20_memory.md R77). -/
def Cfg.dataAccessWidth (c : Cfg) (la : Word) : Width :=
  match c.busWidth with
  | .one => .one
  | .two => if blBit la then .one else .two

/-- `laneOf` (20_memory.md R103). -/
def laneOf : ByteOrder → Bool → Lane
  | .big, false => .high
  | .big, true => .low
  | .little, false => .low
  | .little, true => .high

/-- What address validation hands to the cycle latch (20_memory.md R104). -/
structure Access where
  space : Space
  pre : PrePhase
  paddr : PhysAddr
  w : Width
  lane : Lane
deriving DecidableEq, Repr

/-- The fields of the cycle latch for an address that passed validation (20_memory.md R104, last lines). -/
def Cfg.accessOf (c : Cfg) (la : Word) : Access where
  space := if ioBit la then .io else .mem
  pre := if wsBit la then .waitSpace else if vsBit la then .vsync else .none
  paddr := c.drivenBits (addrField la)
  w := c.dataAccessWidth la
  lane :=
    match c.busWidth with
    | .one => .low
    | .two => if c.dataAccessWidth la = .two then .both else laneOf c.byteOrder (la.getLsbD 0)

/-- `decodeAddr` (20_memory.md R104): the checks in the order written, the first that fails reported. -/
def Cfg.decodeAddr (c : Cfg) (la : Word) : Except Info Access :=
  if reservedField la ≠ 0 then .error .reservedAddressBits
  else if wsBit la && vsBit la then .error .reservedAddressBits
  else if ioBit la && !c.hasIoSpace then .error .noIoSpace
  else if wsBit la && !c.hasBlanking then .error .noBlanking
  else if vsBit la && !c.hasVsync then .error .noVsync
  else if blBit la && decide (c.busWidth = .one) then .error .noLanes
  else if decide (c.busWidth = .two) && decide (c.dataAccessWidth la = .two) && la.getLsbD 0 then
    .error .misaligned
  else .ok (c.accessOf la)

/-! ### Lines, wait bounds and clock phases -/

/-- The line an `IDX` operand names (30_encoding.md R117): 0 to 7 are IRQ0 to IRQ7, 8 is NMI. -/
def lineOfIndex (idx : Byte) : Option Line :=
  if h : idx.toNat < 8 then some (.irq ⟨idx.toNat, h⟩)
  else if idx = 8 then some .nmi
  else none

/-- The line an `IDX` operand names on this family, if `LINES(family)` has it (30_encoding.md R117). -/
def Cfg.lineAt (c : Cfg) (idx : Byte) : Option Line :=
  match lineOfIndex idx with
  | some l => if l ∈ c.lines then some l else none
  | none => none

/-- The electrical level of a line at a logical level (00_scope.md R17). -/
def Cfg.electrical (c : Cfg) (l : Line) (logical : Bool) : Bool :=
  if l ∈ c.linesActiveLow then !logical else logical

/-- `SAMPLES` (00_scope.md R19): 1 at timeout 0, and a step up at each listed timeout above 0. Every monotone
function with `SAMPLES(0) = 1` on the 32-bit timeouts is one of these (assumption 18). -/
def Cfg.samples (c : Cfg) (timeout : Word) : Nat :=
  1 + (c.sampleSteps.map fun p => if 0 < p.1 ∧ p.1 ≤ timeout.toNat then p.2 else 0).sum

/-- `CLOCK_PHASES` (00_scope.md R20). -/
def Cfg.clockPhases (c : Cfg) : Nat := c.idleClockLevel.length

/-- `nextPhase` (00_scope.md R20, 41_bus_engine.md R206); phase 0 where the table lists nothing. -/
def Cfg.nextPhaseOf (c : Cfg) (levels : List Bool) (input : Bool) : Nat :=
  (c.nextPhase.lookup (levels, input)).getD 0

/-! ### Remap callbacks (00_scope.md R23, 20_memory.md R92, R93) -/

/-- `addressRemap(ctx, addrIn)`, where configured (R23, R92). -/
def Cfg.remapped (c : Cfg) (ctx : Raw) (la : Word) : Word :=
  match c.addressRemap with
  | none => la
  | some table => (table.lookup (ctx, la)).getD la

/-- `dataRemap(ctx, addr, dataIn)`, where configured; `la` is the address before address remap (R23, R93). -/
def Cfg.remappedData (c : Cfg) (ctx : Raw) (la : Word) (d : Datum) : Datum :=
  match c.dataRemap with
  | none => d
  | some table => (table.lookup (ctx, la, d)).getD d

/-! ### Region geometry -/

/-- `stride = step × dataBusWidth(start)` (42_rom_check.md R253). -/
def Cfg.stride (c : Cfg) (start : Word) (step : Nat) : Nat := step * (c.dataBusWidth start).bytes

/-- `cell(i)` (42_rom_check.md R253): the selectors of the start, and `A` moved by `i` strides. -/
def cellAddr (start : Word) (stride i : Nat) : Word :=
  selectors start ++ BitVec.ofNat 24 ((addrField start).toNat + i * stride)

/-- `K(length)` (30_encoding.md R136): how many `k` have `2^k < length`. -/
def sampleCount (length : Nat) : Nat := if length ≤ 1 then 0 else Nat.log2 (length - 1) + 1

/-- A region as its sequencer walks it: first cell, stride, number of cells, access width. -/
structure Geometry where
  start : Word
  stride : Nat
  count : Nat
  w : Width
deriving DecidableEq, Repr

/-- Cell `i` of a region. -/
def Geometry.cell (g : Geometry) (i : Nat) : Word := cellAddr g.start g.stride i

/-- The cells of a ROM region (42_rom_check.md R256). -/
def Cfg.romGeometry (c : Cfg) (r : RomRegion) : Geometry where
  start := r.start
  stride := c.stride r.start 1
  count := r.length
  w := c.dataAccessWidth r.start

/-- The cells of a RAM region (43_ram_check.md R280). -/
def Cfg.ramGeometry (c : Cfg) (r : RamRegion) : Geometry where
  start := r.start
  stride := c.stride r.start r.step
  count := ((addrField r.last).toNat - (addrField r.start).toNat) / c.stride r.start r.step + 1
  w := c.dataAccessWidth r.start

/-- `samples[k][8w-1:0]` (42_rom_check.md R257). -/
def Cfg.romSample (c : Cfg) (r : RomRegion) (k : Nat) : Datum :=
  (c.dataAccessWidth r.start).cut (r.samples.getD k 0)

/-- The compare mask `m = mask[8w-1:0]` of a RAM region (43_ram_check.md R280). -/
def Cfg.ramMask (c : Cfg) (r : RamRegion) : Datum := (c.dataAccessWidth r.start).cut r.mask

/-- `Pset` (43_ram_check.md R286): cell 0 and every power of two below the number of cells, ascending. -/
def boundaryCells (count : Nat) : List Nat := 0 :: (List.range (sampleCount count)).map (2 ^ ·)

/-- `outValue` (44_io_interrupt_check.md R322). -/
def Cfg.outValue (c : Cfg) (e : OutputEntry) (active : Bool) : Datum :=
  (c.dataAccessWidth e.address).cut ((if active then e.activeMask else 0) ^^^ e.invertMask)

/-! ### The march generator (43_ram_check.md R281, R282) -/

/-- `prngNext`. -/
def Generator.next : Generator → Word → Word
  | .lcg, s => 1664525 * s + 1013904223
  | .external id, s => Config.prngNext id s

/-- `prngValue`. -/
def Generator.value : Generator → Word → Width → Datum
  | .lcg, s, w => w.cut (s.extractLsb' 16 16)
  | .external id, s, w => Config.prngValue id s w.bytes

/-- The generator state `s_n` reached from a seed after `n` steps (43_ram_check.md R282). -/
def Generator.after (g : Generator) (seed : Word) : Nat → Word
  | 0 => seed
  | n + 1 => g.next (g.after seed n)

/-- `pat(seed, w)[i] = prngValue(s_{i+1}, w)` (43_ram_check.md R282). -/
def Generator.pattern (g : Generator) (seed : Word) (w : Width) (i : Nat) : Datum :=
  g.value (g.after seed (i + 1)) w

/-! ### CRC-32 (00_scope.md R24, 42_rom_check.md R260) -/

/-- `n` shift steps of the reflected IEEE CRC-32. -/
def crcShift : Nat → Word → Word
  | 0, c => c
  | n + 1, c => crcShift n (if c.getLsbD 0 then (c >>> 1) ^^^ 0xEDB88320#32 else c >>> 1)

/-- `crc32Update`. -/
def CrcPrimitive.update : CrcPrimitive → Word → Byte → Word
  | .ieee, c, b => crcShift 8 (c ^^^ b.zeroExtend 32)
  | .external id, c, b => Config.crc32Update id c b

/-- `CRC_INIT`. -/
def CrcPrimitive.init : CrcPrimitive → Word
  | .ieee => 0xFFFFFFFF
  | .external id => Config.crcInit id

/-- `crcFinal`. -/
def CrcPrimitive.final : CrcPrimitive → Word → Word
  | .ieee, c => c ^^^ 0xFFFFFFFF
  | .external id, c => Config.crcFinal id c

/-- `feed` (42_rom_check.md R260): one byte, or two bytes in ascending byte-address order. -/
def Cfg.feed (c : Cfg) (crc : Word) (d : Datum) (w : Width) : Word :=
  let lo : Byte := d.extractLsb' 0 8
  let hi : Byte := d.extractLsb' 8 8
  match w, c.byteOrder with
  | .one, _ => c.crc.update crc lo
  | .two, .big => c.crc.update (c.crc.update crc hi) lo
  | .two, .little => c.crc.update (c.crc.update crc lo) hi

end Sys2Proof.Machine
end

