-- ==== Sys2Proof/WellFormed.lean ====
section
/-! DEFINITION. Well-formedness. A command's operands are held at the widths of their frame fields, so every term of `Instr` is well-formed. What can be ill-formed is the configuration an Orchestrator supplies: the checks of 30_encoding.md R135 and 00_scope.md R12, R19, R20, made at construction (70_reset_and_hazards.md R390). -/

namespace Sys2Proof.Machine

/-- The address word passes validation: `decodeAddr` raises nothing on it (30_encoding.md R135 item 3). -/
def Cfg.legalAddress (c : Cfg) (la : Word) : Bool :=
  match c.decodeAddr la with
  | .ok _ => true
  | .error _ => false

/-- R135 items 2 and 3 for a ROM region. -/
def RomRegion.wf (c : Cfg) (r : RomRegion) : Bool :=
  decide (1 ≤ r.length)
    && decide ((addrField r.start).toNat + (r.length - 1) * c.stride r.start 1 < 2 ^ 24)
    && decide (r.samples.length = sampleCount r.length)
    && c.legalAddress r.start

/-- R135 items 1 and 3 for a RAM region. -/
def RamRegion.wf (c : Cfg) (r : RamRegion) : Bool :=
  decide (r.start ≤ r.last)
    && decide (1 ≤ r.step)
    && decide (selectors r.start = selectors r.last)
    && c.legalAddress r.start

/-- R12: the clock-master variant is for the clock-master families only. -/
def Cfg.clockMasterLegal (c : Cfg) : Bool := !c.clockMaster || decide (c.family ∈ c.clockMasterFamilies)

/-- R20: `CLOCK_MASTER_FAMILIES` is a set of exactly two tags. -/
def Cfg.twoClockMasters (c : Cfg) : Bool :=
  decide (c.clockMasterFamilies.length = 2) && decide c.clockMasterFamilies.Nodup

/-- R19: every wait bound is at least 1. -/
def Cfg.boundsPositive (c : Cfg) : Bool :=
  decide (1 ≤ c.pollLimit) && decide (1 ≤ c.syncLimit) && decide (1 ≤ c.waitSyncLimit)
    && decide (1 ≤ c.vsyncLimit) && decide (1 ≤ c.clockCheckLimit)

/-- R112 and 20_memory.md R76: selector bits are never driven as address, so at most the 24 bits of `A` are
(DEDUCED, assumption 22). -/
def Cfg.addressFits (c : Cfg) : Bool := decide (c.physAddrBits ≤ 24)

/-- 41_bus_engine.md R209: where the address is latched, every byte of it is latched exactly once
(DEDUCED, assumption 22). -/
def Cfg.latchComplete (c : Cfg) : Bool :=
  decide (c.latchBytes = 0 ∨ c.latchBytes = (c.physAddrBits + 7) / 8)
    && decide (c.latchOrder.length = c.latchBytes)
    && decide c.latchOrder.Nodup
    && c.latchOrder.all fun k => decide (k < c.latchBytes)

/-- 00_scope.md R20: `nextPhase` names an output clock phase (DEDUCED, assumption 22). -/
def Cfg.phasesExist (c : Cfg) : Bool :=
  (!c.clockMaster || decide (1 ≤ c.clockPhases))
    && c.nextPhase.all fun e => decide (e.2 < c.clockPhases)

/-- R135 item 4: IDX can name every entry. -/
def Cfg.tablesFit (c : Cfg) : Bool :=
  decide (c.romTable.length ≤ 256) && decide (c.ramTable.length ≤ 256)
    && decide (c.inputTable.length ≤ 256) && decide (c.outputTable.length ≤ 256)

/-- R135 items 1 to 3, over every descriptor. -/
def Cfg.descriptorsLegal (c : Cfg) : Bool :=
  c.romTable.all (RomRegion.wf c) && c.ramTable.all (RamRegion.wf c)
    && c.inputTable.all (fun e => c.legalAddress e.address)
    && c.outputTable.all (fun e => c.legalAddress e.address)

/-- The configuration passes every check made at construction (70_reset_and_hazards.md R390). -/
def Cfg.wf (c : Cfg) : Bool :=
  c.clockMasterLegal && c.twoClockMasters && c.boundsPositive && c.addressFits && c.latchComplete
    && c.phasesExist && c.tablesFit && c.descriptorsLegal

/-- A smallest well-formed configuration. It only shows that one exists; no definition of the machine uses it. -/
def Cfg.smallest : Cfg where
  family := .z80
  clockMaster := false
  clockMasterFamilies := [.m6502, .cdp1802]
  physAddrBits := 16
  busWidth := .one
  byteOrder := .little
  hasIoSpace := true
  lines := []
  linesActiveLow := []
  ackKind := .none
  noAckValue := 0
  autovector := Vector.replicate 8 0
  ackAddr := Vector.replicate 8 0
  pollLimit := 1
  syncLimit := 1
  waitSyncLimit := 1
  vsyncLimit := 1
  clockCheckLimit := 1
  sampleSteps := []
  idleClockLevel := []
  nextPhase := []
  halfCycles := ⟨0, 0, 0, 0⟩
  hostMaskSpan := true
  latchBytes := 0
  latchOrder := []
  ackSignal := .none
  checkItems := []
  hasBlanking := false
  hasVsync := false
  romTable := []
  ramTable := []
  inputTable := []
  outputTable := []
  addressRemap := none
  dataRemap := none
  crc := .ieee
  prng := .lcg

/-- A configuration with the proof that it passed construction. -/
structure WfCfg where
  cfg : Cfg := Cfg.smallest
  wf : cfg.wf = true := by decide
deriving Inhabited

end Sys2Proof.Machine

namespace Sys2Proof.Config

/-- The configuration the Orchestrator supplies (10_state.md R49): a FREE VALUE, of which only its
well-formedness is known (assumption 1). -/
opaque supplied : Machine.WfCfg

end Sys2Proof.Config
end

