-- ==== Sys2Proof/Machine/State.lean ====
section
/-! DEFINITION. The machine's state as plain data (spec 10_state.md), the reasons a step can stop, and the state after reset (70_reset_and_hazards.md R390, R391). -/

namespace Sys2Proof.Machine

/-- The state of the GPIO pins (10_state.md R33). -/
inductive Pins where
  /-- Before the first IDLE: unspecified, and read by no rule. -/
  | unknown
  /-- Every pin at its safe default. -/
  | idle
  /-- A bus cycle drives the pins. -/
  | active
  /-- A failed CHECK left this item's pin for probing. -/
  | holding (item : CheckItem)
deriving DecidableEq, Repr

/-- The cycle latch (10_state.md R39). -/
structure CycleLatch where
  kind : CycleKind
  space : Space
  pre : PrePhase
  paddr : PhysAddr
  w : Width
  lane : Lane
  wdata : Datum
  rdata : Datum
deriving DecidableEq, Repr

/-- The sequencers' working registers (10_state.md R40). -/
structure Work where
  ridx : Byte
  i : Word
  pass : BitVec 2
  la : Word
  expv : Datum
  actv : Datum
  crc : Word
  rng : Word
  step : BitVec 2
deriving DecidableEq, Repr

/-- The result record (30_encoding.md R119). -/
structure Result where
  code : Code
  info : Info
  addr : Word
  expected : Word
  actual : Word
  value : Word
  table : TableTag
  index : Byte
  step : BitVec 2
  pin : Option CheckItem
deriving DecidableEq, Repr

/-- A refusal mark (30_encoding.md R115, 60_exceptions.md R373): which command was refused, and why. -/
structure RefusalMark where
  pc : Nat
  info : Info
deriving DecidableEq, Repr

/-- The machine's state. `cfg`, `program` and `script` are what the Orchestrator and the Board supply;
`booted`, `marks` and `activity` are the model's own (assumptions 1, 2, 3, 6, 8 and 10). -/
structure State where
  /-- The configuration (R31): no command writes it. -/
  cfg : Cfg
  /-- The command list (30_encoding.md R110): no command writes it. -/
  program : List Frame
  /-- The Board's supplied answers, the next one first. -/
  script : List Raw
  /-- R36. -/
  pc : Nat
  /-- R32. -/
  idled : Bool
  /-- Whether any IDLE has run since construction (40_contract.md R152). -/
  booted : Bool
  /-- R33. -/
  pins : Pins
  /-- R34. -/
  clk : List Bool
  /-- R35. -/
  hostMask : Bool
  /-- R37. -/
  phase : Phase
  /-- R38. -/
  polls : Nat
  /-- R39. -/
  latch : CycleLatch
  /-- R40. -/
  work : Work
  /-- R42. -/
  result : Result
  /-- The result records so far, oldest first (70_reset_and_hazards.md R403). -/
  results : List Result
  /-- R47. -/
  trace : List Event
  /-- The signal-level record. -/
  activity : List Activity
  /-- The refusal marks, oldest first. -/
  marks : List RefusalMark
deriving DecidableEq, Repr

/-- Why the machine stops. -/
inductive Fault where
  /-- Raised by `step` where no command stands at `pc`: the run has ended (70_reset_and_hazards.md R403). Safe. -/
  | runEnded
deriving DecidableEq, Repr

/-- Why the model gives no next state. -/
inductive Refusal where
  /-- Raised by an arm of `exec` whose command has no meaning yet; no arm raises it. Safe. -/
  | notModelled (mnemonic : String)
  /-- Raised by `State.construct` on a configuration that fails a check (70_reset_and_hazards.md R390). Safe. -/
  | illFormedConfig
deriving DecidableEq, Repr

/-- The latch before any cycle: unspecified, DESIGN CHOICE zeros (assumption 5). -/
def CycleLatch.blank : CycleLatch := ⟨.read, .mem, .none, 0, .one, .low, 0, 0⟩

/-- The working registers before any sequencer: unspecified, DESIGN CHOICE zeros (assumption 5). -/
def Work.blank : Work := ⟨0, 0, 0, 0, 0, 0, 0, 0, 0⟩

/-- The record `{code = Success}`, every other field 0 (30_encoding.md R119). It is also the DESIGN CHOICE for
`result` before the first command (assumption 5). -/
def Result.blank : Result := ⟨.success, .none, 0, 0, 0, 0, .none, 0, 0, none⟩

/-- The state right after an instance is constructed (10_state.md R49, 70_reset_and_hazards.md R391) from a
configuration, a command list and the Board's supplied answers. -/
def State.initial (cfg : Cfg) (program : List Frame) (script : List Raw) : State where
  cfg := cfg
  program := program
  script := script
  pc := 0
  idled := false
  booted := false
  pins := .unknown
  clk := if cfg.clockMaster then List.replicate cfg.clockPhases false else []
  hostMask := false
  phase := .idle
  polls := 0
  latch := CycleLatch.blank
  work := Work.blank
  result := Result.blank
  results := []
  trace := []
  activity := []
  marks := []

/-- The machine right after reset: an instance of the configuration the Orchestrator supplied, with no command
listed yet (assumptions 1, 5 and 8). -/
def State.reset : State := State.initial Config.supplied.cfg [] []

end Sys2Proof.Machine
end

