-- ==== Sys2Proof/Machine/Flags.lean ====
section
/-! DEFINITION. The result record and its codes, the core's only flags beside hostMask and idled (10_state.md R43): the numbers of 30_encoding.md R119 and R120, the records the rules raise, and the masked compare. -/

namespace Sys2Proof.Machine

/-- The number of a result code (30_encoding.md R119). -/
def Code.number : Code → BitVec 3
  | .success => 0
  | .timeout => 1
  | .mismatch => 2
  | .unimplemented => 3
  | .unexpected => 4

/-- The number of a reason (30_encoding.md R120). -/
def Info.number : Info → Byte
  | .none => 0
  | .ackTimeout => 1
  | .syncTimeout => 2
  | .waitSpaceTimeout => 3
  | .vsyncTimeout => 4
  | .lineTimeout => 5
  | .dataMismatch => 6
  | .crcMismatch => 7
  | .pinMismatch => 8
  | .vectorMismatch => 9
  | .reservedAddressBits => 10
  | .noIoSpace => 11
  | .noBlanking => 12
  | .noVsync => 13
  | .noLanes => 14
  | .misaligned => 15
  | .noSuchLine => 16
  | .noVector => 17
  | .indexRange => 18
  | .illegalCommand => 19
  | .lineStillActive => 20
  | .bankSwitchFailed => 21
  | .notIdled => 22

/-- The number of a table tag (30_encoding.md R119). -/
def TableTag.number : TableTag → BitVec 3
  | .none => 0
  | .rom => 1
  | .ram => 2
  | .input => 3
  | .output => 4
  | .line => 5

/-- `{code = Success}` with a returned value (30_encoding.md R119). -/
def Result.value32 (v : Word) : Result := { Result.blank with value := v }

/-- `{code, info}`, every other field 0 (`raise E(info)`, 00_scope.md R27). -/
def Result.error (code : Code) (info : Info) : Result := { Result.blank with code := code, info := info }

/-- Adds the address of the offending transaction (30_encoding.md R122). -/
def Result.atAddr (la : Word) (r : Result) : Result := { r with addr := la }

/-- Adds the table and index a result concerns (30_encoding.md R121). -/
def Result.inTable (table : TableTag) (index : Byte) (r : Result) : Result :=
  { r with table := table, index := index }

/-- Adds the failing step or pass (30_encoding.md R121). -/
def Result.atStep (step : BitVec 2) (r : Result) : Result := { r with step := step }

/-- A Mismatch with its expected and observed values (60_exceptions.md R352). -/
def Result.mismatch (info : Info) (expected actual : Word) : Result :=
  { Result.error .mismatch info with expected := expected, actual := actual }

/-- `raise Mismatch(DataMismatch, addr, expected, actual, table, index)` of a sequencer compare
(42_rom_check.md R258, 43_ram_check.md R283). -/
def Result.dataMismatch (la : Word) (expected actual : Datum) (table : TableTag) (index : Byte) : Result :=
  ((Result.mismatch .dataMismatch (expected.zeroExtend 32) (actual.zeroExtend 32)).atAddr la).inTable table index

/-- `raise Unimplemented(IndexRange, table, index)` (42_rom_check.md R255). -/
def Result.indexRange (table : TableTag) (index : Byte) : Result :=
  (Result.error .unimplemented .indexRange).inTable table index

/-- `raise Unimplemented(NoSuchLine, LINE, index)` (30_encoding.md R117). -/
def Result.noSuchLine (index : Byte) : Result :=
  (Result.error .unimplemented .noSuchLine).inTable .line index

/-- The masked compare of 43_ram_check.md R283: `(d & m) = (e & m)`. -/
def maskedEq (d e m : Datum) : Bool := decide (d &&& m = e &&& m)

/-! ### What the bits of a raw Board answer mean (assumption 2) -/

/-- A sampled level, or whether the edge was seen: bit 0. -/
def levelOf (raw : Raw) : Bool := raw.getLsbD 0

/-- The encoded priority level (60_exceptions.md R356, 41_bus_engine.md R234): bits 2:0. -/
def priorityOf (raw : Raw) : BitVec 3 := raw.extractLsb' 0 3

/-- The code a bank-switch callback returns (60_exceptions.md R374): bits 2:0, where 4 to 7 are Unexpected. -/
def codeOf (raw : Raw) : Code :=
  match (raw.extractLsb' 0 3).toNat with
  | 0 => .success
  | 1 => .timeout
  | 2 => .mismatch
  | 3 => .unimplemented
  | _ => .unexpected

/-- `accepts` and `which` (41_bus_engine.md R211): bit 0 is the family's own acknowledge line, bit 1 is VPA,
which only the M68000 and the `iack` acknowledge have. Where both are asserted, bit 2 of the answer says
which one the engine reports (assumption 13). -/
def Cfg.acceptOf (c : Cfg) (kind : CycleKind) (raw : Raw) : Option AckSeen :=
  let hasVpa := decide (c.family = .m68000) || (decide (kind = .ack) && decide (c.ackKind = .iack))
  let ready := raw.getLsbD 0
  let vpa := hasVpa && raw.getLsbD 1
  if ready && vpa then (if raw.getLsbD 2 then some .vpa else some .ready)
  else if ready then some .ready
  else if vpa then some .vpa
  else none

end Sys2Proof.Machine
end

