-- ==== Sys2Proof/Machine/Ops.lean ====
section
/-! DEFINITION. The shared operations over the state: asking the Board, recording, ending a command, trap entry (60_exceptions.md R362), refusal (R373), construction (70_reset_and_hazards.md R390) and the fetch of a command (30_encoding.md R110). -/

namespace Sys2Proof.Machine

/-- The outcome of a command or a step. -/
abbrev StepOutcome := Host.Outcome State Fault Refusal

/-- The outcome of a part of a command: it completes with a value, or it raises a result record
(`raise E(info)`, 00_scope.md R27). Either way it carries the state it left. -/
inductive Res (α : Type) where
  | ok (a : α) (s : State)
  | raise (r : Result) (s : State)

/-- Runs the next part only where the first did not raise: fail-fast (42_rom_check.md R265, 60_exceptions.md R361). -/
def Res.bind {α β : Type} (x : Res α) (f : α → State → Res β) : Res β :=
  match x with
  | .ok a s => f a s
  | .raise r s => .raise r s

/-- Adds fields to a raised record (30_encoding.md R121). -/
def Res.onRaise {α : Type} (x : Res α) (f : Result → Result) : Res α :=
  match x with
  | .ok a s => .ok a s
  | .raise r s => .raise (f r) s

/-- The state a part of a command left. -/
def Res.state {α : Type} : Res α → State
  | .ok _ s => s
  | .raise _ s => s

/-- Runs `body` on each element in order, stopping at the first that raises (00_scope.md R28). -/
def forEach {α : Type} (body : α → State → Res Unit) : List α → State → Res Unit
  | [], s => .ok () s
  | a :: as, s => (body a s).bind fun _ t => forEach body as t

/-! ### Recording, and asking the Board -/

/-- An action as the signal-level record keeps it: with the phase and the host mask of this state. -/
def State.recorded (s : State) (a : Action) : Activity := ⟨s.phase, s.hostMask, a⟩

/-- Appends actions to the signal-level record, in order. -/
def State.logAll (s : State) (as : List Action) : State := { s with activity := s.activity ++ as.map s.recorded }

/-- Appends one action to the signal-level record. -/
def State.log (s : State) (a : Action) : State := { s with activity := s.activity ++ [s.recorded a] }

/-- `emit(ev)` (00_scope.md R27). -/
def State.emit (s : State) (e : Event) : State := { s with trace := s.trace ++ [e] }

/-- What the Board answers to a question asked now (00_scope.md R26): the next supplied answer, else a free
value (assumption 2). -/
def State.reply (s : State) (q : Query) : Raw :=
  match s.script with
  | raw :: _ => raw
  | [] => Config.boardAnswer s.cfg s.pc s.activity q

/-- The state after a question was asked and answered. -/
def State.sampled (s : State) (q : Query) : State :=
  { s with script := s.script.tail, activity := s.activity ++ [s.recorded (.sample q (s.reply q))] }

/-! ### The end of a command -/

/-- Writes `result`, once per command (10_state.md R42), and appends it to the run's records. -/
def finish (r : Result) (s : State) : State := { s with result := r, results := s.results ++ [r] }

/-- The idle state of the engine (40_contract.md R160, 41_bus_engine.md R216). -/
def restoreIdle (s : State) : State := { s with pins := .idle, hostMask := false, phase := .idle }

/-- TRAP ENTRY (60_exceptions.md R362): the command ends at the failing point, idle is restored and `result`
is written. No state is saved, there is no handler and no return (R365). The pc advances as after every
command (10_state.md R36, `advance`). -/
def trapEntry (r : Result) (s : State) : State := finish r (restoreIdle s)

/-- Ends a command: its record where it completed, trap entry where it raised. -/
def complete : Res Result → State
  | .ok r s => finish r s
  | .raise r s => trapEntry r s

/-- Refuses a command (60_exceptions.md R373, 30_encoding.md R115): no bus activity, callback or sample; only
`result` is written, and a refusal mark kept. -/
def refuse (info : Info) (s : State) : State :=
  finish (Result.error .unimplemented info) { s with marks := s.marks ++ [⟨s.pc, info⟩] }

/-- The precondition of every command but IDLE (40_contract.md R151). -/
def guarded (s : State) (body : State → Res Result) : StepOutcome :=
  if s.idled then .next (complete (body s)) else .next (refuse .notIdled s)

/-! ### The run -/

/-- The command at the pc, if the list has one (10_state.md R36, 30_encoding.md R110). -/
def State.fetch (s : State) : Option Frame := s.program[s.pc]?

/-- `pc <- pc + 1` (10_state.md R36). -/
def advance (s : State) : State := { s with pc := s.pc + 1 }

/-- Construction of an instance (70_reset_and_hazards.md R390): a configuration that fails a check is refused. -/
def State.construct (cfg : Cfg) (program : List Frame) (script : List Raw) : StepOutcome :=
  if cfg.wf then .next (State.initial cfg program script) else .refused .illFormedConfig

end Sys2Proof.Machine
end

