-- ==== Sys2Proof/Machine/BusEngine.lean ====
section
/-! DEFINITION. The bus-cycle state machine, the interrupt-acknowledge FSMs, the line wait and the CHECK tests (spec 41_bus_engine.md, 40_contract.md R158, R161, R162). -/

namespace Sys2Proof.Machine

/-! ### Phases -/

/-- Enters one of the phases 0 to 4 of the FSM (10_state.md R37). The pins are Active in all of them (R33); that R202
assigns Active with the entry of P2 only, after P0 and P1, which drive no bus pin (R203, R205), is read as the same value
assigned again (DEDUCED, assumption 38). -/
def enterPhase (p : Phase) (s : State) : State := ({ s with phase := p, pins := .active }).log .enter

/-- Leaves the FSM: idle pins, no host mask, phase IDLE (41_bus_engine.md R216, R218). -/
def leaveCycle (s : State) : State := (restoreIdle s).log .enter

/-- Ends a cycle before phase 2 by a Timeout: idle, and no event (R216). -/
def quitEarly (info : Info) (s : State) : Res Unit := .raise (Result.error .timeout info) (leaveCycle s)

/-- Writes the cycle latch on entry to the FSM (R202, 10_state.md R39). Between cycles the latch is not live
(R39; 93_implementation_defined.md U6): that it then keeps the last cycle's fields, and that `rdata` keeps its
value until the next sample, is a DESIGN CHOICE (assumption 37). -/
def latchCycle (kind : CycleKind) (a : Access) (wdata : Datum) (s : State) : State :=
  { s with latch := ⟨kind, a.space, a.pre, a.paddr, a.w, a.lane, wdata, s.latch.rdata⟩ }

/-! ### Clock-master half-cycles (R206, R207) -/

/-- Drives an output clock phase and records its level. -/
def driveClock (p : Nat) (level : Bool) (s : State) : State :=
  ({ s with clk := s.clk.set p level }).log (.clock p level)

/-- One output half-cycle: sample the input clock, choose the phase, drive it to the other level. -/
def halfCycle (s : State) : State :=
  let p := s.cfg.nextPhaseOf s.clk (levelOf (s.reply .clockInput))
  if p < s.clk.length then driveClock p (!s.clk.getD p false) (s.sampled .clockInput)
  else s.sampled .clockInput

/-- `n` output half-cycles. -/
def halfCycles : Nat → State → State
  | 0, s => s
  | n + 1, s => halfCycles n (halfCycle s)

/-- The half-cycles of a phase, in the clock-master variant only. -/
def masterClocks (n : Nat) (s : State) : State := if s.cfg.clockMaster then halfCycles n s else s

/-! ### P0: wait space and video sync (R203, R204) -/

/-- The poll loop of `PreSync`: at most `k` more polls for the toggle from active to inactive. -/
def preSyncLoop (q : Query) : Nat → Bool → State → Bool × State
  | 0, _, s => (false, s)
  | k + 1, prev, s =>
    if prev && !levelOf (s.reply q) then (true, { s.sampled q with polls := s.polls + 1 })
    else preSyncLoop q k (levelOf (s.reply q)) { s.sampled q with polls := s.polls + 1 }

/-- `PreSync(sig, limit, why)` (R203). -/
def preSync (q : Query) (limit : Nat) (why : Info) (s : State) : Res Unit :=
  match preSyncLoop q limit (levelOf (s.reply q)) { s.sampled q with polls := 0 } with
  | (true, t) => .ok () t
  | (false, t) => quitEarly why t

/-- P0, where the latch asks for it (R202). -/
def prePhase (s : State) : Res Unit :=
  match s.latch.pre with
  | .none => .ok () s
  | .waitSpace => preSync .blanking s.cfg.waitSyncLimit .waitSpaceTimeout (enterPhase .p0 s)
  | .vsync => preSync .vsyncInput s.cfg.vsyncLimit .vsyncTimeout (enterPhase .p0 s)

/-! ### P1: synchronize (R205, R206) -/

/-- The free-running poll for the defining clock edge: at most `k` more polls. -/
def edgeLoop : Nat → State → Bool × State
  | 0, s => (false, s)
  | k + 1, s =>
    if levelOf (s.reply .clockEdge) then (true, { s.sampled .clockEdge with polls := s.polls + 1 })
    else edgeLoop k { s.sampled .clockEdge with polls := s.polls + 1 }

/-- Waits for the clock edge (R205). -/
def waitEdge (s : State) : Res Unit :=
  match edgeLoop s.cfg.syncLimit { s with polls := 0 } with
  | (true, t) => .ok () t
  | (false, t) => quitEarly .syncTimeout t

/-- P1. -/
def synchronize (s : State) : Res Unit :=
  if s.cfg.clockMaster then .ok () (halfCycles s.cfg.halfCycles.p1 s) else waitEdge s

/-! ### P2: assert address and status (R208 to R210, R217) -/

/-- Byte `k` of an address, byte 0 the lowest. -/
def addressByte (a : PhysAddr) (k : Nat) : Byte := a.extractLsb' (8 * k) 8

/-- The actions that assert an address: one step, or its bytes in `LATCH_ORDER` (R208, R209). -/
def Cfg.addressActs (c : Cfg) (a : PhysAddr) : List Action :=
  if c.latchBytes = 0 then [.address a] else c.latchOrder.map fun k => .latchByte k (addressByte a k)

/-- Drives the address in one step, or latches its bytes (R208, R209). -/
def assertAddress (s : State) : State := s.logAll (s.cfg.addressActs s.latch.paddr)

/-- The status flags (R210): the memory/IO flag on a family that has it, which is one with I/O space (20_memory.md R73;
DEDUCED, assumption 39), and the lane selects on a 16-bit bus. -/
def Cfg.statusFlags (c : Cfg) (kind : CycleKind) (space : Space) (lane : Lane) : Action :=
  .status (decide (kind = .write)) (if c.hasIoSpace then some space else none) (decide (kind = .ack))
    (if c.busWidth = .two then some lane else none)

/-- Drives the status flags (R210). -/
def assertStatus (s : State) : State := s.log (s.cfg.statusFlags s.latch.kind s.latch.space s.latch.lane)

/-- Entry to P2: the pins are Active, and the host mask is set where it spans P2 to P4 (R202, R217). -/
def openCycle (s : State) : State := enterPhase .p2 { s with hostMask := s.cfg.hostMaskSpan || s.hostMask }

/-- P2. -/
def phase2 (s : State) : State := assertStatus (assertAddress (masterClocks s.cfg.halfCycles.p2 (openCycle s)))

/-! ### P3: strobe and wait (R211, R212) -/

/-- Asserts the request strobes. -/
def assertStrobes (s : State) : State := s.log (.strobes s.latch.kind s.latch.space s.latch.lane)

/-- The acknowledge poll: at most `k` more polls. -/
def ackLoop (kind : CycleKind) : Nat → State → Option AckSeen × State
  | 0, s => (none, s)
  | k + 1, s =>
    match s.cfg.acceptOf kind (s.reply (.ackInputs kind)) with
    | some seen => (some seen, s.sampled (.ackInputs kind))
    | none => ackLoop kind k { s.sampled (.ackInputs kind) with polls := s.polls + 1 }

/-- `Terminate()` (R215): strobes off, data bus released, idle levels. -/
def terminate (s : State) : State := ({ s with pins := .idle }).log .terminate

/-- The exit by an acknowledge timeout (R211, R221): idle, and an `Abort` event. -/
def abortCycle (s : State) : State :=
  (leaveCycle (terminate s)).emit
    (.abort s.latch.kind s.latch.space s.latch.paddr s.latch.w s.latch.lane .p3)

/-- `WaitAck` (R211), or the fixed strobe width of a family without an acknowledge line (R212). -/
def waitAck (s : State) : Res AckSeen :=
  match s.cfg.ackSignal with
  | .none => .ok .unpolled s
  | .line =>
    match ackLoop s.latch.kind s.cfg.pollLimit { s with polls := 0 } with
    | (some seen, t) => .ok seen t
    | (none, t) => .raise (Result.error .timeout .ackTimeout) (abortCycle t)

/-- P3. -/
def phase3 (s : State) : Res AckSeen :=
  waitAck (assertStrobes (masterClocks s.cfg.halfCycles.p3 (enterPhase .p3 s)))

/-! ### P4: transfer and terminate (R213 to R215) -/

/-- The datum of a lane of the data bus (R213). -/
def sampledDatum (lane : Lane) (bus : Datum) : Datum :=
  match lane with
  | .both => bus
  | .low => (bus.extractLsb' 0 8).zeroExtend 16
  | .high => (bus.extractLsb' 8 8).zeroExtend 16

/-- The value on `D15..D0` when a datum is driven on a lane and `other` is on the unused lane (R214,
20_memory.md R81). -/
def drivenBus (lane : Lane) (d : Datum) (other : Byte) : Datum :=
  match lane with
  | .both => d
  | .low => other ++ d.extractLsb' 0 8
  | .high => (d.extractLsb' 0 8 : Byte) ++ other

/-- `DriveData(lane, wdata)` (R214). On a width-1 cycle of a 16-bit bus the unused lane is an unspecified
value, a draw from the Board oracle that the record keeps (20_memory.md R81). -/
def driveData (s : State) : State :=
  if s.cfg.busWidth = .two ∧ s.latch.w = .one then
    (s.sampled .unusedLane).log
      (.driveData s.latch.lane (drivenBus s.latch.lane s.latch.wdata ((s.reply .unusedLane).extractLsb' 0 8)))
  else s.log (.driveData s.latch.lane s.latch.wdata)

/-- `SampleData(lane, w)` (R213): the state with the sampled datum in the latch. -/
def sampleData (s : State) : State :=
  { s.sampled .dataPins with
    latch := { s.latch with rdata := sampledDatum s.latch.lane (s.reply .dataPins) } }

/-- The datum of a read or acknowledge cycle: what was sampled, or the autovector where VPA answered an
`iack` acknowledge (R213, R234). -/
def cycleDatum (autovector : Option Byte) (seen : AckSeen) (sampled : Datum) : Datum :=
  match autovector, seen with
  | some v, .vpa => v.zeroExtend 16
  | _, _ => sampled

/-- The end of a completed cycle (R202, R215, R218, R220). -/
def closeCycle (d : Datum) (s : State) : State :=
  (leaveCycle (terminate s)).emit (.cyc s.latch.kind s.latch.space s.latch.paddr s.latch.w s.latch.lane d)

/-- P4. -/
def phase4 (autovector : Option Byte) (seen : AckSeen) (s : State) : Res Datum :=
  let t := masterClocks s.cfg.halfCycles.p4 (enterPhase .p4 s)
  if t.latch.kind = .write then .ok t.latch.wdata (closeCycle t.latch.wdata (driveData t))
  else
    let u := sampleData t
    let d := cycleDatum autovector seen u.latch.rdata
    .ok d (closeCycle d u)

/-- `BusCycle` (R202): the whole FSM. It gives the datum, or raises a Timeout. -/
def busCycle (kind : CycleKind) (a : Access) (wdata : Datum) (autovector : Option Byte) (s : State) : Res Datum :=
  (prePhase (latchCycle kind a wdata s)).bind fun _ s1 =>
    (synchronize (enterPhase .p1 s1)).bind fun _ s2 =>
      (phase3 (phase2 s2)).bind fun seen s3 => phase4 autovector seen s3

/-! ### Interrupt acknowledge (R230 to R235) -/

/-- One acknowledge cycle (R230): the vector is `D7..D0`. -/
def ackCycle (addr : PhysAddr) (autovector : Option Byte) (s : State) : Res Byte :=
  (busCycle .ack ⟨.mem, .none, s.cfg.drivenBits addr, .one, .low⟩ 0 autovector s).bind fun d t =>
    .ok (d.extractLsb' 0 8) t

/-- `ACK_ADDR` at a level (R230, R234). -/
def Cfg.ackAddrAt (c : Cfg) (level : BitVec 3) : PhysAddr := c.ackAddr[level.toNat]'(by have := level.isLt; omega)

/-- `AUTOVECTOR_VALUE` at a level (00_scope.md R18). -/
def Cfg.autovectorAt (c : Cfg) (level : BitVec 3) : Byte := c.autovector[level.toNat]'(by have := level.isLt; omega)

/-- `AckFSM` (R230 to R234); a family without an acknowledge cycle gives its fixed value (R231). -/
def ackFsm (s : State) : Res Byte :=
  match s.cfg.ackKind with
  | .none => .ok s.cfg.noAckValue s
  | .single => ackCycle (s.cfg.ackAddrAt 0) none s
  | .double => (ackCycle (s.cfg.ackAddrAt 0) none s).bind fun _ t => ackCycle (t.cfg.ackAddrAt 0) none t
  | .iack =>
    let level := priorityOf (s.reply .priorityLevel)
    ackCycle (s.cfg.ackAddrAt level) (some (s.cfg.autovectorAt level)) (s.sampled .priorityLevel)

/-! ### Waiting for an interrupt line (40_contract.md R158, 60_exceptions.md R356, R357) -/

/-- What is sampled for a line: the encoded priority level on the M68000, else the line itself. -/
def lineQuery (c : Cfg) (l : Line) : Query :=
  match c.family, l with
  | .m68000, .irq _ => .priorityLevel
  | _, _ => .line l

/-- The logical level of a line in an answer; on the M68000 line IRQn is active when the level equals n (R356). -/
def lineLevelOf (c : Cfg) (l : Line) (raw : Raw) : Bool :=
  match c.family, l with
  | .m68000, .irq n => decide ((priorityOf raw).toNat = n.val)
  | _, _ => levelOf raw

/-- The logical level a sample of a line gives now. -/
def State.lineNow (s : State) (l : Line) : Bool := lineLevelOf s.cfg l (s.reply (lineQuery s.cfg l))

/-- The state after one sample of a line, counted as a poll. -/
def State.lineSampled (s : State) (l : Line) : State :=
  { (s.sampled (lineQuery s.cfg l)).log (.lineLevel l (s.lineNow l) (s.cfg.electrical l (s.lineNow l))) with
    polls := s.polls + 1 }

/-- At most `k` more samples, until one is at `level`. -/
def waitLoop (l : Line) (level : Bool) : Nat → State → Bool × State
  | 0, s => (false, s)
  | k + 1, s =>
    if s.lineNow l = level then (true, s.lineSampled l) else waitLoop l level k (s.lineSampled l)

/-- The body of WINT (40_contract.md R158): `SAMPLES(timeout)` samples at most, from poll 0. -/
def waitLine (l : Line) (level : Bool) (timeout : Word) (s : State) : Bool × State :=
  waitLoop l level (s.cfg.samples timeout) { s with polls := 0 }

/-! ### The tests of CHECK (40_contract.md R161, R162) -/

/-- The expected logical level of an item other than the clock (R161). -/
def CheckItem.expected : CheckItem → Bool
  | .vcc => true
  | .gnd => false
  | .reset => false
  | .pause => false
  | .addr _ => true
  | .data _ => true
  | .clock => true

/-- The levels of the clock input seen so far (R162). -/
inductive ClockSeen where
  | nothing
  | only (level : Bool)
  | both
deriving DecidableEq, Repr

/-- One more sample of the clock input. -/
def ClockSeen.add : ClockSeen → Bool → ClockSeen
  | .nothing, l => .only l
  | .only k, l => if k = l then .only k else .both
  | .both, _ => .both

/-- At most `k` more samples of the clock input, until both levels were seen (R162). -/
def clockLoop : Nat → ClockSeen → State → ClockSeen × State
  | 0, seen, s => (seen, s)
  | k + 1, seen, s =>
    if seen.add (levelOf (s.reply .clockInput)) = .both then (.both, s.sampled .clockInput)
    else clockLoop k (seen.add (levelOf (s.reply .clockInput))) (s.sampled .clockInput)

/-- A level as the number a record reports. -/
def levelWord (l : Bool) : Word := (BitVec.ofBool l).zeroExtend 32

/-- What a failed item reports. -/
structure PinFailure where
  item : CheckItem
  expected : Word
  actual : Word
deriving DecidableEq, Repr

/-- How the clock item ended: nothing to report, or `expected = 2` and the one level seen (R162). -/
def clockFailure : ClockSeen → Option PinFailure
  | .both => none
  | .only l => some ⟨.clock, 2, levelWord l⟩
  | .nothing => some ⟨.clock, 2, 0⟩

/-- How an item other than the clock ended at a sampled level (R161). -/
def pinFailure (item : CheckItem) (level : Bool) : Option PinFailure :=
  if level = item.expected then none else some ⟨item, levelWord item.expected, levelWord level⟩

/-- `testItem(item)` (R161, R162). -/
def testItem (item : CheckItem) (s : State) : Option PinFailure × State :=
  match item with
  | .clock =>
    match clockLoop s.cfg.clockCheckLimit .nothing s with
    | (seen, t) => (clockFailure seen, t)
  | other => (pinFailure other (levelOf (s.reply (.pin other))), s.sampled (.pin other))

/-- The items in order, stopping at the first that fails (40_contract.md R153). -/
def testItems : List CheckItem → State → Option PinFailure × State
  | [], s => (none, s)
  | item :: rest, s =>
    match testItem item s with
    | (some f, t) => (some f, t)
    | (none, t) => testItems rest t

end Sys2Proof.Machine
end

