-- ==== Sys2Proof/Machine/Contract.lean ====
section
/-! DEFINITION. The eight CPU Contract commands: IDLE, CHECK, BUSW, ACCW, MRD, MWR, WINT, IACK (spec 40_contract.md R150 to R162). -/

namespace Sys2Proof.Machine

/-- Drives every output clock phase to its idle level, in ascending phase order (R152). -/
def driveIdleClocks (s : State) : State :=
  State.logAll { s with clk := s.cfg.idleClockLevel } (s.cfg.idleClockLevel.zipIdx.map fun e => .clock e.2 e.1)

/-- The pins and flags IDLE leaves (R152). -/
def idleState (s : State) : State :=
  let t := (restoreIdle s).log .idlePins
  let u := if t.cfg.clockMaster && !t.booted then driveIdleClocks t else t
  { u with idled := true, booted := true }

/-- IDLE (R152): legal in every state. -/
def execIdle (s : State) : StepOutcome := .next (finish Result.blank (idleState s))

/-- The record of a failed CHECK (R153, 60_exceptions.md R352). -/
def pinMismatch (f : PinFailure) : Result :=
  { Result.mismatch .pinMismatch f.expected f.actual with pin := some f.item }

/-- A failed CHECK (60_exceptions.md R363): the item is held for probing and the next command must be IDLE. -/
def holdPin (f : PinFailure) (s : State) : State :=
  finish (pinMismatch f) { s with pins := .holding f.item, idled := false }

/-- The end of CHECK (R153). -/
def checkEnd : Option PinFailure × State → State
  | (none, t) => finish Result.blank (({ t with pins := .idle }).log .idlePins)
  | (some f, t) => holdPin f t

/-- CHECK (R153). -/
def execCheck (s : State) : StepOutcome :=
  if s.idled then .next (checkEnd (testItems s.cfg.checkItems s)) else .next (refuse .notIdled s)

/-- A width as the number BUSW and ACCW return. -/
def widthWord (w : Width) : Word := BitVec.ofNat 32 w.bytes

/-- BUSW (R154): the address is not validated. -/
def execBusw (addr : Word) (s : State) : StepOutcome :=
  guarded s fun t => .ok (Result.value32 (widthWord (t.cfg.dataBusWidth addr))) t

/-- ACCW (R155): the address is not validated. -/
def execAccw (addr : Word) (s : State) : StepOutcome :=
  guarded s fun t => .ok (Result.value32 (widthWord (t.cfg.dataAccessWidth addr))) t

/-- One validated cycle of a direct Contract command, whose failures carry the command's address and to
which no remap applies (R156, R157, 20_memory.md R94, 30_encoding.md R122). -/
def directCycle (kind : CycleKind) (addr : Word) (wdata : Access → Datum) (s : State) : Res Datum :=
  match s.cfg.decodeAddr addr with
  | .error e => .raise ((Result.error .unimplemented e).atAddr addr) s
  | .ok a => (busCycle kind a (wdata a) none s).onRaise (Result.atAddr addr)

/-- MRD (R156). -/
def execMrd (addr : Word) (s : State) : StepOutcome :=
  guarded s fun t => (directCycle .read addr (fun _ => 0) t).bind fun d u => .ok (Result.value32 (d.zeroExtend 32)) u

/-- MWR (R157): at width 1 only `Y[7:0]` is driven. -/
def execMwr (addr : Word) (data : Datum) (s : State) : StepOutcome :=
  guarded s fun t => (directCycle .write addr (fun a => a.w.cut data) t).bind fun _ u => .ok Result.blank u

/-- The record of a line that reached the level (R158). -/
def lineFound (idx : Byte) : Result := Result.blank.inTable .line idx

/-- The record of a line that did not (R158). -/
def lineTimeout (idx : Byte) : Result := (Result.error .timeout .lineTimeout).inTable .line idx

/-- WINT (R158). -/
def execWint (idx : Byte) (level : Bool) (timeout : Word) (s : State) : StepOutcome :=
  guarded s fun t =>
    match t.cfg.lineAt idx with
    | none => .raise (Result.noSuchLine idx) t
    | some l =>
      match waitLine l level timeout t with
      | (true, u) => .ok (lineFound idx) u
      | (false, u) => .raise (lineTimeout idx) u

/-- IACK (R159). -/
def execIack (s : State) : StepOutcome :=
  guarded s fun t => (ackFsm t).bind fun v u => .ok (Result.value32 (v.zeroExtend 32)) u

end Sys2Proof.Machine
end

