-- ==== Sys2Proof/Machine/Sequencer.lean ====
section
/-! DEFINITION. The primitives every diagnostic sequencer shares: the working registers, the remapped access path, bank switching and full-set walks (spec 10_state.md R40, 42_rom_check.md R250 to R255). -/

namespace Sys2Proof.Machine

/-! ### The working registers (10_state.md R40) -/

/-- Names the current cell: region index, cell index and logical address. -/
def setCell (r : Byte) (i : Nat) (la : Word) (s : State) : State :=
  { s with work := { s.work with ridx := r, i := BitVec.ofNat 32 i, la := la } }

/-- Writes `la`. -/
def setLa (la : Word) (s : State) : State := { s with work := { s.work with la := la } }

/-- Writes `expv`. -/
def setExpected (v : Datum) (s : State) : State := { s with work := { s.work with expv := v } }

/-- Writes `actv`. -/
def setActual (v : Datum) (s : State) : State := { s with work := { s.work with actv := v } }

/-- Writes `crc`. -/
def setCrc (v : Word) (s : State) : State := { s with work := { s.work with crc := v } }

/-- Writes `rng`. -/
def setRng (v : Word) (s : State) : State := { s with work := { s.work with rng := v } }

/-- Writes `pass`. -/
def setPass (v : BitVec 2) (s : State) : State := { s with work := { s.work with pass := v } }

/-- Writes `step`. -/
def setStep (v : BitVec 2) (s : State) : State := { s with work := { s.work with step := v } }

/-! ### The access path (R250, R251) -/

/-- The fields a sequencer adds to a raised record: the address before remap, the table and the index
(30_encoding.md R121, R122). -/
def locate (la : Word) (table : TableTag) (r : Byte) (x : Result) : Result := (x.atAddr la).inTable table r

/-- Calls `addressRemap(ctx, la)`, where configured, and records it (R250, 10_state.md R47). The spec does not say
what `ctx` carries: it is a FREE VALUE, another one at each call (DESIGN CHOICE, assumption 19). -/
def callAddressRemap (la : Word) (table : TableTag) (r : Byte) (s : State) : Word × State :=
  match s.cfg.addressRemap with
  | none => (la, s)
  | some _ =>
    let q := Query.addressContext table r
    let out := s.cfg.remapped (s.reply q) la
    (out, (s.sampled q).emit (.aremap la out))

/-- Calls `dataRemap(ctx, la, d)`, where configured, and records it (R250, R251, 10_state.md R47). Its `ctx` is a FREE
VALUE like that of `addressRemap` (DESIGN CHOICE, assumption 19). -/
def callDataRemap (la : Word) (d : Datum) (table : TableTag) (r : Byte) (s : State) : Datum × State :=
  match s.cfg.dataRemap with
  | none => (d, s)
  | some _ =>
    let q := Query.dataContext table r
    let out := s.cfg.remappedData (s.reply q) la d
    (out, (s.sampled q).emit (.dremap la d out))

/-- `SeqRead(la, tbl, r)` (R250). -/
def seqRead (la : Word) (table : TableTag) (r : Byte) (s : State) : Res Datum :=
  let x := callAddressRemap la table r s
  match s.cfg.decodeAddr x.1 with
  | .error e => .raise (locate la table r (Result.error .unimplemented e)) x.2
  | .ok a =>
    ((busCycle .read a 0 none x.2).onRaise (locate la table r)).bind fun d t =>
      let y := callDataRemap la d table r t
      .ok (a.w.cut y.1) y.2

/-- `SeqWrite(la, v, tbl, r)` (R251): the data remap comes before validation and the cycle. -/
def seqWrite (la : Word) (v : Datum) (table : TableTag) (r : Byte) (s : State) : Res Unit :=
  let x := callAddressRemap la table r s
  let y := callDataRemap la v table r x.2
  match s.cfg.decodeAddr x.1 with
  | .error e => .raise (locate la table r (Result.error .unimplemented e)) y.2
  | .ok a => ((busCycle .write a (a.w.cut y.1) none y.2).onRaise (locate la table r)).bind fun _ t => .ok () t

/-- The record of a failed bank switch (60_exceptions.md R374): the callback's code. -/
def bankFailure (code : Code) (table : TableTag) (r : Byte) : Result :=
  (Result.error code .bankSwitchFailed).inTable table r

/-- `CallBank(tbl, r)` (R252). -/
def callBank (table : TableTag) (r : Byte) (hasBank : Bool) (s : State) : Res Unit :=
  if hasBank then
    let q := Query.bankResult table r
    let t := s.emit (.bank table r)
    match codeOf (t.reply q) with
    | .success => .ok () (t.sampled q)
    | code => .raise (bankFailure code table r) (t.sampled q)
  else .ok () s

/-- Runs `pass` on every entry of a table in ascending index order, stopping at the first failure (R254). -/
def fullSet {α : Type} (table : List α) (pass : Byte → α → State → Res Unit) (s : State) : Res Unit :=
  forEach (fun (e : α × Nat) => pass (BitVec.ofNat 8 e.2) e.1) table.zipIdx s

/-- Runs `pass` on the entry an index names, or raises IndexRange with no activity (R255). -/
def oneOf {α β : Type} (table : List α) (tag : TableTag) (idx : Byte) (pass : α → State → Res β) (s : State) : Res β :=
  match table[idx.toNat]? with
  | none => .raise (Result.indexRange tag idx) s
  | some e => pass e s

end Sys2Proof.Machine
end

