-- ==== Sys2Proof/Machine/IoCheck.lean ====
section
/-! DEFINITION. IoCheck and the Interrupt check: IOIN, IOOUT, INTCHK (spec 44_io_interrupt_check.md R320 to R324). -/

namespace Sys2Proof.Machine

/-- The masked value an input reports: `d & mask[8w-1:0]` (R320). -/
def Cfg.inputValue (c : Cfg) (e : InputEntry) (d : Datum) : Datum :=
  d &&& (c.dataAccessWidth e.address).cut e.mask

/-- The body of IOIN on one entry (R320). -/
def inputEntry (idx : Byte) (e : InputEntry) (s : State) : Res Datum :=
  (callBank .input idx e.bankSwitch s).bind fun _ t =>
    (seqRead e.address .input idx (setLa e.address t)).bind fun d u => .ok (u.cfg.inputValue e d) (setActual d u)

/-- IOIN (R320). -/
def execIoin (idx : Byte) (s : State) : StepOutcome :=
  guarded s fun t =>
    (oneOf t.cfg.inputTable .input idx (inputEntry idx) t).bind fun v u =>
      .ok ((Result.value32 (v.zeroExtend 32)).inTable .input idx) u

/-- The body of IOOUT on one entry (R321). -/
def outputEntry (idx : Byte) (active : Bool) (e : OutputEntry) (s : State) : Res Unit :=
  (callBank .output idx e.bankSwitch s).bind fun _ t =>
    let v := t.cfg.outValue e active
    seqWrite e.address v .output idx (setExpected v (setLa e.address t))

/-- IOOUT (R321). -/
def execIoout (idx : Byte) (active : Bool) (s : State) : StepOutcome :=
  guarded s fun t =>
    (oneOf t.cfg.outputTable .output idx (outputEntry idx active) t).bind fun _ u =>
      .ok (Result.blank.inTable .output idx) u

/-- The fields INTCHK adds to a raised record (R323, 30_encoding.md R121). -/
def atLineStep (idx : Byte) (step : BitVec 2) (x : Result) : Result := (x.inTable .line idx).atStep step

/-- Step 2 of INTCHK: the optional acknowledge and the vector compare (R323). -/
def vectorStep (idx : Byte) (extVec : Bool) (vector : Byte) (s : State) : Res Byte :=
  if extVec then
    if s.cfg.ackKind = .none then .raise (atLineStep idx 2 (Result.error .unimplemented .noVector)) s
    else
      ((ackFsm s).onRaise (atLineStep idx 2)).bind fun v t =>
        if v = vector then .ok v t
        else
          .raise (atLineStep idx 2 (Result.mismatch .vectorMismatch (vector.zeroExtend 32) (v.zeroExtend 32))) t
  else .ok 0 s

/-- Step 3 of INTCHK: one sample, which must find the line inactive (R323, R405). -/
def clearStep (idx : Byte) (l : Line) (v : Byte) (s : State) : Res Result :=
  match waitLine l true 0 s with
  | (true, t) => .raise (atLineStep idx 3 (Result.error .unexpected .lineStillActive)) t
  | (false, t) => .ok ((Result.value32 (v.zeroExtend 32)).inTable .line idx) t

/-- The three steps of INTCHK on a line the family has (R323). -/
def interruptSteps (idx : Byte) (l : Line) (extVec : Bool) (timeout : Word) (vector : Byte) (s : State) : Res Result :=
  match waitLine l true timeout (setStep 1 s) with
  | (false, t) => .raise (atLineStep idx 1 (Result.error .timeout .lineTimeout)) t
  | (true, t) => (vectorStep idx extVec vector (setStep 2 t)).bind fun v u => clearStep idx l v (setStep 3 u)

/-- INTCHK (R323). -/
def execIntchk (idx : Byte) (extVec : Bool) (timeout : Word) (vector : Byte) (s : State) : StepOutcome :=
  guarded s fun t =>
    match t.cfg.lineAt idx with
    | none => .raise ((Result.noSuchLine idx).atStep 1) t
    | some l => interruptSteps idx l extVec timeout vector t

end Sys2Proof.Machine
end

