-- ==== Sys2Proof/Machine/RamCheck.lean ====
section
/-! DEFINITION. The five RamCheck commands: RAMMARCH, RAMCS, RAMADDR, RAMFILL, RAMREAD (spec 43_ram_check.md R280 to R288). -/

namespace Sys2Proof.Machine

/-- The next value of the pattern, regenerated from `rng` and never stored (R282): as it is, or inverted. -/
def patternValue (c : Cfg) (w : Width) (inverted : Bool) (rng : Word) : Datum :=
  let v := c.prng.value (c.prng.next rng) w
  if inverted then w.invert v else v

/-- Names cell `i` and steps the generator for it (R282). -/
def patternCell (r : Byte) (g : Geometry) (inverted : Bool) (i : Nat) (s : State) : State :=
  setExpected (patternValue s.cfg g.w inverted s.work.rng)
    (setRng (s.cfg.prng.next s.work.rng) (setCell r i (g.cell i) s))

/-- Writes the pattern's next value to cell `i` (R284, R285). -/
def patternWriteStep (r : Byte) (g : Geometry) (inverted : Bool) (i : Nat) (s : State) : Res Unit :=
  let t := patternCell r g inverted i s
  seqWrite (g.cell i) t.work.expv .ram r t

/-- The masked compare of a cell, with the pass or 0 as the failing step (R283, R284). -/
def compareCell (r : Byte) (la : Word) (m : Datum) (step : BitVec 2) (e d : Datum) (s : State) : Res Unit :=
  if maskedEq d e m then .ok () (setActual d s)
  else .raise ((Result.dataMismatch la (e &&& m) (d &&& m) .ram r).atStep step) (setActual d s)

/-- Reads cell `i` back against the pattern's next value (R284, R285). -/
def patternReadStep (r : Byte) (g : Geometry) (m : Datum) (inverted : Bool) (step : BitVec 2) (i : Nat) (s : State) :
    Res Unit :=
  let t := patternCell r g inverted i s
  (seqRead (g.cell i) .ram r t).bind fun d u => compareCell r (g.cell i) m step t.work.expv d u

/-- Writes the pattern of a seed to every cell. -/
def writePattern (r : Byte) (g : Geometry) (inverted : Bool) (seed : Word) (s : State) : Res Unit :=
  forEach (patternWriteStep r g inverted) (List.range g.count) (setRng seed s)

/-- Reads every cell back against the pattern of a seed. -/
def verifyPattern (r : Byte) (g : Geometry) (m : Datum) (inverted : Bool) (step : BitVec 2) (seed : Word) (s : State) :
    Res Unit :=
  forEach (patternReadStep r g m inverted step) (List.range g.count) (setRng seed s)

/-- One pass of the march: the whole region written, then the whole region read (R284). -/
def marchPass (r : Byte) (g : Geometry) (m : Datum) (seed : Word) (pass : BitVec 2) (inverted : Bool) (s : State) :
    Res Unit :=
  (writePattern r g inverted seed (setPass pass s)).bind fun _ t => verifyPattern r g m inverted pass seed t

/-- The body of RAMMARCH on one region (R284). -/
def marchRegion (r : Byte) (seed : Word) (ram : RamRegion) (s : State) : Res Unit :=
  let g := s.cfg.ramGeometry ram
  let m := s.cfg.ramMask ram
  (callBank .ram r ram.bankSwitch s).bind fun _ t =>
    (marchPass r g m seed 1 false t).bind fun _ u => marchPass r g m seed 2 true u

/-- The record of a RAM command that completed on a region (R284, R286 to R288). -/
def ramResult (idx : Byte) : Result := Result.blank.inTable .ram idx

/-- RAMMARCH (R284). -/
def execRammarch (idx : Byte) (seed : Word) (s : State) : StepOutcome :=
  guarded s fun t =>
    (oneOf t.cfg.ramTable .ram idx (marchRegion idx seed) t).bind fun _ u => .ok (ramResult idx) u

/-- The seed of region `r` in the chip-select test: `seed + r`, modulo `2^32` (R285). -/
def regionSeed (seed : Word) (r : Byte) : Word := seed + r.zeroExtend 32

/-- The write phase of the chip-select test on one region (R285). -/
def crossWrite (seed : Word) (r : Byte) (ram : RamRegion) (s : State) : Res Unit :=
  let g := s.cfg.ramGeometry ram
  (callBank .ram r ram.bankSwitch s).bind fun _ t => writePattern r g false (regionSeed seed r) t

/-- The verify phase of the chip-select test on one region (R285). -/
def crossVerify (seed : Word) (r : Byte) (ram : RamRegion) (s : State) : Res Unit :=
  let g := s.cfg.ramGeometry ram
  let m := s.cfg.ramMask ram
  (callBank .ram r ram.bankSwitch s).bind fun _ t => verifyPattern r g m false 0 (regionSeed seed r) t

/-- RAMCS (R285): every region written, then every region read back. -/
def execRamcs (seed : Word) (s : State) : StepOutcome :=
  guarded s fun t =>
    (fullSet t.cfg.ramTable (crossWrite seed) t).bind fun _ u =>
      (fullSet u.cfg.ramTable (crossVerify seed) u).bind fun _ v => .ok (Result.blank.inTable .ram 0) v

/-- Writes a fixed value to cell `i`. -/
def fixedWriteStep (r : Byte) (g : Geometry) (v : Datum) (i : Nat) (s : State) : Res Unit :=
  seqWrite (g.cell i) v .ram r (setExpected v (setCell r i (g.cell i) s))

/-- Reads boundary cell `q` while cell `j` holds the mask and the others 0 (R286). -/
def boundaryReadStep (r : Byte) (g : Geometry) (m : Datum) (j q : Nat) (s : State) : Res Unit :=
  let e : Datum := if q = j then m else 0
  (seqRead (g.cell q) .ram r (setExpected e (setCell r q (g.cell q) s))).bind fun d t =>
    if d &&& m = e then .ok () (setActual d t)
    else .raise (Result.dataMismatch (g.cell q) e (d &&& m) .ram r) (setActual d t)

/-- One turn of the address-line walk: cell `j` written with the mask, all boundary cells read, cell `j`
cleared (R286). -/
def boundaryStep (r : Byte) (g : Geometry) (m : Datum) (j : Nat) (s : State) : Res Unit :=
  (fixedWriteStep r g m j s).bind fun _ t =>
    (forEach (boundaryReadStep r g m j) (boundaryCells g.count) t).bind fun _ u => fixedWriteStep r g 0 j u

/-- The body of RAMADDR on one region (R286). -/
def boundaryRegion (r : Byte) (ram : RamRegion) (s : State) : Res Unit :=
  let g := s.cfg.ramGeometry ram
  let m := s.cfg.ramMask ram
  (callBank .ram r ram.bankSwitch s).bind fun _ t =>
    (forEach (fixedWriteStep r g 0) (boundaryCells g.count) t).bind fun _ u =>
      forEach (boundaryStep r g m) (boundaryCells g.count) u

/-- RAMADDR (R286). -/
def execRamaddr (idx : Byte) (s : State) : StepOutcome :=
  guarded s fun t =>
    (oneOf t.cfg.ramTable .ram idx (boundaryRegion idx) t).bind fun _ u => .ok (ramResult idx) u

/-- The body of RAMFILL on one region: the mask is not applied (R287). -/
def fillRegion (r : Byte) (value : Datum) (ram : RamRegion) (s : State) : Res Unit :=
  let g := s.cfg.ramGeometry ram
  (callBank .ram r ram.bankSwitch s).bind fun _ t =>
    forEach (fixedWriteStep r g (g.w.cut value)) (List.range g.count) t

/-- RAMFILL (R287). -/
def execRamfill (idx : Byte) (value : Datum) (s : State) : StepOutcome :=
  guarded s fun t =>
    (oneOf t.cfg.ramTable .ram idx (fillRegion idx value) t).bind fun _ u => .ok (ramResult idx) u

/-- Reads cell `i` and discards the value (R288). -/
def ramRawStep (r : Byte) (g : Geometry) (i : Nat) (s : State) : Res Unit :=
  (seqRead (g.cell i) .ram r (setCell r i (g.cell i) s)).bind fun _ t => .ok () t

/-- The body of RAMREAD on one region (R288). -/
def readRegion (r : Byte) (ram : RamRegion) (s : State) : Res Unit :=
  let g := s.cfg.ramGeometry ram
  (callBank .ram r ram.bankSwitch s).bind fun _ t => forEach (ramRawStep r g) (List.range g.count) t

/-- RAMREAD (R288). -/
def execRamread (idx : Byte) (s : State) : StepOutcome :=
  guarded s fun t =>
    (oneOf t.cfg.ramTable .ram idx (readRegion idx) t).bind fun _ u => .ok (ramResult idx) u

end Sys2Proof.Machine
end

