-- ==== Sys2Proof/Machine/RomCheck.lean ====
section
/-! DEFINITION. The four RomCheck commands: ROMALL, ROMCHK, ROMRAW, ROMCRC (spec 42_rom_check.md R256 to R264). -/

namespace Sys2Proof.Machine

/-- One sample of a ROM region: cell `2^k` against `samples[k]` (R257, R258). -/
def romSampleStep (r : Byte) (rom : RomRegion) (k : Nat) (s : State) : Res Unit :=
  let la := (s.cfg.romGeometry rom).cell (2 ^ k)
  let e := s.cfg.romSample rom k
  (seqRead la .rom r (setExpected e (setCell r (2 ^ k) la s))).bind fun d t =>
    if d = e then .ok () (setActual d t) else .raise (Result.dataMismatch la e d .rom r) (setActual d t)

/-- `SamplePass(r)` (R258). -/
def samplePass (r : Byte) (rom : RomRegion) (s : State) : Res Unit :=
  (callBank .rom r rom.bankSwitch s).bind fun _ t =>
    forEach (romSampleStep r rom) (List.range (sampleCount rom.length)) t

/-- One cell of a ROM region read into the running CRC (R259, R260). -/
def romCrcStep (r : Byte) (rom : RomRegion) (i : Nat) (s : State) : Res Unit :=
  let g := s.cfg.romGeometry rom
  (seqRead (g.cell i) .rom r (setCell r i (g.cell i) s)).bind fun d t =>
    .ok () (setCrc (t.cfg.feed t.work.crc d g.w) t)

/-- The record of a CRC that differs (R259, 60_exceptions.md R352). -/
def crcMismatch (r : Byte) (rom : RomRegion) (f : Word) : Result :=
  ((Result.mismatch .crcMismatch rom.crc32 f).atAddr rom.start).inTable .rom r

/-- `CrcPass(r, compare)` (R259): the computed CRC. -/
def crcPass (r : Byte) (rom : RomRegion) (compare : Bool) (s : State) : Res Word :=
  (callBank .rom r rom.bankSwitch s).bind fun _ t =>
    (forEach (romCrcStep r rom) (List.range rom.length) (setCrc t.cfg.crc.init t)).bind fun _ u =>
      if compare && decide (u.cfg.crc.final u.work.crc ≠ rom.crc32) then
        .raise (crcMismatch r rom (u.cfg.crc.final u.work.crc)) u
      else .ok (u.cfg.crc.final u.work.crc) u

/-- One cell of a ROM region read and discarded (R263). -/
def romRawStep (r : Byte) (rom : RomRegion) (i : Nat) (s : State) : Res Unit :=
  let la := (s.cfg.romGeometry rom).cell i
  (seqRead la .rom r (setCell r i la s)).bind fun _ t => .ok () t

/-- The raw read of one region (R263). -/
def rawPass (r : Byte) (rom : RomRegion) (s : State) : Res Unit :=
  (callBank .rom r rom.bankSwitch s).bind fun _ t => forEach (romRawStep r rom) (List.range rom.length) t

/-- The record of a captured or confirmed CRC (R261, R264). -/
def romResult (idx : Byte) (f : Word) : Result := (Result.value32 f).inTable .rom idx

/-- ROMALL (R262). -/
def execRomall (s : State) : StepOutcome :=
  guarded s fun t =>
    (fullSet t.cfg.romTable (fun r rom u =>
      (samplePass r rom u).bind fun _ v => (crcPass r rom true v).bind fun _ w => .ok () w) t).bind
      fun _ u => .ok Result.blank u

/-- ROMCHK (R261). -/
def execRomchk (idx : Byte) (s : State) : StepOutcome :=
  guarded s fun t =>
    (oneOf t.cfg.romTable .rom idx (fun rom u =>
      (samplePass idx rom u).bind fun _ v => crcPass idx rom true v) t).bind fun f u => .ok (romResult idx f) u

/-- ROMRAW (R263). -/
def execRomraw (s : State) : StepOutcome :=
  guarded s fun t => (fullSet t.cfg.romTable rawPass t).bind fun _ u => .ok Result.blank u

/-- ROMCRC (R264). -/
def execRomcrc (idx : Byte) (s : State) : StepOutcome :=
  guarded s fun t =>
    (oneOf t.cfg.romTable .rom idx (fun rom => crcPass idx rom false) t).bind fun f u => .ok (romResult idx f) u

end Sys2Proof.Machine
end

