-- ==== Sys2Proof/Machine/Dispatch.lean ====
section
/-! DEFINITION. One arm per command (spec 30_encoding.md R114), each a direct call of the command's meaning. -/

namespace Sys2Proof.Machine

def exec (i : Instr) (s : State) : Host.Outcome State Fault Refusal :=
  match i with
  | .idle => Sys2Proof.Machine.execIdle s
  | .check => Sys2Proof.Machine.execCheck s
  | .busw addr => Sys2Proof.Machine.execBusw addr s
  | .accw addr => Sys2Proof.Machine.execAccw addr s
  | .mrd addr => Sys2Proof.Machine.execMrd addr s
  | .mwr addr data => Sys2Proof.Machine.execMwr addr data s
  | .wint line level timeout => Sys2Proof.Machine.execWint line level timeout s
  | .iack => Sys2Proof.Machine.execIack s
  | .romall => Sys2Proof.Machine.execRomall s
  | .romchk region => Sys2Proof.Machine.execRomchk region s
  | .romraw => Sys2Proof.Machine.execRomraw s
  | .romcrc region => Sys2Proof.Machine.execRomcrc region s
  | .rammarch region seed => Sys2Proof.Machine.execRammarch region seed s
  | .ramcs seed => Sys2Proof.Machine.execRamcs seed s
  | .ramaddr region => Sys2Proof.Machine.execRamaddr region s
  | .ramfill region value => Sys2Proof.Machine.execRamfill region value s
  | .ramread region => Sys2Proof.Machine.execRamread region s
  | .ioin input => Sys2Proof.Machine.execIoin input s
  | .ioout output active => Sys2Proof.Machine.execIoout output active s
  | .intchk line extVec timeout vector => Sys2Proof.Machine.execIntchk line extVec timeout vector s

end Sys2Proof.Machine
end

