-- ==== Sys2Proof/Machine/Step.lean ====
section
/-! DEFINITION. One step: the command at the pc runs to completion and the pc advances by one (spec 10_state.md R36). -/

namespace Sys2Proof.Machine

/-- Advances the pc after a command that gave a next state. -/
def afterCommand : StepOutcome → StepOutcome
  | .next t => .next (advance t)
  | .fault f => .fault f
  | .refused r => .refused r

/-- One step (10_state.md R36). An illegal frame is refused by its result record, and the pc advances
(30_encoding.md R115); where the command list has ended the machine stops (70_reset_and_hazards.md R403). -/
def step (s : State) : Host.Outcome State Fault Refusal :=
  match s.fetch with
  | none => .fault .runEnded
  | some f =>
    match decode f with
    | .error _ => afterCommand (.next (refuse .illegalCommand s))
    | .ok i => afterCommand (exec i s)

/-- `s` with the command whose bits are `w` placed at the pc of the command list, which is lengthened with zero
frames where it is too short to have that place (assumption 8). -/
def State.withFetchWord (s : State) (nbits w : Nat) : State :=
  { s with
    program :=
      (s.program ++ List.replicate (s.pc + 1 - s.program.length) 0).set s.pc (tableFrame nbits w) }

end Sys2Proof.Machine
end

