-- ==== Sys2Proof/Safety.lean ====
section
/-! DEFINITION. What counts as a safe run, in the terms the claims use: the idle discipline (70_reset_and_hazards.md R395), the clock-master continuity (41_bus_engine.md R207), the host mask's span (R217, R218), what an outcome leaves unchanged (10_state.md R50), and the transactions and Board answers of a run without error. -/

namespace Sys2Proof.Machine

/-! ### Between commands -/

/-- No bus cycle is under way: phase IDLE and no host mask (10_state.md R35, R37). -/
def State.BetweenCycles (s : State) : Prop := s.phase = .idle ∧ s.hostMask = false

/-- The exit state of every command but a failed CHECK (40_contract.md R160). -/
def State.EngineIdle (s : State) : Prop := s.pins = .idle ∧ s.phase = .idle ∧ s.hostMask = false

/-- The invariant of every state between commands: the idle discipline and the run's records. -/
structure State.Inv (s : State) : Prop where
  /-- The configuration passed construction (70_reset_and_hazards.md R390). -/
  cfgWf : s.cfg.wf = true
  /-- No bus cycle is under way (10_state.md R35, R37). -/
  betweenCycles : s.BetweenCycles
  /-- An idled engine has idle pins (40_contract.md R160). -/
  pinsIdle : s.idled = true → s.pins = .idle
  /-- No command sequence leaves the pins active (70_reset_and_hazards.md R395). -/
  pinsQuiet : s.pins ≠ .active
  /-- Each command left one record (10_state.md R42), so there are as many as the pc counts (R36). -/
  oneRecordEach : s.results.length = s.pc
  /-- `result` is the last record, once there is one (R42). -/
  resultIsLast : s.results ≠ [] → s.results.getLast? = some s.result

/-- The levels an output clock phase was driven to, oldest first. -/
def drivenLevels (p : Nat) : List Activity → List Bool
  | [] => []
  | ⟨_, _, .clock q l⟩ :: rest => if q = p then l :: drivenLevels p rest else drivenLevels p rest
  | _ :: rest => drivenLevels p rest

/-- The clock-master invariant (41_bus_engine.md R207), and what leads to it. -/
structure State.ClockInv (s : State) : Prop where
  /-- `idled` is set by IDLE only (10_state.md R32). -/
  bootedIfIdled : s.idled = true → s.booted = true
  /-- `clk` has one entry per output clock phase, in the clock-master variant only (10_state.md R34). -/
  clkLength : s.clk.length = if s.cfg.clockMaster then s.cfg.clockPhases else 0
  /-- No clock phase was driven before the first IDLE (40_contract.md R152). -/
  undrivenBeforeBoot : s.booted = false → ∀ p, drivenLevels p s.activity = []
  /-- `clk[p]` is the level last driven on phase p (R207). -/
  recordsLastLevel : s.booted = true → ∀ p < s.clk.length,
    (drivenLevels p s.activity).getLast? = some (s.clk.getD p false)
  /-- No phase is driven twice running to one level (R207). -/
  alternates : ∀ p, List.IsChain (· ≠ ·) (drivenLevels p s.activity)

/-- The phases the host mask can span (41_bus_engine.md R217). -/
def Phase.masked : Phase → Bool
  | .p2 | .p3 | .p4 => true
  | .idle | .p0 | .p1 => false

/-- An action is recorded under the host mask the rules give its phase: `HOST_MASK_SPAN` from the entry of P2 to
`Terminate()`, false everywhere else (41_bus_engine.md R217, R218). -/
def maskAsRuled (c : Cfg) (a : Activity) : Prop := a.hostMask = (c.hostMaskSpan && a.phase.masked)

/-! ### What a command appended, and what it left alone -/

/-- A completed bus cycle. -/
def Event.isCyc : Event → Bool
  | .cyc .. => true
  | _ => false

/-- A cycle that timed out after it began driving the bus. -/
def Event.isAbort : Event → Bool
  | .abort .. => true
  | _ => false

/-- What a command appended to the trace. -/
def newEvents (s t : State) : List Event := t.trace.drop s.trace.length

/-- What a command appended to the signal-level record. -/
def newActivity (s t : State) : List Activity := t.activity.drop s.activity.length

/-! ### The signals of a transaction -/

/-- A bus-cycle action with its phase: the entry of a phase, or a drive of the bus pins. Samples, clock drives and
the idle drive of IDLE and CHECK are none. Driven data are shown as a sample of their lanes would read them, so an
unspecified unused lane (20_memory.md R81) does not show. -/
def busAct (a : Activity) : Option (Phase × Action) :=
  match a.act with
  | .driveData lane bus => some (a.phase, .driveData lane (sampledDatum lane bus))
  | .enter | .address _ | .latchByte _ _ | .status .. | .strobes .. | .terminate => some (a.phase, a.act)
  | .sample _ _ | .lineLevel .. | .clock _ _ | .idlePins => none

/-- The bus-cycle actions of a record, in order. -/
def busActs (as : List Activity) : List (Phase × Action) := as.filterMap busAct

/-- The drives of the bus pins in a record, in order: its bus-cycle actions but the phase entries. -/
def busDrives (as : List Activity) : List (Phase × Action) := (busActs as).filter fun e => decide (e.2 ≠ .enter)

/-- What P2 drives: the address, in one step or byte by byte in `LATCH_ORDER`, and then the status flags, memory/IO
among them only on a family that has it and the lane selects only on a 16-bit bus (41_bus_engine.md R208 to R210). -/
def Cfg.phase2Drives (c : Cfg) (kind : CycleKind) (space : Space) (paddr : PhysAddr) (lane : Lane) :
    List (Phase × Action) :=
  ((if c.latchBytes = 0 then [Action.address paddr]
      else c.latchOrder.map fun k => .latchByte k (paddr.extractLsb' (8 * k) 8))
    ++ [Action.status (decide (kind = .write)) (if c.hasIoSpace then some space else none) (decide (kind = .ack))
      (if c.busWidth = .two then some lane else none)]).map (Phase.p2, ·)

/-- What P4 drives: the data of a write, and `Terminate()` (R214, R215). -/
def phase4Drives (kind : CycleKind) (lane : Lane) (d : Datum) : List (Phase × Action) :=
  (if kind = .write then [(.p4, .driveData lane d)] else []) ++ [(.p4, .terminate)]

/-- What the transaction of an event drives, phase by phase (41_bus_engine.md R208 to R211, R214, R215, R221). -/
def Cfg.signalsOf (c : Cfg) : Event → List (Phase × Action)
  | .cyc kind space paddr _ lane d =>
    c.phase2Drives kind space paddr lane ++ [(.p3, .strobes kind space lane)] ++ phase4Drives kind lane d
  | .abort kind space paddr _ lane _ =>
    c.phase2Drives kind space paddr lane ++ [(.p3, .strobes kind space lane), (.p3, .terminate)]
  | .bank _ _ | .aremap _ _ | .dremap _ _ _ => []

/-- The entries before phase 2: P0 where the address asks for it, and P1 (41_bus_engine.md R200, R202). -/
def earlyEntries (pre : PrePhase) : List (Phase × Action) :=
  (if pre = .none then [] else [(.p0, .enter)]) ++ [(.p1, .enter)]

/-- Phases 2 and 3 of a cycle: what they drive, each after its entry (R202). -/
def Cfg.middleActs (c : Cfg) (kind : CycleKind) (a : Access) : List (Phase × Action) :=
  (.p2, .enter) :: c.phase2Drives kind a.space a.paddr a.lane ++ [(.p3, .enter), (.p3, .strobes kind a.space a.lane)]

/-- The bus-cycle actions of a cycle that completes with a datum (R202). -/
def Cfg.cycleActs (c : Cfg) (kind : CycleKind) (a : Access) (d : Datum) : List (Phase × Action) :=
  earlyEntries a.pre ++ c.middleActs kind a ++ (.p4, .enter) :: phase4Drives kind a.lane d ++ [(.idle, .enter)]

/-- The bus-cycle actions of a cycle that is not acknowledged (R211, R216). -/
def Cfg.abortActs (c : Cfg) (kind : CycleKind) (a : Access) : List (Phase × Action) :=
  earlyEntries a.pre ++ c.middleActs kind a ++ [(.p3, .terminate), (.idle, .enter)]

/-- The state no command but IDLE and CHECK touches, and the records that only grow (10_state.md R31, R36, R44,
R47, R50). The Board's supplied answers are only ever used up from the head. -/
structure Carried (s t : State) : Prop where
  cfg : t.cfg = s.cfg
  program : t.program = s.program
  pc : t.pc = s.pc
  idled : t.idled = s.idled
  booted : t.booted = s.booted
  marks : t.marks = s.marks
  trace : s.trace <+: t.trace
  activity : s.activity <+: t.activity
  script : t.script <:+ s.script
  clkLength : t.clk.length = s.clk.length
  clkKept : s.cfg.clockMaster = false → t.clk = s.clk

/-- What a direct bus command leaves alone (10_state.md R50, row MRD, MWR, IACK). -/
structure BusOnly (s t : State) : Prop extends Carried s t where
  work : t.work = s.work

/-! ### The Board answers by which a bus cycle completes -/

/-- A bounded poll that ends at its last answer and not before: at most `limit` answers, the last one the
first accepted (41_bus_engine.md R205, R211). -/
def pollEnds (accept : Raw → Bool) : Nat → List Raw → Bool
  | 0, _ => false
  | _ + 1, [] => false
  | k + 1, r :: rs => if accept r then rs.isEmpty else pollEnds accept k rs

/-- Answers by which `PreSync` sees its toggle, at most `limit` polls after the first sample (R203). -/
def toggleEnds : Nat → Bool → List Raw → Bool
  | 0, _, _ => false
  | _ + 1, _, [] => false
  | k + 1, prev, r :: rs => if prev && !levelOf r then rs.isEmpty else toggleEnds k (levelOf r) rs

/-- The answers the Board gives during one bus cycle that completes, phase by phase, but for the data pins and
the unused lane. -/
structure Handshake where
  /-- P0: the blanking or video-sync samples. -/
  pre : List Raw
  /-- P1: the clock-edge polls, or the input-clock samples of the half-cycles. -/
  edge : List Raw
  /-- P2: the input-clock samples. -/
  clk2 : List Raw
  /-- P3: the input-clock samples. -/
  clk3 : List Raw
  /-- P3: the acknowledge polls. -/
  ack : List Raw
  /-- P4: the input-clock samples. -/
  clk4 : List Raw
  /-- Which acknowledge input ends P3. -/
  seen : AckSeen
deriving DecidableEq, Repr

/-- The answers in the order the cycle asks for them. -/
def Handshake.answers (h : Handshake) : List Raw := h.pre ++ h.edge ++ h.clk2 ++ h.clk3 ++ h.ack ++ h.clk4

/-- The pre-phase answers fit (R203, R204). -/
def Handshake.preFits (c : Cfg) (pre : PrePhase) (h : Handshake) : Bool :=
  match pre, h.pre with
  | .none, xs => xs.isEmpty
  | .waitSpace, x :: xs => toggleEnds c.waitSyncLimit (levelOf x) xs
  | .vsync, x :: xs => toggleEnds c.vsyncLimit (levelOf x) xs
  | _, [] => false

/-- The synchronize answers fit (R205, R206). -/
def Handshake.edgeFits (c : Cfg) (h : Handshake) : Bool :=
  if c.clockMaster then decide (h.edge.length = c.halfCycles.p1) else pollEnds levelOf c.syncLimit h.edge

/-- As many input-clock samples as the phase has half-cycles (R206). -/
def clocksFit (c : Cfg) (n : Nat) (xs : List Raw) : Bool := decide (xs.length = if c.clockMaster then n else 0)

/-- The acknowledge answers fit (R211, R212). -/
def Handshake.ackFits (c : Cfg) (kind : CycleKind) (h : Handshake) : Bool :=
  match c.ackSignal with
  | .none => h.ack.isEmpty && decide (h.seen = .unpolled)
  | .line =>
    pollEnds (fun r => (c.acceptOf kind r).isSome) c.pollLimit h.ack
      && decide (h.ack.getLast?.bind (c.acceptOf kind) = some h.seen)

/-- The answers by which a cycle of this kind and pre-phase completes. -/
def Handshake.fits (c : Cfg) (kind : CycleKind) (pre : PrePhase) (h : Handshake) : Bool :=
  h.preFits c pre && h.edgeFits c && clocksFit c c.halfCycles.p2 h.clk2 && clocksFit c c.halfCycles.p3 h.clk3
    && h.ackFits c kind && clocksFit c c.halfCycles.p4 h.clk4

/-! ### The Board answers by which a bus cycle times out -/

/-- The answers in the order the cycle asks for them, up to its acknowledge polls. -/
def Handshake.answersToAck (h : Handshake) : List Raw := h.pre ++ h.edge ++ h.clk2 ++ h.clk3 ++ h.ack

/-- Answers by which phases 0 to 2 complete and no acknowledge poll of `POLL_LIMIT` is accepted (R211). -/
def Handshake.unanswered (c : Cfg) (kind : CycleKind) (pre : PrePhase) (h : Handshake) : Bool :=
  h.preFits c pre && h.edgeFits c && clocksFit c c.halfCycles.p2 h.clk2 && clocksFit c c.halfCycles.p3 h.clk3
    && decide (c.ackSignal = .line) && decide (h.ack.length = c.pollLimit)
    && h.ack.all fun r => (c.acceptOf kind r).isNone

/-- Answers by which P0 completes and no edge is seen in `SYNC_LIMIT` polls (R205). -/
def Handshake.unsynchronized (c : Cfg) (pre : PrePhase) (h : Handshake) : Bool :=
  h.preFits c pre && !c.clockMaster && decide (h.edge.length = c.syncLimit) && h.edge.all fun r => !levelOf r

/-- Samples with no toggle from active to inactive among them (R203). -/
def neverToggles : Bool → List Raw → Bool
  | _, [] => true
  | prev, r :: rs => !(prev && !levelOf r) && neverToggles (levelOf r) rs

/-- The draw for the unused lane of a write, where there is one (20_memory.md R81). -/
def laneDraw (c : Cfg) (w : Width) (draw : Raw) : List Raw := if c.busWidth = .two ∧ w = .one then [draw] else []

/-- What the Board answers to one move: the handshake of its cycle, and the bank-switch result, the data pins
of a read or the unused lane of a write; and the `ctx` of the remap calls of a sequencer's access, used only where that
remap is configured (assumption 19). -/
structure Reply where
  hs : Handshake
  last : Raw
  addressCtx : Raw
  dataCtx : Raw
deriving DecidableEq, Repr

/-- The state a command leaves when it completes: its record, the events it appended, the answers it left over,
and everything no bus command or sequencer touches (10_state.md R42, R47, R50, 40_contract.md R160). -/
structure Completed (s t : State) (r : Result) (es : List Event) (rest : List Raw) : Prop extends Carried s t where
  result : t.result = r
  results : t.results = s.results ++ [r]
  events : t.trace = s.trace ++ es
  answersLeft : t.script = rest
  engineIdle : t.EngineIdle

/-! ### The answers by which CHECK's items pass or fail -/

/-- The clock samples after which both levels have been seen, for the first time at the last one, at most `limit`
of them (40_contract.md R162). -/
def clockEnds : Nat → ClockSeen → List Raw → Bool
  | 0, _, _ => false
  | _ + 1, _, [] => false
  | k + 1, seen, r :: rs =>
    if seen.add (levelOf r) = .both then rs.isEmpty else clockEnds k (seen.add (levelOf r)) rs

/-- The answers by which an item passes (R161, R162). -/
def CheckItem.passes (c : Cfg) (item : CheckItem) (rs : List Raw) : Bool :=
  match item with
  | .clock => clockEnds c.clockCheckLimit .nothing rs
  | other => decide (rs.length = 1) && rs.all fun r => decide (levelOf r = other.expected)

/-- The answers by which an item fails: the wrong level, or a clock that stays at one level through all its
samples (R161, R162). -/
def CheckItem.fails (c : Cfg) (item : CheckItem) (level : Bool) (rs : List Raw) : Bool :=
  match item with
  | .clock =>
    decide (rs.length = c.clockCheckLimit) && !rs.isEmpty && rs.all fun r => decide (levelOf r = level)
  | other => decide (rs.length = 1) && (rs.all fun r => decide (levelOf r = level)) && decide (level ≠ other.expected)

/-- The number a failed item reports as expected: 2 stands for a toggling clock (R162). -/
def CheckItem.expectedNumber : CheckItem → Word
  | .clock => 2
  | other => if other.expected then 1 else 0

/-! ### The answers by which an interrupt is acknowledged -/

/-- How many acknowledge cycles the family runs (41_bus_engine.md R231 to R234). -/
def Cfg.ackCycles (c : Cfg) : Nat :=
  match c.ackKind with
  | .none => 0
  | .single => 1
  | .double => 2
  | .iack => 1

/-- What the Board answers to an acknowledge: the priority level, read by the kind `iack` only, and one reply
for each cycle. -/
structure AckReply where
  level : Raw
  cycles : List Reply
deriving DecidableEq, Repr

/-- Every cycle of the acknowledge completes. -/
def AckReply.fits (c : Cfg) (a : AckReply) : Bool :=
  decide (a.cycles.length = c.ackCycles) && a.cycles.all fun r => r.hs.fits c .ack .none

/-- The answers the acknowledge uses up. -/
def AckReply.answers (c : Cfg) (a : AckReply) : List Raw :=
  (if c.ackKind = .iack then [a.level] else []) ++ a.cycles.flatMap fun r => r.hs.answers ++ [r.last]

/-- The address the acknowledge drives (R230, R234, assumption 23). -/
def AckReply.address (c : Cfg) (a : AckReply) : PhysAddr :=
  c.drivenBits (c.ackAddrAt (if c.ackKind = .iack then priorityOf a.level else 0))

/-- The vector one cycle gives: D7 to D0, or the autovector where VPA answered an `iack` acknowledge
(R232 to R234). -/
def AckReply.cycleVector (c : Cfg) (a : AckReply) (r : Reply) : Byte :=
  if c.ackKind = .iack ∧ r.hs.seen = .vpa then c.autovectorAt (priorityOf a.level) else r.last.extractLsb' 0 8

/-- The events of the acknowledge, one for each cycle (R232 to R234). -/
def AckReply.events (c : Cfg) (a : AckReply) : List Event :=
  a.cycles.map fun r => .cyc .ack .mem (a.address c) .one .low ((a.cycleVector c r).zeroExtend 16)

/-- The vector: the fixed value where the family runs no cycle, else the last cycle's (R231 to R234). -/
def AckReply.vector (c : Cfg) (a : AckReply) : Byte :=
  match a.cycles.getLast? with
  | none => c.noAckValue
  | some r => a.cycleVector c r

/-- The answers by which an acknowledge times out, the reason, and the events: its cycle, or with the kind `double`
its second cycle after a first that completed, is not acknowledged in `POLL_LIMIT` polls, or sees no clock edge in a
free-running P1 (41_bus_engine.md R211, R216, R221, R233 to R235). -/
def AckStops (c : Cfg) (level : Raw) (why : Info) (answers : List Raw) (events : List Event) : Prop :=
  ∃ (h : Handshake) (last : List Raw) (aborts : List Event),
    (h.unanswered c .ack .none = true ∧ why = .ackTimeout ∧ last = h.answersToAck
        ∧ aborts = [.abort .ack .mem (AckReply.address c ⟨level, []⟩) .one .low .p3]
      ∨ h.unsynchronized c .none = true ∧ why = .syncTimeout ∧ last = h.pre ++ h.edge ∧ aborts = [])
    ∧ (answers = (if c.ackKind = .iack then [level] else []) ++ last ∧ events = aborts
      ∨ ∃ first : Reply, c.ackKind = .double ∧ first.hs.fits c .ack .none = true
          ∧ answers = first.hs.answers ++ first.last :: last
          ∧ events = .cyc .ack .mem (AckReply.address c ⟨level, []⟩) .one .low
            ((first.last.extractLsb' 0 8).zeroExtend 16) :: aborts)

/-! ### The transactions of a sequencer's run without error -/

/-- One thing a sequencer does to the board: a bank-switch call, a write, or a read with the value it must
agree with under a mask (mask 0 where nothing is compared). -/
inductive Move where
  | bank (table : TableTag) (r : Byte)
  | write (la : Word) (v : Datum)
  | read (la : Word) (expected mask : Datum)
deriving DecidableEq, Repr

/-- The draw for the `ctx` of an address remap, where one is configured (42_rom_check.md R250, assumption 19). -/
def Cfg.addressDraw (c : Cfg) (ctx : Raw) : List Raw := if c.addressRemap.isSome then [ctx] else []

/-- The draw for the `ctx` of a data remap, where one is configured (R250, R251, assumption 19). -/
def Cfg.dataDraw (c : Cfg) (ctx : Raw) : List Raw := if c.dataRemap.isSome then [ctx] else []

/-- The ARemap event of an access, where an address remap is configured (42_rom_check.md R250). -/
def Cfg.aremapEvents (c : Cfg) (ctx : Raw) (la : Word) : List Event :=
  match c.addressRemap with
  | none => []
  | some _ => [.aremap la (c.remapped ctx la)]

/-- The DRemap event of a datum, where a data remap is configured (R250, R251). -/
def Cfg.dremapEvents (c : Cfg) (ctx : Raw) (la : Word) (d : Datum) : List Event :=
  match c.dataRemap with
  | none => []
  | some _ => [.dremap la d (c.remappedData ctx la d)]

/-- What validation makes of a sequencer's address (R250); the blank access where it fails. -/
def Cfg.seqAccess (c : Cfg) (ctx : Raw) (la : Word) : Access :=
  match c.decodeAddr (c.remapped ctx la) with
  | .ok a => a
  | .error _ => ⟨.mem, .none, 0, .one, .low⟩

/-- What a sequencer read samples on this reply (R250). -/
def Cfg.readSample (c : Cfg) (la : Word) (r : Reply) : Datum :=
  sampledDatum (c.seqAccess r.addressCtx la).lane r.last

/-- The value a sequencer read gives on this reply (R250). -/
def Cfg.readValue (c : Cfg) (la : Word) (r : Reply) : Datum :=
  (c.seqAccess r.addressCtx la).w.cut (c.remappedData r.dataCtx la (c.readSample la r))

/-- The Cyc of a sequencer's access (41_bus_engine.md R220). -/
def Cfg.cycOf (c : Cfg) (r : Reply) (kind : CycleKind) (la : Word) (d : Datum) : Event :=
  .cyc kind (c.seqAccess r.addressCtx la).space (c.seqAccess r.addressCtx la).paddr (c.seqAccess r.addressCtx la).w
    (c.seqAccess r.addressCtx la).lane d

/-- The Abort of a sequencer's access (41_bus_engine.md R221). -/
def Cfg.abortOf (c : Cfg) (r : Reply) (kind : CycleKind) (la : Word) : Event :=
  .abort kind (c.seqAccess r.addressCtx la).space (c.seqAccess r.addressCtx la).paddr (c.seqAccess r.addressCtx la).w
    (c.seqAccess r.addressCtx la).lane .p3

/-- The events of a sequencer read, in their order (R250, 20_memory.md R98). -/
def Cfg.readEvents (c : Cfg) (la : Word) (r : Reply) : List Event :=
  c.aremapEvents r.addressCtx la ++ [c.cycOf r .read la (c.readSample la r)]
    ++ c.dremapEvents r.dataCtx la (c.readSample la r)

/-- The events of a sequencer write, in their order (R251, 20_memory.md R98). -/
def Cfg.writeEvents (c : Cfg) (la : Word) (v : Datum) (r : Reply) : List Event :=
  c.aremapEvents r.addressCtx la ++ c.dremapEvents r.dataCtx la v
    ++ [c.cycOf r .write la ((c.seqAccess r.addressCtx la).w.cut (c.remappedData r.dataCtx la v))]

/-- The access of this reply is legal, and its cycle completes. -/
def Cfg.accessRuns (c : Cfg) (kind : CycleKind) (la : Word) (r : Reply) : Bool :=
  c.legalAddress (c.remapped r.addressCtx la) && r.hs.fits c kind (c.seqAccess r.addressCtx la).pre

/-- The move completes on this reply, and a compare agrees. -/
def Move.accepts (c : Cfg) (r : Reply) : Move → Bool
  | .bank _ _ => decide (codeOf r.last = .success)
  | .write la _ => c.accessRuns .write la r
  | .read la e m => c.accessRuns .read la r && maskedEq (c.readValue la r) e m

/-- The answers a move uses up. -/
def Move.answers (c : Cfg) (r : Reply) : Move → List Raw
  | .bank _ _ => [r.last]
  | .write la _ =>
    c.addressDraw r.addressCtx ++ c.dataDraw r.dataCtx ++ r.hs.answers
      ++ laneDraw c (c.seqAccess r.addressCtx la).w r.last
  | .read _ _ _ => c.addressDraw r.addressCtx ++ r.hs.answers ++ [r.last] ++ c.dataDraw r.dataCtx

/-- The events a move appends. -/
def Move.events (c : Cfg) (r : Reply) : Move → List Event
  | .bank table i => [.bank table i]
  | .write la v => c.writeEvents la v r
  | .read la _ _ => c.readEvents la r

/-- Every move of a plan completes on its reply. -/
def planAccepts (c : Cfg) : List Move → List Reply → Bool
  | [], [] => true
  | m :: ms, r :: rs => m.accepts c r && planAccepts c ms rs
  | _, _ => false

/-- The answers a plan uses up. -/
def planAnswers (c : Cfg) : List Move → List Reply → List Raw
  | m :: ms, r :: rs => m.answers c r ++ planAnswers c ms rs
  | _, _ => []

/-- The events a plan appends. -/
def planEvents (c : Cfg) : List Move → List Reply → List Event
  | m :: ms, r :: rs => m.events c r ++ planEvents c ms rs
  | _, _ => []

/-- The bank-switch call that opens a pass, where the region has one (42_rom_check.md R252). -/
def bankMoves (table : TableTag) (r : Byte) (hasBank : Bool) : List Move := if hasBank then [.bank table r] else []

/-- The sample pass of a ROM region (R258). -/
def Cfg.samplePlan (c : Cfg) (r : Byte) (rom : RomRegion) : List Move :=
  bankMoves .rom r rom.bankSwitch
    ++ (List.range (sampleCount rom.length)).map fun k =>
      .read ((c.romGeometry rom).cell (2 ^ k)) (c.romSample rom k) (BitVec.allOnes 16)

/-- A pass over every cell of a ROM region that compares nothing (R259, R263). -/
def Cfg.romPlan (c : Cfg) (r : Byte) (rom : RomRegion) : List Move :=
  bankMoves .rom r rom.bankSwitch
    ++ (List.range rom.length).map fun i => .read ((c.romGeometry rom).cell i) 0 0

/-- The values a plan's reads give, in order. -/
def planValues (c : Cfg) : List Move → List Reply → List Datum
  | .read la _ _ :: ms, r :: rs => c.readValue la r :: planValues c ms rs
  | _ :: ms, _ :: rs => planValues c ms rs
  | _, _ => []

/-- The CRC-32 of the values of a ROM region's cells (R259, R260). -/
def Cfg.crcOf (c : Cfg) (rom : RomRegion) (values : List Datum) : Word :=
  c.crc.final (values.foldl (fun acc d => c.feed acc d (c.romGeometry rom).w) c.crc.init)

/-- ROMALL's passes over the regions from index `i` on, each with its own replies, its samples and its CRC right
(42_rom_check.md R262). -/
def Cfg.romAllAccepts (c : Cfg) : Nat → List RomRegion → List (List Reply × List Reply) → Bool
  | _, [], [] => true
  | i, rom :: roms, p :: ps =>
    planAccepts c (c.samplePlan (BitVec.ofNat 8 i) rom) p.1 && planAccepts c (c.romPlan (BitVec.ofNat 8 i) rom) p.2
      && decide (c.crcOf rom (planValues c (c.romPlan (BitVec.ofNat 8 i) rom) p.2) = rom.crc32)
      && c.romAllAccepts (i + 1) roms ps
  | _, _, _ => false

/-- Both passes over every ROM region from index `i` on, in order (R262). -/
def Cfg.romAllPlan (c : Cfg) (i : Nat) (roms : List RomRegion) : List Move :=
  (roms.zipIdx i).flatMap fun e => c.samplePlan (BitVec.ofNat 8 e.2) e.1 ++ c.romPlan (BitVec.ofNat 8 e.2) e.1

/-- The raw read of every ROM region in order (R263). -/
def Cfg.romRawPlan (c : Cfg) : List Move := c.romTable.zipIdx.flatMap fun e => c.romPlan (BitVec.ofNat 8 e.2) e.1

/-- A pattern value of a RAM region, or its complement (43_ram_check.md R282). -/
def Cfg.marchValue (c : Cfg) (ram : RamRegion) (seed : Word) (inverted : Bool) (i : Nat) : Datum :=
  let p := c.prng.pattern seed (c.ramGeometry ram).w i
  if inverted then (c.ramGeometry ram).w.invert p else p

/-- The writes of one pattern pass (R284, R285). -/
def Cfg.writePlan (c : Cfg) (ram : RamRegion) (seed : Word) (inverted : Bool) : List Move :=
  (List.range (c.ramGeometry ram).count).map fun i =>
    .write ((c.ramGeometry ram).cell i) (c.marchValue ram seed inverted i)

/-- The reads of one pattern pass (R284, R285). -/
def Cfg.verifyPlan (c : Cfg) (ram : RamRegion) (seed : Word) (inverted : Bool) : List Move :=
  (List.range (c.ramGeometry ram).count).map fun i =>
    .read ((c.ramGeometry ram).cell i) (c.marchValue ram seed inverted i) (c.ramMask ram)

/-- The whole march on a region (R284). -/
def Cfg.marchPlan (c : Cfg) (r : Byte) (ram : RamRegion) (seed : Word) : List Move :=
  bankMoves .ram r ram.bankSwitch ++ c.writePlan ram seed false ++ c.verifyPlan ram seed false
    ++ c.writePlan ram seed true ++ c.verifyPlan ram seed true

/-- The chip-select test over the whole table (R285). -/
def Cfg.crossPlan (c : Cfg) (seed : Word) : List Move :=
  (c.ramTable.zipIdx.flatMap fun e =>
    bankMoves .ram (BitVec.ofNat 8 e.2) e.1.bankSwitch
      ++ c.writePlan e.1 (seed + BitVec.ofNat 32 e.2) false)
    ++ c.ramTable.zipIdx.flatMap fun e =>
      bankMoves .ram (BitVec.ofNat 8 e.2) e.1.bankSwitch
        ++ c.verifyPlan e.1 (seed + BitVec.ofNat 32 e.2) false

/-- One turn of the address-line walk (R286). -/
def Cfg.boundaryTurn (c : Cfg) (ram : RamRegion) (j : Nat) : List Move :=
  let g := c.ramGeometry ram
  let m := c.ramMask ram
  .write (g.cell j) m :: (boundaryCells g.count).map (fun q => .read (g.cell q) (if q = j then m else 0) m)
    ++ [.write (g.cell j) 0]

/-- The address-line walk on a region (R286). -/
def Cfg.boundaryPlan (c : Cfg) (r : Byte) (ram : RamRegion) : List Move :=
  let g := c.ramGeometry ram
  bankMoves .ram r ram.bankSwitch ++ (boundaryCells g.count).map (fun j => .write (g.cell j) 0)
    ++ (boundaryCells g.count).flatMap (c.boundaryTurn ram)

/-- The fixed-byte fill of a region (R287). -/
def Cfg.fillPlan (c : Cfg) (r : Byte) (ram : RamRegion) (value : Datum) : List Move :=
  let g := c.ramGeometry ram
  bankMoves .ram r ram.bankSwitch ++ (List.range g.count).map fun i => .write (g.cell i) (g.w.cut value)

/-- The raw read of a region (R288). -/
def Cfg.ramReadPlan (c : Cfg) (r : Byte) (ram : RamRegion) : List Move :=
  let g := c.ramGeometry ram
  bankMoves .ram r ram.bankSwitch ++ (List.range g.count).map fun i => .read (g.cell i) 0 0

/-- The one read of an input (44_io_interrupt_check.md R320). -/
def inputPlan (r : Byte) (e : InputEntry) : List Move := bankMoves .input r e.bankSwitch ++ [.read e.address 0 0]

/-- The one write of an output (R321). -/
def Cfg.outputPlan (c : Cfg) (r : Byte) (e : OutputEntry) (active : Bool) : List Move :=
  bankMoves .output r e.bankSwitch ++ [.write e.address (c.outValue e active)]

/-! ### How a sequencer stops -/

/-- Where a move of a sequencer stands: the table and index its records name, and the step a compare of it reports. -/
structure Spot where
  table : TableTag
  index : Byte
  step : BitVec 2
deriving DecidableEq, Repr

/-- Moves at one spot. -/
def atSpot (table : TableTag) (index : Byte) (step : BitVec 2) (ms : List Move) : List (Spot × Move) :=
  ms.map (⟨table, index, step⟩, ·)

/-- Every move a sequencer command performs on a path with no error, in order, each at its spot; none for the other
commands. The march reports its pass as the step of a compare (43_ram_check.md R284). -/
def Cfg.moves (c : Cfg) : Instr → List (Spot × Move)
  | .romall =>
    c.romTable.zipIdx.flatMap fun e =>
      atSpot .rom (BitVec.ofNat 8 e.2) 0 (c.samplePlan (BitVec.ofNat 8 e.2) e.1 ++ c.romPlan (BitVec.ofNat 8 e.2) e.1)
  | .romchk idx =>
    match c.romTable[idx.toNat]? with
    | some rom => atSpot .rom idx 0 (c.samplePlan idx rom ++ c.romPlan idx rom)
    | none => []
  | .romraw =>
    c.romTable.zipIdx.flatMap fun e => atSpot .rom (BitVec.ofNat 8 e.2) 0 (c.romPlan (BitVec.ofNat 8 e.2) e.1)
  | .romcrc idx =>
    match c.romTable[idx.toNat]? with
    | some rom => atSpot .rom idx 0 (c.romPlan idx rom)
    | none => []
  | .rammarch idx seed =>
    match c.ramTable[idx.toNat]? with
    | some ram =>
      atSpot .ram idx 0 (bankMoves .ram idx ram.bankSwitch ++ c.writePlan ram seed false)
        ++ atSpot .ram idx 1 (c.verifyPlan ram seed false) ++ atSpot .ram idx 0 (c.writePlan ram seed true)
        ++ atSpot .ram idx 2 (c.verifyPlan ram seed true)
    | none => []
  | .ramcs seed =>
    (c.ramTable.zipIdx.flatMap fun e =>
      atSpot .ram (BitVec.ofNat 8 e.2) 0 (bankMoves .ram (BitVec.ofNat 8 e.2) e.1.bankSwitch
        ++ c.writePlan e.1 (seed + BitVec.ofNat 32 e.2) false))
      ++ c.ramTable.zipIdx.flatMap fun e =>
        atSpot .ram (BitVec.ofNat 8 e.2) 0 (bankMoves .ram (BitVec.ofNat 8 e.2) e.1.bankSwitch
          ++ c.verifyPlan e.1 (seed + BitVec.ofNat 32 e.2) false)
  | .ramaddr idx =>
    match c.ramTable[idx.toNat]? with
    | some ram => atSpot .ram idx 0 (c.boundaryPlan idx ram)
    | none => []
  | .ramfill idx value =>
    match c.ramTable[idx.toNat]? with
    | some ram => atSpot .ram idx 0 (c.fillPlan idx ram value)
    | none => []
  | .ramread idx =>
    match c.ramTable[idx.toNat]? with
    | some ram => atSpot .ram idx 0 (c.ramReadPlan idx ram)
    | none => []
  | .ioin idx =>
    match c.inputTable[idx.toNat]? with
    | some e => atSpot .input idx 0 (inputPlan idx e)
    | none => []
  | .ioout idx active =>
    match c.outputTable[idx.toNat]? with
    | some e => atSpot .output idx 0 (c.outputPlan idx e active)
    | none => []
  | .idle | .check | .busw _ | .accw _ | .mrd _ | .mwr _ _ | .wint _ _ _ | .iack | .intchk _ _ _ _ => []

/-- The logical address a move accesses, before remap. -/
def Move.address? : Move → Option Word
  | .bank _ _ => none
  | .write la _ => some la
  | .read la _ _ => some la

/-- ROMALL compares the CRC of each region as it leaves it (42_rom_check.md R262): the moves and replies before a
fault are those of the first `k` regions, each with its samples and its CRC right, and then some of region `k`. -/
def Cfg.crcsRight (c : Cfg) (before : List Move) (qs : List Reply) : Prop :=
  ∃ (k : Nat) (rom : RomRegion) (here : List Move) (ps : List (List Reply × List Reply)) (rs : List Reply),
    c.romTable[k]? = some rom ∧ before = c.romAllPlan 0 (c.romTable.take k) ++ here
      ∧ qs = ps.flatMap (fun p => p.1 ++ p.2) ++ rs ∧ c.romAllAccepts 0 (c.romTable.take k) ps = true
      ∧ here.length < (c.samplePlan (BitVec.ofNat 8 k) rom ++ c.romPlan (BitVec.ofNat 8 k) rom).length

/-- A command performs the moves `before` on the replies `qs`, and then comes to the move `m` at `spot`. -/
structure Cfg.Reaches (c : Cfg) (i : Instr) (before : List Move) (qs : List Reply) (spot : Spot) (m : Move) :
    Prop where
  plan : ∃ first later, c.moves i = first ++ (spot, m) :: later ∧ before = first.map Prod.snd
  accepted : planAccepts c before qs = true
  crcs : i = .romall → c.crcsRight before qs

/-- Why an access fails, in the order in which its causes are met (60_exceptions.md R360). -/
inductive Failure where
  /-- The remapped address fails validation. -/
  | address (e : Info)
  /-- P0 sees no toggle. -/
  | toggle
  /-- A free-running P1 sees no clock edge. -/
  | edge
  /-- P3 is not acknowledged. -/
  | ack
deriving DecidableEq, Repr

/-- The answers with which P0 of an access never sees its toggle (41_bus_engine.md R203, R204). -/
def Handshake.untoggled (c : Cfg) (pre : PrePhase) (h : Handshake) : Bool :=
  match pre, h.pre with
  | .waitSpace, x :: xs => decide (xs.length = c.waitSyncLimit) && neverToggles (levelOf x) xs
  | .vsync, x :: xs => decide (xs.length = c.vsyncLimit) && neverToggles (levelOf x) xs
  | _, _ => false

/-- An access fails on this reply. -/
def Cfg.accessFails (c : Cfg) (kind : CycleKind) (la : Word) (r : Reply) : Failure → Bool
  | .address e =>
    match c.decodeAddr (c.remapped r.addressCtx la) with
    | .error e' => decide (e' = e)
    | .ok _ => false
  | .toggle => c.legalAddress (c.remapped r.addressCtx la) && r.hs.untoggled c (c.seqAccess r.addressCtx la).pre
  | .edge => c.legalAddress (c.remapped r.addressCtx la) && r.hs.unsynchronized c (c.seqAccess r.addressCtx la).pre
  | .ack => c.legalAddress (c.remapped r.addressCtx la) && r.hs.unanswered c kind (c.seqAccess r.addressCtx la).pre

/-- The access of a move fails on this reply. -/
def Move.fails (c : Cfg) (r : Reply) (f : Failure) : Move → Bool
  | .bank _ _ => false
  | .write la _ => c.accessFails .write la r f
  | .read la _ _ => c.accessFails .read la r f

/-- The answers the cycle of a failed access uses up. -/
def Failure.answers (r : Reply) : Failure → List Raw
  | .address _ => []
  | .toggle => r.hs.pre
  | .edge => r.hs.pre ++ r.hs.edge
  | .ack => r.hs.answersToAck

/-- The events before the cycle of a move: a read's data remap comes after it (90_conflicts.md C8). -/
def Move.remaps (c : Cfg) (r : Reply) : Move → List Event
  | .bank _ _ => []
  | .write la v => c.aremapEvents r.addressCtx la ++ c.dremapEvents r.dataCtx la v
  | .read la _ _ => c.aremapEvents r.addressCtx la

/-- The draws for the remaps before the cycle of a move (assumption 19). -/
def Move.remapDraws (c : Cfg) (r : Reply) : Move → List Raw
  | .bank _ _ => []
  | .write _ _ => c.addressDraw r.addressCtx ++ c.dataDraw r.dataCtx
  | .read _ _ _ => c.addressDraw r.addressCtx

/-- The answers a failed access uses up. -/
def Move.failureAnswers (c : Cfg) (r : Reply) (f : Failure) (m : Move) : List Raw := m.remapDraws c r ++ f.answers r

/-- The events a failed access appends (60_exceptions.md R364). -/
def Move.failureEvents (c : Cfg) (r : Reply) (f : Failure) (m : Move) : List Event :=
  m.remaps c r ++
    match f, m with
    | .ack, .write la _ => [c.abortOf r .write la]
    | .ack, .read la _ _ => [c.abortOf r .read la]
    | _, _ => []

/-- The code and reason of a failed access (60_exceptions.md R351, R353). -/
def Failure.reason (c : Cfg) (r : Reply) (la : Word) : Failure → Code × Info
  | .address e => (.unimplemented, e)
  | .toggle => (.timeout, if (c.seqAccess r.addressCtx la).pre = .vsync then .vsyncTimeout else .waitSpaceTimeout)
  | .edge => (.timeout, .syncTimeout)
  | .ack => (.timeout, .ackTimeout)

/-- A read completes on this reply, and the compare of its value disagrees. -/
def Cfg.disagrees (c : Cfg) (la : Word) (e m : Datum) (r : Reply) : Bool :=
  c.accessRuns .read la r && !maskedEq (c.readValue la r) e m

/-- The record of a compare that failed: the address before remap, what was expected and what was read, both under
the mask, the table, the index and the step (60_exceptions.md R352, 43_ram_check.md R283). -/
def Cfg.mismatchRecord (c : Cfg) (spot : Spot) (r : Reply) (la : Word) (e m : Datum) : Result :=
  { Result.blank with
    code := .mismatch, info := .dataMismatch, addr := la, expected := (e &&& m).zeroExtend 32
    actual := (c.readValue la r &&& m).zeroExtend 32
    table := spot.table, index := spot.index, step := spot.step }

/-- How many bus cycles a command performs on a path with no error (70_reset_and_hazards.md R412). -/
def Cfg.cycleCount (c : Cfg) : Instr → Nat
  | .idle => 0
  | .check => 0
  | .busw _ => 0
  | .accw _ => 0
  | .mrd _ => 1
  | .mwr _ _ => 1
  | .wint _ _ _ => 0
  | .iack => c.ackCycles
  | .romall => (c.romTable.map fun rom => sampleCount rom.length + rom.length).sum
  | .romchk idx => match c.romTable[idx.toNat]? with | some rom => sampleCount rom.length + rom.length | none => 0
  | .romraw => (c.romTable.map RomRegion.length).sum
  | .romcrc idx => match c.romTable[idx.toNat]? with | some rom => rom.length | none => 0
  | .rammarch idx _ => match c.ramTable[idx.toNat]? with | some ram => 4 * (c.ramGeometry ram).count | none => 0
  | .ramcs _ => (c.ramTable.map fun ram => 2 * (c.ramGeometry ram).count).sum
  | .ramaddr idx =>
    match c.ramTable[idx.toNat]? with
    | some ram =>
      let p := (boundaryCells (c.ramGeometry ram).count).length
      p * (p + 3)
    | none => 0
  | .ramfill idx _ => match c.ramTable[idx.toNat]? with | some ram => (c.ramGeometry ram).count | none => 0
  | .ramread idx => match c.ramTable[idx.toNat]? with | some ram => (c.ramGeometry ram).count | none => 0
  | .ioin _ => 1
  | .ioout _ _ => 1
  | .intchk _ extVec _ _ => if extVec then c.ackCycles else 0

end Sys2Proof.Machine
end

