-- ==== Sys2Proof/Certificates/Slice0/Obligations.lean ====
section
/-! DEFINITION. The statements for the provers. Each docstring names the rules of spec/ it formalises; where a clause is the model's own choice it names the log entry. -/

open Sys2Proof Sys2Proof.Machine

/-! ### Encoding -/

/-- Decoding the frame of any command gives the command back, with every operand (30_encoding.md R111, R114, R116,
R118). -/
def Obligations.DecodeOfEncode : Prop := ∀ i : Instr, decode (encode i) = .ok i

/-- No two frames decode to one command: every legal frame is the frame of its command (R115, R127). -/
def Obligations.EncodeOfDecode : Prop := ∀ (f : Frame) (i : Instr), decode f = .ok i → encode i = f

/-- The decoder accepts exactly the frames of the rows of spec/opcode_table.json (R114, R115, R118). -/
def Obligations.DecodesExactlyTheTable : Prop := ∀ f : Frame, (∃ i, decode f = .ok i) ↔ legalFrame f = true

/-- Decoding the bytes of a command at the head of a stream gives the command and the rest of the stream (R110). -/
def Obligations.StreamRoundTrip : Prop :=
  ∀ (i : Instr) (rest : List Byte), decodeBytes (encodeBytes i ++ rest) = .ok (i, rest)

/-- Words written out from the spec's encodings decode to the commands they stand for (95_test_vectors.md ENC-3,
ENC-5, ENC-7, ENC-14, ENC-17, ENC-22; illegal: ENC-30, ENC-32 to ENC-36). -/
def Obligations.DecodesWrittenWords : Prop :=
  decode 0x000000000400100100000004 = .ok (.accw 0x04001001)
    ∧ decode 0x0000005A0000600000000006 = .ok (.mwr 0x6000 0x5A)
    ∧ decode 0x0000000000000BB800010807 = .ok (.wint 8 true 3000)
    ∧ decode 0x000000000000000700000020 = .ok (.rammarch 0 7)
    ∧ decode 0x000000550000000000000023 = .ok (.ramfill 0 0x55)
    ∧ decode 0x0000000300000BB800010840 = .ok (.intchk 8 true 3000 3)
    ∧ decode 0x000000000000000000000000 = .error (.unknownOpcode 0)
    ∧ decode 0x000000000000000000020001 = .error .reservedBits
    ∧ decode 0x000000000000000100000001 = .error .nonzeroX
    ∧ decode 0x000100000000600000000006 = .error .nonzeroY
    ∧ decode 0x000000000000000000010011 = .error .nonzeroB
    ∧ decode 0x000001000000000000000140 = .error .nonzeroY

/-! ### Steps, construction, invariants -/

/-- A step runs the command the frame at the pc decodes to, and then advances the pc by one (10_state.md R36). -/
def Obligations.StepRunsDecodedCommand : Prop :=
  ∀ (s t : State) (f : Frame) (i : Instr), s.program[s.pc]? = some f → decode f = .ok i → exec i s = .next t →
    step s = .next { t with pc := t.pc + 1 }

/-- An illegal frame sets the IllegalCommand record, keeps a refusal mark and advances the pc; it changes nothing
else: no bus activity, no callback, no sample, no event (30_encoding.md R115). The entry in `marks` is the model's
(assumption 10), and so is that the pins stay as they were, where 60_exceptions.md R362 has an error restore idle
(assumption 25). -/
def Obligations.IllegalFrameIsRefused : Prop :=
  ∀ (s : State) (f : Frame), s.program[s.pc]? = some f → legalFrame f = false →
    step s = .next
      { s with
        result := { Result.blank with code := .unimplemented, info := .illegalCommand }
        results := s.results ++ [{ Result.blank with code := .unimplemented, info := .illegalCommand }]
        marks := s.marks ++ [⟨s.pc, .illegalCommand⟩]
        pc := s.pc + 1 }

/-- Where the command list has ended no command runs (70_reset_and_hazards.md R403). That the model says so with a
fault is its own choice (assumption 9). -/
def Obligations.RunEndsAfterLastCommand : Prop :=
  ∀ s : State, step s = .fault .runEnded ↔ s.program.length ≤ s.pc

/-- Construction refuses an ill-formed configuration, and else leaves every field the spec gives a value for at
that value (70_reset_and_hazards.md R390, R391, 10_state.md R49). The reset state is such a state, of a configuration
and a first record that are the model's (assumptions 1 and 8). Ill-formed is: a clock-master variant of a family
outside the set (00_scope.md R12), a descriptor that breaks one of the four items of 30_encoding.md R135, or one of the
checks the model infers (assumption 22): a wait bound below 1 (R19), other than two clock-master tags (R20), more than
24 address bits, a latch order that is no order of the bytes of the address (41_bus_engine.md R209), a clock phase that
does not exist. -/
def Obligations.ConstructionLeaves : Prop :=
  (∀ c : Cfg, c.wf = true ↔
    (c.clockMaster = true → c.family ∈ c.clockMasterFamilies)
      ∧ (∀ ram ∈ c.ramTable, ram.start.toNat ≤ ram.last.toNat ∧ 1 ≤ ram.step
        ∧ ram.start.toNat / 2 ^ 24 = ram.last.toNat / 2 ^ 24)
      ∧ (∀ rom ∈ c.romTable, 1 ≤ rom.length
        ∧ rom.start.toNat % 2 ^ 24 + (rom.length - 1) * (if c.busWidth = .two then 2 else 1) < 2 ^ 24
        ∧ ∀ k : Nat, k < rom.samples.length ↔ 2 ^ k < rom.length)
      ∧ ((∀ ram ∈ c.ramTable, ∃ a, c.decodeAddr ram.start = .ok a) ∧ (∀ rom ∈ c.romTable, ∃ a, c.decodeAddr rom.start = .ok a)
        ∧ (∀ e ∈ c.inputTable, ∃ a, c.decodeAddr e.address = .ok a) ∧ ∀ e ∈ c.outputTable, ∃ a, c.decodeAddr e.address = .ok a)
      ∧ (c.ramTable.length ≤ 256 ∧ c.romTable.length ≤ 256 ∧ c.inputTable.length ≤ 256 ∧ c.outputTable.length ≤ 256)
      ∧ (1 ≤ c.pollLimit ∧ 1 ≤ c.syncLimit ∧ 1 ≤ c.waitSyncLimit ∧ 1 ≤ c.vsyncLimit ∧ 1 ≤ c.clockCheckLimit)
      ∧ (∃ f g, f ≠ g ∧ c.clockMasterFamilies = [f, g])
      ∧ c.physAddrBits ≤ 24
      ∧ (c.latchBytes = 0 ∧ c.latchOrder = []
        ∨ c.latchBytes = (c.physAddrBits + 7) / 8 ∧ c.latchOrder.Perm (List.range c.latchBytes))
      ∧ (c.clockMaster = true → c.idleClockLevel ≠ [])
      ∧ ∀ e ∈ c.nextPhase, e.2 < c.idleClockLevel.length)
    ∧ (∀ (c : Cfg) (p : List Frame) (x : List Raw), c.wf = false → State.construct c p x = .refused .illFormedConfig)
    ∧ (∀ (c : Cfg) (p : List Frame) (x : List Raw), c.wf = true → ∃ s, State.construct c p x = .next s
        ∧ s.cfg = c ∧ s.program = p ∧ s.script = x ∧ s.idled = false ∧ s.pins = .unknown ∧ s.hostMask = false
        ∧ s.phase = .idle ∧ s.pc = 0 ∧ s.polls = 0 ∧ s.trace = [] ∧ s.results = [] ∧ s.activity = [])
    ∧ State.construct Config.supplied.cfg [] [] = .next State.reset

/-- The state after reset has both invariants. -/
def Obligations.InvariantsAtReset : Prop := State.reset.Inv ∧ State.reset.ClockInv

/-- Every step keeps the idle discipline and the record-keeping: no cycle under way between commands, idle pins
whenever idled, never active pins, one record for each command (10_state.md R35, R37, R42,
70_reset_and_hazards.md R395). -/
def Obligations.StepKeepsInv : Prop := ∀ s t : State, s.Inv → step s = .next t → t.Inv

/-- Every step keeps the clock-master invariant: `clk[p]` is the level last driven on phase p, and no phase is
ever driven twice running to one level, within a command or across commands (41_bus_engine.md R207,
70_reset_and_hazards.md R404). -/
def Obligations.StepKeepsClockInv : Prop :=
  ∀ s t : State, s.Inv → s.ClockInv → step s = .next t → t.ClockInv

/-- In every step the host mask is `HOST_MASK_SPAN` at everything done from the entry of P2 to `Terminate()`, false at
everything done outside, and false when the step has ended, whatever the outcome (41_bus_engine.md R217, R218). And
whatever the command and the Board's answers, the engine drives exactly what its transactions ask for, in order: in P2
the address in one step, or each of its bytes latched exactly once, and then the status flags, memory/IO among them only
on a family that has it (read as one with I/O space, assumption 39) and the lane selects only on a 16-bit bus; in P3 the
strobes; in P4 the data of a write and `Terminate()`, which ends an abort in P3 (R208 to R211, R214, R215, R221). All of
this is seen in the model's own record of the signals, each entry with its phase and its host mask (assumption 3), where
write data first shows in P4 (assumption 32). An unspecified unused lane is left out (assumption 26); the clock phases
are StepKeepsClockInv's. That the bytes latched are all of the address is a check the model infers (assumption 22). -/
def Obligations.SignalsFollowTheirPhases : Prop :=
  ∀ s t : State, s.Inv → step s = .next t →
    (∀ a ∈ newActivity s t, maskAsRuled s.cfg a) ∧ t.hostMask = false
      ∧ busDrives (newActivity s t) = (newEvents s t).flatMap s.cfg.signalsOf
      ∧ (s.cfg.latchBytes ≠ 0 →
        s.cfg.latchOrder.Perm (List.range s.cfg.latchBytes) ∧ s.cfg.physAddrBits ≤ 8 * s.cfg.latchBytes)

/-- Every command but a failed CHECK ends idle, on success and on every error path (40_contract.md R160). A command
refused because the engine is not idled is left out: it acts on nothing (60_exceptions.md R373). -/
def Obligations.ExitStateIsIdle : Prop :=
  ∀ (i : Instr) (s t : State), s.Inv → s.idled = true ∨ i = .idle → exec i s = .next t →
    i ≠ .check ∨ t.result.code = .success → t.EngineIdle ∧ t.idled = true

/-- A command other than IDLE issued while not idled: the NotIdled record, a refusal mark and the pc's advance, and
nothing else (60_exceptions.md R373, 40_contract.md R151). The form of the mark is the model's (assumption 10), and so is
that the pins stay as they were, against the idle of 40_contract.md R160 and 60_exceptions.md R362 (assumption 25). -/
def Obligations.NotIdledIsRefused : Prop :=
  ∀ (s : State) (f : Frame) (i : Instr), s.program[s.pc]? = some f → decode f = .ok i → i ≠ .idle →
    s.idled = false →
    step s = .next
      { s with
        result := { Result.blank with code := .unimplemented, info := .notIdled }
        results := s.results ++ [{ Result.blank with code := .unimplemented, info := .notIdled }]
        marks := s.marks ++ [⟨s.pc, .notIdled⟩]
        pc := s.pc + 1 }

/-- Every step writes exactly one record, keeps every earlier one as it was, and moves the pc by one; no step
changes the configuration or the command list (10_state.md R31, R36, R42, 60_exceptions.md R366). -/
def Obligations.OneRecordPerStep : Prop :=
  ∀ s t : State, s.Inv → step s = .next t →
    t.results = s.results ++ [t.result] ∧ t.pc = s.pc + 1 ∧ t.cfg = s.cfg ∧ t.program = s.program

/-- Every command gives a next state in every state, whatever the Board answers: it is legal whenever `idled` is
true, and IDLE always (60_exceptions.md R367). That a command refused because the engine is not idled is a next state
too, with its record and its mark, is the model's choice (assumption 10). -/
def Obligations.EveryCommandEnds : Prop := ∀ (i : Instr) (s : State), ∃ t, exec i s = .next t

/-- Success is the only code with no reason, and no reason is given with no other code (60_exceptions.md R350). -/
def Obligations.SuccessHasNoReason : Prop :=
  ∀ (i : Instr) (s t : State), s.Inv → exec i s = .next t → (t.result.code = .success ↔ t.result.info = .none)

/-- Which commands can report a Mismatch of their own, and for which reasons (60_exceptions.md R352); the bank-switch
callback of a sequencer that calls one may answer with any code (R374). -/
def Obligations.WhoRaisesMismatch : Prop :=
  ∀ (i : Instr) (s t : State), exec i s = .next t → t.result.code = .mismatch →
    match i with
    | .check => t.result.info = .pinMismatch
    | .romchk _ | .romall =>
      t.result.info = .dataMismatch ∨ t.result.info = .crcMismatch ∨ t.result.info = .bankSwitchFailed
    | .rammarch _ _ | .ramcs _ | .ramaddr _ => t.result.info = .dataMismatch ∨ t.result.info = .bankSwitchFailed
    | .intchk _ _ _ _ => t.result.info = .vectorMismatch
    | .romraw | .romcrc _ | .ramfill _ _ | .ramread _ | .ioin _ | .ioout _ _ => t.result.info = .bankSwitchFailed
    | .idle | .busw _ | .accw _ | .mrd _ | .mwr _ _ | .wint _ _ _ | .iack => False

/-- Unexpected comes only from INTCHK step 3 finding the line still active (60_exceptions.md R354); the bank-switch
callback of a sequencer that calls one may answer with any code (R374). -/
def Obligations.WhoRaisesUnexpected : Prop :=
  ∀ (i : Instr) (s t : State), exec i s = .next t → t.result.code = .unexpected →
    match i with
    | .intchk line _ _ _ =>
      t.result.info = .lineStillActive ∧ t.result.step = 3 ∧ t.result.table = .line ∧ t.result.index = line
    | .romall | .romchk _ | .romraw | .romcrc _ | .rammarch _ _ | .ramcs _ | .ramaddr _ | .ramfill _ _ | .ramread _
    | .ioin _ | .ioout _ _ => t.result.info = .bankSwitchFailed
    | .idle | .check | .busw _ | .accw _ | .mrd _ | .mwr _ _ | .wint _ _ _ | .iack => False

/-- After a failed CHECK the failing item is held, the engine is not idled, every command but IDLE is refused and
leaves that so, and IDLE is not (60_exceptions.md R363, R373, 40_contract.md R153). That a refusal is a next state, its
mark an entry of the state's own list, is the model's choice (assumption 10); that it leaves the pins held, where R160
and R362 have a command end with idle pins, is the model's reading (assumption 25). -/
def Obligations.FailedCheckForcesIdle : Prop :=
  ∀ s t : State, s.idled = true → exec .check s = .next t → t.result.code ≠ .success →
    (∃ item ∈ s.cfg.checkItems, t.pins = .holding item ∧ t.result.pin = some item) ∧ t.idled = false
      ∧ (∀ i : Instr, i ≠ .idle → ∃ u, exec i t = .next u
          ∧ u.result = { Result.blank with code := .unimplemented, info := .notIdled }
          ∧ u.pins = t.pins ∧ u.idled = false ∧ u.trace = t.trace ∧ u.activity = t.activity)
      ∧ ∃ u, exec .idle t = .next u ∧ u.result = Result.blank ∧ u.EngineIdle ∧ u.idled = true

/-- What each command leaves unchanged: it writes no state that 10_state.md R50 does not list for it. `results`,
`script` and `activity` are the run's records (R42, R47, assumptions 2, 3 and 7). -/
def Obligations.CommandFrame : Prop :=
  ∀ (i : Instr) (s t : State), s.Inv → s.idled = true → exec i s = .next t →
    match i with
    | .idle =>
      t = { s with
        pins := t.pins, clk := t.clk, hostMask := t.hostMask, idled := t.idled, booted := t.booted
        phase := t.phase, result := t.result, results := t.results, activity := t.activity }
    | .check =>
      t = { s with
        pins := t.pins, idled := t.idled, result := t.result, results := t.results
        script := t.script, activity := t.activity }
    | .busw _ | .accw _ => t = { s with result := t.result, results := t.results }
    | .mrd _ | .mwr _ _ | .iack => BusOnly s t
    | .wint _ _ _ =>
      t = { s with
        polls := t.polls, result := t.result, results := t.results, script := t.script, activity := t.activity }
    | .romall | .romchk _ | .romraw | .romcrc _ | .rammarch _ _ | .ramcs _ | .ramaddr _ | .ramfill _ _
    | .ramread _ | .ioin _ | .ioout _ _ | .intchk _ _ _ _ => Carried s t

/-! ### The Contract commands -/

/-- IDLE in every state: idle pins, the clock phases driven to their idle levels by the first IDLE of a clock-master
engine and by no other, Success, nothing else; a second IDLE changes only the records (40_contract.md R152). Which
IDLE is the first one the model remembers in a bit of its own (`booted`, assumption 6); that a second one changes
nothing is R152's own inference. -/
def Obligations.IdleDrivesIdle : Prop :=
  ∀ s : State, ∃ t, exec .idle s = .next t
    ∧ t = { s with
        pins := .idle, hostMask := false, phase := .idle, idled := true, booted := true
        clk := if s.cfg.clockMaster = true ∧ s.booted = false then s.cfg.idleClockLevel else s.clk
        result := Result.blank, results := s.results ++ [Result.blank], activity := t.activity }
    ∧ newEvents s t = []
    ∧ (∀ p, drivenLevels p (newActivity s t)
        = if s.cfg.clockMaster = true ∧ s.booted = false then s.cfg.idleClockLevel[p]?.toList else [])
    ∧ ∃ u, exec .idle t = .next u
      ∧ u = { t with results := t.results ++ [Result.blank], activity := u.activity }
      ∧ ∀ p, drivenLevels p (newActivity t u) = []

/-- CHECK on answers by which every item passes, and on answers by which one item fails after the items before it
passed: the first failure is reported and held, later items are not tested, no event, no clock drive
(40_contract.md R153, R161, R162). -/
def Obligations.CheckTestsItsItems : Prop :=
  (∀ (s : State) (xs : List (CheckItem × List Raw)) (rest : List Raw), s.idled = true →
    s.cfg.checkItems = xs.map Prod.fst → (∀ x ∈ xs, x.1.passes s.cfg x.2 = true) →
    s.script = xs.flatMap Prod.snd ++ rest →
    ∃ as, exec .check s = .next
        { s with
          pins := .idle, script := rest, activity := s.activity ++ as, result := Result.blank
          results := s.results ++ [Result.blank] }
      ∧ ∀ p, drivenLevels p as = [])
  ∧ ∀ (s : State) (xs : List (CheckItem × List Raw)) (item : CheckItem) (later : List CheckItem) (level : Bool)
      (answers rest : List Raw), s.idled = true →
    s.cfg.checkItems = xs.map Prod.fst ++ item :: later → (∀ x ∈ xs, x.1.passes s.cfg x.2 = true) →
    item.fails s.cfg level answers = true → s.script = xs.flatMap Prod.snd ++ answers ++ rest →
    ∃ as r, exec .check s = .next
        { s with
          pins := .holding item, idled := false, script := rest, activity := s.activity ++ as, result := r
          results := s.results ++ [r] }
      ∧ r = { Result.blank with
          code := .mismatch, info := .pinMismatch, expected := item.expectedNumber
          actual := if level then 1 else 0, pin := some item }
      ∧ ∀ p, drivenLevels p as = []

/-- BUSW returns `DATA_BUS_BYTES` for every address; ACCW returns 1 on an 8-bit bus or where BL is set, else 2;
neither writes anything but the record (40_contract.md R154, R155). That BUSW does not validate the address is R154's
own inference from 20_memory.md R77. -/
def Obligations.WidthQueries : Prop :=
  ∀ (s : State) (addr : Word), s.idled = true →
    (∃ r, exec (.busw addr) s = .next { s with result := r, results := s.results ++ [r] }
      ∧ r = { Result.blank with value := if s.cfg.busWidth = .two then 2 else 1 })
    ∧ ∃ r, exec (.accw addr) s = .next { s with result := r, results := s.results ++ [r] }
      ∧ r = { Result.blank with value := if s.cfg.busWidth = .one ∨ addr.getLsbD 26 = true then 1 else 2 }

/-- Address validation: the checks in the order written, the first that fails reported, and the latch fields of an
address that passes (20_memory.md R104, with the lanes of R103). -/
def Obligations.AddressValidation : Prop :=
  ∀ (c : Cfg) (la : Word),
    (la.toNat / 2 ^ 28 ≠ 0 → c.decodeAddr la = .error .reservedAddressBits) ∧
    (la.toNat / 2 ^ 28 = 0 →
      (la.getLsbD 25 = true ∧ la.getLsbD 27 = true → c.decodeAddr la = .error .reservedAddressBits) ∧
      (¬(la.getLsbD 25 = true ∧ la.getLsbD 27 = true) →
        (la.getLsbD 24 = true ∧ c.hasIoSpace = false → c.decodeAddr la = .error .noIoSpace) ∧
        (¬(la.getLsbD 24 = true ∧ c.hasIoSpace = false) →
          (la.getLsbD 25 = true ∧ c.hasBlanking = false → c.decodeAddr la = .error .noBlanking) ∧
          (¬(la.getLsbD 25 = true ∧ c.hasBlanking = false) →
            (la.getLsbD 27 = true ∧ c.hasVsync = false → c.decodeAddr la = .error .noVsync) ∧
            (¬(la.getLsbD 27 = true ∧ c.hasVsync = false) →
              (la.getLsbD 26 = true ∧ c.busWidth = .one → c.decodeAddr la = .error .noLanes) ∧
              (¬(la.getLsbD 26 = true ∧ c.busWidth = .one) →
                (c.busWidth = .two ∧ la.getLsbD 26 = false ∧ la.getLsbD 0 = true →
                  c.decodeAddr la = .error .misaligned) ∧
                (¬(c.busWidth = .two ∧ la.getLsbD 26 = false ∧ la.getLsbD 0 = true) →
                  ∃ a, c.decodeAddr la = .ok a
                    ∧ a.space = (if la.getLsbD 24 then .io else .mem)
                    ∧ a.pre = (if la.getLsbD 25 then .waitSpace else if la.getLsbD 27 then .vsync else .none)
                    ∧ a.paddr.toNat = la.toNat % 2 ^ 24 % 2 ^ c.physAddrBits
                    ∧ a.w = (if c.busWidth = .one ∨ la.getLsbD 26 = true then .one else .two)
                    ∧ a.lane = (if c.busWidth = .one then .low
                        else if la.getLsbD 26 = false then .both
                        else if c.byteOrder = .big then (if la.getLsbD 0 then .low else .high)
                        else (if la.getLsbD 0 then .high else .low)))))))))

/-- MRD and MWR of an address that fails validation: Unimplemented with the reason and the address, and no bus
activity, no sample, no event (20_memory.md R83, R84, R86, R104, 30_encoding.md R122). -/
def Obligations.AddressRefusedBeforeTheBus : Prop :=
  ∀ (s : State) (addr : Word) (e : Info) (i : Instr), i = .mrd addr ∨ (∃ data, i = .mwr addr data) →
    s.idled = true → s.EngineIdle → s.cfg.decodeAddr addr = .error e →
    ∃ r, exec i s = .next { s with result := r, results := s.results ++ [r] }
      ∧ r = { Result.blank with code := .unimplemented, info := e, addr := addr }

/-- MRD completes on answers that fit: one Cyc, the value of its lane, nothing beyond the bus-cycle state
(40_contract.md R156, 20_memory.md R81, 41_bus_engine.md R213). -/
def Obligations.ReadCompletes : Prop :=
  ∀ (s : State) (addr : Word) (a : Access) (h : Handshake) (bus : Raw) (rest : List Raw), s.idled = true →
    s.EngineIdle → s.cfg.decodeAddr addr = .ok a → h.fits s.cfg .read a.pre = true →
    s.script = h.answers ++ bus :: rest →
    ∃ t d, exec (.mrd addr) s = .next t
      ∧ d = (match a.lane with
        | .both => bus
        | .low => (bus.extractLsb' 0 8).zeroExtend 16
        | .high => (bus.extractLsb' 8 8).zeroExtend 16)
      ∧ Completed s t { Result.blank with value := d.zeroExtend 32 } [.cyc .read a.space a.paddr a.w a.lane d] rest
      ∧ BusOnly s t

/-- MWR completes on answers that fit: one Cyc, only `Y[7:0]` at width 1, no read back (40_contract.md R157,
20_memory.md R81). The draw for the unused lane is the model's record of an unspecified value (assumption 26). -/
def Obligations.WriteCompletes : Prop :=
  ∀ (s : State) (addr : Word) (data : Datum) (a : Access) (h : Handshake) (draw : Raw) (rest : List Raw),
    s.idled = true → s.EngineIdle → s.cfg.decodeAddr addr = .ok a → h.fits s.cfg .write a.pre = true →
    s.script = h.answers ++ laneDraw s.cfg a.w draw ++ rest →
    ∃ t d, exec (.mwr addr data) s = .next t
      ∧ d = (if a.w = .one then (data.extractLsb' 0 8).zeroExtend 16 else data)
      ∧ Completed s t Result.blank [.cyc .write a.space a.paddr a.w a.lane d] rest
      ∧ BusOnly s t

/-- Whatever the Board answers, MRD or MWR of a legal address does at most one bus cycle: one Cyc where it completes,
one Abort where the acknowledge timed out, no event where an earlier wait did (20_memory.md R87). The cycle latch holds
the operands of that cycle (10_state.md R39, 41_bus_engine.md R202); that it still holds them after the cycle is the
model's choice (assumption 37). The phases entered, and what each drives, are those of R202 in its order, up to the exit
of R216, as the model's record of the signals shows them (assumptions 3, 26, 32 and 39). -/
def Obligations.AtMostOneCycle : Prop :=
  ∀ (s t : State) (addr : Word) (i : Instr) (kind : CycleKind) (wdata : Datum) (a : Access), s.Inv → s.idled = true →
    (i = .mrd addr ∧ kind = .read ∧ wdata = 0
      ∨ (∃ data, i = .mwr addr data ∧ wdata = if a.w = .one then (data.extractLsb' 0 8).zeroExtend 16 else data)
        ∧ kind = .write) →
    s.cfg.decodeAddr addr = .ok a → exec i s = .next t →
    t.EngineIdle ∧ BusOnly s t
      ∧ t.latch = ⟨kind, a.space, a.pre, a.paddr, a.w, a.lane, wdata, t.latch.rdata⟩ ∧
      (t.result.code = .success
          ∧ (∃ d, (d = if kind = .read then t.latch.rdata else wdata)
            ∧ newEvents s t = [.cyc kind a.space a.paddr a.w a.lane d]
            ∧ busActs (newActivity s t) = s.cfg.cycleActs kind a d)
        ∨ t.result = { Result.blank with code := .timeout, info := .ackTimeout, addr := addr }
          ∧ newEvents s t = [.abort kind a.space a.paddr a.w a.lane .p3]
          ∧ busActs (newActivity s t) = s.cfg.abortActs kind a
        ∨ t.result = { Result.blank with code := .timeout, info := .syncTimeout, addr := addr }
          ∧ newEvents s t = [] ∧ busActs (newActivity s t) = earlyEntries a.pre ++ [(.idle, .enter)]
        ∨ (t.result = { Result.blank with code := .timeout, info := .waitSpaceTimeout, addr := addr }
              ∧ a.pre = .waitSpace
            ∨ t.result = { Result.blank with code := .timeout, info := .vsyncTimeout, addr := addr }
              ∧ a.pre = .vsync)
          ∧ newEvents s t = [] ∧ busActs (newActivity s t) = [(.p0, .enter), (.idle, .enter)])

/-- MRD and MWR time out after exactly the wait's limit of polls: the acknowledge in P3 with an Abort event, the
clock edge of a free-running P1 and the toggles of P0 with none (41_bus_engine.md R203 to R205, R211, R221). -/
def Obligations.BoundedWaitsTimeOut : Prop :=
  ∀ (s : State) (addr : Word) (i : Instr) (kind : CycleKind) (a : Access), s.idled = true → s.EngineIdle →
    (i = .mrd addr ∧ kind = .read ∨ (∃ data, i = .mwr addr data) ∧ kind = .write) →
    s.cfg.decodeAddr addr = .ok a →
    (∀ (h : Handshake) (rest : List Raw), h.unanswered s.cfg kind a.pre = true → s.script = h.answersToAck ++ rest →
      ∃ t, exec i s = .next t
        ∧ Completed s t { Result.blank with code := .timeout, info := .ackTimeout, addr := addr }
          [.abort kind a.space a.paddr a.w a.lane .p3] rest)
    ∧ (∀ (h : Handshake) (rest : List Raw), h.unsynchronized s.cfg a.pre = true → s.script = h.pre ++ h.edge ++ rest →
      ∃ t, exec i s = .next t
        ∧ Completed s t { Result.blank with code := .timeout, info := .syncTimeout, addr := addr } [] rest)
    ∧ (∀ (x : Raw) (xs rest : List Raw), a.pre = .waitSpace → xs.length = s.cfg.waitSyncLimit →
      neverToggles (levelOf x) xs = true → s.script = x :: xs ++ rest →
      ∃ t, exec i s = .next t
        ∧ Completed s t { Result.blank with code := .timeout, info := .waitSpaceTimeout, addr := addr } [] rest)
    ∧ (∀ (x : Raw) (xs rest : List Raw), a.pre = .vsync → xs.length = s.cfg.vsyncLimit →
      neverToggles (levelOf x) xs = true → s.script = x :: xs ++ rest →
      ∃ t, exec i s = .next t
        ∧ Completed s t { Result.blank with code := .timeout, info := .vsyncTimeout, addr := addr } [] rest)

/-- WINT on a line the family has: Success at the first sample at the level, counted in `polls`; Timeout when
`SAMPLES(timeout)` samples did not match; it samples that line only and writes nothing else. `SAMPLES(0)` is 1.
On a line the family lacks it is refused (40_contract.md R158, 60_exceptions.md R356 to R358). The model's own here are
the record of each sample, with the line's electrical level (assumptions 3 and 15), a line of the M68000 as a sample of
the encoded level (assumption 14), and `addr = 0` in a failing WINT's record (assumption 24). -/
def Obligations.WaitForInterruptLine : Prop :=
  ∀ (s : State) (idx : Byte) (level : Bool) (timeout : Word), s.idled = true → s.EngineIdle →
    s.cfg.samples 0 = 1
    ∧ (∀ (l : Line) (misses : List Raw) (hit : Raw) (rest : List Raw), s.cfg.lineAt idx = some l →
      misses.length < s.cfg.samples timeout → (∀ x ∈ misses, lineLevelOf s.cfg l x ≠ level) →
      lineLevelOf s.cfg l hit = level → s.script = misses ++ hit :: rest →
      ∃ r, exec (.wint idx level timeout) s = .next
          { s with
            polls := misses.length + 1, script := rest, result := r, results := s.results ++ [r]
            activity := s.activity ++ (misses ++ [hit]).flatMap fun x =>
              [s.recorded (.sample (lineQuery s.cfg l) x),
                s.recorded (.lineLevel l (lineLevelOf s.cfg l x) (s.cfg.electrical l (lineLevelOf s.cfg l x)))] }
        ∧ r = { Result.blank with table := .line, index := idx })
    ∧ (∀ (l : Line) (misses rest : List Raw), s.cfg.lineAt idx = some l →
      misses.length = s.cfg.samples timeout → (∀ x ∈ misses, lineLevelOf s.cfg l x ≠ level) →
      s.script = misses ++ rest →
      ∃ r, exec (.wint idx level timeout) s = .next
          { s with
            polls := misses.length, script := rest, result := r, results := s.results ++ [r]
            activity := s.activity ++ misses.flatMap fun x =>
              [s.recorded (.sample (lineQuery s.cfg l) x),
                s.recorded (.lineLevel l (lineLevelOf s.cfg l x) (s.cfg.electrical l (lineLevelOf s.cfg l x)))] }
        ∧ r = { Result.blank with code := .timeout, info := .lineTimeout, table := .line, index := idx })
    ∧ (s.cfg.lineAt idx = none →
      ∃ r, exec (.wint idx level timeout) s = .next { s with result := r, results := s.results ++ [r] }
        ∧ r = { Result.blank with code := .unimplemented, info := .noSuchLine, table := .line, index := idx })

/-- IDX 0 to 7 name IRQ0 to IRQ7, 8 names NMI, 9 to 255 no line. WINT and INTCHK of a number that names no line, or
a line the family lacks, are refused with no bus activity (30_encoding.md R117), with the table and index of
40_contract.md R158 and, for INTCHK, step 1 (44_io_interrupt_check.md R323). The records' `addr = 0` is the model's
reading (assumption 24). -/
def Obligations.NoSuchLine : Prop :=
  ∀ (s : State) (idx : Byte), s.idled = true → s.EngineIdle →
    (9 ≤ idx.toNat ∨ idx.toNat = 8 ∧ Line.nmi ∉ s.cfg.lines ∨ ∃ n : Fin 8, idx.toNat = n.val ∧ Line.irq n ∉ s.cfg.lines) →
    (∀ (level : Bool) (timeout : Word), ∃ r,
      exec (.wint idx level timeout) s = .next { s with result := r, results := s.results ++ [r] }
        ∧ r = { Result.blank with code := .unimplemented, info := .noSuchLine, table := .line, index := idx })
    ∧ ∀ (extVec : Bool) (timeout : Word) (vector : Byte), ∃ r,
      exec (.intchk idx extVec timeout vector) s = .next { s with result := r, results := s.results ++ [r] }
        ∧ r = { Result.blank with
            code := .unimplemented, info := .noSuchLine, table := .line, index := idx, step := 1 }

/-- IACK completes on answers that fit: the fixed value with no event where the family has no acknowledge cycle, else
one Cyc for each cycle of its kind and the last one's vector (40_contract.md R159, 41_bus_engine.md R230 to R234). The
address entry is the model's choice (assumption 23), and so are the sample of the data pins taken where VPA answered,
with bit 2 of the Board's answer telling which was seen where READY and VPA come together (assumption 13); the vector of
an `iack` acknowledge on a family without an acknowledge line is its reading (assumption 30). -/
def Obligations.AcknowledgeCompletes : Prop :=
  ∀ (s : State) (a : AckReply) (rest : List Raw), s.idled = true → s.EngineIdle → a.fits s.cfg = true →
    s.script = a.answers s.cfg ++ rest →
    ∃ t, exec .iack s = .next t
      ∧ Completed s t { Result.blank with value := (a.vector s.cfg).zeroExtend 32 } (a.events s.cfg) rest
      ∧ BusOnly s t

/-- An acknowledge cycle that is not answered in `POLL_LIMIT` polls ends IACK with AckTimeout and one Abort, and one
that sees no clock edge in `SYNC_LIMIT` polls ends it with SyncTimeout and no event: of the kind `double` the second
cycle is then not run, and where it is the second one that times out the first one's Cyc stands before it
(41_bus_engine.md R205, R211, R216, R221, R233 to R235). The address entry is the model's choice (assumption 23), and so
is the result's `addr = 0` (assumption 24). -/
def Obligations.AcknowledgeTimesOut : Prop :=
  ∀ (s : State) (level : Raw) (why : Info) (answers : List Raw) (events : List Event) (rest : List Raw),
    s.idled = true → s.EngineIdle → s.cfg.ackKind ≠ .none → AckStops s.cfg level why answers events →
    s.script = answers ++ rest →
    ∃ t, exec .iack s = .next t ∧ Completed s t { Result.blank with code := .timeout, info := why } events rest
      ∧ BusOnly s t

/-- What a byte is driven on is what a sample of the same lane reads, and the other lane does not matter
(20_memory.md R81, 41_bus_engine.md R213, R214). -/
def Obligations.LanesCarryTheirByte : Prop :=
  ∀ (d : Datum) (other : Byte),
    sampledDatum .both (drivenBus .both d other) = d
      ∧ sampledDatum .low (drivenBus .low d other) = (d.extractLsb' 0 8).zeroExtend 16
      ∧ sampledDatum .high (drivenBus .high d other) = (d.extractLsb' 0 8).zeroExtend 16

/-! ### RomCheck -/

/-- ROMCHK completes: the samples right, every cell read once in order, the CRC right (42_rom_check.md R258 to R261).
The `ctx` of each remap call, where a remap is configured, is a draw of the model's own (assumption 19). -/
def Obligations.RomChkCompletes : Prop :=
  ∀ (s : State) (idx : Byte) (rom : RomRegion) (ps qs : List Reply) (rest : List Raw), s.idled = true →
    s.EngineIdle → s.cfg.romTable[idx.toNat]? = some rom → planAccepts s.cfg (s.cfg.samplePlan idx rom) ps = true →
    planAccepts s.cfg (s.cfg.romPlan idx rom) qs = true →
    s.cfg.crcOf rom (planValues s.cfg (s.cfg.romPlan idx rom) qs) = rom.crc32 →
    s.script = planAnswers s.cfg (s.cfg.samplePlan idx rom) ps ++ planAnswers s.cfg (s.cfg.romPlan idx rom) qs ++ rest →
    ∃ t, exec (.romchk idx) s = .next t
      ∧ Completed s t { Result.blank with value := rom.crc32, table := .rom, index := idx }
        (planEvents s.cfg (s.cfg.samplePlan idx rom) ps ++ planEvents s.cfg (s.cfg.romPlan idx rom) qs) rest

/-- ROMCRC captures the CRC-32 of the values the cells gave and compares nothing (R259, R260, R264). The `ctx` of each
remap call, where a remap is configured, is a draw of the model's own (assumption 19). -/
def Obligations.RomCrcCompletes : Prop :=
  ∀ (s : State) (idx : Byte) (rom : RomRegion) (qs : List Reply) (rest : List Raw), s.idled = true →
    s.EngineIdle → s.cfg.romTable[idx.toNat]? = some rom → planAccepts s.cfg (s.cfg.romPlan idx rom) qs = true →
    s.script = planAnswers s.cfg (s.cfg.romPlan idx rom) qs ++ rest →
    ∃ t, exec (.romcrc idx) s = .next t
      ∧ Completed s t
        { Result.blank with
          value := s.cfg.crcOf rom (planValues s.cfg (s.cfg.romPlan idx rom) qs), table := .rom, index := idx }
        (planEvents s.cfg (s.cfg.romPlan idx rom) qs) rest

/-- ROMRAW reads every cell of every region in order and returns nothing (R254, R263). The `ctx` of each remap call,
where a remap is configured, is a draw of the model's own (assumption 19). -/
def Obligations.RomRawCompletes : Prop :=
  ∀ (s : State) (qs : List Reply) (rest : List Raw), s.idled = true → s.EngineIdle →
    planAccepts s.cfg s.cfg.romRawPlan qs = true → s.script = planAnswers s.cfg s.cfg.romRawPlan qs ++ rest →
    ∃ t, exec .romraw s = .next t ∧ Completed s t Result.blank (planEvents s.cfg s.cfg.romRawPlan qs) rest

/-- ROMALL runs both passes over every region in ascending order (R254, R262). The `ctx` of each remap call, where a
remap is configured, is a draw of the model's own (assumption 19). -/
def Obligations.RomAllCompletes : Prop :=
  ∀ (s : State) (ps : List (List Reply × List Reply)) (rest : List Raw), s.idled = true → s.EngineIdle →
    s.cfg.romAllAccepts 0 s.cfg.romTable ps = true →
    s.script = planAnswers s.cfg (s.cfg.romAllPlan 0 s.cfg.romTable) (ps.flatMap fun p => p.1 ++ p.2) ++ rest →
    ∃ t, exec .romall s = .next t
      ∧ Completed s t Result.blank
        (planEvents s.cfg (s.cfg.romAllPlan 0 s.cfg.romTable) (ps.flatMap fun p => p.1 ++ p.2)) rest

/-- ROMCHK stops at the first sample that differs, and reports a CRC that differs only where the samples are right;
nothing runs after the failure (R258, R259, R265). ROMALL does the same in each region of its walk, the regions before
it right in samples and CRC, and reports the region's index (R254, R262). The `ctx` of each remap call, where a remap is
configured, is a draw of the model's own (assumption 19). -/
def Obligations.RomFirstMismatch : Prop :=
  (∀ (s : State) (idx : Byte) (rom : RomRegion) (ps : List Reply) (rest : List Raw), s.idled = true →
      s.EngineIdle → s.cfg.romTable[idx.toNat]? = some rom →
      (∀ (k : Nat) (r : Reply) (d : Datum) (before : List Move), k < sampleCount rom.length →
        before = bankMoves .rom idx rom.bankSwitch ++ (List.range k).map (fun j =>
          .read ((s.cfg.romGeometry rom).cell (2 ^ j)) (s.cfg.romSample rom j) (BitVec.allOnes 16)) →
        planAccepts s.cfg before ps = true →
        (Move.read ((s.cfg.romGeometry rom).cell (2 ^ k)) 0 0).accepts s.cfg r = true →
        d = s.cfg.readValue ((s.cfg.romGeometry rom).cell (2 ^ k)) r → d ≠ s.cfg.romSample rom k →
        s.script = planAnswers s.cfg before ps
          ++ (Move.read ((s.cfg.romGeometry rom).cell (2 ^ k)) 0 0).answers s.cfg r ++ rest →
        ∃ t, exec (.romchk idx) s = .next t
          ∧ Completed s t
            { Result.blank with
              code := .mismatch, info := .dataMismatch, addr := (s.cfg.romGeometry rom).cell (2 ^ k)
              expected := (s.cfg.romSample rom k).zeroExtend 32, actual := d.zeroExtend 32, table := .rom, index := idx }
            (planEvents s.cfg before ps ++ (Move.read ((s.cfg.romGeometry rom).cell (2 ^ k)) 0 0).events s.cfg r) rest)
      ∧ ∀ (qs : List Reply) (f : Word), planAccepts s.cfg (s.cfg.samplePlan idx rom) ps = true →
        planAccepts s.cfg (s.cfg.romPlan idx rom) qs = true →
        f = s.cfg.crcOf rom (planValues s.cfg (s.cfg.romPlan idx rom) qs) → f ≠ rom.crc32 →
        s.script = planAnswers s.cfg (s.cfg.samplePlan idx rom) ps ++ planAnswers s.cfg (s.cfg.romPlan idx rom) qs
          ++ rest →
        ∃ t, exec (.romchk idx) s = .next t
          ∧ Completed s t
            { Result.blank with
              code := .mismatch, info := .crcMismatch, addr := rom.start, expected := rom.crc32, actual := f
              table := .rom, index := idx }
            (planEvents s.cfg (s.cfg.samplePlan idx rom) ps ++ planEvents s.cfg (s.cfg.romPlan idx rom) qs) rest)
  ∧ (∀ (s : State) (before : List Move) (qs : List Reply) (spot : Spot) (la : Word) (e m : Datum) (r : Reply)
      (rest : List Raw), s.idled = true → s.EngineIdle → s.cfg.Reaches .romall before qs spot (.read la e m) →
    s.cfg.disagrees la e m r = true →
    s.script = planAnswers s.cfg before qs ++ (Move.read la e m).answers s.cfg r ++ rest →
    ∃ t, exec .romall s = .next t
      ∧ Completed s t (s.cfg.mismatchRecord spot r la e m)
        (planEvents s.cfg before qs ++ (Move.read la e m).events s.cfg r) rest)
  ∧ ∀ (s : State) (k : Nat) (idx : Byte) (rom : RomRegion) (before : List Move) (done : List (List Reply × List Reply))
      (ps qs : List Reply) (f : Word) (rest : List Raw), s.idled = true → s.EngineIdle →
    s.cfg.romTable[k]? = some rom → idx = BitVec.ofNat 8 k →
    before = s.cfg.romAllPlan 0 (s.cfg.romTable.take k) ++ s.cfg.samplePlan idx rom ++ s.cfg.romPlan idx rom →
    s.cfg.romAllAccepts 0 (s.cfg.romTable.take k) done = true →
    planAccepts s.cfg (s.cfg.samplePlan idx rom) ps = true → planAccepts s.cfg (s.cfg.romPlan idx rom) qs = true →
    f = s.cfg.crcOf rom (planValues s.cfg (s.cfg.romPlan idx rom) qs) → f ≠ rom.crc32 →
    s.script = planAnswers s.cfg before ((done.flatMap fun p => p.1 ++ p.2) ++ ps ++ qs) ++ rest →
    ∃ t, exec .romall s = .next t
      ∧ Completed s t
        { Result.blank with
          code := .mismatch, info := .crcMismatch, addr := rom.start, expected := rom.crc32, actual := f
          table := .rom, index := idx }
        (planEvents s.cfg before ((done.flatMap fun p => p.1 ++ p.2) ++ ps ++ qs)) rest

/-! ### RamCheck -/

/-- RAMMARCH completes: in each of two passes the whole region written, then the whole region read and agreeing under
the mask, with the pattern of the seed and then its complement (43_ram_check.md R282 to R284). The `ctx` of each remap
call, where a remap is configured, is a draw of the model's own (assumption 19). -/
def Obligations.RamMarchCompletes : Prop :=
  ∀ (s : State) (idx : Byte) (seed : Word) (ram : RamRegion) (qs : List Reply) (rest : List Raw), s.idled = true →
    s.EngineIdle → s.cfg.ramTable[idx.toNat]? = some ram →
    planAccepts s.cfg (s.cfg.marchPlan idx ram seed) qs = true →
    s.script = planAnswers s.cfg (s.cfg.marchPlan idx ram seed) qs ++ rest →
    ∃ t, exec (.rammarch idx seed) s = .next t
      ∧ Completed s t { Result.blank with table := .ram, index := idx }
        (planEvents s.cfg (s.cfg.marchPlan idx ram seed) qs) rest

/-- RAMMARCH stops at the first cell that disagrees under the mask, in either pass, with the pass as its step, the
values masked, and nothing after it (43_ram_check.md R283, R284, 60_exceptions.md R361). RAMCS and RAMADDR stop at their
first disagreement in the same way, with no step (assumption 33): RAMCS in a region's verify phase, with the region's
index (R285), RAMADDR at the boundary cell read, while the cell being walked holds the mask (R286). The `ctx` of each
remap call, where a remap is configured, is a draw of the model's own (assumption 19). -/
def Obligations.RamFirstMismatch : Prop :=
  (∀ (s : State) (idx : Byte) (seed : Word) (ram : RamRegion) (second : Bool) (i : Nat) (before : List Move)
        (qs : List Reply) (r : Reply) (la : Word) (d : Datum) (rest : List Raw),
      s.idled = true → s.EngineIdle → s.cfg.ramTable[idx.toNat]? = some ram → i < (s.cfg.ramGeometry ram).count →
      before = bankMoves .ram idx ram.bankSwitch ++ s.cfg.writePlan ram seed false
        ++ (if second then s.cfg.verifyPlan ram seed false ++ s.cfg.writePlan ram seed true else [])
        ++ (s.cfg.verifyPlan ram seed second).take i →
      planAccepts s.cfg before qs = true → la = (s.cfg.ramGeometry ram).cell i →
      (Move.read la 0 0).accepts s.cfg r = true → d = s.cfg.readValue la r →
      d &&& s.cfg.ramMask ram ≠ s.cfg.marchValue ram seed second i &&& s.cfg.ramMask ram →
      s.script = planAnswers s.cfg before qs ++ (Move.read la 0 0).answers s.cfg r ++ rest →
      ∃ t, exec (.rammarch idx seed) s = .next t
        ∧ Completed s t
          { Result.blank with
            code := .mismatch, info := .dataMismatch, addr := la
            expected := (s.cfg.marchValue ram seed second i &&& s.cfg.ramMask ram).zeroExtend 32
            actual := (d &&& s.cfg.ramMask ram).zeroExtend 32, table := .ram, index := idx
            step := if second then 2 else 1 }
          (planEvents s.cfg before qs ++ (Move.read la 0 0).events s.cfg r) rest)
  ∧ ∀ (s : State) (i : Instr) (before : List Move) (qs : List Reply) (spot : Spot) (la : Word) (e m : Datum) (r : Reply)
      (rest : List Raw), (∃ seed, i = .ramcs seed) ∨ (∃ idx, i = .ramaddr idx) → s.idled = true → s.EngineIdle →
    s.cfg.tablesFit = true → s.cfg.Reaches i before qs spot (.read la e m) →
    s.cfg.disagrees la e m r = true →
    s.script = planAnswers s.cfg before qs ++ (Move.read la e m).answers s.cfg r ++ rest →
    spot.table = .ram ∧ spot.step = 0 ∧ ∃ t, exec i s = .next t
      ∧ Completed s t (s.cfg.mismatchRecord spot r la e m)
        (planEvents s.cfg before qs ++ (Move.read la e m).events s.cfg r) rest

/-- RAMCS completes: every region written with the pattern of its own seed, then every region read back, the bank switch
called before each phase of each region (R285). The `ctx` of each remap call, where a remap is configured, is a draw of
the model's own (assumption 19). -/
def Obligations.RamCsCompletes : Prop :=
  ∀ (s : State) (seed : Word) (qs : List Reply) (rest : List Raw), s.idled = true → s.EngineIdle →
    s.cfg.tablesFit = true → planAccepts s.cfg (s.cfg.crossPlan seed) qs = true →
    s.script = planAnswers s.cfg (s.cfg.crossPlan seed) qs ++ rest →
    ∃ t, exec (.ramcs seed) s = .next t
      ∧ Completed s t { Result.blank with table := .ram } (planEvents s.cfg (s.cfg.crossPlan seed) qs) rest

/-- RAMADDR completes: the boundary cells cleared, then each in turn holding the mask while all are read (R286). The
`ctx` of each remap call, where a remap is configured, is a draw of the model's own (assumption 19). -/
def Obligations.RamAddrCompletes : Prop :=
  ∀ (s : State) (idx : Byte) (ram : RamRegion) (qs : List Reply) (rest : List Raw), s.idled = true →
    s.EngineIdle → s.cfg.ramTable[idx.toNat]? = some ram → planAccepts s.cfg (s.cfg.boundaryPlan idx ram) qs = true →
    s.script = planAnswers s.cfg (s.cfg.boundaryPlan idx ram) qs ++ rest →
    ∃ t, exec (.ramaddr idx) s = .next t
      ∧ Completed s t { Result.blank with table := .ram, index := idx }
        (planEvents s.cfg (s.cfg.boundaryPlan idx ram) qs) rest

/-- RAMFILL completes: every cell written with the value cut to the width, the mask not applied (R287). The `ctx` of
each remap call, where a remap is configured, is a draw of the model's own (assumption 19). -/
def Obligations.RamFillCompletes : Prop :=
  ∀ (s : State) (idx : Byte) (value : Datum) (ram : RamRegion) (qs : List Reply) (rest : List Raw), s.idled = true →
    s.EngineIdle → s.cfg.ramTable[idx.toNat]? = some ram → planAccepts s.cfg (s.cfg.fillPlan idx ram value) qs = true →
    s.script = planAnswers s.cfg (s.cfg.fillPlan idx ram value) qs ++ rest →
    ∃ t, exec (.ramfill idx value) s = .next t
      ∧ Completed s t { Result.blank with table := .ram, index := idx }
        (planEvents s.cfg (s.cfg.fillPlan idx ram value) qs) rest

/-- RAMREAD completes: every cell read once in order, nothing compared (R288). The `ctx` of each remap call, where a
remap is configured, is a draw of the model's own (assumption 19). -/
def Obligations.RamReadCompletes : Prop :=
  ∀ (s : State) (idx : Byte) (ram : RamRegion) (qs : List Reply) (rest : List Raw), s.idled = true →
    s.EngineIdle → s.cfg.ramTable[idx.toNat]? = some ram → planAccepts s.cfg (s.cfg.ramReadPlan idx ram) qs = true →
    s.script = planAnswers s.cfg (s.cfg.ramReadPlan idx ram) qs ++ rest →
    ∃ t, exec (.ramread idx) s = .next t
      ∧ Completed s t { Result.blank with table := .ram, index := idx }
        (planEvents s.cfg (s.cfg.ramReadPlan idx ram) qs) rest

/-- Whatever the Board answers and whatever the seed: where RAMMARCH ends in Success, every bit of every cell that the
mask selects was read as 0 and was read as 1. So a stuck bit is always caught (R289). Stated where no remap is
configured, so that the events show the values compared. -/
def Obligations.StuckBitIsCaught : Prop :=
  ∀ (s t : State) (idx : Byte) (seed : Word) (ram : RamRegion) (a : Access) (i b : Nat) (v : Bool), s.Inv →
    s.idled = true → s.cfg.addressRemap = none → s.cfg.dataRemap = none → s.cfg.ramTable[idx.toNat]? = some ram →
    exec (.rammarch idx seed) s = .next t → t.result.code = .success → i < (s.cfg.ramGeometry ram).count →
    s.cfg.decodeAddr ((s.cfg.ramGeometry ram).cell i) = .ok a → (s.cfg.ramMask ram).getLsbD b = true →
    ∃ d, Event.cyc .read a.space a.paddr a.w a.lane d ∈ newEvents s t ∧ d.getLsbD b = v

/-- The march generator: its next state, and its value at each width (43_ram_check.md R281). -/
def Obligations.MarchGenerator : Prop :=
  ∀ s : Word, (Generator.lcg.next s).toNat = (1664525 * s.toNat + 1013904223) % 2 ^ 32
    ∧ ∀ w : Width, (Generator.lcg.value s w).toNat = s.toNat / 2 ^ 16 % 2 ^ (8 * w.bytes)

/-- The cells of a well-formed table: the selectors are the region's, the address field moves by whole strides and
never carries out, and the cells of a RAM region are exactly those at most at its end (30_encoding.md R113, R135,
42_rom_check.md R253, R256, 43_ram_check.md R280). -/
def Obligations.CellsKeepTheirSelectors : Prop :=
  ∀ c : Cfg, c.wf = true →
    (∀ rom ∈ c.romTable, ∀ i < rom.length,
      selectors ((c.romGeometry rom).cell i) = selectors rom.start
        ∧ (addrField ((c.romGeometry rom).cell i)).toNat = (addrField rom.start).toNat + i * c.busWidth.bytes)
    ∧ ∀ ram ∈ c.ramTable,
      (∀ i : Nat, i < (c.ramGeometry ram).count ↔
        (addrField ram.start).toNat + i * (ram.step * c.busWidth.bytes) ≤ (addrField ram.last).toNat)
      ∧ ∀ i < (c.ramGeometry ram).count,
        selectors ((c.ramGeometry ram).cell i) = selectors ram.start
          ∧ (addrField ((c.ramGeometry ram).cell i)).toNat
            = (addrField ram.start).toNat + i * (ram.step * c.busWidth.bytes)

/-- `K(length)` counts the k with `2^k < length` (30_encoding.md R136). -/
def Obligations.SampleCountIsExact : Prop := ∀ n k : Nat, k < sampleCount n ↔ 2 ^ k < n

/-! ### IoCheck and the Interrupt check -/

/-- IOIN completes: one read, the masked value (44_io_interrupt_check.md R320). The `ctx` of each remap call, where a
remap is configured, is a draw of the model's own (assumption 19). -/
def Obligations.IoInCompletes : Prop :=
  ∀ (s : State) (idx : Byte) (e : InputEntry) (ps : List Reply) (r : Reply) (rest : List Raw), s.idled = true →
    s.EngineIdle → s.cfg.inputTable[idx.toNat]? = some e → planAccepts s.cfg (inputPlan idx e) (ps ++ [r]) = true →
    s.script = planAnswers s.cfg (inputPlan idx e) (ps ++ [r]) ++ rest →
    ∃ t v, exec (.ioin idx) s = .next t
      ∧ v = s.cfg.readValue e.address r &&& (s.cfg.dataAccessWidth e.address).cut e.mask
      ∧ Completed s t { Result.blank with value := v.zeroExtend 32, table := .input, index := idx }
        (planEvents s.cfg (inputPlan idx e) (ps ++ [r])) rest

/-- IOOUT completes: one write of the active mask, or 0, with the invert mask's bits inverted (44_io_interrupt_check.md
R321, R322). The `ctx` of each remap call, where a remap is configured, is a draw of the model's own (assumption 19). -/
def Obligations.IoOutCompletes : Prop :=
  ∀ (s : State) (idx : Byte) (active : Bool) (e : OutputEntry) (v : Datum) (ps : List Reply) (rest : List Raw),
    s.idled = true → s.EngineIdle → s.cfg.outputTable[idx.toNat]? = some e →
    v = (s.cfg.dataAccessWidth e.address).cut ((if active then e.activeMask else 0) ^^^ e.invertMask) →
    planAccepts s.cfg (bankMoves .output idx e.bankSwitch ++ [.write e.address v]) ps = true →
    s.script = planAnswers s.cfg (bankMoves .output idx e.bankSwitch ++ [.write e.address v]) ps ++ rest →
    ∃ t, exec (.ioout idx active) s = .next t
      ∧ Completed s t { Result.blank with table := .output, index := idx }
        (planEvents s.cfg (bankMoves .output idx e.bankSwitch ++ [.write e.address v]) ps) rest

/-- Every failure of IOIN and IOOUT but a bank switch's carries the entry's own address, before remap, and its table and
index, and only a Timeout or an Unimplemented can be one (30_encoding.md R121, R122, 44_io_interrupt_check.md R320,
R321). A Timeout or an Unimplemented of any sequencer that is no bank switch's carries the address, before remap, of a
cell or entry it accesses, and its table and index (R121, R122, 42_rom_check.md R250, R251). And an access that fails,
after any moves of the sequencer that went without error, ends it with exactly that record, the cause in its code and
reason, no step (assumption 33), and the events up to it, an Abort where P3 timed out (60_exceptions.md R351, R353,
R361, R364). The `ctx` of each remap call, where a remap is configured, is a draw of the model's own (assumption 19). -/
def Obligations.SequencerFailureIsLocated : Prop :=
  (∀ (s t : State) (idx : Byte), s.Inv → s.idled = true → t.result.code ≠ .success →
      t.result.info ≠ .bankSwitchFailed →
      (∀ e : InputEntry, s.cfg.inputTable[idx.toNat]? = some e → exec (.ioin idx) s = .next t →
        (t.result.code = .timeout ∨ t.result.code = .unimplemented)
          ∧ t.result = { Result.blank with
              code := t.result.code, info := t.result.info, addr := e.address, table := .input, index := idx })
      ∧ ∀ (e : OutputEntry) (active : Bool), s.cfg.outputTable[idx.toNat]? = some e →
        exec (.ioout idx active) s = .next t →
        (t.result.code = .timeout ∨ t.result.code = .unimplemented)
          ∧ t.result = { Result.blank with
              code := t.result.code, info := t.result.info, addr := e.address, table := .output, index := idx })
  ∧ (∀ (s t : State) (i : Instr), s.Inv → s.idled = true → s.cfg.moves i ≠ [] → exec i s = .next t →
    t.result.code = .timeout ∨ t.result.code = .unimplemented → t.result.info ≠ .bankSwitchFailed →
    ∃ spot m la, (spot, m) ∈ s.cfg.moves i ∧ m.address? = some la
      ∧ t.result = { Result.blank with
          code := t.result.code, info := t.result.info, addr := la, table := spot.table, index := spot.index })
  ∧ ∀ (s : State) (i : Instr) (before : List Move) (qs : List Reply) (spot : Spot) (m : Move) (la : Word) (r : Reply)
      (f : Failure) (rest : List Raw), s.idled = true → s.EngineIdle → s.cfg.tablesFit = true →
    s.cfg.Reaches i before qs spot m → m.address? = some la → m.fails s.cfg r f = true →
    s.script = planAnswers s.cfg before qs ++ m.failureAnswers s.cfg r f ++ rest →
    ∃ t, exec i s = .next t
      ∧ Completed s t
        { Result.blank with
          code := (f.reason s.cfg r la).1, info := (f.reason s.cfg r la).2, addr := la, table := spot.table
          index := spot.index }
        (planEvents s.cfg before qs ++ m.failureEvents s.cfg r f) rest

/-- INTCHK completes: the line is active within the samples of its timeout, the acknowledge, where one is asked for,
gives the expected vector, and the one sample after it finds the line inactive (44_io_interrupt_check.md R323). The
model's own here are the acknowledge's address entry (assumption 23), a line of the M68000 as a sample of the encoded
level (assumption 14), and the vector where VPA answered or the family has no acknowledge line (assumptions 13 and
30). -/
def Obligations.IntChkCompletes : Prop :=
  ∀ (s : State) (idx : Byte) (timeout : Word) (vector : Byte) (l : Line) (misses : List Raw) (hit off : Raw)
      (rest : List Raw), s.idled = true → s.EngineIdle → s.cfg.lineAt idx = some l →
    misses.length < s.cfg.samples timeout → (∀ x ∈ misses, lineLevelOf s.cfg l x = false) →
    lineLevelOf s.cfg l hit = true → lineLevelOf s.cfg l off = false →
    (s.script = misses ++ hit :: off :: rest →
      ∃ t, exec (.intchk idx false timeout vector) s = .next t
        ∧ Completed s t { Result.blank with table := .line, index := idx } [] rest)
    ∧ ∀ a : AckReply, s.cfg.ackKind ≠ .none → a.fits s.cfg = true → a.vector s.cfg = vector →
      s.script = misses ++ hit :: (a.answers s.cfg ++ off :: rest) →
      ∃ t, exec (.intchk idx true timeout vector) s = .next t
        ∧ Completed s t { Result.blank with value := vector.zeroExtend 32, table := .line, index := idx }
          (a.events s.cfg) rest

/-- INTCHK fails at the step that finds the fault, and reports it: no active sample (1), no vector on the family (2),
an acknowledge whose cycle, or second cycle, times out for want of an answer or of a clock edge (2), another vector (2),
the line still active (3) (44_io_interrupt_check.md R324, 41_bus_engine.md R233 to R235). The model's own here are the
acknowledge's address entry (assumption 23), `addr = 0` in the records (assumption 24), a line of the M68000 as a sample
of the encoded level (assumption 14), and the vector, with the sample behind it, where VPA answered or the family has no
acknowledge line (assumptions 13 and 30). -/
def Obligations.IntChkFailures : Prop :=
  ∀ (s : State) (idx : Byte) (extVec : Bool) (timeout : Word) (vector : Byte) (l : Line) (misses : List Raw)
      (hit on : Raw) (rest : List Raw), s.idled = true → s.EngineIdle → s.cfg.lineAt idx = some l →
    (∀ x ∈ misses, lineLevelOf s.cfg l x = false) → lineLevelOf s.cfg l hit = true → lineLevelOf s.cfg l on = true →
    (misses.length = s.cfg.samples timeout → s.script = misses ++ rest →
      ∃ t, exec (.intchk idx extVec timeout vector) s = .next t
        ∧ Completed s t
          { Result.blank with code := .timeout, info := .lineTimeout, table := .line, index := idx, step := 1 } [] rest)
    ∧ (misses.length < s.cfg.samples timeout →
      (s.cfg.ackKind = .none → s.script = misses ++ hit :: rest →
        ∃ t, exec (.intchk idx true timeout vector) s = .next t
          ∧ Completed s t
            { Result.blank with code := .unimplemented, info := .noVector, table := .line, index := idx, step := 2 }
            [] rest)
      ∧ (∀ (level : Raw) (why : Info) (answers : List Raw) (events : List Event), s.cfg.ackKind ≠ .none →
        AckStops s.cfg level why answers events → s.script = misses ++ hit :: (answers ++ rest) →
        ∃ t, exec (.intchk idx true timeout vector) s = .next t
          ∧ Completed s t
            { Result.blank with code := .timeout, info := why, table := .line, index := idx, step := 2 } events rest)
      ∧ (∀ a : AckReply, s.cfg.ackKind ≠ .none → a.fits s.cfg = true → a.vector s.cfg ≠ vector →
        s.script = misses ++ hit :: (a.answers s.cfg ++ rest) →
        ∃ t, exec (.intchk idx true timeout vector) s = .next t
          ∧ Completed s t
            { Result.blank with
              code := .mismatch, info := .vectorMismatch, expected := vector.zeroExtend 32
              actual := (a.vector s.cfg).zeroExtend 32, table := .line, index := idx, step := 2 }
            (a.events s.cfg) rest)
      ∧ (s.script = misses ++ hit :: on :: rest →
        ∃ t, exec (.intchk idx false timeout vector) s = .next t
          ∧ Completed s t
            { Result.blank with
              code := .unexpected, info := .lineStillActive, table := .line, index := idx, step := 3 } [] rest)
      ∧ ∀ a : AckReply, s.cfg.ackKind ≠ .none → a.fits s.cfg = true → a.vector s.cfg = vector →
        s.script = misses ++ hit :: (a.answers s.cfg ++ on :: rest) →
        ∃ t, exec (.intchk idx true timeout vector) s = .next t
          ∧ Completed s t
            { Result.blank with
              code := .unexpected, info := .lineStillActive, table := .line, index := idx, step := 3 }
            (a.events s.cfg) rest)

/-! ### Errors and event counts -/

/-- A single-region command whose index is at least its table's size: IndexRange, with the table and index, and nothing
else (42_rom_check.md R255). -/
def Obligations.IndexRangeRefused : Prop :=
  ∀ (s : State) (idx : Byte) (table : TableTag) (i : Instr), s.idled = true → s.EngineIdle →
    (table = .rom ∧ s.cfg.romTable.length ≤ idx.toNat ∧ (i = .romchk idx ∨ i = .romcrc idx)
      ∨ table = .ram ∧ s.cfg.ramTable.length ≤ idx.toNat ∧
        ((∃ seed, i = .rammarch idx seed) ∨ i = .ramaddr idx ∨ (∃ value, i = .ramfill idx value) ∨ i = .ramread idx)
      ∨ table = .input ∧ s.cfg.inputTable.length ≤ idx.toNat ∧ i = .ioin idx
      ∨ table = .output ∧ s.cfg.outputTable.length ≤ idx.toNat ∧ ∃ active, i = .ioout idx active) →
    ∃ r, exec i s = .next { s with result := r, results := s.results ++ [r] }
      ∧ r = { Result.blank with code := .unimplemented, info := .indexRange, table := table, index := idx }

/-- A bank-switch callback that does not answer Success ends a single-region command with the callback's code, after the
one Bank event (42_rom_check.md R252, 60_exceptions.md R374). So does every bank switch of every sequencer, after
whatever went without error before it: that of a later region of ROMALL, ROMRAW or RAMCS, with that region's index, and
that of the second pass of ROMCHK, ROMALL and RAMCS (42_rom_check.md R254, R259, R261 to R263, 43_ram_check.md R285).
The `ctx` of each remap call, where a remap is configured, is a draw of the model's own (assumption 19). -/
def Obligations.BankSwitchFailureStops : Prop :=
  (∀ (s : State) (idx : Byte) (table : TableTag) (i : Instr) (raw : Raw) (rest : List Raw), s.idled = true →
      s.EngineIdle → codeOf raw ≠ .success → s.script = raw :: rest →
      ((∃ rom, table = .rom ∧ s.cfg.romTable[idx.toNat]? = some rom ∧ rom.bankSwitch = true
          ∧ (i = .romchk idx ∨ i = .romcrc idx))
        ∨ (∃ ram, table = .ram ∧ s.cfg.ramTable[idx.toNat]? = some ram ∧ ram.bankSwitch = true
          ∧ ((∃ seed, i = .rammarch idx seed) ∨ i = .ramaddr idx ∨ (∃ value, i = .ramfill idx value)
            ∨ i = .ramread idx))
        ∨ (∃ e, table = .input ∧ s.cfg.inputTable[idx.toNat]? = some e ∧ e.bankSwitch = true ∧ i = .ioin idx)
        ∨ ∃ e, table = .output ∧ s.cfg.outputTable[idx.toNat]? = some e ∧ e.bankSwitch = true
          ∧ ∃ active, i = .ioout idx active) →
      ∃ t, exec i s = .next t
        ∧ Completed s t
          { Result.blank with code := codeOf raw, info := .bankSwitchFailed, table := table, index := idx }
          [.bank table idx] rest)
  ∧ ∀ (s : State) (i : Instr) (before : List Move) (qs : List Reply) (spot : Spot) (table : TableTag) (idx : Byte)
      (raw : Raw) (rest : List Raw), s.idled = true → s.EngineIdle → s.cfg.tablesFit = true →
    s.cfg.Reaches i before qs spot (.bank table idx) → codeOf raw ≠ .success →
    s.script = planAnswers s.cfg before qs ++ raw :: rest →
    table = spot.table ∧ idx = spot.index ∧ ∃ t, exec i s = .next t
      ∧ Completed s t
        { Result.blank with code := codeOf raw, info := .bankSwitchFailed, table := table, index := idx }
        (planEvents s.cfg before qs ++ [.bank table idx]) rest

/-- Errors are precise: an Abort stands in a command's events only as the last one, and exactly where the command's
result is AckTimeout; every other transaction of every command completed (60_exceptions.md R361, R364,
41_bus_engine.md R221). -/
def Obligations.AbortIffAckTimeout : Prop :=
  ∀ (i : Instr) (s t : State), s.Inv → exec i s = .next t →
    (t.result.info ≠ .ackTimeout → ∀ e ∈ newEvents s t, e.isAbort = false)
    ∧ (t.result.info = .ackTimeout → t.result.code = .timeout ∧
      ∃ es kind space paddr w lane, newEvents s t = es ++ [.abort kind space paddr w lane .p3]
        ∧ ∀ e ∈ es, e.isAbort = false)

/-- On a path with no error every command performs exactly the bus cycles its rule fixes: 1 for MRD and MWR, by kind
for IACK, `K + length` for ROMCHK, `4n` for RAMMARCH, `p(p + 3)` for RAMADDR (70_reset_and_hazards.md R412), and for
the others the cells their loops read or write: a full-set ROM command the sum over its regions (42_rom_check.md R261 to
R264), RAMCS `2n` summed (43_ram_check.md R285 to R288), IOIN and IOOUT one (44_io_interrupt_check.md R320, R321). -/
def Obligations.ExactCycleCounts : Prop :=
  ∀ (i : Instr) (s t : State), s.Inv → exec i s = .next t → t.result.code = .success →
    ((newEvents s t).filter Event.isCyc).length = s.cfg.cycleCount i
end

