-- ==== Sys2Proof/Laws/State.lean ====
section
/-! SUPPORT. One lemma per field per update of the state, each true by rfl, so that no proof unfolds a record update. -/

namespace Sys2Proof.Machine

@[simp] theorem State.recorded_phase (s : State) (a : Action) : (s.recorded a).phase = s.phase := rfl
@[simp] theorem State.recorded_hostMask (s : State) (a : Action) : (s.recorded a).hostMask = s.hostMask := rfl
@[simp] theorem State.recorded_act (s : State) (a : Action) : (s.recorded a).act = a := rfl

@[simp] theorem State.log_cfg (s : State) (a : Action) : (s.log a).cfg = s.cfg := rfl
@[simp] theorem State.log_program (s : State) (a : Action) : (s.log a).program = s.program := rfl
@[simp] theorem State.log_script (s : State) (a : Action) : (s.log a).script = s.script := rfl
@[simp] theorem State.log_pc (s : State) (a : Action) : (s.log a).pc = s.pc := rfl
@[simp] theorem State.log_idled (s : State) (a : Action) : (s.log a).idled = s.idled := rfl
@[simp] theorem State.log_booted (s : State) (a : Action) : (s.log a).booted = s.booted := rfl
@[simp] theorem State.log_pins (s : State) (a : Action) : (s.log a).pins = s.pins := rfl
@[simp] theorem State.log_clk (s : State) (a : Action) : (s.log a).clk = s.clk := rfl
@[simp] theorem State.log_hostMask (s : State) (a : Action) : (s.log a).hostMask = s.hostMask := rfl
@[simp] theorem State.log_phase (s : State) (a : Action) : (s.log a).phase = s.phase := rfl
@[simp] theorem State.log_polls (s : State) (a : Action) : (s.log a).polls = s.polls := rfl
@[simp] theorem State.log_latch (s : State) (a : Action) : (s.log a).latch = s.latch := rfl
@[simp] theorem State.log_work (s : State) (a : Action) : (s.log a).work = s.work := rfl
@[simp] theorem State.log_result (s : State) (a : Action) : (s.log a).result = s.result := rfl
@[simp] theorem State.log_results (s : State) (a : Action) : (s.log a).results = s.results := rfl
@[simp] theorem State.log_trace (s : State) (a : Action) : (s.log a).trace = s.trace := rfl
@[simp] theorem State.log_activity (s : State) (a : Action) : (s.log a).activity = s.activity ++ [s.recorded a] := rfl
@[simp] theorem State.log_marks (s : State) (a : Action) : (s.log a).marks = s.marks := rfl

@[simp] theorem State.logAll_cfg (s : State) (as : List Action) : (s.logAll as).cfg = s.cfg := rfl
@[simp] theorem State.logAll_program (s : State) (as : List Action) : (s.logAll as).program = s.program := rfl
@[simp] theorem State.logAll_script (s : State) (as : List Action) : (s.logAll as).script = s.script := rfl
@[simp] theorem State.logAll_pc (s : State) (as : List Action) : (s.logAll as).pc = s.pc := rfl
@[simp] theorem State.logAll_idled (s : State) (as : List Action) : (s.logAll as).idled = s.idled := rfl
@[simp] theorem State.logAll_booted (s : State) (as : List Action) : (s.logAll as).booted = s.booted := rfl
@[simp] theorem State.logAll_pins (s : State) (as : List Action) : (s.logAll as).pins = s.pins := rfl
@[simp] theorem State.logAll_clk (s : State) (as : List Action) : (s.logAll as).clk = s.clk := rfl
@[simp] theorem State.logAll_hostMask (s : State) (as : List Action) : (s.logAll as).hostMask = s.hostMask := rfl
@[simp] theorem State.logAll_phase (s : State) (as : List Action) : (s.logAll as).phase = s.phase := rfl
@[simp] theorem State.logAll_polls (s : State) (as : List Action) : (s.logAll as).polls = s.polls := rfl
@[simp] theorem State.logAll_latch (s : State) (as : List Action) : (s.logAll as).latch = s.latch := rfl
@[simp] theorem State.logAll_work (s : State) (as : List Action) : (s.logAll as).work = s.work := rfl
@[simp] theorem State.logAll_result (s : State) (as : List Action) : (s.logAll as).result = s.result := rfl
@[simp] theorem State.logAll_results (s : State) (as : List Action) : (s.logAll as).results = s.results := rfl
@[simp] theorem State.logAll_trace (s : State) (as : List Action) : (s.logAll as).trace = s.trace := rfl
@[simp] theorem State.logAll_activity (s : State) (as : List Action) : (s.logAll as).activity = s.activity ++ as.map s.recorded := rfl
@[simp] theorem State.logAll_marks (s : State) (as : List Action) : (s.logAll as).marks = s.marks := rfl

@[simp] theorem State.emit_cfg (s : State) (e : Event) : (s.emit e).cfg = s.cfg := rfl
@[simp] theorem State.emit_program (s : State) (e : Event) : (s.emit e).program = s.program := rfl
@[simp] theorem State.emit_script (s : State) (e : Event) : (s.emit e).script = s.script := rfl
@[simp] theorem State.emit_pc (s : State) (e : Event) : (s.emit e).pc = s.pc := rfl
@[simp] theorem State.emit_idled (s : State) (e : Event) : (s.emit e).idled = s.idled := rfl
@[simp] theorem State.emit_booted (s : State) (e : Event) : (s.emit e).booted = s.booted := rfl
@[simp] theorem State.emit_pins (s : State) (e : Event) : (s.emit e).pins = s.pins := rfl
@[simp] theorem State.emit_clk (s : State) (e : Event) : (s.emit e).clk = s.clk := rfl
@[simp] theorem State.emit_hostMask (s : State) (e : Event) : (s.emit e).hostMask = s.hostMask := rfl
@[simp] theorem State.emit_phase (s : State) (e : Event) : (s.emit e).phase = s.phase := rfl
@[simp] theorem State.emit_polls (s : State) (e : Event) : (s.emit e).polls = s.polls := rfl
@[simp] theorem State.emit_latch (s : State) (e : Event) : (s.emit e).latch = s.latch := rfl
@[simp] theorem State.emit_work (s : State) (e : Event) : (s.emit e).work = s.work := rfl
@[simp] theorem State.emit_result (s : State) (e : Event) : (s.emit e).result = s.result := rfl
@[simp] theorem State.emit_results (s : State) (e : Event) : (s.emit e).results = s.results := rfl
@[simp] theorem State.emit_trace (s : State) (e : Event) : (s.emit e).trace = s.trace ++ [e] := rfl
@[simp] theorem State.emit_activity (s : State) (e : Event) : (s.emit e).activity = s.activity := rfl
@[simp] theorem State.emit_marks (s : State) (e : Event) : (s.emit e).marks = s.marks := rfl

@[simp] theorem State.sampled_cfg (s : State) (q : Query) : (s.sampled q).cfg = s.cfg := rfl
@[simp] theorem State.sampled_program (s : State) (q : Query) : (s.sampled q).program = s.program := rfl
@[simp] theorem State.sampled_script (s : State) (q : Query) : (s.sampled q).script = s.script.tail := rfl
@[simp] theorem State.sampled_pc (s : State) (q : Query) : (s.sampled q).pc = s.pc := rfl
@[simp] theorem State.sampled_idled (s : State) (q : Query) : (s.sampled q).idled = s.idled := rfl
@[simp] theorem State.sampled_booted (s : State) (q : Query) : (s.sampled q).booted = s.booted := rfl
@[simp] theorem State.sampled_pins (s : State) (q : Query) : (s.sampled q).pins = s.pins := rfl
@[simp] theorem State.sampled_clk (s : State) (q : Query) : (s.sampled q).clk = s.clk := rfl
@[simp] theorem State.sampled_hostMask (s : State) (q : Query) : (s.sampled q).hostMask = s.hostMask := rfl
@[simp] theorem State.sampled_phase (s : State) (q : Query) : (s.sampled q).phase = s.phase := rfl
@[simp] theorem State.sampled_polls (s : State) (q : Query) : (s.sampled q).polls = s.polls := rfl
@[simp] theorem State.sampled_latch (s : State) (q : Query) : (s.sampled q).latch = s.latch := rfl
@[simp] theorem State.sampled_work (s : State) (q : Query) : (s.sampled q).work = s.work := rfl
@[simp] theorem State.sampled_result (s : State) (q : Query) : (s.sampled q).result = s.result := rfl
@[simp] theorem State.sampled_results (s : State) (q : Query) : (s.sampled q).results = s.results := rfl
@[simp] theorem State.sampled_trace (s : State) (q : Query) : (s.sampled q).trace = s.trace := rfl
@[simp] theorem State.sampled_activity (s : State) (q : Query) : (s.sampled q).activity = s.activity ++ [s.recorded (.sample q (s.reply q))] := rfl
@[simp] theorem State.sampled_marks (s : State) (q : Query) : (s.sampled q).marks = s.marks := rfl

@[simp] theorem finish_cfg (r : Result) (s : State) : (finish r s).cfg = s.cfg := rfl
@[simp] theorem finish_program (r : Result) (s : State) : (finish r s).program = s.program := rfl
@[simp] theorem finish_script (r : Result) (s : State) : (finish r s).script = s.script := rfl
@[simp] theorem finish_pc (r : Result) (s : State) : (finish r s).pc = s.pc := rfl
@[simp] theorem finish_idled (r : Result) (s : State) : (finish r s).idled = s.idled := rfl
@[simp] theorem finish_booted (r : Result) (s : State) : (finish r s).booted = s.booted := rfl
@[simp] theorem finish_pins (r : Result) (s : State) : (finish r s).pins = s.pins := rfl
@[simp] theorem finish_clk (r : Result) (s : State) : (finish r s).clk = s.clk := rfl
@[simp] theorem finish_hostMask (r : Result) (s : State) : (finish r s).hostMask = s.hostMask := rfl
@[simp] theorem finish_phase (r : Result) (s : State) : (finish r s).phase = s.phase := rfl
@[simp] theorem finish_polls (r : Result) (s : State) : (finish r s).polls = s.polls := rfl
@[simp] theorem finish_latch (r : Result) (s : State) : (finish r s).latch = s.latch := rfl
@[simp] theorem finish_work (r : Result) (s : State) : (finish r s).work = s.work := rfl
@[simp] theorem finish_result (r : Result) (s : State) : (finish r s).result = r := rfl
@[simp] theorem finish_results (r : Result) (s : State) : (finish r s).results = s.results ++ [r] := rfl
@[simp] theorem finish_trace (r : Result) (s : State) : (finish r s).trace = s.trace := rfl
@[simp] theorem finish_activity (r : Result) (s : State) : (finish r s).activity = s.activity := rfl
@[simp] theorem finish_marks (r : Result) (s : State) : (finish r s).marks = s.marks := rfl

@[simp] theorem restoreIdle_cfg (s : State) : (restoreIdle s).cfg = s.cfg := rfl
@[simp] theorem restoreIdle_program (s : State) : (restoreIdle s).program = s.program := rfl
@[simp] theorem restoreIdle_script (s : State) : (restoreIdle s).script = s.script := rfl
@[simp] theorem restoreIdle_pc (s : State) : (restoreIdle s).pc = s.pc := rfl
@[simp] theorem restoreIdle_idled (s : State) : (restoreIdle s).idled = s.idled := rfl
@[simp] theorem restoreIdle_booted (s : State) : (restoreIdle s).booted = s.booted := rfl
@[simp] theorem restoreIdle_pins (s : State) : (restoreIdle s).pins = .idle := rfl
@[simp] theorem restoreIdle_clk (s : State) : (restoreIdle s).clk = s.clk := rfl
@[simp] theorem restoreIdle_hostMask (s : State) : (restoreIdle s).hostMask = false := rfl
@[simp] theorem restoreIdle_phase (s : State) : (restoreIdle s).phase = .idle := rfl
@[simp] theorem restoreIdle_polls (s : State) : (restoreIdle s).polls = s.polls := rfl
@[simp] theorem restoreIdle_latch (s : State) : (restoreIdle s).latch = s.latch := rfl
@[simp] theorem restoreIdle_work (s : State) : (restoreIdle s).work = s.work := rfl
@[simp] theorem restoreIdle_result (s : State) : (restoreIdle s).result = s.result := rfl
@[simp] theorem restoreIdle_results (s : State) : (restoreIdle s).results = s.results := rfl
@[simp] theorem restoreIdle_trace (s : State) : (restoreIdle s).trace = s.trace := rfl
@[simp] theorem restoreIdle_activity (s : State) : (restoreIdle s).activity = s.activity := rfl
@[simp] theorem restoreIdle_marks (s : State) : (restoreIdle s).marks = s.marks := rfl

@[simp] theorem trapEntry_cfg (r : Result) (s : State) : (trapEntry r s).cfg = s.cfg := rfl
@[simp] theorem trapEntry_program (r : Result) (s : State) : (trapEntry r s).program = s.program := rfl
@[simp] theorem trapEntry_script (r : Result) (s : State) : (trapEntry r s).script = s.script := rfl
@[simp] theorem trapEntry_pc (r : Result) (s : State) : (trapEntry r s).pc = s.pc := rfl
@[simp] theorem trapEntry_idled (r : Result) (s : State) : (trapEntry r s).idled = s.idled := rfl
@[simp] theorem trapEntry_booted (r : Result) (s : State) : (trapEntry r s).booted = s.booted := rfl
@[simp] theorem trapEntry_pins (r : Result) (s : State) : (trapEntry r s).pins = .idle := rfl
@[simp] theorem trapEntry_clk (r : Result) (s : State) : (trapEntry r s).clk = s.clk := rfl
@[simp] theorem trapEntry_hostMask (r : Result) (s : State) : (trapEntry r s).hostMask = false := rfl
@[simp] theorem trapEntry_phase (r : Result) (s : State) : (trapEntry r s).phase = .idle := rfl
@[simp] theorem trapEntry_polls (r : Result) (s : State) : (trapEntry r s).polls = s.polls := rfl
@[simp] theorem trapEntry_latch (r : Result) (s : State) : (trapEntry r s).latch = s.latch := rfl
@[simp] theorem trapEntry_work (r : Result) (s : State) : (trapEntry r s).work = s.work := rfl
@[simp] theorem trapEntry_result (r : Result) (s : State) : (trapEntry r s).result = r := rfl
@[simp] theorem trapEntry_results (r : Result) (s : State) : (trapEntry r s).results = s.results ++ [r] := rfl
@[simp] theorem trapEntry_trace (r : Result) (s : State) : (trapEntry r s).trace = s.trace := rfl
@[simp] theorem trapEntry_activity (r : Result) (s : State) : (trapEntry r s).activity = s.activity := rfl
@[simp] theorem trapEntry_marks (r : Result) (s : State) : (trapEntry r s).marks = s.marks := rfl

@[simp] theorem refuse_cfg (i : Info) (s : State) : (refuse i s).cfg = s.cfg := rfl
@[simp] theorem refuse_program (i : Info) (s : State) : (refuse i s).program = s.program := rfl
@[simp] theorem refuse_script (i : Info) (s : State) : (refuse i s).script = s.script := rfl
@[simp] theorem refuse_pc (i : Info) (s : State) : (refuse i s).pc = s.pc := rfl
@[simp] theorem refuse_idled (i : Info) (s : State) : (refuse i s).idled = s.idled := rfl
@[simp] theorem refuse_booted (i : Info) (s : State) : (refuse i s).booted = s.booted := rfl
@[simp] theorem refuse_pins (i : Info) (s : State) : (refuse i s).pins = s.pins := rfl
@[simp] theorem refuse_clk (i : Info) (s : State) : (refuse i s).clk = s.clk := rfl
@[simp] theorem refuse_hostMask (i : Info) (s : State) : (refuse i s).hostMask = s.hostMask := rfl
@[simp] theorem refuse_phase (i : Info) (s : State) : (refuse i s).phase = s.phase := rfl
@[simp] theorem refuse_polls (i : Info) (s : State) : (refuse i s).polls = s.polls := rfl
@[simp] theorem refuse_latch (i : Info) (s : State) : (refuse i s).latch = s.latch := rfl
@[simp] theorem refuse_work (i : Info) (s : State) : (refuse i s).work = s.work := rfl
@[simp] theorem refuse_result (i : Info) (s : State) : (refuse i s).result = Result.error .unimplemented i := rfl
@[simp] theorem refuse_results (i : Info) (s : State) : (refuse i s).results = s.results ++ [Result.error .unimplemented i] := rfl
@[simp] theorem refuse_trace (i : Info) (s : State) : (refuse i s).trace = s.trace := rfl
@[simp] theorem refuse_activity (i : Info) (s : State) : (refuse i s).activity = s.activity := rfl
@[simp] theorem refuse_marks (i : Info) (s : State) : (refuse i s).marks = s.marks ++ [⟨s.pc, i⟩] := rfl

@[simp] theorem advance_cfg (s : State) : (advance s).cfg = s.cfg := rfl
@[simp] theorem advance_program (s : State) : (advance s).program = s.program := rfl
@[simp] theorem advance_script (s : State) : (advance s).script = s.script := rfl
@[simp] theorem advance_pc (s : State) : (advance s).pc = s.pc + 1 := rfl
@[simp] theorem advance_idled (s : State) : (advance s).idled = s.idled := rfl
@[simp] theorem advance_booted (s : State) : (advance s).booted = s.booted := rfl
@[simp] theorem advance_pins (s : State) : (advance s).pins = s.pins := rfl
@[simp] theorem advance_clk (s : State) : (advance s).clk = s.clk := rfl
@[simp] theorem advance_hostMask (s : State) : (advance s).hostMask = s.hostMask := rfl
@[simp] theorem advance_phase (s : State) : (advance s).phase = s.phase := rfl
@[simp] theorem advance_polls (s : State) : (advance s).polls = s.polls := rfl
@[simp] theorem advance_latch (s : State) : (advance s).latch = s.latch := rfl
@[simp] theorem advance_work (s : State) : (advance s).work = s.work := rfl
@[simp] theorem advance_result (s : State) : (advance s).result = s.result := rfl
@[simp] theorem advance_results (s : State) : (advance s).results = s.results := rfl
@[simp] theorem advance_trace (s : State) : (advance s).trace = s.trace := rfl
@[simp] theorem advance_activity (s : State) : (advance s).activity = s.activity := rfl
@[simp] theorem advance_marks (s : State) : (advance s).marks = s.marks := rfl

@[simp] theorem latchCycle_cfg (k : CycleKind) (a : Access) (d : Datum) (s : State) : (latchCycle k a d s).cfg = s.cfg := rfl
@[simp] theorem latchCycle_program (k : CycleKind) (a : Access) (d : Datum) (s : State) : (latchCycle k a d s).program = s.program := rfl
@[simp] theorem latchCycle_script (k : CycleKind) (a : Access) (d : Datum) (s : State) : (latchCycle k a d s).script = s.script := rfl
@[simp] theorem latchCycle_pc (k : CycleKind) (a : Access) (d : Datum) (s : State) : (latchCycle k a d s).pc = s.pc := rfl
@[simp] theorem latchCycle_idled (k : CycleKind) (a : Access) (d : Datum) (s : State) : (latchCycle k a d s).idled = s.idled := rfl
@[simp] theorem latchCycle_booted (k : CycleKind) (a : Access) (d : Datum) (s : State) : (latchCycle k a d s).booted = s.booted := rfl
@[simp] theorem latchCycle_pins (k : CycleKind) (a : Access) (d : Datum) (s : State) : (latchCycle k a d s).pins = s.pins := rfl
@[simp] theorem latchCycle_clk (k : CycleKind) (a : Access) (d : Datum) (s : State) : (latchCycle k a d s).clk = s.clk := rfl
@[simp] theorem latchCycle_hostMask (k : CycleKind) (a : Access) (d : Datum) (s : State) : (latchCycle k a d s).hostMask = s.hostMask := rfl
@[simp] theorem latchCycle_phase (k : CycleKind) (a : Access) (d : Datum) (s : State) : (latchCycle k a d s).phase = s.phase := rfl
@[simp] theorem latchCycle_polls (k : CycleKind) (a : Access) (d : Datum) (s : State) : (latchCycle k a d s).polls = s.polls := rfl
@[simp] theorem latchCycle_latch (k : CycleKind) (a : Access) (d : Datum) (s : State) : (latchCycle k a d s).latch = ⟨k, a.space, a.pre, a.paddr, a.w, a.lane, d, s.latch.rdata⟩ := rfl
@[simp] theorem latchCycle_work (k : CycleKind) (a : Access) (d : Datum) (s : State) : (latchCycle k a d s).work = s.work := rfl
@[simp] theorem latchCycle_result (k : CycleKind) (a : Access) (d : Datum) (s : State) : (latchCycle k a d s).result = s.result := rfl
@[simp] theorem latchCycle_results (k : CycleKind) (a : Access) (d : Datum) (s : State) : (latchCycle k a d s).results = s.results := rfl
@[simp] theorem latchCycle_trace (k : CycleKind) (a : Access) (d : Datum) (s : State) : (latchCycle k a d s).trace = s.trace := rfl
@[simp] theorem latchCycle_activity (k : CycleKind) (a : Access) (d : Datum) (s : State) : (latchCycle k a d s).activity = s.activity := rfl
@[simp] theorem latchCycle_marks (k : CycleKind) (a : Access) (d : Datum) (s : State) : (latchCycle k a d s).marks = s.marks := rfl

@[simp] theorem enterPhase_cfg (p : Phase) (s : State) : (enterPhase p s).cfg = s.cfg := rfl
@[simp] theorem enterPhase_program (p : Phase) (s : State) : (enterPhase p s).program = s.program := rfl
@[simp] theorem enterPhase_script (p : Phase) (s : State) : (enterPhase p s).script = s.script := rfl
@[simp] theorem enterPhase_pc (p : Phase) (s : State) : (enterPhase p s).pc = s.pc := rfl
@[simp] theorem enterPhase_idled (p : Phase) (s : State) : (enterPhase p s).idled = s.idled := rfl
@[simp] theorem enterPhase_booted (p : Phase) (s : State) : (enterPhase p s).booted = s.booted := rfl
@[simp] theorem enterPhase_pins (p : Phase) (s : State) : (enterPhase p s).pins = .active := rfl
@[simp] theorem enterPhase_clk (p : Phase) (s : State) : (enterPhase p s).clk = s.clk := rfl
@[simp] theorem enterPhase_hostMask (p : Phase) (s : State) : (enterPhase p s).hostMask = s.hostMask := rfl
@[simp] theorem enterPhase_phase (p : Phase) (s : State) : (enterPhase p s).phase = p := rfl
@[simp] theorem enterPhase_polls (p : Phase) (s : State) : (enterPhase p s).polls = s.polls := rfl
@[simp] theorem enterPhase_latch (p : Phase) (s : State) : (enterPhase p s).latch = s.latch := rfl
@[simp] theorem enterPhase_work (p : Phase) (s : State) : (enterPhase p s).work = s.work := rfl
@[simp] theorem enterPhase_result (p : Phase) (s : State) : (enterPhase p s).result = s.result := rfl
@[simp] theorem enterPhase_results (p : Phase) (s : State) : (enterPhase p s).results = s.results := rfl
@[simp] theorem enterPhase_trace (p : Phase) (s : State) : (enterPhase p s).trace = s.trace := rfl
@[simp] theorem enterPhase_activity (p : Phase) (s : State) : (enterPhase p s).activity = s.activity ++ [⟨p, s.hostMask, .enter⟩] := rfl
@[simp] theorem enterPhase_marks (p : Phase) (s : State) : (enterPhase p s).marks = s.marks := rfl

@[simp] theorem leaveCycle_cfg (s : State) : (leaveCycle s).cfg = s.cfg := rfl
@[simp] theorem leaveCycle_program (s : State) : (leaveCycle s).program = s.program := rfl
@[simp] theorem leaveCycle_script (s : State) : (leaveCycle s).script = s.script := rfl
@[simp] theorem leaveCycle_pc (s : State) : (leaveCycle s).pc = s.pc := rfl
@[simp] theorem leaveCycle_idled (s : State) : (leaveCycle s).idled = s.idled := rfl
@[simp] theorem leaveCycle_booted (s : State) : (leaveCycle s).booted = s.booted := rfl
@[simp] theorem leaveCycle_pins (s : State) : (leaveCycle s).pins = .idle := rfl
@[simp] theorem leaveCycle_clk (s : State) : (leaveCycle s).clk = s.clk := rfl
@[simp] theorem leaveCycle_hostMask (s : State) : (leaveCycle s).hostMask = false := rfl
@[simp] theorem leaveCycle_phase (s : State) : (leaveCycle s).phase = .idle := rfl
@[simp] theorem leaveCycle_polls (s : State) : (leaveCycle s).polls = s.polls := rfl
@[simp] theorem leaveCycle_latch (s : State) : (leaveCycle s).latch = s.latch := rfl
@[simp] theorem leaveCycle_work (s : State) : (leaveCycle s).work = s.work := rfl
@[simp] theorem leaveCycle_result (s : State) : (leaveCycle s).result = s.result := rfl
@[simp] theorem leaveCycle_results (s : State) : (leaveCycle s).results = s.results := rfl
@[simp] theorem leaveCycle_trace (s : State) : (leaveCycle s).trace = s.trace := rfl
@[simp] theorem leaveCycle_activity (s : State) : (leaveCycle s).activity = s.activity ++ [⟨.idle, false, .enter⟩] := rfl
@[simp] theorem leaveCycle_marks (s : State) : (leaveCycle s).marks = s.marks := rfl

@[simp] theorem terminate_cfg (s : State) : (terminate s).cfg = s.cfg := rfl
@[simp] theorem terminate_program (s : State) : (terminate s).program = s.program := rfl
@[simp] theorem terminate_script (s : State) : (terminate s).script = s.script := rfl
@[simp] theorem terminate_pc (s : State) : (terminate s).pc = s.pc := rfl
@[simp] theorem terminate_idled (s : State) : (terminate s).idled = s.idled := rfl
@[simp] theorem terminate_booted (s : State) : (terminate s).booted = s.booted := rfl
@[simp] theorem terminate_pins (s : State) : (terminate s).pins = .idle := rfl
@[simp] theorem terminate_clk (s : State) : (terminate s).clk = s.clk := rfl
@[simp] theorem terminate_hostMask (s : State) : (terminate s).hostMask = s.hostMask := rfl
@[simp] theorem terminate_phase (s : State) : (terminate s).phase = s.phase := rfl
@[simp] theorem terminate_polls (s : State) : (terminate s).polls = s.polls := rfl
@[simp] theorem terminate_latch (s : State) : (terminate s).latch = s.latch := rfl
@[simp] theorem terminate_work (s : State) : (terminate s).work = s.work := rfl
@[simp] theorem terminate_result (s : State) : (terminate s).result = s.result := rfl
@[simp] theorem terminate_results (s : State) : (terminate s).results = s.results := rfl
@[simp] theorem terminate_trace (s : State) : (terminate s).trace = s.trace := rfl
@[simp] theorem terminate_activity (s : State) : (terminate s).activity = s.activity ++ [s.recorded .terminate] := rfl
@[simp] theorem terminate_marks (s : State) : (terminate s).marks = s.marks := rfl

@[simp] theorem driveClock_cfg (p : Nat) (l : Bool) (s : State) : (driveClock p l s).cfg = s.cfg := rfl
@[simp] theorem driveClock_program (p : Nat) (l : Bool) (s : State) : (driveClock p l s).program = s.program := rfl
@[simp] theorem driveClock_script (p : Nat) (l : Bool) (s : State) : (driveClock p l s).script = s.script := rfl
@[simp] theorem driveClock_pc (p : Nat) (l : Bool) (s : State) : (driveClock p l s).pc = s.pc := rfl
@[simp] theorem driveClock_idled (p : Nat) (l : Bool) (s : State) : (driveClock p l s).idled = s.idled := rfl
@[simp] theorem driveClock_booted (p : Nat) (l : Bool) (s : State) : (driveClock p l s).booted = s.booted := rfl
@[simp] theorem driveClock_pins (p : Nat) (l : Bool) (s : State) : (driveClock p l s).pins = s.pins := rfl
@[simp] theorem driveClock_clk (p : Nat) (l : Bool) (s : State) : (driveClock p l s).clk = s.clk.set p l := rfl
@[simp] theorem driveClock_hostMask (p : Nat) (l : Bool) (s : State) : (driveClock p l s).hostMask = s.hostMask := rfl
@[simp] theorem driveClock_phase (p : Nat) (l : Bool) (s : State) : (driveClock p l s).phase = s.phase := rfl
@[simp] theorem driveClock_polls (p : Nat) (l : Bool) (s : State) : (driveClock p l s).polls = s.polls := rfl
@[simp] theorem driveClock_latch (p : Nat) (l : Bool) (s : State) : (driveClock p l s).latch = s.latch := rfl
@[simp] theorem driveClock_work (p : Nat) (l : Bool) (s : State) : (driveClock p l s).work = s.work := rfl
@[simp] theorem driveClock_result (p : Nat) (l : Bool) (s : State) : (driveClock p l s).result = s.result := rfl
@[simp] theorem driveClock_results (p : Nat) (l : Bool) (s : State) : (driveClock p l s).results = s.results := rfl
@[simp] theorem driveClock_trace (p : Nat) (l : Bool) (s : State) : (driveClock p l s).trace = s.trace := rfl
@[simp] theorem driveClock_activity (p : Nat) (l : Bool) (s : State) : (driveClock p l s).activity = s.activity ++ [s.recorded (.clock p l)] := rfl
@[simp] theorem driveClock_marks (p : Nat) (l : Bool) (s : State) : (driveClock p l s).marks = s.marks := rfl

@[simp] theorem openCycle_cfg (s : State) : (openCycle s).cfg = s.cfg := rfl
@[simp] theorem openCycle_program (s : State) : (openCycle s).program = s.program := rfl
@[simp] theorem openCycle_script (s : State) : (openCycle s).script = s.script := rfl
@[simp] theorem openCycle_pc (s : State) : (openCycle s).pc = s.pc := rfl
@[simp] theorem openCycle_idled (s : State) : (openCycle s).idled = s.idled := rfl
@[simp] theorem openCycle_booted (s : State) : (openCycle s).booted = s.booted := rfl
@[simp] theorem openCycle_pins (s : State) : (openCycle s).pins = .active := rfl
@[simp] theorem openCycle_clk (s : State) : (openCycle s).clk = s.clk := rfl
@[simp] theorem openCycle_hostMask (s : State) : (openCycle s).hostMask = (s.cfg.hostMaskSpan || s.hostMask) := rfl
@[simp] theorem openCycle_phase (s : State) : (openCycle s).phase = .p2 := rfl
@[simp] theorem openCycle_polls (s : State) : (openCycle s).polls = s.polls := rfl
@[simp] theorem openCycle_latch (s : State) : (openCycle s).latch = s.latch := rfl
@[simp] theorem openCycle_work (s : State) : (openCycle s).work = s.work := rfl
@[simp] theorem openCycle_result (s : State) : (openCycle s).result = s.result := rfl
@[simp] theorem openCycle_results (s : State) : (openCycle s).results = s.results := rfl
@[simp] theorem openCycle_trace (s : State) : (openCycle s).trace = s.trace := rfl
@[simp] theorem openCycle_activity (s : State) : (openCycle s).activity = s.activity ++ [⟨.p2, s.cfg.hostMaskSpan || s.hostMask, .enter⟩] := rfl
@[simp] theorem openCycle_marks (s : State) : (openCycle s).marks = s.marks := rfl

@[simp] theorem assertStatus_cfg (s : State) : (assertStatus s).cfg = s.cfg := rfl
@[simp] theorem assertStatus_program (s : State) : (assertStatus s).program = s.program := rfl
@[simp] theorem assertStatus_script (s : State) : (assertStatus s).script = s.script := rfl
@[simp] theorem assertStatus_pc (s : State) : (assertStatus s).pc = s.pc := rfl
@[simp] theorem assertStatus_idled (s : State) : (assertStatus s).idled = s.idled := rfl
@[simp] theorem assertStatus_booted (s : State) : (assertStatus s).booted = s.booted := rfl
@[simp] theorem assertStatus_pins (s : State) : (assertStatus s).pins = s.pins := rfl
@[simp] theorem assertStatus_clk (s : State) : (assertStatus s).clk = s.clk := rfl
@[simp] theorem assertStatus_hostMask (s : State) : (assertStatus s).hostMask = s.hostMask := rfl
@[simp] theorem assertStatus_phase (s : State) : (assertStatus s).phase = s.phase := rfl
@[simp] theorem assertStatus_polls (s : State) : (assertStatus s).polls = s.polls := rfl
@[simp] theorem assertStatus_latch (s : State) : (assertStatus s).latch = s.latch := rfl
@[simp] theorem assertStatus_work (s : State) : (assertStatus s).work = s.work := rfl
@[simp] theorem assertStatus_result (s : State) : (assertStatus s).result = s.result := rfl
@[simp] theorem assertStatus_results (s : State) : (assertStatus s).results = s.results := rfl
@[simp] theorem assertStatus_trace (s : State) : (assertStatus s).trace = s.trace := rfl
@[simp] theorem assertStatus_activity (s : State) : (assertStatus s).activity = s.activity ++ [s.recorded (s.cfg.statusFlags s.latch.kind s.latch.space s.latch.lane)] := rfl
@[simp] theorem assertStatus_marks (s : State) : (assertStatus s).marks = s.marks := rfl

@[simp] theorem assertAddress_cfg (s : State) : (assertAddress s).cfg = s.cfg := rfl
@[simp] theorem assertAddress_program (s : State) : (assertAddress s).program = s.program := rfl
@[simp] theorem assertAddress_script (s : State) : (assertAddress s).script = s.script := rfl
@[simp] theorem assertAddress_pc (s : State) : (assertAddress s).pc = s.pc := rfl
@[simp] theorem assertAddress_idled (s : State) : (assertAddress s).idled = s.idled := rfl
@[simp] theorem assertAddress_booted (s : State) : (assertAddress s).booted = s.booted := rfl
@[simp] theorem assertAddress_pins (s : State) : (assertAddress s).pins = s.pins := rfl
@[simp] theorem assertAddress_clk (s : State) : (assertAddress s).clk = s.clk := rfl
@[simp] theorem assertAddress_hostMask (s : State) : (assertAddress s).hostMask = s.hostMask := rfl
@[simp] theorem assertAddress_phase (s : State) : (assertAddress s).phase = s.phase := rfl
@[simp] theorem assertAddress_polls (s : State) : (assertAddress s).polls = s.polls := rfl
@[simp] theorem assertAddress_latch (s : State) : (assertAddress s).latch = s.latch := rfl
@[simp] theorem assertAddress_work (s : State) : (assertAddress s).work = s.work := rfl
@[simp] theorem assertAddress_result (s : State) : (assertAddress s).result = s.result := rfl
@[simp] theorem assertAddress_results (s : State) : (assertAddress s).results = s.results := rfl
@[simp] theorem assertAddress_trace (s : State) : (assertAddress s).trace = s.trace := rfl
@[simp] theorem assertAddress_activity (s : State) : (assertAddress s).activity = s.activity ++ (s.cfg.addressActs s.latch.paddr).map s.recorded := rfl
@[simp] theorem assertAddress_marks (s : State) : (assertAddress s).marks = s.marks := rfl

@[simp] theorem assertStrobes_cfg (s : State) : (assertStrobes s).cfg = s.cfg := rfl
@[simp] theorem assertStrobes_program (s : State) : (assertStrobes s).program = s.program := rfl
@[simp] theorem assertStrobes_script (s : State) : (assertStrobes s).script = s.script := rfl
@[simp] theorem assertStrobes_pc (s : State) : (assertStrobes s).pc = s.pc := rfl
@[simp] theorem assertStrobes_idled (s : State) : (assertStrobes s).idled = s.idled := rfl
@[simp] theorem assertStrobes_booted (s : State) : (assertStrobes s).booted = s.booted := rfl
@[simp] theorem assertStrobes_pins (s : State) : (assertStrobes s).pins = s.pins := rfl
@[simp] theorem assertStrobes_clk (s : State) : (assertStrobes s).clk = s.clk := rfl
@[simp] theorem assertStrobes_hostMask (s : State) : (assertStrobes s).hostMask = s.hostMask := rfl
@[simp] theorem assertStrobes_phase (s : State) : (assertStrobes s).phase = s.phase := rfl
@[simp] theorem assertStrobes_polls (s : State) : (assertStrobes s).polls = s.polls := rfl
@[simp] theorem assertStrobes_latch (s : State) : (assertStrobes s).latch = s.latch := rfl
@[simp] theorem assertStrobes_work (s : State) : (assertStrobes s).work = s.work := rfl
@[simp] theorem assertStrobes_result (s : State) : (assertStrobes s).result = s.result := rfl
@[simp] theorem assertStrobes_results (s : State) : (assertStrobes s).results = s.results := rfl
@[simp] theorem assertStrobes_trace (s : State) : (assertStrobes s).trace = s.trace := rfl
@[simp] theorem assertStrobes_activity (s : State) : (assertStrobes s).activity = s.activity ++ [s.recorded (.strobes s.latch.kind s.latch.space s.latch.lane)] := rfl
@[simp] theorem assertStrobes_marks (s : State) : (assertStrobes s).marks = s.marks := rfl

@[simp] theorem sampleData_cfg (s : State) : (sampleData s).cfg = s.cfg := rfl
@[simp] theorem sampleData_program (s : State) : (sampleData s).program = s.program := rfl
@[simp] theorem sampleData_script (s : State) : (sampleData s).script = s.script.tail := rfl
@[simp] theorem sampleData_pc (s : State) : (sampleData s).pc = s.pc := rfl
@[simp] theorem sampleData_idled (s : State) : (sampleData s).idled = s.idled := rfl
@[simp] theorem sampleData_booted (s : State) : (sampleData s).booted = s.booted := rfl
@[simp] theorem sampleData_pins (s : State) : (sampleData s).pins = s.pins := rfl
@[simp] theorem sampleData_clk (s : State) : (sampleData s).clk = s.clk := rfl
@[simp] theorem sampleData_hostMask (s : State) : (sampleData s).hostMask = s.hostMask := rfl
@[simp] theorem sampleData_phase (s : State) : (sampleData s).phase = s.phase := rfl
@[simp] theorem sampleData_polls (s : State) : (sampleData s).polls = s.polls := rfl
@[simp] theorem sampleData_latch (s : State) : (sampleData s).latch = { s.latch with rdata := sampledDatum s.latch.lane (s.reply .dataPins) } := rfl
@[simp] theorem sampleData_work (s : State) : (sampleData s).work = s.work := rfl
@[simp] theorem sampleData_result (s : State) : (sampleData s).result = s.result := rfl
@[simp] theorem sampleData_results (s : State) : (sampleData s).results = s.results := rfl
@[simp] theorem sampleData_trace (s : State) : (sampleData s).trace = s.trace := rfl
@[simp] theorem sampleData_activity (s : State) : (sampleData s).activity = s.activity ++ [s.recorded (.sample .dataPins (s.reply .dataPins))] := rfl
@[simp] theorem sampleData_marks (s : State) : (sampleData s).marks = s.marks := rfl

@[simp] theorem abortCycle_cfg (s : State) : (abortCycle s).cfg = s.cfg := rfl
@[simp] theorem abortCycle_program (s : State) : (abortCycle s).program = s.program := rfl
@[simp] theorem abortCycle_script (s : State) : (abortCycle s).script = s.script := rfl
@[simp] theorem abortCycle_pc (s : State) : (abortCycle s).pc = s.pc := rfl
@[simp] theorem abortCycle_idled (s : State) : (abortCycle s).idled = s.idled := rfl
@[simp] theorem abortCycle_booted (s : State) : (abortCycle s).booted = s.booted := rfl
@[simp] theorem abortCycle_pins (s : State) : (abortCycle s).pins = .idle := rfl
@[simp] theorem abortCycle_clk (s : State) : (abortCycle s).clk = s.clk := rfl
@[simp] theorem abortCycle_hostMask (s : State) : (abortCycle s).hostMask = false := rfl
@[simp] theorem abortCycle_phase (s : State) : (abortCycle s).phase = .idle := rfl
@[simp] theorem abortCycle_polls (s : State) : (abortCycle s).polls = s.polls := rfl
@[simp] theorem abortCycle_latch (s : State) : (abortCycle s).latch = s.latch := rfl
@[simp] theorem abortCycle_work (s : State) : (abortCycle s).work = s.work := rfl
@[simp] theorem abortCycle_result (s : State) : (abortCycle s).result = s.result := rfl
@[simp] theorem abortCycle_results (s : State) : (abortCycle s).results = s.results := rfl
@[simp] theorem abortCycle_trace (s : State) : (abortCycle s).trace = s.trace ++ [.abort s.latch.kind s.latch.space s.latch.paddr s.latch.w s.latch.lane .p3] := rfl
@[simp] theorem abortCycle_activity (s : State) : (abortCycle s).activity = (s.activity ++ [s.recorded .terminate]) ++ [⟨.idle, false, .enter⟩] := rfl
@[simp] theorem abortCycle_marks (s : State) : (abortCycle s).marks = s.marks := rfl

@[simp] theorem closeCycle_cfg (d : Datum) (s : State) : (closeCycle d s).cfg = s.cfg := rfl
@[simp] theorem closeCycle_program (d : Datum) (s : State) : (closeCycle d s).program = s.program := rfl
@[simp] theorem closeCycle_script (d : Datum) (s : State) : (closeCycle d s).script = s.script := rfl
@[simp] theorem closeCycle_pc (d : Datum) (s : State) : (closeCycle d s).pc = s.pc := rfl
@[simp] theorem closeCycle_idled (d : Datum) (s : State) : (closeCycle d s).idled = s.idled := rfl
@[simp] theorem closeCycle_booted (d : Datum) (s : State) : (closeCycle d s).booted = s.booted := rfl
@[simp] theorem closeCycle_pins (d : Datum) (s : State) : (closeCycle d s).pins = .idle := rfl
@[simp] theorem closeCycle_clk (d : Datum) (s : State) : (closeCycle d s).clk = s.clk := rfl
@[simp] theorem closeCycle_hostMask (d : Datum) (s : State) : (closeCycle d s).hostMask = false := rfl
@[simp] theorem closeCycle_phase (d : Datum) (s : State) : (closeCycle d s).phase = .idle := rfl
@[simp] theorem closeCycle_polls (d : Datum) (s : State) : (closeCycle d s).polls = s.polls := rfl
@[simp] theorem closeCycle_latch (d : Datum) (s : State) : (closeCycle d s).latch = s.latch := rfl
@[simp] theorem closeCycle_work (d : Datum) (s : State) : (closeCycle d s).work = s.work := rfl
@[simp] theorem closeCycle_result (d : Datum) (s : State) : (closeCycle d s).result = s.result := rfl
@[simp] theorem closeCycle_results (d : Datum) (s : State) : (closeCycle d s).results = s.results := rfl
@[simp] theorem closeCycle_trace (d : Datum) (s : State) : (closeCycle d s).trace = s.trace ++ [.cyc s.latch.kind s.latch.space s.latch.paddr s.latch.w s.latch.lane d] := rfl
@[simp] theorem closeCycle_activity (d : Datum) (s : State) : (closeCycle d s).activity = (s.activity ++ [s.recorded .terminate]) ++ [⟨.idle, false, .enter⟩] := rfl
@[simp] theorem closeCycle_marks (d : Datum) (s : State) : (closeCycle d s).marks = s.marks := rfl

@[simp] theorem State.lineSampled_cfg (s : State) (l : Line) : (s.lineSampled l).cfg = s.cfg := rfl
@[simp] theorem State.lineSampled_program (s : State) (l : Line) : (s.lineSampled l).program = s.program := rfl
@[simp] theorem State.lineSampled_script (s : State) (l : Line) : (s.lineSampled l).script = s.script.tail := rfl
@[simp] theorem State.lineSampled_pc (s : State) (l : Line) : (s.lineSampled l).pc = s.pc := rfl
@[simp] theorem State.lineSampled_idled (s : State) (l : Line) : (s.lineSampled l).idled = s.idled := rfl
@[simp] theorem State.lineSampled_booted (s : State) (l : Line) : (s.lineSampled l).booted = s.booted := rfl
@[simp] theorem State.lineSampled_pins (s : State) (l : Line) : (s.lineSampled l).pins = s.pins := rfl
@[simp] theorem State.lineSampled_clk (s : State) (l : Line) : (s.lineSampled l).clk = s.clk := rfl
@[simp] theorem State.lineSampled_hostMask (s : State) (l : Line) : (s.lineSampled l).hostMask = s.hostMask := rfl
@[simp] theorem State.lineSampled_phase (s : State) (l : Line) : (s.lineSampled l).phase = s.phase := rfl
@[simp] theorem State.lineSampled_polls (s : State) (l : Line) : (s.lineSampled l).polls = s.polls + 1 := rfl
@[simp] theorem State.lineSampled_latch (s : State) (l : Line) : (s.lineSampled l).latch = s.latch := rfl
@[simp] theorem State.lineSampled_work (s : State) (l : Line) : (s.lineSampled l).work = s.work := rfl
@[simp] theorem State.lineSampled_result (s : State) (l : Line) : (s.lineSampled l).result = s.result := rfl
@[simp] theorem State.lineSampled_results (s : State) (l : Line) : (s.lineSampled l).results = s.results := rfl
@[simp] theorem State.lineSampled_trace (s : State) (l : Line) : (s.lineSampled l).trace = s.trace := rfl
@[simp] theorem State.lineSampled_activity (s : State) (l : Line) : (s.lineSampled l).activity = (s.activity ++ [s.recorded (.sample (lineQuery s.cfg l) (s.reply (lineQuery s.cfg l)))]) ++ [s.recorded (.lineLevel l (s.lineNow l) (s.cfg.electrical l (s.lineNow l)))] := rfl
@[simp] theorem State.lineSampled_marks (s : State) (l : Line) : (s.lineSampled l).marks = s.marks := rfl

@[simp] theorem setCell_cfg (r : Byte) (i : Nat) (la : Word) (s : State) : (setCell r i la s).cfg = s.cfg := rfl
@[simp] theorem setCell_program (r : Byte) (i : Nat) (la : Word) (s : State) : (setCell r i la s).program = s.program := rfl
@[simp] theorem setCell_script (r : Byte) (i : Nat) (la : Word) (s : State) : (setCell r i la s).script = s.script := rfl
@[simp] theorem setCell_pc (r : Byte) (i : Nat) (la : Word) (s : State) : (setCell r i la s).pc = s.pc := rfl
@[simp] theorem setCell_idled (r : Byte) (i : Nat) (la : Word) (s : State) : (setCell r i la s).idled = s.idled := rfl
@[simp] theorem setCell_booted (r : Byte) (i : Nat) (la : Word) (s : State) : (setCell r i la s).booted = s.booted := rfl
@[simp] theorem setCell_pins (r : Byte) (i : Nat) (la : Word) (s : State) : (setCell r i la s).pins = s.pins := rfl
@[simp] theorem setCell_clk (r : Byte) (i : Nat) (la : Word) (s : State) : (setCell r i la s).clk = s.clk := rfl
@[simp] theorem setCell_hostMask (r : Byte) (i : Nat) (la : Word) (s : State) : (setCell r i la s).hostMask = s.hostMask := rfl
@[simp] theorem setCell_phase (r : Byte) (i : Nat) (la : Word) (s : State) : (setCell r i la s).phase = s.phase := rfl
@[simp] theorem setCell_polls (r : Byte) (i : Nat) (la : Word) (s : State) : (setCell r i la s).polls = s.polls := rfl
@[simp] theorem setCell_latch (r : Byte) (i : Nat) (la : Word) (s : State) : (setCell r i la s).latch = s.latch := rfl
@[simp] theorem setCell_work (r : Byte) (i : Nat) (la : Word) (s : State) : (setCell r i la s).work = { s.work with ridx := r, i := BitVec.ofNat 32 i, la := la } := rfl
@[simp] theorem setCell_result (r : Byte) (i : Nat) (la : Word) (s : State) : (setCell r i la s).result = s.result := rfl
@[simp] theorem setCell_results (r : Byte) (i : Nat) (la : Word) (s : State) : (setCell r i la s).results = s.results := rfl
@[simp] theorem setCell_trace (r : Byte) (i : Nat) (la : Word) (s : State) : (setCell r i la s).trace = s.trace := rfl
@[simp] theorem setCell_activity (r : Byte) (i : Nat) (la : Word) (s : State) : (setCell r i la s).activity = s.activity := rfl
@[simp] theorem setCell_marks (r : Byte) (i : Nat) (la : Word) (s : State) : (setCell r i la s).marks = s.marks := rfl

@[simp] theorem setLa_cfg (v : Word) (s : State) : (setLa v s).cfg = s.cfg := rfl
@[simp] theorem setLa_program (v : Word) (s : State) : (setLa v s).program = s.program := rfl
@[simp] theorem setLa_script (v : Word) (s : State) : (setLa v s).script = s.script := rfl
@[simp] theorem setLa_pc (v : Word) (s : State) : (setLa v s).pc = s.pc := rfl
@[simp] theorem setLa_idled (v : Word) (s : State) : (setLa v s).idled = s.idled := rfl
@[simp] theorem setLa_booted (v : Word) (s : State) : (setLa v s).booted = s.booted := rfl
@[simp] theorem setLa_pins (v : Word) (s : State) : (setLa v s).pins = s.pins := rfl
@[simp] theorem setLa_clk (v : Word) (s : State) : (setLa v s).clk = s.clk := rfl
@[simp] theorem setLa_hostMask (v : Word) (s : State) : (setLa v s).hostMask = s.hostMask := rfl
@[simp] theorem setLa_phase (v : Word) (s : State) : (setLa v s).phase = s.phase := rfl
@[simp] theorem setLa_polls (v : Word) (s : State) : (setLa v s).polls = s.polls := rfl
@[simp] theorem setLa_latch (v : Word) (s : State) : (setLa v s).latch = s.latch := rfl
@[simp] theorem setLa_work (v : Word) (s : State) : (setLa v s).work = { s.work with la := v } := rfl
@[simp] theorem setLa_result (v : Word) (s : State) : (setLa v s).result = s.result := rfl
@[simp] theorem setLa_results (v : Word) (s : State) : (setLa v s).results = s.results := rfl
@[simp] theorem setLa_trace (v : Word) (s : State) : (setLa v s).trace = s.trace := rfl
@[simp] theorem setLa_activity (v : Word) (s : State) : (setLa v s).activity = s.activity := rfl
@[simp] theorem setLa_marks (v : Word) (s : State) : (setLa v s).marks = s.marks := rfl

@[simp] theorem setExpected_cfg (v : Datum) (s : State) : (setExpected v s).cfg = s.cfg := rfl
@[simp] theorem setExpected_program (v : Datum) (s : State) : (setExpected v s).program = s.program := rfl
@[simp] theorem setExpected_script (v : Datum) (s : State) : (setExpected v s).script = s.script := rfl
@[simp] theorem setExpected_pc (v : Datum) (s : State) : (setExpected v s).pc = s.pc := rfl
@[simp] theorem setExpected_idled (v : Datum) (s : State) : (setExpected v s).idled = s.idled := rfl
@[simp] theorem setExpected_booted (v : Datum) (s : State) : (setExpected v s).booted = s.booted := rfl
@[simp] theorem setExpected_pins (v : Datum) (s : State) : (setExpected v s).pins = s.pins := rfl
@[simp] theorem setExpected_clk (v : Datum) (s : State) : (setExpected v s).clk = s.clk := rfl
@[simp] theorem setExpected_hostMask (v : Datum) (s : State) : (setExpected v s).hostMask = s.hostMask := rfl
@[simp] theorem setExpected_phase (v : Datum) (s : State) : (setExpected v s).phase = s.phase := rfl
@[simp] theorem setExpected_polls (v : Datum) (s : State) : (setExpected v s).polls = s.polls := rfl
@[simp] theorem setExpected_latch (v : Datum) (s : State) : (setExpected v s).latch = s.latch := rfl
@[simp] theorem setExpected_work (v : Datum) (s : State) : (setExpected v s).work = { s.work with expv := v } := rfl
@[simp] theorem setExpected_result (v : Datum) (s : State) : (setExpected v s).result = s.result := rfl
@[simp] theorem setExpected_results (v : Datum) (s : State) : (setExpected v s).results = s.results := rfl
@[simp] theorem setExpected_trace (v : Datum) (s : State) : (setExpected v s).trace = s.trace := rfl
@[simp] theorem setExpected_activity (v : Datum) (s : State) : (setExpected v s).activity = s.activity := rfl
@[simp] theorem setExpected_marks (v : Datum) (s : State) : (setExpected v s).marks = s.marks := rfl

@[simp] theorem setActual_cfg (v : Datum) (s : State) : (setActual v s).cfg = s.cfg := rfl
@[simp] theorem setActual_program (v : Datum) (s : State) : (setActual v s).program = s.program := rfl
@[simp] theorem setActual_script (v : Datum) (s : State) : (setActual v s).script = s.script := rfl
@[simp] theorem setActual_pc (v : Datum) (s : State) : (setActual v s).pc = s.pc := rfl
@[simp] theorem setActual_idled (v : Datum) (s : State) : (setActual v s).idled = s.idled := rfl
@[simp] theorem setActual_booted (v : Datum) (s : State) : (setActual v s).booted = s.booted := rfl
@[simp] theorem setActual_pins (v : Datum) (s : State) : (setActual v s).pins = s.pins := rfl
@[simp] theorem setActual_clk (v : Datum) (s : State) : (setActual v s).clk = s.clk := rfl
@[simp] theorem setActual_hostMask (v : Datum) (s : State) : (setActual v s).hostMask = s.hostMask := rfl
@[simp] theorem setActual_phase (v : Datum) (s : State) : (setActual v s).phase = s.phase := rfl
@[simp] theorem setActual_polls (v : Datum) (s : State) : (setActual v s).polls = s.polls := rfl
@[simp] theorem setActual_latch (v : Datum) (s : State) : (setActual v s).latch = s.latch := rfl
@[simp] theorem setActual_work (v : Datum) (s : State) : (setActual v s).work = { s.work with actv := v } := rfl
@[simp] theorem setActual_result (v : Datum) (s : State) : (setActual v s).result = s.result := rfl
@[simp] theorem setActual_results (v : Datum) (s : State) : (setActual v s).results = s.results := rfl
@[simp] theorem setActual_trace (v : Datum) (s : State) : (setActual v s).trace = s.trace := rfl
@[simp] theorem setActual_activity (v : Datum) (s : State) : (setActual v s).activity = s.activity := rfl
@[simp] theorem setActual_marks (v : Datum) (s : State) : (setActual v s).marks = s.marks := rfl

@[simp] theorem setCrc_cfg (v : Word) (s : State) : (setCrc v s).cfg = s.cfg := rfl
@[simp] theorem setCrc_program (v : Word) (s : State) : (setCrc v s).program = s.program := rfl
@[simp] theorem setCrc_script (v : Word) (s : State) : (setCrc v s).script = s.script := rfl
@[simp] theorem setCrc_pc (v : Word) (s : State) : (setCrc v s).pc = s.pc := rfl
@[simp] theorem setCrc_idled (v : Word) (s : State) : (setCrc v s).idled = s.idled := rfl
@[simp] theorem setCrc_booted (v : Word) (s : State) : (setCrc v s).booted = s.booted := rfl
@[simp] theorem setCrc_pins (v : Word) (s : State) : (setCrc v s).pins = s.pins := rfl
@[simp] theorem setCrc_clk (v : Word) (s : State) : (setCrc v s).clk = s.clk := rfl
@[simp] theorem setCrc_hostMask (v : Word) (s : State) : (setCrc v s).hostMask = s.hostMask := rfl
@[simp] theorem setCrc_phase (v : Word) (s : State) : (setCrc v s).phase = s.phase := rfl
@[simp] theorem setCrc_polls (v : Word) (s : State) : (setCrc v s).polls = s.polls := rfl
@[simp] theorem setCrc_latch (v : Word) (s : State) : (setCrc v s).latch = s.latch := rfl
@[simp] theorem setCrc_work (v : Word) (s : State) : (setCrc v s).work = { s.work with crc := v } := rfl
@[simp] theorem setCrc_result (v : Word) (s : State) : (setCrc v s).result = s.result := rfl
@[simp] theorem setCrc_results (v : Word) (s : State) : (setCrc v s).results = s.results := rfl
@[simp] theorem setCrc_trace (v : Word) (s : State) : (setCrc v s).trace = s.trace := rfl
@[simp] theorem setCrc_activity (v : Word) (s : State) : (setCrc v s).activity = s.activity := rfl
@[simp] theorem setCrc_marks (v : Word) (s : State) : (setCrc v s).marks = s.marks := rfl

@[simp] theorem setRng_cfg (v : Word) (s : State) : (setRng v s).cfg = s.cfg := rfl
@[simp] theorem setRng_program (v : Word) (s : State) : (setRng v s).program = s.program := rfl
@[simp] theorem setRng_script (v : Word) (s : State) : (setRng v s).script = s.script := rfl
@[simp] theorem setRng_pc (v : Word) (s : State) : (setRng v s).pc = s.pc := rfl
@[simp] theorem setRng_idled (v : Word) (s : State) : (setRng v s).idled = s.idled := rfl
@[simp] theorem setRng_booted (v : Word) (s : State) : (setRng v s).booted = s.booted := rfl
@[simp] theorem setRng_pins (v : Word) (s : State) : (setRng v s).pins = s.pins := rfl
@[simp] theorem setRng_clk (v : Word) (s : State) : (setRng v s).clk = s.clk := rfl
@[simp] theorem setRng_hostMask (v : Word) (s : State) : (setRng v s).hostMask = s.hostMask := rfl
@[simp] theorem setRng_phase (v : Word) (s : State) : (setRng v s).phase = s.phase := rfl
@[simp] theorem setRng_polls (v : Word) (s : State) : (setRng v s).polls = s.polls := rfl
@[simp] theorem setRng_latch (v : Word) (s : State) : (setRng v s).latch = s.latch := rfl
@[simp] theorem setRng_work (v : Word) (s : State) : (setRng v s).work = { s.work with rng := v } := rfl
@[simp] theorem setRng_result (v : Word) (s : State) : (setRng v s).result = s.result := rfl
@[simp] theorem setRng_results (v : Word) (s : State) : (setRng v s).results = s.results := rfl
@[simp] theorem setRng_trace (v : Word) (s : State) : (setRng v s).trace = s.trace := rfl
@[simp] theorem setRng_activity (v : Word) (s : State) : (setRng v s).activity = s.activity := rfl
@[simp] theorem setRng_marks (v : Word) (s : State) : (setRng v s).marks = s.marks := rfl

@[simp] theorem setPass_cfg (v : BitVec 2) (s : State) : (setPass v s).cfg = s.cfg := rfl
@[simp] theorem setPass_program (v : BitVec 2) (s : State) : (setPass v s).program = s.program := rfl
@[simp] theorem setPass_script (v : BitVec 2) (s : State) : (setPass v s).script = s.script := rfl
@[simp] theorem setPass_pc (v : BitVec 2) (s : State) : (setPass v s).pc = s.pc := rfl
@[simp] theorem setPass_idled (v : BitVec 2) (s : State) : (setPass v s).idled = s.idled := rfl
@[simp] theorem setPass_booted (v : BitVec 2) (s : State) : (setPass v s).booted = s.booted := rfl
@[simp] theorem setPass_pins (v : BitVec 2) (s : State) : (setPass v s).pins = s.pins := rfl
@[simp] theorem setPass_clk (v : BitVec 2) (s : State) : (setPass v s).clk = s.clk := rfl
@[simp] theorem setPass_hostMask (v : BitVec 2) (s : State) : (setPass v s).hostMask = s.hostMask := rfl
@[simp] theorem setPass_phase (v : BitVec 2) (s : State) : (setPass v s).phase = s.phase := rfl
@[simp] theorem setPass_polls (v : BitVec 2) (s : State) : (setPass v s).polls = s.polls := rfl
@[simp] theorem setPass_latch (v : BitVec 2) (s : State) : (setPass v s).latch = s.latch := rfl
@[simp] theorem setPass_work (v : BitVec 2) (s : State) : (setPass v s).work = { s.work with pass := v } := rfl
@[simp] theorem setPass_result (v : BitVec 2) (s : State) : (setPass v s).result = s.result := rfl
@[simp] theorem setPass_results (v : BitVec 2) (s : State) : (setPass v s).results = s.results := rfl
@[simp] theorem setPass_trace (v : BitVec 2) (s : State) : (setPass v s).trace = s.trace := rfl
@[simp] theorem setPass_activity (v : BitVec 2) (s : State) : (setPass v s).activity = s.activity := rfl
@[simp] theorem setPass_marks (v : BitVec 2) (s : State) : (setPass v s).marks = s.marks := rfl

@[simp] theorem setStep_cfg (v : BitVec 2) (s : State) : (setStep v s).cfg = s.cfg := rfl
@[simp] theorem setStep_program (v : BitVec 2) (s : State) : (setStep v s).program = s.program := rfl
@[simp] theorem setStep_script (v : BitVec 2) (s : State) : (setStep v s).script = s.script := rfl
@[simp] theorem setStep_pc (v : BitVec 2) (s : State) : (setStep v s).pc = s.pc := rfl
@[simp] theorem setStep_idled (v : BitVec 2) (s : State) : (setStep v s).idled = s.idled := rfl
@[simp] theorem setStep_booted (v : BitVec 2) (s : State) : (setStep v s).booted = s.booted := rfl
@[simp] theorem setStep_pins (v : BitVec 2) (s : State) : (setStep v s).pins = s.pins := rfl
@[simp] theorem setStep_clk (v : BitVec 2) (s : State) : (setStep v s).clk = s.clk := rfl
@[simp] theorem setStep_hostMask (v : BitVec 2) (s : State) : (setStep v s).hostMask = s.hostMask := rfl
@[simp] theorem setStep_phase (v : BitVec 2) (s : State) : (setStep v s).phase = s.phase := rfl
@[simp] theorem setStep_polls (v : BitVec 2) (s : State) : (setStep v s).polls = s.polls := rfl
@[simp] theorem setStep_latch (v : BitVec 2) (s : State) : (setStep v s).latch = s.latch := rfl
@[simp] theorem setStep_work (v : BitVec 2) (s : State) : (setStep v s).work = { s.work with step := v } := rfl
@[simp] theorem setStep_result (v : BitVec 2) (s : State) : (setStep v s).result = s.result := rfl
@[simp] theorem setStep_results (v : BitVec 2) (s : State) : (setStep v s).results = s.results := rfl
@[simp] theorem setStep_trace (v : BitVec 2) (s : State) : (setStep v s).trace = s.trace := rfl
@[simp] theorem setStep_activity (v : BitVec 2) (s : State) : (setStep v s).activity = s.activity := rfl
@[simp] theorem setStep_marks (v : BitVec 2) (s : State) : (setStep v s).marks = s.marks := rfl

@[simp] theorem State.withFetchWord_cfg (s : State) (n w : Nat) : (s.withFetchWord n w).cfg = s.cfg := rfl
@[simp] theorem State.withFetchWord_program (s : State) (n w : Nat) : (s.withFetchWord n w).program = (s.program ++ List.replicate (s.pc + 1 - s.program.length) 0).set s.pc (tableFrame n w) := rfl
@[simp] theorem State.withFetchWord_script (s : State) (n w : Nat) : (s.withFetchWord n w).script = s.script := rfl
@[simp] theorem State.withFetchWord_pc (s : State) (n w : Nat) : (s.withFetchWord n w).pc = s.pc := rfl
@[simp] theorem State.withFetchWord_idled (s : State) (n w : Nat) : (s.withFetchWord n w).idled = s.idled := rfl
@[simp] theorem State.withFetchWord_booted (s : State) (n w : Nat) : (s.withFetchWord n w).booted = s.booted := rfl
@[simp] theorem State.withFetchWord_pins (s : State) (n w : Nat) : (s.withFetchWord n w).pins = s.pins := rfl
@[simp] theorem State.withFetchWord_clk (s : State) (n w : Nat) : (s.withFetchWord n w).clk = s.clk := rfl
@[simp] theorem State.withFetchWord_hostMask (s : State) (n w : Nat) : (s.withFetchWord n w).hostMask = s.hostMask := rfl
@[simp] theorem State.withFetchWord_phase (s : State) (n w : Nat) : (s.withFetchWord n w).phase = s.phase := rfl
@[simp] theorem State.withFetchWord_polls (s : State) (n w : Nat) : (s.withFetchWord n w).polls = s.polls := rfl
@[simp] theorem State.withFetchWord_latch (s : State) (n w : Nat) : (s.withFetchWord n w).latch = s.latch := rfl
@[simp] theorem State.withFetchWord_work (s : State) (n w : Nat) : (s.withFetchWord n w).work = s.work := rfl
@[simp] theorem State.withFetchWord_result (s : State) (n w : Nat) : (s.withFetchWord n w).result = s.result := rfl
@[simp] theorem State.withFetchWord_results (s : State) (n w : Nat) : (s.withFetchWord n w).results = s.results := rfl
@[simp] theorem State.withFetchWord_trace (s : State) (n w : Nat) : (s.withFetchWord n w).trace = s.trace := rfl
@[simp] theorem State.withFetchWord_activity (s : State) (n w : Nat) : (s.withFetchWord n w).activity = s.activity := rfl
@[simp] theorem State.withFetchWord_marks (s : State) (n w : Nat) : (s.withFetchWord n w).marks = s.marks := rfl

end Sys2Proof.Machine
end

