-- ==== Sys2Proof/Laws/Ops.lean ====
section
/-! SUPPORT. What the shared operations can do: the outcome type, the loop, asking the Board, ending a command, the guard. -/

namespace Sys2Proof.Machine

/-! ### The outcome of a part of a command -/

@[simp] theorem Res.bind_ok {α β : Type} (a : α) (s : State) (f : α → State → Res β) :
    (Res.ok a s).bind f = f a s := rfl

@[simp] theorem Res.bind_raise {α β : Type} (r : Result) (s : State) (f : α → State → Res β) :
    (Res.raise r s : Res α).bind f = .raise r s := rfl

@[simp] theorem Res.onRaise_ok {α : Type} (a : α) (s : State) (f : Result → Result) :
    (Res.ok a s).onRaise f = .ok a s := rfl

@[simp] theorem Res.onRaise_raise {α : Type} (r : Result) (s : State) (f : Result → Result) :
    (Res.raise r s : Res α).onRaise f = .raise (f r) s := rfl

@[simp] theorem Res.state_ok {α : Type} (a : α) (s : State) : (Res.ok a s).state = s := rfl

@[simp] theorem Res.state_raise {α : Type} (r : Result) (s : State) : (Res.raise r s : Res α).state = s := rfl

@[simp] theorem Res.onRaise_state {α : Type} (x : Res α) (f : Result → Result) : (x.onRaise f).state = x.state := by
  cases x <;> rfl

theorem Res.bind_eq_ok {α β : Type} {x : Res α} {f : α → State → Res β} {b : β} {u : State} :
    x.bind f = .ok b u ↔ ∃ a t, x = .ok a t ∧ f a t = .ok b u := by
  cases x <;> simp

theorem Res.bind_eq_raise {α β : Type} {x : Res α} {f : α → State → Res β} {r : Result} {u : State} :
    x.bind f = .raise r u ↔ x = .raise r u ∨ ∃ a t, x = .ok a t ∧ f a t = .raise r u := by
  cases x <;> simp

theorem Res.onRaise_eq_ok {α : Type} {x : Res α} {f : Result → Result} {a : α} {t : State} :
    x.onRaise f = .ok a t ↔ x = .ok a t := by
  cases x <;> simp

theorem Res.onRaise_eq_raise {α : Type} {x : Res α} {f : Result → Result} {r : Result} {t : State} :
    x.onRaise f = .raise r t ↔ ∃ r', x = .raise r' t ∧ f r' = r := by
  cases x <;> simp [and_comm]

/-- A transitive relation between states holds across a sequence when it holds across both parts. -/
theorem Res.bind_rel {α β : Type} {R : State → State → Prop} (trans : ∀ {a b c}, R a b → R b c → R a c)
    {s : State} {x : Res α} {f : α → State → Res β} (hx : R s x.state) (hf : ∀ a t, x = .ok a t → R t (f a t).state) :
    R s (x.bind f).state := by
  cases x with
  | ok a t => exact trans hx (hf a t rfl)
  | raise r t => exact hx

/-! ### The loop -/

@[simp] theorem forEach_nil {α : Type} (body : α → State → Res Unit) (s : State) : forEach body [] s = .ok () s := rfl

theorem forEach_cons {α : Type} (body : α → State → Res Unit) (a : α) (l : List α) (s : State) :
    forEach body (a :: l) s = (body a s).bind fun _ t => forEach body l t := rfl

theorem forEach_append {α : Type} (body : α → State → Res Unit) (l₁ l₂ : List α) (s : State) :
    forEach body (l₁ ++ l₂) s = (forEach body l₁ s).bind fun _ t => forEach body l₂ t := by
  induction l₁ generalizing s with
  | nil => rfl
  | cons a l ih =>
    simp only [List.cons_append, forEach_cons]
    cases body a s with
    | ok u t => simp [ih]
    | raise r t => rfl

/-- A reflexive and transitive relation every turn keeps, the whole loop keeps. -/
theorem forEach_rel {α : Type} {R : State → State → Prop} (refl : ∀ s, R s s)
    (trans : ∀ {a b c}, R a b → R b c → R a c) {body : α → State → Res Unit} {l : List α}
    (h : ∀ a ∈ l, ∀ s, R s (body a s).state) (s : State) : R s (forEach body l s).state := by
  induction l generalizing s with
  | nil => exact refl s
  | cons a l ih =>
    rw [forEach_cons]
    refine Res.bind_rel (R := R) trans (h a (by simp) s) ?_
    intro _ t _
    exact ih (fun b hb => h b (by simp [hb])) t

/-! ### Asking the Board -/

theorem reply_of_script {s : State} {raw : Raw} {rest : List Raw} (h : s.script = raw :: rest) (q : Query) :
    s.reply q = raw := by simp [State.reply, h]

theorem sampled_script_of {s : State} {raw : Raw} {rest : List Raw} (h : s.script = raw :: rest) (q : Query) :
    (s.sampled q).script = rest := by simp [h]

/-! ### What is carried across -/

theorem Carried.refl (s : State) : Carried s s :=
  ⟨rfl, rfl, rfl, rfl, rfl, rfl, List.prefix_rfl, List.prefix_rfl, List.suffix_rfl, rfl, fun _ => rfl⟩

theorem Carried.trans {s t u : State} (h : Carried s t) (k : Carried t u) : Carried s u where
  cfg := k.cfg.trans h.cfg
  program := k.program.trans h.program
  pc := k.pc.trans h.pc
  idled := k.idled.trans h.idled
  booted := k.booted.trans h.booted
  marks := k.marks.trans h.marks
  trace := h.trace.trans k.trace
  activity := h.activity.trans k.activity
  script := k.script.trans h.script
  clkLength := k.clkLength.trans h.clkLength
  clkKept := fun hm => (k.clkKept (by rw [h.cfg]; exact hm)).trans (h.clkKept hm)

theorem BusOnly.refl (s : State) : BusOnly s s := ⟨Carried.refl s, rfl⟩

theorem BusOnly.trans {s t u : State} (h : BusOnly s t) (k : BusOnly t u) : BusOnly s u :=
  ⟨h.toCarried.trans k.toCarried, k.work.trans h.work⟩

/-! ### The signal-level record -/

theorem drivenLevels_clock (p : Nat) (s : State) (q : Nat) (l : Bool) (as : List Activity) :
    drivenLevels p (s.recorded (.clock q l) :: as) = if q = p then l :: drivenLevels p as else drivenLevels p as := rfl

@[simp] theorem drivenLevels_append (p : Nat) (as bs : List Activity) :
    drivenLevels p (as ++ bs) = drivenLevels p as ++ drivenLevels p bs := by
  induction as with
  | nil => rfl
  | cons a as ih => rcases a with ⟨ph, m, a⟩; cases a <;> simp [drivenLevels, ih]; split <;> simp

@[simp] theorem busActs_nil : busActs [] = [] := rfl

@[simp] theorem busActs_append (as bs : List Activity) : busActs (as ++ bs) = busActs as ++ busActs bs := by
  simp [busActs]

@[simp] theorem busDrives_append (as bs : List Activity) : busDrives (as ++ bs) = busDrives as ++ busDrives bs := by
  simp [busDrives]

/-- What was appended over two parts is what each appended. -/
theorem newActivity_trans {s t u : State} (h : s.activity <+: t.activity) (k : t.activity <+: u.activity) :
    newActivity s u = newActivity s t ++ newActivity t u := by
  obtain ⟨as, ha⟩ := h
  obtain ⟨bs, hb⟩ := k
  simp [newActivity, ← hb, ← ha]

theorem newActivity_of_eq {s t : State} {as : List Activity} (h : t.activity = s.activity ++ as) :
    newActivity s t = as := by simp [newActivity, h]

theorem newEvents_trans {s t u : State} (h : s.trace <+: t.trace) (k : t.trace <+: u.trace) :
    newEvents s u = newEvents s t ++ newEvents t u := by
  obtain ⟨as, ha⟩ := h
  obtain ⟨bs, hb⟩ := k
  simp [newEvents, ← hb, ← ha]

theorem newEvents_of_eq {s t : State} {es : List Event} (h : t.trace = s.trace ++ es) : newEvents s t = es := by
  simp [newEvents, h]

/-- The clock invariant survives an update of other fields that drives no clock phase. -/
theorem ClockInv.of_undriven {s t : State} (cfg : t.cfg = s.cfg) (idled : t.idled = s.idled)
    (booted : t.booted = s.booted) (clk : t.clk = s.clk) {as : List Activity}
    (activity : t.activity = s.activity ++ as) (undriven : ∀ p, drivenLevels p as = []) (h : s.ClockInv) :
    t.ClockInv where
  bootedIfIdled := by rw [idled, booted]; exact h.bootedIfIdled
  clkLength := by rw [clk, cfg]; exact h.clkLength
  undrivenBeforeBoot := by
    rw [booted, activity]; intro hb p; simp [undriven, h.undrivenBeforeBoot hb p]
  recordsLastLevel := by
    rw [booted, activity, clk]; intro hb p hp; simpa [undriven] using h.recordsLastLevel hb p hp
  alternates := by rw [activity]; intro p; simpa [undriven] using h.alternates p

/-- What a part of a command leaves alone: it writes no result, and drives clock phases only in turn. -/
structure Within (s t : State) : Prop extends Carried s t where
  result : t.result = s.result
  results : t.results = s.results
  clocks : s.booted = true → s.ClockInv → t.ClockInv

/-- What a part of a bus command leaves alone: the working registers too. -/
structure BusWithin (s t : State) : Prop extends Within s t where
  work : t.work = s.work

theorem Within.refl (s : State) : Within s s := ⟨Carried.refl s, rfl, rfl, fun _ h => h⟩

theorem Within.trans {s t u : State} (h : Within s t) (k : Within t u) : Within s u :=
  ⟨h.toCarried.trans k.toCarried, k.result.trans h.result, k.results.trans h.results,
    fun hb hc => k.clocks (h.booted.trans hb) (h.clocks hb hc)⟩

theorem BusWithin.refl (s : State) : BusWithin s s := ⟨Within.refl s, rfl⟩

theorem BusWithin.trans {s t u : State} (h : BusWithin s t) (k : BusWithin t u) : BusWithin s u :=
  ⟨h.toWithin.trans k.toWithin, k.work.trans h.work⟩

theorem BusWithin.busOnly {s t : State} (h : BusWithin s t) : BusOnly s t := ⟨h.toCarried, h.work⟩

/-- An update of none of the fields a sequencer carries, that only appends to the records and drives no clock. -/
theorem Within.of_fields {s t : State} (cfg : t.cfg = s.cfg) (program : t.program = s.program) (pc : t.pc = s.pc)
    (idled : t.idled = s.idled) (booted : t.booted = s.booted) (marks : t.marks = s.marks)
    (trace : ∃ es, t.trace = s.trace ++ es)
    (activity : ∃ as, t.activity = s.activity ++ as ∧ ∀ p, drivenLevels p as = [])
    (script : t.script <:+ s.script) (clk : t.clk = s.clk) (result : t.result = s.result)
    (results : t.results = s.results) : Within s t where
  cfg := cfg
  program := program
  pc := pc
  idled := idled
  booted := booted
  marks := marks
  trace := by obtain ⟨es, h⟩ := trace; exact ⟨es, h.symm⟩
  activity := by obtain ⟨as, h, _⟩ := activity; exact ⟨as, h.symm⟩
  script := script
  clkLength := by rw [clk]
  clkKept := fun _ => clk
  result := result
  results := results
  clocks := by
    obtain ⟨as, h, k⟩ := activity
    exact fun _ => ClockInv.of_undriven cfg idled booted clk h k

/-- What the sampling and driving inside one phase leaves alone: the phase, the pins, the mask, the latch and
the trace, too. It records no bus-cycle action, and all it records is in this phase, under this mask. -/
structure Calm (s t : State) : Prop extends BusWithin s t where
  pins : t.pins = s.pins
  phase : t.phase = s.phase
  hostMask : t.hostMask = s.hostMask
  latch : t.latch = s.latch
  traceKept : t.trace = s.trace
  inPlace : ∀ a ∈ newActivity s t, a.phase = s.phase ∧ a.hostMask = s.hostMask
  noAct : busActs (newActivity s t) = []

theorem Calm.refl (s : State) : Calm s s :=
  ⟨BusWithin.refl s, rfl, rfl, rfl, rfl, rfl, by simp [newActivity], by simp [newActivity]⟩

theorem Calm.trans {s t u : State} (h : Calm s t) (k : Calm t u) : Calm s u where
  toBusWithin := h.toBusWithin.trans k.toBusWithin
  pins := k.pins.trans h.pins
  phase := k.phase.trans h.phase
  hostMask := k.hostMask.trans h.hostMask
  latch := k.latch.trans h.latch
  traceKept := k.traceKept.trans h.traceKept
  inPlace := by
    rw [newActivity_trans h.activity k.activity]
    intro a ha
    rcases List.mem_append.1 ha with ha | ha
    · exact h.inPlace a ha
    · exact ⟨(k.inPlace a ha).1.trans h.phase, (k.inPlace a ha).2.trans h.hostMask⟩
  noAct := by rw [newActivity_trans h.activity k.activity, busActs_append, h.noAct, k.noAct]; rfl

/-! ### The end of a command -/

theorem guarded_of_idled {s : State} (h : s.idled = true) (body : State → Res Result) :
    guarded s body = .next (complete (body s)) := by simp [guarded, h]

theorem guarded_of_not_idled {s : State} (h : s.idled = false) (body : State → Res Result) :
    guarded s body = .next (refuse .notIdled s) := by simp [guarded, h]

/-- The guard always gives a next state: the command's own end, or the NotIdled refusal. -/
theorem guarded_next (s : State) (body : State → Res Result) :
    (s.idled = true ∧ guarded s body = .next (complete (body s)))
      ∨ (s.idled = false ∧ guarded s body = .next (refuse .notIdled s)) := by
  cases h : s.idled
  · exact .inr ⟨rfl, guarded_of_not_idled h body⟩
  · exact .inl ⟨rfl, guarded_of_idled h body⟩

@[simp] theorem complete_ok (r : Result) (s : State) : complete (.ok r s) = finish r s := rfl

@[simp] theorem complete_raise (r : Result) (s : State) : complete (.raise r s) = trapEntry r s := rfl

/-- Ending a command changes only the result, its record, and, by trap entry, the pins, mask and phase. -/
theorem complete_carried (x : Res Result) : Carried x.state (complete x) := by
  cases x <;>
    exact ⟨rfl, rfl, rfl, rfl, rfl, rfl, List.prefix_rfl, List.prefix_rfl, List.suffix_rfl, rfl, fun _ => rfl⟩

/-- Ending a command appends exactly one record, the one `result` holds. -/
theorem complete_results (x : Res Result) :
    (complete x).results = x.state.results ++ [(complete x).result] := by
  cases x <;> rfl

end Sys2Proof.Machine
end

