-- ==== Sys2Proof/Laws/BusEngine.lean ====
section
/-! SUPPORT. What the bus-cycle engine can do: its loops, its phases, and one lemma for the whole cycle, for the acknowledge, for the line wait and for CHECK's tests. -/

namespace Sys2Proof.Machine

/-! ### Sampling and recording -/

/-- An update of `polls`, of the script by its tail and of the record by actions that are no clock drive and no
bus-cycle action. -/
theorem Calm.of_record {s t : State} (as : List Action)
    (h : t = { s with polls := t.polls, script := t.script, activity := s.activity ++ as.map s.recorded })
    (script : t.script <:+ s.script) (undriven : ∀ p, drivenLevels p (as.map s.recorded) = [])
    (noAct : busActs (as.map s.recorded) = []) : Calm s t := by
  have hw : Within s t := by
    refine Within.of_fields ?_ ?_ ?_ ?_ ?_ ?_ ⟨[], ?_⟩ ⟨as.map s.recorded, ?_, undriven⟩ script ?_ ?_ ?_ <;> first | (rw [h]; done) | (rw [h]; simp)
  have ha : newActivity s t = as.map s.recorded := newActivity_of_eq (by rw [h])
  refine ⟨⟨hw, by rw [h]⟩, by rw [h], by rw [h], by rw [h], by rw [h], by rw [h], ?_, ha ▸ noAct⟩
  rw [ha]
  intro a h
  obtain ⟨b, -, rfl⟩ := List.mem_map.1 h
  exact ⟨rfl, rfl⟩

theorem sampled_calm (s : State) (q : Query) (n : Nat) : Calm s { s.sampled q with polls := n } :=
  Calm.of_record [.sample q (s.reply q)] rfl (List.tail_suffix _) (fun _ => rfl) rfl

theorem sampled_calm' (s : State) (q : Query) : Calm s (s.sampled q) :=
  Calm.of_record [.sample q (s.reply q)] rfl (List.tail_suffix _) (fun _ => rfl) rfl

theorem polls_calm (s : State) (n : Nat) : Calm s { s with polls := n } :=
  Calm.of_record [] (by simp) List.suffix_rfl (fun _ => rfl) rfl

/-! ### Clock-master half-cycles -/

/-- Driving phase p to the other level keeps the clock invariant (41_bus_engine.md R207). -/
theorem driveClock_keeps {s : State} {p : Nat} (hp : p < s.clk.length) (hb : s.booted = true) (h : s.ClockInv) :
    (driveClock p (!s.clk.getD p false) s).ClockInv where
  bootedIfIdled := h.bootedIfIdled
  clkLength := by simpa using h.clkLength
  undrivenBeforeBoot := by simp [hb]
  recordsLastLevel := by
    intro _ q hq
    by_cases hqp : p = q
    · subst hqp; simp [drivenLevels_clock, hp, drivenLevels]
    · have := h.recordsLastLevel hb q (by simpa using hq)
      simpa [drivenLevels_clock, drivenLevels, hqp, List.getElem?_set] using this
  alternates := by
    intro q
    by_cases hqp : p = q
    · subst hqp
      have hl := h.recordsLastLevel hb p hp
      simp only [driveClock_activity, drivenLevels_append, drivenLevels_clock, drivenLevels, if_true]
      rw [List.isChain_append]
      refine ⟨h.alternates p, by simp, ?_⟩
      intro x hx y hy
      rw [hl] at hx
      simp only [Option.mem_def, Option.some.injEq, List.head?_cons] at hx hy
      rw [← hx, ← hy]
      cases s.clk.getD p false <;> decide
    · simpa [drivenLevels_clock, drivenLevels, hqp] using h.alternates q

theorem halfCycle_calm {s : State} (hm : s.cfg.clockMaster = true) : Calm s (halfCycle s) := by
  simp only [halfCycle]
  split
  · rename_i hp
    refine Calm.trans (sampled_calm' s .clockInput) ?_
    generalize hq : s.cfg.nextPhaseOf s.clk (levelOf (s.reply .clockInput)) = p at hp
    refine ⟨⟨⟨⟨rfl, rfl, rfl, rfl, rfl, rfl, List.prefix_rfl, ⟨_, rfl⟩, List.suffix_rfl, by simp, ?_⟩, rfl, rfl, ?_⟩, rfl⟩,
      rfl, rfl, rfl, rfl, rfl, ?_, ?_⟩
    · simp [hm]
    · intro hb hc
      exact driveClock_keeps (s := s.sampled .clockInput) hp hb hc
    · rw [newActivity_of_eq (as := [s.recorded (.clock p (!s.clk.getD p false))]) rfl]
      intro a ha
      rw [List.mem_singleton.1 ha]
      exact ⟨rfl, rfl⟩
    · rw [newActivity_of_eq (as := [s.recorded (.clock p (!s.clk.getD p false))]) rfl]
      rfl
  · exact sampled_calm' s .clockInput

theorem halfCycles_calm {n : Nat} {s : State} (hm : s.cfg.clockMaster = true) : Calm s (halfCycles n s) := by
  induction n generalizing s with
  | zero => exact Calm.refl s
  | succ n ih =>
    have h := halfCycle_calm hm
    exact h.trans (ih (by rw [h.cfg]; exact hm))

theorem masterClocks_calm (n : Nat) (s : State) : Calm s (masterClocks n s) := by
  unfold masterClocks
  split
  · rename_i hm; exact halfCycles_calm hm
  · exact Calm.refl s

/-! ### The bounded polls -/

theorem preSyncLoop_calm (q : Query) (k : Nat) (prev : Bool) (s : State) : Calm s (preSyncLoop q k prev s).2 := by
  induction k generalizing prev s with
  | zero => exact Calm.refl s
  | succ k ih =>
    simp only [preSyncLoop]
    split
    · exact sampled_calm s q _
    · exact (sampled_calm s q _).trans (ih _ _)

theorem edgeLoop_calm (k : Nat) (s : State) : Calm s (edgeLoop k s).2 := by
  induction k generalizing s with
  | zero => exact Calm.refl s
  | succ k ih =>
    simp only [edgeLoop]
    split
    · exact sampled_calm s .clockEdge _
    · exact (sampled_calm s .clockEdge _).trans (ih _)

theorem ackLoop_calm (kind : CycleKind) (k : Nat) (s : State) : Calm s (ackLoop kind k s).2 := by
  induction k generalizing s with
  | zero => exact Calm.refl s
  | succ k ih =>
    simp only [ackLoop]
    split
    · exact sampled_calm' s _
    · exact (sampled_calm s _ _).trans (ih _)

/-- One sample of a line. -/
theorem lineSampled_calm (s : State) (l : Line) : Calm s (s.lineSampled l) :=
  Calm.of_record
    [.sample (lineQuery s.cfg l) (s.reply (lineQuery s.cfg l)),
      .lineLevel l (s.lineNow l) (s.cfg.electrical l (s.lineNow l))]
    (by simp [State.lineSampled, State.log, State.sampled, State.recorded]) (List.tail_suffix _) (fun _ => rfl) rfl

theorem waitLoop_calm (l : Line) (level : Bool) (k : Nat) (s : State) : Calm s (waitLoop l level k s).2 := by
  induction k generalizing s with
  | zero => exact Calm.refl s
  | succ k ih =>
    simp only [waitLoop]
    split
    · exact lineSampled_calm s l
    · exact (lineSampled_calm s l).trans (ih _)

/-- What waiting for a line can do: sample, and nothing else (40_contract.md R158). -/
theorem waitLine_calm (l : Line) (level : Bool) (timeout : Word) (s : State) : Calm s (waitLine l level timeout s).2 :=
  (polls_calm s 0).trans (waitLoop_calm l level _ _)

theorem clockLoop_calm (k : Nat) (seen : ClockSeen) (s : State) : Calm s (clockLoop k seen s).2 := by
  induction k generalizing seen s with
  | zero => exact Calm.refl s
  | succ k ih =>
    simp only [clockLoop]
    split
    · exact sampled_calm' s _
    · exact (sampled_calm' s _).trans (ih _ _)

theorem testItem_calm (item : CheckItem) (s : State) : Calm s (testItem item s).2 := by
  cases item
  case clock => exact clockLoop_calm _ _ s
  all_goals exact sampled_calm' s _

/-- What CHECK's tests can do: sample, and nothing else (40_contract.md R153, R161, R162). -/
theorem testItems_calm (items : List CheckItem) (s : State) : Calm s (testItems items s).2 := by
  induction items generalizing s with
  | nil => exact Calm.refl s
  | cons item rest ih =>
    have h := testItem_calm item s
    simp only [testItems]
    rcases hr : testItem item s with ⟨_ | f, t⟩ <;> rw [hr] at h
    · exact h.trans (ih t)
    · exact h

end Sys2Proof.Machine
end

