-- ==== Sys2Proof/Laws/BusCycle.lean ====
section
/-! SUPPORT. What the whole bus cycle can do: its phases and signals, its host mask, its latch, and the exits of 41_bus_engine.md R216. -/

namespace Sys2Proof.Machine

/-! ### Inside a cycle -/

/-- The host mask is the one the rules give the phase (41_bus_engine.md R217, R218). -/
def State.MaskRight (s : State) : Prop := s.hostMask = (s.cfg.hostMaskSpan && s.phase.masked)

theorem State.EngineIdle.maskRight {s : State} (h : s.EngineIdle) : s.MaskRight := by
  unfold State.MaskRight
  rw [h.2.2, h.2.1]
  simp [Phase.masked]

/-- What a part of the FSM does: it keeps the latch and the trace, records these bus-cycle actions, and everything it
records is under the host mask of R217 and R218. -/
structure Cycling (acts : List (Phase × Action)) (s t : State) : Prop extends BusWithin s t where
  latch : t.latch = s.latch
  traceKept : t.trace = s.trace
  ruled : ∀ a ∈ newActivity s t, maskAsRuled s.cfg a
  acts : busActs (newActivity s t) = acts

theorem Cycling.refl (s : State) : Cycling [] s s :=
  ⟨BusWithin.refl s, rfl, rfl, by simp [newActivity], by simp [newActivity]⟩

theorem Cycling.trans {xs ys : List (Phase × Action)} {s t u : State} (h : Cycling xs s t) (k : Cycling ys t u) :
    Cycling (xs ++ ys) s u where
  toBusWithin := h.toBusWithin.trans k.toBusWithin
  latch := k.latch.trans h.latch
  traceKept := k.traceKept.trans h.traceKept
  ruled := by
    rw [newActivity_trans h.activity k.activity]
    intro a ha
    rcases List.mem_append.1 ha with ha | ha
    · exact h.ruled a ha
    · exact h.cfg ▸ k.ruled a ha
  acts := by rw [newActivity_trans h.activity k.activity, busActs_append, h.acts, k.acts]

/-- All a calm part records is under the mask of its phase. -/
theorem Calm.ruled {s t : State} (h : Calm s t) (m : s.MaskRight) : ∀ a ∈ newActivity s t, maskAsRuled s.cfg a := by
  intro a ha
  obtain ⟨hp, hm⟩ := h.inPlace a ha
  unfold maskAsRuled
  rw [hp, hm]
  exact m

theorem Calm.cycling {s t : State} (h : Calm s t) (m : s.MaskRight) : Cycling [] s t :=
  ⟨h.toBusWithin, h.latch, h.traceKept, h.ruled m, h.noAct⟩

theorem Calm.maskRight {s t : State} (h : Calm s t) (m : s.MaskRight) : t.MaskRight := by
  unfold State.MaskRight
  rw [h.hostMask, h.cfg, h.phase]
  exact m

/-- A calm part after a part of the FSM. -/
theorem Cycling.calm {xs : List (Phase × Action)} {s t u : State} (h : Cycling xs s t) (k : Calm t u)
    (m : t.MaskRight) : Cycling xs s u := by
  have := h.trans (k.cycling m)
  rwa [List.append_nil] at this

/-- An update of the pins, mask and phase that records actions in the state it leaves. -/
theorem Cycling.of_entry {s t : State} (as : List Action)
    (h : t = { s with
      pins := t.pins, hostMask := t.hostMask, phase := t.phase, activity := s.activity ++ as.map t.recorded })
    (undriven : ∀ p, drivenLevels p (as.map t.recorded) = []) (m : t.MaskRight) :
    Cycling (busActs (as.map t.recorded)) s t := by
  have hw : Within s t := by
    refine Within.of_fields ?_ ?_ ?_ ?_ ?_ ?_ ⟨[], ?_⟩ ⟨as.map t.recorded, ?_, undriven⟩ ?_ ?_ ?_ ?_ <;>
      first | (rw [h]; done) | (rw [h]; simp; done) | exact congrArg State.activity h
  have ha : newActivity s t = as.map t.recorded := newActivity_of_eq (congrArg State.activity h)
  refine ⟨⟨hw, by rw [h]⟩, by rw [h], by rw [h], ?_, by rw [ha]⟩
  rw [ha]
  intro a hb
  obtain ⟨b, -, rfl⟩ := List.mem_map.1 hb
  exact hw.cfg ▸ m

theorem enterPhase_cycling (p : Phase) (s : State) (m : (enterPhase p s).MaskRight) :
    Cycling [(p, .enter)] s (enterPhase p s) := Cycling.of_entry [.enter] rfl (fun _ => rfl) m

theorem leaveCycle_idle (s : State) : (leaveCycle s).EngineIdle := ⟨rfl, rfl, rfl⟩

theorem leaveCycle_cycling (s : State) : Cycling [(.idle, .enter)] s (leaveCycle s) :=
  Cycling.of_entry [.enter] rfl (fun _ => rfl) (leaveCycle_idle s).maskRight

theorem terminate_cycling (s : State) (m : s.MaskRight) : Cycling [(s.phase, .terminate)] s (terminate s) :=
  Cycling.of_entry (s := s) (t := terminate s) [.terminate] rfl (fun _ => rfl) m

theorem logAll_cycling (s : State) (as : List Action) (h : ∀ p, drivenLevels p (as.map s.recorded) = [])
    (m : s.MaskRight) : Cycling (busActs (as.map s.recorded)) s (s.logAll as) :=
  Cycling.of_entry (s := s) (t := s.logAll as) as rfl h m

/-- What asserting address and status does (R208 to R210): exactly the drives of phase 2. -/
theorem assert_cycling (s : State) (hp : s.phase = .p2) (m : s.MaskRight) :
    Cycling (s.cfg.phase2Drives s.latch.kind s.latch.space s.latch.paddr s.latch.lane) s
      (assertStatus (assertAddress s)) := by
  have hd : ∀ ks : List Nat,
      (∀ p, drivenLevels p ((ks.map fun k => Action.latchByte k (addressByte s.latch.paddr k)).map s.recorded) = [])
        ∧ busActs ((ks.map fun k => Action.latchByte k (addressByte s.latch.paddr k)).map s.recorded)
          = (ks.map fun k => Action.latchByte k (addressByte s.latch.paddr k)).map (Phase.p2, ·) := by
    intro ks
    induction ks with
    | nil => exact ⟨fun _ => rfl, rfl⟩
    | cons k ks ih =>
      refine ⟨ih.1, ?_⟩
      simp only [List.map_cons]
      rw [← ih.2, ← hp]
      rfl
  have h : (∀ p, drivenLevels p ((s.cfg.addressActs s.latch.paddr).map s.recorded) = [])
      ∧ busActs ((s.cfg.addressActs s.latch.paddr).map s.recorded)
        = (s.cfg.addressActs s.latch.paddr).map (Phase.p2, ·) := by
    unfold Cfg.addressActs
    split
    · exact ⟨fun _ => rfl, by rw [← hp]; rfl⟩
    · exact hd _
  have h1 := logAll_cycling s _ h.1 m
  have h2 := logAll_cycling (assertAddress s)
    [s.cfg.statusFlags s.latch.kind s.latch.space s.latch.lane] (fun _ => rfl) m
  have hf := h1.trans h2
  rw [h.2] at hf
  have he : busActs ([s.cfg.statusFlags s.latch.kind s.latch.space s.latch.lane].map (assertAddress s).recorded)
      = [(Phase.p2, s.cfg.statusFlags s.latch.kind s.latch.space s.latch.lane)] := by
    rw [← hp]
    rfl
  rw [he] at hf
  unfold Cfg.phase2Drives
  rw [List.map_append]
  exact hf

/-! ### Before phase 2 -/

/-- A Timeout of P0 or P1: idle again, nothing driven and no event (R216). -/
def EarlyTimeout (pre : PrePhase) (r : Result) (s t : State) : Prop :=
  ∃ u why, Cycling (if why = .syncTimeout then earlyEntries pre else [(.p0, .enter)]) s u ∧ t = leaveCycle u
    ∧ r = Result.error .timeout why
    ∧ (why = .syncTimeout ∧ s.cfg.clockMaster = false ∨ why = .waitSpaceTimeout ∨ why = .vsyncTimeout)

theorem preSync_spec (q : Query) (limit : Nat) (why : Info) (s : State) :
    (∃ t, preSync q limit why s = .ok () t ∧ Calm s t)
      ∨ ∃ t, preSync q limit why s = quitEarly why t ∧ Calm s t := by
  have h := (sampled_calm s q 0).trans (preSyncLoop_calm q limit (levelOf (s.reply q)) _)
  unfold preSync
  rcases hl : preSyncLoop q limit (levelOf (s.reply q)) { s.sampled q with polls := 0 } with ⟨_ | _, t⟩ <;>
    rw [hl] at h
  · exact .inr ⟨t, rfl, h⟩
  · exact .inl ⟨t, rfl, h⟩

theorem waitEdge_spec (s : State) :
    (∃ t, waitEdge s = .ok () t ∧ Calm s t) ∨ ∃ t, waitEdge s = quitEarly .syncTimeout t ∧ Calm s t := by
  have h := (polls_calm s 0).trans (edgeLoop_calm s.cfg.syncLimit _)
  unfold waitEdge
  rcases hl : edgeLoop s.cfg.syncLimit { s with polls := 0 } with ⟨_ | _, t⟩ <;> rw [hl] at h
  · exact .inr ⟨t, rfl, h⟩
  · exact .inl ⟨t, rfl, h⟩

theorem enterPhase_maskRight {p : Phase} {s : State} (hm : s.hostMask = false) (hp : p.masked = false) :
    (enterPhase p s).MaskRight := by
  simp [State.MaskRight, hm, hp]

/-- What P0 can do (R203, R204): see its toggle, or time out with nothing driven. -/
theorem prePhase_spec (s : State) (hm : s.hostMask = false) :
    (∃ t, prePhase s = .ok () t ∧ Cycling (if s.latch.pre = .none then [] else [(.p0, .enter)]) s t
        ∧ t.hostMask = false)
      ∨ ∃ r t, prePhase s = .raise r t ∧ EarlyTimeout s.latch.pre r s t := by
  have m := enterPhase_maskRight (p := .p0) hm rfl
  have he := enterPhase_cycling .p0 s m
  have key : ∀ (q : Query) (limit : Nat) (why : Info), (why = .waitSpaceTimeout ∨ why = .vsyncTimeout) →
      (∃ t, preSync q limit why (enterPhase .p0 s) = .ok () t ∧ Cycling [(.p0, .enter)] s t ∧ t.hostMask = false)
        ∨ ∃ r t, preSync q limit why (enterPhase .p0 s) = .raise r t ∧ EarlyTimeout s.latch.pre r s t := by
    intro q limit why hw
    have hn : why ≠ .syncTimeout := by rcases hw with rfl | rfl <;> decide
    rcases preSync_spec q limit why (enterPhase .p0 s) with ⟨t, ht, hc⟩ | ⟨t, ht, hc⟩
    · exact .inl ⟨t, ht, he.calm hc m, hc.hostMask.trans hm⟩
    · exact .inr ⟨_, _, ht, t, why, by rw [if_neg hn]; exact he.calm hc m, rfl, rfl, .inr hw⟩
  unfold prePhase
  cases hp : s.latch.pre with
  | none => exact .inl ⟨s, rfl, Cycling.refl s, hm⟩
  | waitSpace => rw [hp] at key; exact key .blanking _ _ (.inl rfl)
  | vsync => rw [hp] at key; exact key .vsyncInput _ _ (.inr rfl)

/-- What P1 can do (R205, R206): see its edge or generate its half-cycles, or time out with nothing driven. -/
theorem synchronize_spec (s : State) (hm : s.hostMask = false) :
    (∃ t, synchronize (enterPhase .p1 s) = .ok () t ∧ Cycling [(.p1, .enter)] s t ∧ t.hostMask = false)
      ∨ ∃ u, synchronize (enterPhase .p1 s) = quitEarly .syncTimeout u ∧ Cycling [(.p1, .enter)] s u
        ∧ s.cfg.clockMaster = false := by
  have m := enterPhase_maskRight (p := .p1) hm rfl
  have he := enterPhase_cycling .p1 s m
  unfold synchronize
  split
  · rename_i hc
    have h := halfCycles_calm (n := (enterPhase .p1 s).cfg.halfCycles.p1) hc
    exact .inl ⟨_, rfl, he.calm h m, h.hostMask.trans hm⟩
  · rename_i hc
    rcases waitEdge_spec (enterPhase .p1 s) with ⟨t, ht, h⟩ | ⟨t, ht, h⟩
    · exact .inl ⟨t, ht, he.calm h m, h.hostMask.trans hm⟩
    · exact .inr ⟨t, ht, he.calm h m, by simpa using hc⟩

/-! ### Phases 2 and 3 -/

/-- What P2 does (R208 to R210, R217): the pins become active, the host mask is the span's, and address and status
are driven. -/
theorem phase2_spec (s : State) (hm : s.hostMask = false) :
    Cycling ((.p2, .enter) :: s.cfg.phase2Drives s.latch.kind s.latch.space s.latch.paddr s.latch.lane) s (phase2 s)
      ∧ (phase2 s).hostMask = s.cfg.hostMaskSpan := by
  have m : (openCycle s).MaskRight := by simp [State.MaskRight, Phase.masked, hm]
  have ho : Cycling [(.p2, .enter)] s (openCycle s) := Cycling.of_entry [.enter] rfl (fun _ => rfl) m
  have hc := masterClocks_calm s.cfg.halfCycles.p2 (openCycle s)
  have ha := assert_cycling _ hc.phase (hc.maskRight m)
  have hf := (ho.calm hc m).trans ha
  rw [hc.latch, hc.cfg] at hf
  exact ⟨hf, hc.hostMask.trans (by simp [hm])⟩

/-- The Abort event of a cycle's latch (R221). -/
def CycleLatch.abortEvent (l : CycleLatch) : Event := .abort l.kind l.space l.paddr l.w l.lane .p3

theorem waitAck_spec (s : State) :
    (∃ seen t, waitAck s = .ok seen t ∧ Calm s t)
      ∨ ∃ t, waitAck s = .raise (Result.error .timeout .ackTimeout) (abortCycle t) ∧ Calm s t
          ∧ s.cfg.ackSignal = .line := by
  have h := (polls_calm s 0).trans (ackLoop_calm s.latch.kind s.cfg.pollLimit _)
  unfold waitAck
  cases hs : s.cfg.ackSignal with
  | none => exact .inl ⟨_, s, rfl, Calm.refl s⟩
  | line =>
    rcases hl : ackLoop s.latch.kind s.cfg.pollLimit { s with polls := 0 } with ⟨_ | seen, t⟩ <;> rw [hl] at h
    · exact .inr ⟨t, rfl, h, rfl⟩
    · exact .inl ⟨seen, t, rfl, h⟩

/-- What P3 can do (R211, R212): assert the strobes, and be acknowledged, or time out and abort. -/
theorem phase3_spec (s : State) (hm : s.hostMask = s.cfg.hostMaskSpan) :
    (∃ seen t, phase3 s = .ok seen t
        ∧ Cycling [(.p3, .enter), (.p3, .strobes s.latch.kind s.latch.space s.latch.lane)] s t
        ∧ t.MaskRight ∧ t.phase = .p3)
      ∨ ∃ t, phase3 s = .raise (Result.error .timeout .ackTimeout) (abortCycle t)
          ∧ Cycling [(.p3, .enter), (.p3, .strobes s.latch.kind s.latch.space s.latch.lane)] s t
          ∧ t.MaskRight ∧ t.phase = .p3 ∧ s.cfg.ackSignal = .line := by
  have m : (enterPhase .p3 s).MaskRight := by simp [State.MaskRight, Phase.masked, hm]
  have hc := masterClocks_calm s.cfg.halfCycles.p3 (enterPhase .p3 s)
  have mc := hc.maskRight m
  have hb : Cycling [(.p3, .strobes s.latch.kind s.latch.space s.latch.lane)]
      (masterClocks s.cfg.halfCycles.p3 (enterPhase .p3 s))
      (assertStrobes (masterClocks s.cfg.halfCycles.p3 (enterPhase .p3 s))) := by
    have := logAll_cycling (masterClocks s.cfg.halfCycles.p3 (enterPhase .p3 s))
      [.strobes s.latch.kind s.latch.space s.latch.lane] (fun _ => rfl) mc
    have hp : (masterClocks s.cfg.halfCycles.p3 (enterPhase .p3 s)).phase = .p3 := hc.phase
    rw [show busActs ([Action.strobes s.latch.kind s.latch.space s.latch.lane].map
      (masterClocks s.cfg.halfCycles.p3 (enterPhase .p3 s)).recorded)
      = [(Phase.p3, .strobes s.latch.kind s.latch.space s.latch.lane)] by simp [busActs, busAct, hp]] at this
    rw [show assertStrobes (masterClocks s.cfg.halfCycles.p3 (enterPhase .p3 s))
      = (masterClocks s.cfg.halfCycles.p3 (enterPhase .p3 s)).logAll
          [.strobes s.latch.kind s.latch.space s.latch.lane] by
        unfold assertStrobes; rw [hc.latch]; rfl]
    exact this
  have h := (((enterPhase_cycling .p3 s m).calm hc m).trans hb)
  unfold phase3
  rcases waitAck_spec (assertStrobes (masterClocks s.cfg.halfCycles.p3 (enterPhase .p3 s))) with
    ⟨seen, t, ht, k⟩ | ⟨t, ht, k, hs⟩
  · exact .inl ⟨seen, t, ht, h.calm k mc, k.maskRight mc, k.phase.trans hc.phase⟩
  · refine .inr ⟨t, ht, h.calm k mc, k.maskRight mc, k.phase.trans hc.phase, ?_⟩
    rw [h.cfg] at hs; exact hs

/-! ### The end of a cycle -/

/-- How a cycle ends: idle again, the clocks driven only in turn, and all it recorded under its ruled mask. -/
structure CycleEnd (s t : State) : Prop extends BusWithin s t where
  engineIdle : t.EngineIdle
  ruled : ∀ a ∈ newActivity s t, maskAsRuled s.cfg a

/-- A cycle's last event ends it. -/
theorem CycleEnd.emit {xs : List (Phase × Action)} {s t : State} (h : Cycling xs s t) (i : t.EngineIdle) (e : Event) :
    CycleEnd s (t.emit e) ∧ busActs (newActivity s (t.emit e)) = xs := by
  have hw : Within t (t.emit e) :=
    Within.of_fields rfl rfl rfl rfl rfl rfl ⟨[e], rfl⟩ ⟨[], by simp, fun _ => rfl⟩ List.suffix_rfl rfl rfl rfl
  have ha : newActivity s (t.emit e) = newActivity s t := rfl
  exact ⟨⟨h.toBusWithin.trans ⟨hw, rfl⟩, i, ha ▸ h.ruled⟩, ha ▸ h.acts⟩

theorem abortCycle_end {xs : List (Phase × Action)} {s t : State} (h : Cycling xs s t) (m : t.MaskRight)
    (hp : t.phase = .p3) :
    CycleEnd s (abortCycle t) ∧ (abortCycle t).trace = s.trace ++ [s.latch.abortEvent]
      ∧ (abortCycle t).latch = s.latch
      ∧ busActs (newActivity s (abortCycle t)) = xs ++ [(.p3, .terminate), (.idle, .enter)] := by
  obtain ⟨he, ha⟩ := CycleEnd.emit ((h.trans (terminate_cycling t m)).trans (leaveCycle_cycling _))
    (leaveCycle_idle _) t.latch.abortEvent
  refine ⟨he, ?_, h.latch, ?_⟩
  · rw [← h.latch, ← h.traceKept]
    rfl
  · rw [← hp, List.append_assoc] at *
    exact ha

/-- The datum driven on its lanes reads back from them, whatever the unused lane carries. -/
def Driveable (c : Cfg) (w : Width) (lane : Lane) (d : Datum) : Prop :=
  if c.busWidth = .two ∧ w = .one then ∀ other, sampledDatum lane (drivenBus lane d other) = d
  else sampledDatum lane d = d

/-- What P4 drives for a write (R214). -/
theorem driveData_cycling (s : State) (m : s.MaskRight) (hp : s.phase = .p4) :
    ∃ xs, Cycling xs s (driveData s) ∧ (driveData s).MaskRight ∧ (driveData s).phase = .p4
      ∧ (Driveable s.cfg s.latch.w s.latch.lane s.latch.wdata →
        xs = [(.p4, .driveData s.latch.lane s.latch.wdata)]) := by
  unfold driveData Driveable
  split
  · have h := ((sampled_calm' s .unusedLane).cycling m).trans (logAll_cycling (s.sampled .unusedLane)
      [.driveData s.latch.lane (drivenBus s.latch.lane s.latch.wdata ((s.reply .unusedLane).extractLsb' 0 8))]
      (fun _ => rfl) m)
    refine ⟨_, h, m, hp, fun hd => ?_⟩
    have := hd ((s.reply .unusedLane).extractLsb' 0 8)
    simp [busActs, busAct, this, hp]
  · refine ⟨_, logAll_cycling s [.driveData s.latch.lane s.latch.wdata] (fun _ => rfl) m, m, hp, fun hd => ?_⟩
    simp [busActs, busAct, hd, hp]

/-- The sample of a read or acknowledge cycle (R213). -/
theorem sampleData_within (s : State) : BusWithin s (sampleData s) :=
  (sampled_calm' s .dataPins).toBusWithin.trans
    ⟨Within.of_fields rfl rfl rfl rfl rfl rfl ⟨[], by simp [sampleData]⟩ ⟨[], by simp [sampleData], fun _ => rfl⟩
      List.suffix_rfl rfl rfl rfl, rfl⟩

/-- A completed cycle (R216, R220): exactly one `Cyc` event, of its own latch and datum, and its actions in the
order of R202. -/
structure CycleDone (s : State) (kind : CycleKind) (a : Access) (wdata d : Datum) (t : State) : Prop
    extends CycleEnd s t where
  event : t.trace = s.trace ++ [.cyc kind a.space a.paddr a.w a.lane d]
  latch : ∃ rdata, t.latch = ⟨kind, a.space, a.pre, a.paddr, a.w, a.lane, wdata, rdata⟩
  acts : (kind = .write → Driveable s.cfg a.w a.lane d) →
    busActs (newActivity s t) = s.cfg.cycleActs kind a d

/-- A cycle that timed out (R216, R221): an `Abort` event from P3, else none. -/
structure CycleFailed (s : State) (kind : CycleKind) (a : Access) (wdata : Datum) (r : Result) (t : State) : Prop
    extends CycleEnd s t where
  latch : ∃ rdata, t.latch = ⟨kind, a.space, a.pre, a.paddr, a.w, a.lane, wdata, rdata⟩
  exit : (r = Result.error .timeout .ackTimeout ∧ s.cfg.ackSignal = .line
        ∧ t.trace = s.trace ++ [.abort kind a.space a.paddr a.w a.lane .p3]
        ∧ busActs (newActivity s t) = s.cfg.abortActs kind a)
      ∨ (t.trace = s.trace
        ∧ ((r = Result.error .timeout .syncTimeout ∧ s.cfg.clockMaster = false
            ∧ busActs (newActivity s t) = earlyEntries a.pre ++ [(.idle, .enter)])
          ∨ (r = Result.error .timeout .waitSpaceTimeout ∨ r = Result.error .timeout .vsyncTimeout)
            ∧ busActs (newActivity s t) = [(.p0, .enter), (.idle, .enter)]))

/-- The latch a cycle is started with (R202). -/
theorem latchCycle_within (kind : CycleKind) (a : Access) (w : Datum) (s : State) :
    BusWithin s (latchCycle kind a w s) :=
  ⟨Within.of_fields rfl rfl rfl rfl rfl rfl ⟨[], by simp [latchCycle]⟩ ⟨[], by simp [latchCycle], fun _ => rfl⟩
    List.suffix_rfl rfl rfl rfl, rfl⟩

theorem CycleEnd.after_latch {s t : State} {kind : CycleKind} {a : Access} {w : Datum}
    (h : CycleEnd (latchCycle kind a w s) t) : CycleEnd s t :=
  ⟨(latchCycle_within kind a w s).trans h.toBusWithin, h.engineIdle, h.ruled⟩

theorem EarlyTimeout.failed {s t : State} {kind : CycleKind} {a : Access} {w : Datum} {r : Result}
    (h : EarlyTimeout a.pre r (latchCycle kind a w s) t) : CycleFailed s kind a w r t := by
  obtain ⟨u, why, hu, rfl, rfl, hw⟩ := h
  have hl := hu.trans (leaveCycle_cycling u)
  refine ⟨CycleEnd.after_latch ⟨hl.toBusWithin, leaveCycle_idle u, hl.ruled⟩, ⟨_, hl.latch⟩, .inr ⟨hl.traceKept, ?_⟩⟩
  have ha := hl.acts
  rcases hw with ⟨rfl, hc⟩ | rfl | rfl
  · exact .inl ⟨rfl, hc, ha⟩
  · exact .inr ⟨.inl rfl, ha⟩
  · exact .inr ⟨.inr rfl, ha⟩

/-- Everything P4 does (R213 to R215, R220), after phases 0 to 3. -/
theorem phase4_spec {kind : CycleKind} {a : Access} {wdata : Datum} {av : Option Byte} {seen : AckSeen} {s u : State}
    {xs : List (Phase × Action)} (h : Cycling xs (latchCycle kind a wdata s) u) (m : u.MaskRight) (hp : u.phase = .p3)
    (hx : xs = earlyEntries a.pre ++ s.cfg.middleActs kind a) :
    ∃ d t, phase4 av seen u = .ok d t ∧ CycleDone s kind a wdata d t ∧ (kind = .write → d = wdata) := by
  have m4 : (enterPhase .p4 u).MaskRight := by
    unfold State.MaskRight at m ⊢
    simpa [hp, Phase.masked] using m
  have hc := masterClocks_calm u.cfg.halfCycles.p4 (enterPhase .p4 u)
  have c := (h.trans (enterPhase_cycling .p4 u m4)).calm hc m4
  have mc := hc.maskRight m4
  have pc : (masterClocks u.cfg.halfCycles.p4 (enterPhase .p4 u)).phase = .p4 := hc.phase
  generalize hv : masterClocks u.cfg.halfCycles.p4 (enterPhase .p4 u) = v at c mc pc
  have close : ∀ {ys w} (d : Datum), Cycling ys (latchCycle kind a wdata s) w → w.MaskRight → w.phase = .p4 →
      (∃ rdata, w.latch = ⟨kind, a.space, a.pre, a.paddr, a.w, a.lane, wdata, rdata⟩) →
      ((kind = .write → Driveable s.cfg a.w a.lane d) →
        ys = xs ++ (.p4, .enter) :: (if kind = .write then [(.p4, .driveData a.lane d)] else [])) →
      CycleDone s kind a wdata d (closeCycle d w) := by
    intro ys w d k mw pw hl hy
    obtain ⟨he, ha⟩ := CycleEnd.emit ((k.trans (terminate_cycling w mw)).trans (leaveCycle_cycling _))
      (leaveCycle_idle _) (.cyc w.latch.kind w.latch.space w.latch.paddr w.latch.w w.latch.lane d)
    refine ⟨CycleEnd.after_latch he, ?_, hl, fun hd => ?_⟩
    · obtain ⟨rd, hl⟩ := hl
      have := k.traceKept
      simp only [closeCycle_trace, hl]
      rw [this]
      rfl
    · refine Eq.trans ha ?_
      rw [hy hd, hx, pw]
      simp [Cfg.cycleActs, phase4Drives]
  unfold phase4
  simp only [hv, c.latch]
  split
  · rename_i hk
    have hk' : kind = .write := hk
    obtain ⟨ys, k, mk, pk, hy⟩ := driveData_cycling v mc pc
    rw [c.latch, c.cfg] at hy
    refine ⟨_, _, rfl, close wdata (c.trans k) mk pk ⟨_, k.latch.trans c.latch⟩ (fun hd => ?_), fun _ => rfl⟩
    rw [hy (hd hk'), if_pos hk']
    simp [latchCycle]
  · rename_i hk
    have hk' : ¬ kind = .write := hk
    have hb := sampleData_within v
    have ha : newActivity (latchCycle kind a wdata s) (sampleData v)
        = newActivity (latchCycle kind a wdata s) v ++ [v.recorded (.sample .dataPins (v.reply .dataPins))] := by
      rw [newActivity_trans c.activity hb.activity, newActivity_of_eq (s := v) (t := sampleData v) rfl]
    -- the sample writes `rdata`, which no later part reads
    generalize hd : cycleDatum av seen (sampleData v).latch.rdata = d
    refine ⟨_, _, rfl, ?_, fun h => absurd h hk'⟩
    have k : CycleEnd (latchCycle kind a wdata s) (closeCycle d (sampleData v)) ∧
        busActs (newActivity (latchCycle kind a wdata s) (closeCycle d (sampleData v)))
          = xs ++ [(.p4, .enter)] ++ [(.p4, .terminate)] ++ [(.idle, .enter)] := by
      obtain ⟨he, hacts⟩ : CycleEnd (sampleData v) (closeCycle d (sampleData v)) ∧ busActs (newActivity (sampleData v)
          (closeCycle d (sampleData v))) = [] ++ [(v.phase, Action.terminate)] ++ [(Phase.idle, Action.enter)] :=
        CycleEnd.emit ((Cycling.refl (sampleData v)).trans (terminate_cycling (sampleData v) mc) |>.trans
          (leaveCycle_cycling _)) (leaveCycle_idle _) (.cyc (sampleData v).latch.kind (sampleData v).latch.space
            (sampleData v).latch.paddr (sampleData v).latch.w (sampleData v).latch.lane d)
      have hw := (c.toBusWithin.trans hb)
      have hcl : newActivity (latchCycle kind a wdata s) (closeCycle d (sampleData v))
          = newActivity (latchCycle kind a wdata s) v ++ [v.recorded (.sample .dataPins (v.reply .dataPins))]
            ++ newActivity (sampleData v) (closeCycle d (sampleData v)) := by
        rw [newActivity_trans hw.activity he.activity, ha]
      refine ⟨⟨hw.trans he.toBusWithin, he.engineIdle, ?_⟩, ?_⟩
      · rw [hcl]
        intro b hbm
        simp only [List.mem_append, List.mem_singleton] at hbm
        rcases hbm with (hbm | rfl) | hbm
        · exact c.ruled b hbm
        · exact c.cfg ▸ mc
        · exact hw.cfg ▸ he.ruled b hbm
      · rw [hcl, busActs_append, busActs_append, c.acts]
        rw [hacts, pc]
        simp [busActs, busAct]
    refine ⟨CycleEnd.after_latch k.1, ?_, ⟨(sampleData v).latch.rdata, ?_⟩, fun _ => ?_⟩
    · have := c.traceKept
      have hl := c.latch
      simp only [closeCycle_trace, sampleData_trace, sampleData_latch, hl, this]
      rfl
    · have hl := c.latch
      simp only [closeCycle_latch, sampleData_latch, hl]
      rfl
    · refine Eq.trans k.2 ?_
      rw [hx]
      simp [Cfg.cycleActs, phase4Drives, hk']

/-- Everything one bus cycle can do (R202, R216, R220, R221). -/
theorem busCycle_spec (kind : CycleKind) (a : Access) (wdata : Datum) (av : Option Byte) (s : State)
    (hm : s.hostMask = false) :
    (∃ d t, busCycle kind a wdata av s = .ok d t ∧ CycleDone s kind a wdata d t ∧ (kind = .write → d = wdata))
      ∨ ∃ r t, busCycle kind a wdata av s = .raise r t ∧ CycleFailed s kind a wdata r t := by
  unfold busCycle
  rcases prePhase_spec (latchCycle kind a wdata s) hm with ⟨s1, h1, c1, m1⟩ | ⟨r, t, ht, he⟩
  swap
  · exact .inr ⟨r, t, by rw [ht]; rfl, he.failed⟩
  rw [h1, Res.bind_ok]
  have e1 : earlyEntries a.pre
      = (if (latchCycle kind a wdata s).latch.pre = .none then [] else [(.p0, .enter)]) ++ [(.p1, .enter)] := rfl
  rcases synchronize_spec s1 m1 with ⟨s2, h2, c2, m2⟩ | ⟨u, hu, c2, hcm⟩
  swap
  · refine .inr ⟨_, _, by rw [hu]; rfl, EarlyTimeout.failed ⟨u, .syncTimeout, ?_, rfl, rfl, .inl ⟨rfl, ?_⟩⟩⟩
    · rw [if_pos rfl, e1]
      exact c1.trans c2
    · rw [c1.cfg] at hcm; exact hcm
  rw [h2, Res.bind_ok]
  obtain ⟨c3, m3⟩ := phase2_spec s2 m2
  have c := (c1.trans c2).trans c3
  have hl : s2.latch = (latchCycle kind a wdata s).latch := c2.latch.trans c1.latch
  have hcfg : s2.cfg = s.cfg := c2.cfg.trans c1.cfg
  have hx : (if (latchCycle kind a wdata s).latch.pre = .none then [] else [(Phase.p0, Action.enter)])
      ++ [(.p1, .enter)]
      ++ ((.p2, .enter) :: s2.cfg.phase2Drives s2.latch.kind s2.latch.space s2.latch.paddr s2.latch.lane)
      ++ [(.p3, .enter), (.p3, .strobes (phase2 s2).latch.kind (phase2 s2).latch.space (phase2 s2).latch.lane)]
      = earlyEntries a.pre ++ s.cfg.middleActs kind a := by
    rw [c3.latch, hl, hcfg]
    simp [earlyEntries, Cfg.middleActs, latchCycle]
    rfl
  rcases phase3_spec (phase2 s2) (m3.trans (by rw [c3.cfg])) with ⟨seen, s3, h3, c4, m4, p4⟩ | ⟨t, ht, c4, m4, p4, hs⟩
  swap
  · obtain ⟨he, htr, hla, hacts⟩ := abortCycle_end (c.trans c4) m4 p4
    refine .inr ⟨_, _, by rw [ht]; rfl, CycleEnd.after_latch he, ⟨_, hla⟩, .inl ⟨rfl, ?_, htr, ?_⟩⟩
    · rwa [c3.cfg, hcfg] at hs
    · exact hacts.trans (by rw [hx]; rfl)
  rw [h3, Res.bind_ok]
  exact .inl (phase4_spec (c.trans c4) m4 p4 hx)

end Sys2Proof.Machine
end

