-- ==== Sys2Proof/Laws/Completion.lean ====
section
/-! SUPPORT. The answers by which a bus cycle completes, where each wait ends at its last supplied answer, and those by which it times out (41_bus_engine.md R203 to R214). -/

namespace Sys2Proof.Machine

theorem toggleEnds_run {q : Query} {k : Nat} {prev : Bool} {xs rest : List Raw} {s : State}
    (h : toggleEnds k prev xs = true) (hs : s.script = xs ++ rest) :
    ∃ t, preSyncLoop q k prev s = (true, t) ∧ t.script = rest := by
  induction k generalizing prev xs s with
  | zero => simp [toggleEnds] at h
  | succ k ih =>
    cases xs with
    | nil => simp [toggleEnds] at h
    | cons r rs =>
      have hr : s.reply q = r := reply_of_script hs q
      simp only [toggleEnds] at h
      simp only [preSyncLoop, hr]
      split at h <;> rename_i hp
      · rw [if_pos hp]
        refine ⟨_, rfl, ?_⟩
        have : rs = [] := by simpa using h
        simp [hs, this]
      · rw [if_neg hp]
        exact ih h (by simp [hs])

theorem pollEnds_edge_run {k : Nat} {xs rest : List Raw} {s : State}
    (h : pollEnds levelOf k xs = true) (hs : s.script = xs ++ rest) :
    ∃ t, edgeLoop k s = (true, t) ∧ t.script = rest := by
  induction k generalizing xs s with
  | zero => simp [pollEnds] at h
  | succ k ih =>
    cases xs with
    | nil => simp [pollEnds] at h
    | cons r rs =>
      have hr : s.reply .clockEdge = r := reply_of_script hs _
      simp only [pollEnds] at h
      simp only [edgeLoop, hr]
      split at h <;> rename_i hp
      · rw [if_pos hp]
        refine ⟨_, rfl, ?_⟩
        have : rs = [] := by simpa using h
        simp [hs, this]
      · rw [if_neg hp]
        exact ih h (by simp [hs])

theorem pollEnds_ack_run {kind : CycleKind} {k : Nat} {xs rest : List Raw} {seen : AckSeen} {s : State}
    (h : pollEnds (fun r => (s.cfg.acceptOf kind r).isSome) k xs = true)
    (hl : xs.getLast?.bind (s.cfg.acceptOf kind) = some seen) (hs : s.script = xs ++ rest) :
    ∃ t, ackLoop kind k s = (some seen, t) ∧ t.script = rest := by
  induction k generalizing xs s with
  | zero => simp [pollEnds] at h
  | succ k ih =>
    cases xs with
    | nil => simp [pollEnds] at h
    | cons r rs =>
      have hr : s.reply (.ackInputs kind) = r := reply_of_script hs _
      simp only [pollEnds] at h
      simp only [ackLoop, hr]
      split at h <;> rename_i hp
      · have hn : rs = [] := by simpa using h
        subst hn
        simp only [List.getLast?_singleton, Option.bind_some] at hl
        rw [hl]
        exact ⟨_, rfl, by simp [hs]⟩
      · have hn : s.cfg.acceptOf kind r = none := by simpa using hp
        rw [hn]
        refine ih h ?_ (by simp [hs])
        cases rs with
        | nil => simp [hn] at hl
        | cons a as => simpa using hl

@[simp] theorem halfCycle_script (s : State) : (halfCycle s).script = s.script.tail := by
  simp only [halfCycle]; split <;> simp

theorem halfCycles_script {n : Nat} {xs rest : List Raw} {s : State} (h : xs.length = n)
    (hs : s.script = xs ++ rest) : (halfCycles n s).script = rest := by
  induction n generalizing xs s with
  | zero => simp_all [halfCycles]
  | succ n ih =>
    cases xs with
    | nil => simp at h
    | cons r rs => exact ih (by simpa using h) (by simp [hs])

theorem masterClocks_script {n : Nat} {xs rest : List Raw} {s : State} (h : clocksFit s.cfg n xs = true)
    (hs : s.script = xs ++ rest) : (masterClocks n s).script = rest := by
  unfold masterClocks
  simp only [clocksFit, decide_eq_true_eq] at h
  split <;> rename_i hm
  · exact halfCycles_script (by simpa [hm] using h) hs
  · simp_all

theorem prePhase_run {h : Handshake} {s : State} {rest : List Raw} (hf : h.preFits s.cfg s.latch.pre = true)
    (hs : s.script = h.pre ++ rest) : ∃ t, prePhase s = .ok () t ∧ t.script = rest := by
  have key : ∀ (q : Query) (limit : Nat) (why : Info) (x : Raw) (xs : List Raw),
      toggleEnds limit (levelOf x) xs = true → s.script = x :: xs ++ rest →
      ∃ t, preSync q limit why (enterPhase .p0 s) = .ok () t ∧ t.script = rest := by
    intro q limit why x xs ht hx
    have hr : (enterPhase .p0 s).reply q = x := reply_of_script (by simpa using hx) q
    obtain ⟨t, h1, h2⟩ := toggleEnds_run (q := q) (s := { (enterPhase .p0 s).sampled q with polls := 0 })
      (rest := rest) ht (by simp [hx])
    exact ⟨t, by simp only [preSync, hr, h1], h2⟩
  unfold prePhase
  unfold Handshake.preFits at hf
  cases hp : s.latch.pre <;> cases hl : h.pre <;> rw [hp, hl] at hf <;> simp only at hf <;>
    rw [hl] at hs <;> simp only
  · exact ⟨s, rfl, by simpa using hs⟩
  · simp at hf
  · simp at hf
  · exact key _ _ _ _ _ hf hs
  · simp at hf
  · exact key _ _ _ _ _ hf hs

theorem synchronize_run {h : Handshake} {s : State} {rest : List Raw} (hf : h.edgeFits s.cfg = true)
    (hs : s.script = h.edge ++ rest) : ∃ t, synchronize s = .ok () t ∧ t.script = rest := by
  unfold synchronize
  simp only [Handshake.edgeFits] at hf
  split <;> rename_i hm
  · exact ⟨_, rfl, halfCycles_script (by simpa [hm] using hf) hs⟩
  · rw [if_neg hm] at hf
    obtain ⟨t, h1, h2⟩ := pollEnds_edge_run (s := { s with polls := 0 }) (rest := rest) hf hs
    exact ⟨t, by simp only [waitEdge, h1], h2⟩

theorem phase2_script {xs rest : List Raw} {s : State} (h : clocksFit s.cfg s.cfg.halfCycles.p2 xs = true)
    (hs : s.script = xs ++ rest) : (phase2 s).script = rest := by
  show (assertAddress _).script = rest
  rw [assertAddress_script]
  exact masterClocks_script (s := openCycle s) h hs

theorem waitAck_run {h : Handshake} {s : State} {rest : List Raw} (hf : h.ackFits s.cfg s.latch.kind = true)
    (hs : s.script = h.ack ++ rest) : ∃ t, waitAck s = .ok h.seen t ∧ t.script = rest := by
  unfold waitAck
  unfold Handshake.ackFits at hf
  cases ha : s.cfg.ackSignal <;> rw [ha] at hf <;>
    simp only [Bool.and_eq_true, decide_eq_true_eq, List.isEmpty_iff] at hf
  · exact ⟨s, by simp only [hf.2], by simpa [hf.1] using hs⟩
  · obtain ⟨t, h1, h2⟩ := pollEnds_ack_run (s := { s with polls := 0 }) hf.1 hf.2 hs
    exact ⟨t, by simp only [h1], h2⟩

theorem phase3_run {h : Handshake} {s : State} {rest : List Raw}
    (hc : clocksFit s.cfg s.cfg.halfCycles.p3 h.clk3 = true) (hf : h.ackFits s.cfg s.latch.kind = true)
    (hs : s.script = h.clk3 ++ h.ack ++ rest) : ∃ t, phase3 s = .ok h.seen t ∧ t.script = rest := by
  have hcalm := masterClocks_calm s.cfg.halfCycles.p3 (enterPhase .p3 s)
  refine waitAck_run (s := assertStrobes (masterClocks s.cfg.halfCycles.p3 (enterPhase .p3 s))) ?_ ?_
  · simpa [hcalm.cfg, hcalm.latch, assertStrobes] using hf
  · exact masterClocks_script (s := enterPhase .p3 s) hc (by simpa using hs)

/-- What the answer to the data pins gives on a read or acknowledge cycle: the datum of the lane, or the
autovector (R213, R234). -/
def pinsDatum (a : Access) (av : Option Byte) (seen : AckSeen) (bus : Raw) : Datum :=
  cycleDatum av seen (sampledDatum a.lane bus)

theorem before_phase4 {kind : CycleKind} {a : Access} {wdata : Datum} {av : Option Byte} {h : Handshake} {s : State}
    {rest : List Raw} (hm : s.hostMask = false) (hf : h.fits s.cfg kind a.pre = true)
    (hs : s.script = h.answers ++ rest) :
    ∃ s3, busCycle kind a wdata av s = phase4 av h.seen s3
      ∧ (masterClocks s3.cfg.halfCycles.p4 (enterPhase .p4 s3)).script = rest
      ∧ (masterClocks s3.cfg.halfCycles.p4 (enterPhase .p4 s3)).latch = (latchCycle kind a wdata s).latch
      ∧ (masterClocks s3.cfg.halfCycles.p4 (enterPhase .p4 s3)).cfg = s.cfg := by
  simp only [Handshake.fits, Bool.and_eq_true] at hf
  obtain ⟨⟨⟨⟨⟨f0, f1⟩, f2⟩, f3⟩, f4⟩, f5⟩ := hf
  simp only [Handshake.answers, List.append_assoc] at hs
  obtain ⟨s1, h1, k1⟩ := prePhase_run (s := latchCycle kind a wdata s) f0 hs
  have e1 := prePhase_spec (latchCycle kind a wdata s) hm
  rcases e1 with ⟨t, ht, c1, m1⟩ | ⟨r, t, ht, _⟩ <;> rw [h1] at ht <;> cases ht
  obtain ⟨s2, h2, k2⟩ := synchronize_run (h := h) (s := enterPhase .p1 s1) (by simpa [c1.cfg] using f1) k1
  have e2 := synchronize_spec s1 m1
  rcases e2 with ⟨t, ht, c2, m2⟩ | ⟨t, ht, _⟩ <;> rw [h2] at ht <;> cases ht
  have g2 : s2.cfg = s.cfg := c2.cfg.trans c1.cfg
  have k3 := phase2_script (s := s2) (by rw [g2]; exact f2) k2
  obtain ⟨c3, m3⟩ := phase2_spec s2 m2
  have g3 : (phase2 s2).cfg = s.cfg := c3.cfg.trans g2
  have l3 : (phase2 s2).latch = (latchCycle kind a wdata s).latch := (c3.latch.trans c2.latch).trans c1.latch
  obtain ⟨s3, h3, k4⟩ := phase3_run (h := h) (s := phase2 s2) (by rw [g3]; exact f3) (by rw [g3, l3]; exact f4)
    (by rw [List.append_assoc]; exact k3)
  have e3 := phase3_spec (phase2 s2) (m3.trans (by rw [c3.cfg]))
  rcases e3 with ⟨seen, t, ht, c4, m4, _⟩ | ⟨t, ht, _⟩ <;> rw [h3] at ht <;> cases ht
  have g4 : s3.cfg = s.cfg := c4.cfg.trans g3
  have hcalm := masterClocks_calm s3.cfg.halfCycles.p4 (enterPhase .p4 s3)
  refine ⟨s3, ?_, ?_, ?_, ?_⟩
  · rw [busCycle, h1, Res.bind_ok, h2, Res.bind_ok, h3, Res.bind_ok]
  · exact masterClocks_script (s := enterPhase .p4 s3) (by simpa [g4] using f5) (by simpa using k4)
  · exact hcalm.latch.trans (c4.latch.trans l3)
  · exact hcalm.cfg.trans g4

/-- A read or acknowledge cycle completes on answers that fit, with the datum of its lane. -/
theorem busCycle_reads {kind : CycleKind} {a : Access} {wdata : Datum} {av : Option Byte} {h : Handshake} {s : State}
    {bus : Raw} {rest : List Raw} (hk : kind ≠ .write) (hm : s.hostMask = false)
    (hf : h.fits s.cfg kind a.pre = true) (hs : s.script = h.answers ++ bus :: rest) :
    ∃ t, busCycle kind a wdata av s = .ok (pinsDatum a av h.seen bus) t
      ∧ CycleDone s kind a wdata (pinsDatum a av h.seen bus) t ∧ t.script = rest := by
  obtain ⟨s3, hb, ks, kl, kc⟩ := before_phase4 (wdata := wdata) (av := av) hm hf hs
  have hr := reply_of_script ks .dataPins
  have hres : ∃ t, busCycle kind a wdata av s = .ok (pinsDatum a av h.seen bus) t ∧ t.script = rest := by
    rw [hb, phase4]
    simp only [kl]
    rw [if_neg (by simpa [latchCycle] using hk)]
    have hd : (sampleData (masterClocks s3.cfg.halfCycles.p4 (enterPhase .p4 s3))).latch.rdata
        = sampledDatum a.lane bus := by simp [sampleData, hr, kl, latchCycle]
    exact ⟨_, by rw [hd, pinsDatum],
      by simp [closeCycle, leaveCycle, terminate, sampleData, restoreIdle, ks]⟩
  obtain ⟨t, ht, hscript⟩ := hres
  rcases busCycle_spec kind a wdata av s hm with ⟨d, u, hu, hd, _⟩ | ⟨r, u, hu, _⟩
  · rw [ht] at hu; cases hu; exact ⟨t, ht, hd, hscript⟩
  · rw [ht] at hu; cases hu

/-- A write cycle completes on answers that fit, the unused lane's draw among them where there is one. -/
theorem busCycle_writes {a : Access} {wdata : Datum} {av : Option Byte} {h : Handshake} {s : State}
    {draw : Raw} {rest : List Raw} (hm : s.hostMask = false)
    (hf : h.fits s.cfg .write a.pre = true) (hs : s.script = h.answers ++ laneDraw s.cfg a.w draw ++ rest) :
    ∃ t, busCycle .write a wdata av s = .ok wdata t ∧ CycleDone s .write a wdata wdata t ∧ t.script = rest := by
  rw [List.append_assoc] at hs
  obtain ⟨s3, hb, ks, kl, kc⟩ := before_phase4 (wdata := wdata) (av := av) hm hf hs
  have hres : ∃ t, busCycle .write a wdata av s = .ok wdata t ∧ t.script = rest := by
    rw [hb, phase4]
    simp only [kl]
    rw [if_pos (show (latchCycle .write a wdata s).latch.kind = .write from rfl)]
    refine ⟨_, rfl, ?_⟩
    simp only [closeCycle, leaveCycle, terminate, State.emit, State.log, restoreIdle, driveData, kl, kc, latchCycle]
    unfold laneDraw at ks
    split <;> rename_i hw
    · rw [if_pos hw] at ks; simp [State.sampled, ks]
    · rw [if_neg hw] at ks; simpa using ks
  obtain ⟨t, ht, hscript⟩ := hres
  rcases busCycle_spec .write a wdata av s hm with ⟨d, u, hu, hd, _⟩ | ⟨r, u, hu, _⟩
  · rw [ht] at hu; cases hu; exact ⟨t, ht, hd, hscript⟩
  · rw [ht] at hu; cases hu

/-! ### Answers by which a bus cycle times out -/

theorem neverToggles_run {q : Query} {k : Nat} {prev : Bool} {xs rest : List Raw} {s : State} (hl : xs.length = k)
    (h : neverToggles prev xs = true) (hs : s.script = xs ++ rest) :
    ∃ t, preSyncLoop q k prev s = (false, t) ∧ t.script = rest := by
  induction k generalizing prev xs s with
  | zero =>
    obtain rfl := List.length_eq_zero_iff.1 hl
    exact ⟨s, rfl, hs⟩
  | succ k ih =>
    cases xs with
    | nil => simp at hl
    | cons r rs =>
      simp only [neverToggles, Bool.and_eq_true, Bool.not_eq_true'] at h
      simp only [preSyncLoop, reply_of_script hs q]
      rw [if_neg (by simp [h.1])]
      exact ih (by simpa using hl) h.2 (by simp [hs])

theorem edge_unseen_run {k : Nat} {xs rest : List Raw} {s : State} (hl : xs.length = k)
    (h : (xs.all fun r => !levelOf r) = true) (hs : s.script = xs ++ rest) :
    ∃ t, edgeLoop k s = (false, t) ∧ t.script = rest := by
  induction k generalizing xs s with
  | zero =>
    obtain rfl := List.length_eq_zero_iff.1 hl
    exact ⟨s, rfl, hs⟩
  | succ k ih =>
    cases xs with
    | nil => simp at hl
    | cons r rs =>
      simp only [List.all_cons, Bool.and_eq_true, Bool.not_eq_true'] at h
      simp only [edgeLoop, reply_of_script hs .clockEdge]
      rw [if_neg (by simp [h.1])]
      exact ih (by simpa using hl) h.2 (by simp [hs])

theorem ack_unseen_run {kind : CycleKind} {k : Nat} {xs rest : List Raw} {s : State} (hl : xs.length = k)
    (h : (xs.all fun r => (s.cfg.acceptOf kind r).isNone) = true) (hs : s.script = xs ++ rest) :
    ∃ t, ackLoop kind k s = (none, t) ∧ t.script = rest := by
  induction k generalizing xs s with
  | zero =>
    obtain rfl := List.length_eq_zero_iff.1 hl
    exact ⟨s, rfl, hs⟩
  | succ k ih =>
    cases xs with
    | nil => simp at hl
    | cons r rs =>
      simp only [List.all_cons, Bool.and_eq_true, Option.isNone_iff_eq_none] at h
      simp only [ackLoop, reply_of_script hs (.ackInputs kind), h.1]
      exact ih (by simpa using hl) h.2 (by simp [hs])

/-- A cycle times out in P0 on answers without a toggle (R203, R204). -/
theorem busCycle_untoggled {kind : CycleKind} {a : Access} {wdata : Datum} {av : Option Byte} {h : Handshake}
    {rest : List Raw} {s : State} (hm : s.hostMask = false) (hf : h.untoggled s.cfg a.pre = true)
    (hs : s.script = h.pre ++ rest) :
    ∃ t, busCycle kind a wdata av s
          = .raise (Result.error .timeout (if a.pre = .vsync then .vsyncTimeout else .waitSpaceTimeout)) t
      ∧ CycleFailed s kind a wdata
          (Result.error .timeout (if a.pre = .vsync then .vsyncTimeout else .waitSpaceTimeout)) t ∧ t.script = rest := by
  have key : ∀ (q : Query) (why : Info) (x : Raw) (xs : List Raw), neverToggles (levelOf x) xs = true →
      s.script = x :: xs ++ rest →
      ∃ t, preSync q xs.length why (enterPhase .p0 (latchCycle kind a wdata s)) = .raise (Result.error .timeout why) t
        ∧ t.script = rest := by
    intro q why x xs hn hx
    have hr : (enterPhase .p0 (latchCycle kind a wdata s)).reply q = x := reply_of_script (by simpa using hx) q
    obtain ⟨t, h1, h2⟩ := neverToggles_run (q := q) (rest := rest) rfl hn
      (s := { (enterPhase .p0 (latchCycle kind a wdata s)).sampled q with polls := 0 }) (by simp [hx])
    exact ⟨leaveCycle t, by simp only [preSync, hr, h1]; rfl, by simpa [leaveCycle, restoreIdle] using h2⟩
  have hres : ∃ t, busCycle kind a wdata av s
        = .raise (Result.error .timeout (if a.pre = .vsync then .vsyncTimeout else .waitSpaceTimeout)) t
      ∧ t.script = rest := by
    unfold Handshake.untoggled at hf
    cases hp : a.pre <;> cases hl : h.pre <;> rw [hp, hl] at hf <;> simp at hf <;> rw [hl] at hs
    · obtain ⟨t, h1, h2⟩ := key .blanking .waitSpaceTimeout _ _ hf.2 hs
      refine ⟨t, ?_, h2⟩
      rw [busCycle, prePhase]
      rw [hf.1] at h1
      simp only [latchCycle, hp] at h1 ⊢
      simp [h1, Res.bind]
    · obtain ⟨t, h1, h2⟩ := key .vsyncInput .vsyncTimeout _ _ hf.2 hs
      refine ⟨t, ?_, h2⟩
      rw [busCycle, prePhase]
      rw [hf.1] at h1
      simp only [latchCycle, hp] at h1 ⊢
      simp [h1, Res.bind]
  obtain ⟨t, ht, hscript⟩ := hres
  rcases busCycle_spec kind a wdata av s hm with ⟨d, u, hu, _⟩ | ⟨r, u, hu, hf'⟩ <;> rw [ht] at hu <;> cases hu
  exact ⟨t, ht, hf', hscript⟩

/-- A free-running cycle times out in P1 on answers without a clock edge (R205). -/
theorem busCycle_unsynchronized {kind : CycleKind} {a : Access} {wdata : Datum} {av : Option Byte} {h : Handshake}
    {rest : List Raw} {s : State} (hm : s.hostMask = false) (hf : h.unsynchronized s.cfg a.pre = true)
    (hs : s.script = h.pre ++ h.edge ++ rest) :
    ∃ t, busCycle kind a wdata av s = .raise (Result.error .timeout .syncTimeout) t
      ∧ CycleFailed s kind a wdata (Result.error .timeout .syncTimeout) t ∧ t.script = rest := by
  simp only [Handshake.unsynchronized, Bool.and_eq_true, Bool.not_eq_true', decide_eq_true_eq] at hf
  obtain ⟨⟨⟨f0, fc⟩, fl⟩, fe⟩ := hf
  rw [List.append_assoc] at hs
  obtain ⟨s1, h1, k1⟩ := prePhase_run (s := latchCycle kind a wdata s) f0 hs
  rcases prePhase_spec (latchCycle kind a wdata s) hm with ⟨t, ht, c1, m1⟩ | ⟨r, t, ht, _⟩ <;> rw [h1] at ht <;> cases ht
  have g1 : s1.cfg = s.cfg := c1.cfg
  obtain ⟨s2, h2, k2⟩ := edge_unseen_run (s := { enterPhase .p1 s1 with polls := 0 }) (k := s.cfg.syncLimit)
    (rest := rest) fl fe (by simpa using k1)
  have hres : busCycle kind a wdata av s = .raise (Result.error .timeout .syncTimeout) (leaveCycle s2) := by
    have h3 : synchronize (enterPhase .p1 s1) = quitEarly .syncTimeout s2 := by
      have gl : (enterPhase .p1 s1).cfg.syncLimit = s.cfg.syncLimit := by simp [g1]
      rw [synchronize, if_neg (by simp [g1, fc]), waitEdge, gl, h2]
    rw [busCycle, h1, Res.bind_ok, h3]
    rfl
  rcases busCycle_spec kind a wdata av s hm with ⟨d, u, hu, _⟩ | ⟨r, u, hu, hf'⟩ <;> rw [hres] at hu <;> cases hu
  exact ⟨_, hres, hf', by simpa [leaveCycle, restoreIdle] using k2⟩

/-- A cycle times out in P3 on answers without an acknowledge (R211). -/
theorem busCycle_unanswered {kind : CycleKind} {a : Access} {wdata : Datum} {av : Option Byte} {h : Handshake}
    {rest : List Raw} {s : State} (hm : s.hostMask = false) (hf : h.unanswered s.cfg kind a.pre = true)
    (hs : s.script = h.answersToAck ++ rest) :
    ∃ t, busCycle kind a wdata av s = .raise (Result.error .timeout .ackTimeout) t
      ∧ CycleFailed s kind a wdata (Result.error .timeout .ackTimeout) t ∧ t.script = rest := by
  simp only [Handshake.unanswered, Bool.and_eq_true, decide_eq_true_eq] at hf
  obtain ⟨⟨⟨⟨⟨⟨f0, f1⟩, f2⟩, f3⟩, fs⟩, fl⟩, fa⟩ := hf
  simp only [Handshake.answersToAck, List.append_assoc] at hs
  obtain ⟨s1, h1, k1⟩ := prePhase_run (s := latchCycle kind a wdata s) f0 hs
  rcases prePhase_spec (latchCycle kind a wdata s) hm with ⟨t, ht, c1, m1⟩ | ⟨r, t, ht, _⟩ <;> rw [h1] at ht <;> cases ht
  obtain ⟨s2, h2, k2⟩ := synchronize_run (h := h) (s := enterPhase .p1 s1) (by simpa [c1.cfg] using f1) k1
  rcases synchronize_spec s1 m1 with ⟨t, ht, c2, m2⟩ | ⟨t, ht, _⟩ <;> rw [h2] at ht <;> cases ht
  have g2 : s2.cfg = s.cfg := c2.cfg.trans c1.cfg
  have k3 := phase2_script (s := s2) (by rw [g2]; exact f2) k2
  obtain ⟨c3, m3⟩ := phase2_spec s2 m2
  have g3 : (phase2 s2).cfg = s.cfg := c3.cfg.trans g2
  have l3 : (phase2 s2).latch = (latchCycle kind a wdata s).latch := (c3.latch.trans c2.latch).trans c1.latch
  generalize hu : assertStrobes (masterClocks (phase2 s2).cfg.halfCycles.p3 (enterPhase .p3 (phase2 s2))) = u
  have hcalm := masterClocks_calm (phase2 s2).cfg.halfCycles.p3 (enterPhase .p3 (phase2 s2))
  have ku : u.script = h.ack ++ rest := by
    rw [← hu]
    exact masterClocks_script (s := enterPhase .p3 (phase2 s2)) (by simpa [g3] using f3) (by simpa using k3)
  have gu : u.cfg = s.cfg := by rw [← hu]; exact hcalm.cfg.trans g3
  have lu : u.latch.kind = kind := by
    have : u.latch = (latchCycle kind a wdata s).latch := by rw [← hu]; exact hcalm.latch.trans l3
    rw [this]; rfl
  obtain ⟨v, h4, k4⟩ := ack_unseen_run (kind := kind) (s := { u with polls := 0 }) (k := u.cfg.pollLimit)
    (rest := rest) (by rw [gu]; exact fl) (by simpa [gu] using fa) ku
  have h5 : phase3 (phase2 s2) = .raise (Result.error .timeout .ackTimeout) (abortCycle v) := by
    have hs' : u.cfg.ackSignal = .line := by rw [gu]; exact fs
    rw [phase3, hu, waitAck, hs']
    simp only [lu, h4]
  have hres : busCycle kind a wdata av s = .raise (Result.error .timeout .ackTimeout) (abortCycle v) := by
    rw [busCycle, h1, Res.bind_ok, h2, Res.bind_ok, h5]
    rfl
  rcases busCycle_spec kind a wdata av s hm with ⟨d, u, hu, _⟩ | ⟨r, u, hu, hf'⟩ <;> rw [hres] at hu <;> cases hu
  exact ⟨_, hres, hf', by simpa [abortCycle, leaveCycle, restoreIdle, terminate] using k4⟩

end Sys2Proof.Machine
end

