-- ==== Sys2Proof/Laws/Sequencer.lean ====
section
/-! SUPPORT. The sequencers' access path: what one read, write or bank switch can do, and how a plan of moves runs to its end on answers that fit (42_rom_check.md R250 to R254). -/

namespace Sys2Proof.Machine

/-! ### Plans -/

theorem planAccepts_length {c : Cfg} {ms : List Move} {rs : List Reply} (h : planAccepts c ms rs = true) :
    ms.length = rs.length := by
  induction ms generalizing rs with
  | nil => cases rs <;> simp_all [planAccepts]
  | cons m ms ih =>
    cases rs with
    | nil => simp [planAccepts] at h
    | cons r rs => simp only [planAccepts, Bool.and_eq_true] at h; simp [ih h.2]

theorem planAccepts_append {c : Cfg} {ms ns : List Move} {rs : List Reply} :
    planAccepts c (ms ++ ns) rs = true ↔
      ∃ ps qs, rs = ps ++ qs ∧ planAccepts c ms ps = true ∧ planAccepts c ns qs = true := by
  induction ms generalizing rs with
  | nil =>
    constructor
    · exact fun h => ⟨[], rs, rfl, rfl, h⟩
    · rintro ⟨ps, qs, rfl, hp, hq⟩
      cases ps with
      | nil => exact hq
      | cons p ps => simp [planAccepts] at hp
  | cons m ms ih =>
    cases rs with
    | nil =>
      constructor
      · intro h; simp [planAccepts] at h
      · rintro ⟨ps, qs, he, hp, _⟩
        obtain ⟨rfl, rfl⟩ := List.append_eq_nil_iff.1 he.symm
        simp [planAccepts] at hp
    | cons r rs =>
      simp only [List.cons_append, planAccepts, Bool.and_eq_true, ih]
      constructor
      · rintro ⟨hm, ps, qs, rfl, hp, hq⟩
        exact ⟨r :: ps, qs, rfl, by simp [planAccepts, hm, hp], hq⟩
      · rintro ⟨ps, qs, he, hp, hq⟩
        cases ps with
        | nil => simp [planAccepts] at hp
        | cons p ps =>
          simp only [List.cons_append, List.cons.injEq] at he
          obtain ⟨rfl, rfl⟩ := he
          simp only [planAccepts, Bool.and_eq_true] at hp
          exact ⟨hp.1, ps, qs, rfl, hp.2, hq⟩

theorem planEvents_append {c : Cfg} {ms ns : List Move} {ps qs : List Reply} (h : ms.length = ps.length) :
    planEvents c (ms ++ ns) (ps ++ qs) = planEvents c ms ps ++ planEvents c ns qs := by
  induction ms generalizing ps with
  | nil => cases ps <;> simp_all [planEvents]
  | cons m ms ih => cases ps with
    | nil => simp at h
    | cons p ps => simp [planEvents, ih (by simpa using h)]

theorem planAnswers_append {c : Cfg} {ms ns : List Move} {ps qs : List Reply} (h : ms.length = ps.length) :
    planAnswers c (ms ++ ns) (ps ++ qs) = planAnswers c ms ps ++ planAnswers c ns qs := by
  induction ms generalizing ps with
  | nil => cases ps <;> simp_all [planAnswers]
  | cons m ms ih => cases ps with
    | nil => simp at h
    | cons p ps => simp [planAnswers, ih (by simpa using h)]

theorem planValues_append {c : Cfg} {ms ns : List Move} {ps qs : List Reply} (h : ms.length = ps.length) :
    planValues c (ms ++ ns) (ps ++ qs) = planValues c ms ps ++ planValues c ns qs := by
  induction ms generalizing ps with
  | nil => cases ps <;> simp_all [planValues]
  | cons m ms ih => cases ps with
    | nil => simp at h
    | cons p ps => cases m <;> simp [planValues, ih (by simpa using h)]

/-! ### A plan that ran -/

/-- The state after a plan of moves ran without error on these replies. -/
structure Ran (s : State) (ms : List Move) (rs : List Reply) (t : State) : Prop extends Within s t where
  accepted : planAccepts s.cfg ms rs = true
  events : t.trace = s.trace ++ planEvents s.cfg ms rs
  answers : s.script = planAnswers s.cfg ms rs ++ t.script
  engineIdle : s.EngineIdle → t.EngineIdle

theorem Ran.nil (s : State) : Ran s [] [] s :=
  ⟨Within.refl s, rfl, by simp [planEvents], by simp [planAnswers], id⟩

theorem Ran.trans {s t u : State} {ms ns : List Move} {ps qs : List Reply} (h : Ran s ms ps t) (k : Ran t ns qs u) :
    Ran s (ms ++ ns) (ps ++ qs) u where
  toWithin := h.toWithin.trans k.toWithin
  accepted := planAccepts_append.2 ⟨ps, qs, rfl, h.accepted, h.cfg ▸ k.accepted⟩
  events := by
    rw [k.events, h.events, h.cfg, planEvents_append (planAccepts_length h.accepted), List.append_assoc]
  answers := by
    rw [h.answers, k.answers, h.cfg, planAnswers_append (planAccepts_length h.accepted), List.append_assoc]
  engineIdle := fun i => k.engineIdle (h.engineIdle i)

/-- A write of the working registers. -/
theorem work_within (s : State) (w : Work) : Within s { s with work := w } :=
  Within.of_fields rfl rfl rfl rfl rfl rfl ⟨[], by simp⟩ ⟨[], by simp, fun _ => rfl⟩ List.suffix_rfl rfl rfl rfl

theorem Ran.after_work {s t : State} {ms : List Move} {rs : List Reply} (w : Work)
    (h : Ran { s with work := w } ms rs t) : Ran s ms rs t :=
  ⟨(work_within s w).trans h.toWithin, h.accepted, h.events, h.answers, h.engineIdle⟩

theorem Ran.then_work {s t : State} {ms : List Move} {rs : List Reply} (w : Work) (h : Ran s ms rs t) :
    Ran s ms rs { t with work := w } :=
  ⟨h.toWithin.trans (work_within t w), h.accepted, h.events, h.answers, h.engineIdle⟩

/-! ### One move -/

theorem emit_within (s : State) (e : Event) : Within s (s.emit e) :=
  Within.of_fields rfl rfl rfl rfl rfl rfl ⟨[e], rfl⟩ ⟨[], by simp, fun _ => rfl⟩ List.suffix_rfl rfl rfl rfl

/-- What a call of the address remap can do: it gives the address for some `ctx`, and records the call. -/
theorem callAddressRemap_spec (la : Word) (table : TableTag) (i : Byte) (s : State) :
    ∃ ctx, (callAddressRemap la table i s).1 = s.cfg.remapped ctx la
      ∧ Within s (callAddressRemap la table i s).2
      ∧ (callAddressRemap la table i s).2.trace = s.trace ++ s.cfg.aremapEvents ctx la
      ∧ (s.EngineIdle → (callAddressRemap la table i s).2.EngineIdle) := by
  refine ⟨s.reply (.addressContext table i), ?_⟩
  unfold callAddressRemap Cfg.aremapEvents
  cases h : s.cfg.addressRemap with
  | none => exact ⟨by simp [Cfg.remapped, h], Within.refl s, by simp, id⟩
  | some t => exact ⟨rfl, (sampled_calm' s _).toWithin.trans (emit_within _ _), by simp, id⟩

/-- A call of the address remap on answers that begin with its `ctx`. -/
theorem callAddressRemap_run {la : Word} {table : TableTag} {i : Byte} {ctx : Raw} {rest : List Raw} {s : State}
    (hs : s.script = s.cfg.addressDraw ctx ++ rest) :
    ∃ t, callAddressRemap la table i s = (s.cfg.remapped ctx la, t) ∧ Within s t
      ∧ t.trace = s.trace ++ s.cfg.aremapEvents ctx la ∧ t.script = rest ∧ t.work = s.work
      ∧ (s.EngineIdle → t.EngineIdle) := by
  unfold callAddressRemap Cfg.aremapEvents
  unfold Cfg.addressDraw at hs
  cases h : s.cfg.addressRemap with
  | none => exact ⟨s, by simp [Cfg.remapped, h], Within.refl s, by simp, by simpa [h] using hs, rfl, id⟩
  | some x =>
    have hs' : s.script = ctx :: rest := by simpa [h] using hs
    have hr : s.reply (.addressContext table i) = ctx := reply_of_script hs' _
    refine ⟨(s.sampled (.addressContext table i)).emit (.aremap la (s.cfg.remapped ctx la)), by simp only [hr],
      (sampled_calm' s _).toWithin.trans (emit_within _ _), by simp, by simp [hs'], rfl, id⟩

/-- What a call of the data remap can do. -/
theorem callDataRemap_spec (la : Word) (d : Datum) (table : TableTag) (i : Byte) (s : State) :
    ∃ ctx, (callDataRemap la d table i s).1 = s.cfg.remappedData ctx la d
      ∧ Within s (callDataRemap la d table i s).2
      ∧ (callDataRemap la d table i s).2.trace = s.trace ++ s.cfg.dremapEvents ctx la d
      ∧ (s.EngineIdle → (callDataRemap la d table i s).2.EngineIdle) := by
  refine ⟨s.reply (.dataContext table i), ?_⟩
  unfold callDataRemap Cfg.dremapEvents
  cases h : s.cfg.dataRemap with
  | none => exact ⟨by simp [Cfg.remappedData, h], Within.refl s, by simp, id⟩
  | some t => exact ⟨rfl, (sampled_calm' s _).toWithin.trans (emit_within _ _), by simp, id⟩

/-- A call of the data remap on answers that begin with its `ctx`. -/
theorem callDataRemap_run {la : Word} {d : Datum} {table : TableTag} {i : Byte} {ctx : Raw} {rest : List Raw}
    {s : State} (hs : s.script = s.cfg.dataDraw ctx ++ rest) :
    ∃ t, callDataRemap la d table i s = (s.cfg.remappedData ctx la d, t) ∧ Within s t
      ∧ t.trace = s.trace ++ s.cfg.dremapEvents ctx la d ∧ t.script = rest ∧ t.work = s.work
      ∧ (s.EngineIdle → t.EngineIdle) := by
  unfold callDataRemap Cfg.dremapEvents
  unfold Cfg.dataDraw at hs
  cases h : s.cfg.dataRemap with
  | none => exact ⟨s, by simp [Cfg.remappedData, h], Within.refl s, by simp, by simpa [h] using hs, rfl, id⟩
  | some x =>
    have hs' : s.script = ctx :: rest := by simpa [h] using hs
    have hr : s.reply (.dataContext table i) = ctx := reply_of_script hs' _
    refine ⟨(s.sampled (.dataContext table i)).emit (.dremap la d (s.cfg.remappedData ctx la d)), by simp only [hr],
      (sampled_calm' s _).toWithin.trans (emit_within _ _), by simp, by simp [hs'], rfl, id⟩

theorem seqAccess_of_legal {c : Cfg} {ctx : Raw} {la : Word} (h : c.legalAddress (c.remapped ctx la) = true) :
    c.decodeAddr (c.remapped ctx la) = .ok (c.seqAccess ctx la) := by
  unfold Cfg.seqAccess
  unfold Cfg.legalAddress at h
  cases hd : c.decodeAddr (c.remapped ctx la) with
  | error e => rw [hd] at h; simp at h
  | ok a => rfl

/-- A sequencer read runs on answers that fit, and gives the value the answers make. -/
theorem seqRead_run {la : Word} {table : TableTag} {i : Byte} {e m : Datum} {r : Reply} {rest : List Raw} {s : State}
    (hi : s.EngineIdle) (ha : (Move.read la e m).accepts s.cfg r = true)
    (hs : s.script = (Move.read la e m).answers s.cfg r ++ rest) :
    ∃ t, seqRead la table i s = .ok (s.cfg.readValue la r) t
      ∧ Ran s [.read la e m] [r] t ∧ t.script = rest ∧ t.work = s.work
      ∧ maskedEq (s.cfg.readValue la r) e m = true := by
  have ha' := ha
  simp only [Move.accepts, Cfg.accessRuns, Bool.and_eq_true] at ha
  obtain ⟨⟨hl, hf⟩, hm⟩ := ha
  have hs' := hs
  simp only [Move.answers, List.append_assoc] at hs
  obtain ⟨p, hp, w1, t1, k1, g1, i1⟩ := callAddressRemap_run (la := la) (table := table) (i := i) hs
  obtain ⟨u, hb, hd, hu⟩ := busCycle_reads (s := p) (kind := .read) (a := s.cfg.seqAccess r.addressCtx la)
    (wdata := 0) (av := none) (h := r.hs) (bus := r.last) (rest := s.cfg.dataDraw r.dataCtx ++ rest) (by decide)
    (i1 hi).2.2 (by rw [w1.cfg]; exact hf) (by rw [k1]; rfl)
  have hdat : pinsDatum (s.cfg.seqAccess r.addressCtx la) none r.hs.seen r.last = s.cfg.readSample la r := rfl
  rw [hdat] at hb hd
  have hcu : u.cfg = s.cfg := hd.cfg.trans w1.cfg
  obtain ⟨q, hq, w3, t3, k3, g3, i3⟩ := callDataRemap_run (la := la) (d := s.cfg.readSample la r) (table := table)
    (i := i) (ctx := r.dataCtx) (rest := rest) (s := u) (by rw [hcu]; exact hu)
  refine ⟨q, ?_, ⟨(w1.trans hd.toWithin).trans w3, ?_, ?_, ?_, fun _ => i3 hd.engineIdle⟩, k3,
    g3.trans (hd.work.trans g1), hm⟩
  · simp only [seqRead, hp, seqAccess_of_legal hl, hb, Res.onRaise_ok, Res.bind_ok, hq, hcu]
    rfl
  · simp [planAccepts, ha']
  · rw [t3, hd.event, t1, hcu]
    simp [planEvents, Move.events, Cfg.readEvents, Cfg.cycOf]
  · rw [k3]
    simpa [planAnswers] using hs'

/-- A sequencer write runs on answers that fit. -/
theorem seqWrite_run {la : Word} {table : TableTag} {i : Byte} {v : Datum} {r : Reply} {rest : List Raw} {s : State}
    (hi : s.EngineIdle) (ha : (Move.write la v).accepts s.cfg r = true)
    (hs : s.script = (Move.write la v).answers s.cfg r ++ rest) :
    ∃ t, seqWrite la v table i s = .ok () t ∧ Ran s [.write la v] [r] t ∧ t.script = rest ∧ t.work = s.work := by
  have ha' := ha
  simp only [Move.accepts, Cfg.accessRuns, Bool.and_eq_true] at ha
  obtain ⟨hl, hf⟩ := ha
  have hs' := hs
  simp only [Move.answers, List.append_assoc] at hs
  obtain ⟨p, hp, w1, t1, k1, g1, i1⟩ := callAddressRemap_run (la := la) (table := table) (i := i) hs
  obtain ⟨q, hq, w2, t2, k2, g2, i2⟩ := callDataRemap_run (la := la) (d := v) (table := table) (i := i)
    (ctx := r.dataCtx) (s := p) (by rw [w1.cfg]; exact k1)
  have h2 := w1.trans w2
  obtain ⟨u, hb, hd, hu⟩ := busCycle_writes (s := q) (a := s.cfg.seqAccess r.addressCtx la)
    (wdata := (s.cfg.seqAccess r.addressCtx la).w.cut (s.cfg.remappedData r.dataCtx la v)) (av := none) (h := r.hs)
    (draw := r.last) (rest := rest) (i2 (i1 hi)).2.2 (by rw [h2.cfg]; exact hf)
    (by rw [k2, h2.cfg, List.append_assoc])
  refine ⟨u, ?_, ⟨h2.trans hd.toWithin, ?_, ?_, ?_, fun _ => hd.engineIdle⟩, hu, hd.work.trans (g2.trans g1)⟩
  · simp only [seqWrite, hp, hq, w1.cfg, seqAccess_of_legal hl, hb, Res.onRaise_ok, Res.bind_ok]
  · simp [planAccepts, ha']
  · rw [hd.event, t2, t1, w1.cfg]
    simp [planEvents, Move.events, Cfg.writeEvents, Cfg.cycOf]
  · rw [hu]
    simpa [planAnswers] using hs'

/-- A bank switch runs where its answer is Success; a region without the callback does nothing (R252). -/
theorem callBank_run {table : TableTag} {i : Byte} {hasBank : Bool} {rs : List Reply} {rest : List Raw} {s : State}
    (ha : planAccepts s.cfg (bankMoves table i hasBank) rs = true)
    (hs : s.script = planAnswers s.cfg (bankMoves table i hasBank) rs ++ rest) :
    ∃ t, callBank table i hasBank s = .ok () t ∧ Ran s (bankMoves table i hasBank) rs t ∧ t.script = rest
      ∧ t.work = s.work := by
  unfold bankMoves at ha hs ⊢
  cases hasBank with
  | false =>
    cases rs with
    | nil => exact ⟨s, rfl, Ran.nil s, by simpa [planAnswers] using hs, rfl⟩
    | cons r rs => simp [planAccepts] at ha
  | true =>
    have hlen := planAccepts_length ha
    match rs with
    | [] => simp at hlen
    | _ :: _ :: _ => simp at hlen
    | [r] =>
      simp only [if_true] at ha hs ⊢
      have hr : (s.emit (.bank table i)).reply (.bankResult table i) = r.last :=
        reply_of_script (rest := rest) (by simpa [planAnswers, Move.answers] using hs) _
      have hc : codeOf r.last = .success := by simpa [planAccepts, Move.accepts] using ha
      have hscript : ((s.emit (.bank table i)).sampled (.bankResult table i)).script = rest := by
        simp [hs, planAnswers, Move.answers]
      refine ⟨(s.emit (.bank table i)).sampled (.bankResult table i), by simp only [callBank, if_true, hr, hc],
        ⟨?_, ha, ?_, ?_, id⟩, hscript, rfl⟩
      · exact (emit_within s _).trans (sampled_calm' _ _).toWithin
      · simp [planEvents, Move.events]
      · rw [hscript]; exact hs

/-! ### Loops -/

/-- A loop over an index range runs its moves in order, keeping an invariant of the index, the replies so far and
the state. -/
theorem forEach_range_run {c : Cfg} {body : Nat → State → Res Unit} {plan : Nat → List Move}
    {P : Nat → List Reply → State → Prop} (n : Nat)
    (turn : ∀ i < n, ∀ s ps rs rest, s.cfg = c → s.EngineIdle → P i ps s → planAccepts c (plan i) rs = true →
      s.script = planAnswers c (plan i) rs ++ rest →
      ∃ t, body i s = .ok () t ∧ Ran s (plan i) rs t ∧ t.script = rest ∧ P (i + 1) (ps ++ rs) t)
    {s : State} {rs : List Reply} {rest : List Raw} (hc : s.cfg = c) (hi : s.EngineIdle) (h0 : P 0 [] s)
    (ha : planAccepts c ((List.range n).flatMap plan) rs = true)
    (hs : s.script = planAnswers c ((List.range n).flatMap plan) rs ++ rest) :
    ∃ t, forEach body (List.range n) s = .ok () t ∧ Ran s ((List.range n).flatMap plan) rs t ∧ t.script = rest
      ∧ P n rs t := by
  induction n generalizing rs rest with
  | zero =>
    cases rs with
    | nil => exact ⟨s, rfl, Ran.nil s, by simpa [planAnswers] using hs, h0⟩
    | cons r rs => simp [planAccepts] at ha
  | succ n ih =>
    simp only [List.range_succ, List.flatMap_append, List.flatMap_singleton] at ha hs ⊢
    obtain ⟨ps, qs, rfl, hp, hq⟩ := planAccepts_append.1 ha
    rw [planAnswers_append (planAccepts_length hp), List.append_assoc] at hs
    obtain ⟨t, ht, rt, kt, pt⟩ := ih (fun i hl => turn i (by omega)) hp hs
    obtain ⟨u, hu, ru, ku, pu⟩ := turn n (by omega) t ps qs rest (rt.cfg.trans hc) (rt.engineIdle hi) pt hq kt
    refine ⟨u, ?_, rt.trans ru, ku, pu⟩
    rw [forEach_append, ht, Res.bind_ok, forEach_cons, hu]
    rfl

/-- A loop over any list runs its moves in order. -/
theorem forEach_run {α : Type} {c : Cfg} {body : α → State → Res Unit} {plan : α → List Move} (l : List α)
    (turn : ∀ x ∈ l, ∀ s rs rest, s.cfg = c → s.EngineIdle → planAccepts c (plan x) rs = true →
      s.script = planAnswers c (plan x) rs ++ rest →
      ∃ t, body x s = .ok () t ∧ Ran s (plan x) rs t ∧ t.script = rest)
    {s : State} {rs : List Reply} {rest : List Raw} (hc : s.cfg = c) (hi : s.EngineIdle)
    (ha : planAccepts c (l.flatMap plan) rs = true) (hs : s.script = planAnswers c (l.flatMap plan) rs ++ rest) :
    ∃ t, forEach body l s = .ok () t ∧ Ran s (l.flatMap plan) rs t ∧ t.script = rest := by
  induction l generalizing s rs rest with
  | nil =>
    cases rs with
    | nil => exact ⟨s, rfl, Ran.nil s, by simpa [planAnswers] using hs⟩
    | cons r rs => simp [planAccepts] at ha
  | cons x l ih =>
    simp only [List.flatMap_cons] at ha hs ⊢
    obtain ⟨ps, qs, rfl, hp, hq⟩ := planAccepts_append.1 ha
    rw [planAnswers_append (planAccepts_length hp), List.append_assoc] at hs
    obtain ⟨t, ht, rt, kt⟩ := turn x (by simp) s ps _ hc hi hp hs
    obtain ⟨u, hu, ru, ku⟩ := ih (fun y hy => turn y (by simp [hy])) (rt.cfg.trans hc) (rt.engineIdle hi) hq kt
    exact ⟨u, by rw [forEach_cons, ht, Res.bind_ok, hu], rt.trans ru, ku⟩

/-! ### A sequencer access that fails -/

/-- The state after an access that failed: idle, its events recorded, its answers used up. -/
structure AccessFailed (s : State) (m : Move) (r : Reply) (f : Failure) (rest : List Raw) (t : State) : Prop
    extends Within s t where
  events : t.trace = s.trace ++ m.failureEvents s.cfg r f
  answersLeft : t.script = rest
  engineIdle : t.EngineIdle

/-- How the cycle of an access fails, where its address is legal: the record's reason, and its events. -/
theorem busCycle_fails {kind : CycleKind} {la : Word} {wdata : Datum} {r : Reply} {f : Failure} {rest : List Raw}
    {s : State} (hm : s.hostMask = false) (hl : s.cfg.legalAddress (s.cfg.remapped r.addressCtx la) = true)
    (hf : s.cfg.accessFails kind la r f = true) (hs : s.script = f.answers r ++ rest) :
    ∃ t, busCycle kind (s.cfg.seqAccess r.addressCtx la) wdata none s
          = .raise (Result.error (f.reason s.cfg r la).1 (f.reason s.cfg r la).2) t
      ∧ CycleFailed s kind (s.cfg.seqAccess r.addressCtx la) wdata (Result.error (f.reason s.cfg r la).1 (f.reason s.cfg r la).2) t
      ∧ t.script = rest ∧ t.trace = s.trace ++ if f = .ack then [s.cfg.abortOf r kind la] else [] := by
  cases f with
  | address e => simp [Cfg.accessFails, seqAccess_of_legal hl] at hf
  | toggle =>
    simp only [Cfg.accessFails, Bool.and_eq_true] at hf
    obtain ⟨t, h1, h2, h3⟩ := busCycle_untoggled (kind := kind) (wdata := wdata) (av := none) hm hf.2 hs
    refine ⟨t, h1, h2, h3, ?_⟩
    rcases h2.exit with ⟨he, -⟩ | ⟨ht, -⟩
    · simp [Result.error] at he
      split at he <;> simp at he
    · simpa using ht
  | edge =>
    simp only [Cfg.accessFails, Bool.and_eq_true] at hf
    obtain ⟨t, h1, h2, h3⟩ := busCycle_unsynchronized (kind := kind) (wdata := wdata) (av := none) hm hf.2 hs
    refine ⟨t, h1, h2, h3, ?_⟩
    rcases h2.exit with ⟨he, -⟩ | ⟨ht, -⟩
    · simp [Result.error] at he
    · simpa using ht
  | ack =>
    simp only [Cfg.accessFails, Bool.and_eq_true] at hf
    obtain ⟨t, h1, h2, h3⟩ := busCycle_unanswered (kind := kind) (wdata := wdata) (av := none) hm hf.2 hs
    refine ⟨t, h1, h2, h3, ?_⟩
    rcases h2.exit with ⟨-, -, ht, -⟩ | ⟨-, he⟩
    · simpa [Cfg.abortOf] using ht
    · simp [Result.error] at he

/-- An access fails for a bad address where its address is bad. -/
theorem failure_of_error {c : Cfg} {kind : CycleKind} {la : Word} {r : Reply} {f : Failure} {x : Info}
    (hd : c.decodeAddr (c.remapped r.addressCtx la) = .error x) (hf : c.accessFails kind la r f = true) :
    f = .address x := by
  cases f <;> simp [Cfg.accessFails, Cfg.legalAddress, hd] at hf
  rw [hf]

/-- A sequencer read fails on answers that make it fail, with its record located (42_rom_check.md R250). -/
theorem seqRead_fails {la : Word} {e m : Datum} {table : TableTag} {i : Byte} {r : Reply} {f : Failure} {rest : List Raw}
    {s : State} (hi : s.EngineIdle) (hf : (Move.read la e m).fails s.cfg r f = true)
    (hs : s.script = (Move.read la e m).failureAnswers s.cfg r f ++ rest) :
    ∃ t, seqRead la table i s
          = .raise (locate la table i (Result.error (f.reason s.cfg r la).1 (f.reason s.cfg r la).2)) t
      ∧ AccessFailed s (.read la e m) r f rest t := by
  simp only [Move.failureAnswers, Move.remapDraws, List.append_assoc] at hs
  obtain ⟨p, hp, w1, t1, k1, g1, i1⟩ := callAddressRemap_run (la := la) (table := table) (i := i) hs
  have hf' : s.cfg.accessFails .read la r f = true := hf
  cases hd : s.cfg.decodeAddr (s.cfg.remapped r.addressCtx la) with
  | error x =>
    obtain rfl := failure_of_error hd hf'
    refine ⟨p, by simp only [seqRead, hp, hd]; rfl, w1, ?_, ?_, i1 hi⟩
    · simpa [Move.failureEvents, Move.remaps] using t1
    · simpa [Failure.answers] using k1
  | ok a =>
    have hl : s.cfg.legalAddress (s.cfg.remapped r.addressCtx la) = true := by simp [Cfg.legalAddress, hd]
    have ha : s.cfg.seqAccess r.addressCtx la = a := by simp [Cfg.seqAccess, hd]
    have hc := w1.cfg
    obtain ⟨t, h1, h2, h3, h4⟩ := busCycle_fails (s := p) (kind := .read) (wdata := 0) (r := r) (f := f)
      (rest := rest) (la := la) (i1 hi).2.2 (by rw [hc]; exact hl) (by rw [hc]; exact hf') k1
    rw [hc, ha] at h1
    refine ⟨t, ?_, w1.trans h2.toWithin, ?_, h3, h2.engineIdle⟩
    · simp only [seqRead, hp, hd, h1, Res.onRaise_raise, Res.bind_raise]
    · rw [h4, t1, hc]
      cases f <;> simp [Move.failureEvents, Move.remaps]

/-- A sequencer write fails on answers that make it fail, with its record located (R251). -/
theorem seqWrite_fails {la : Word} {v : Datum} {table : TableTag} {i : Byte} {r : Reply} {f : Failure} {rest : List Raw}
    {s : State} (hi : s.EngineIdle) (hf : (Move.write la v).fails s.cfg r f = true)
    (hs : s.script = (Move.write la v).failureAnswers s.cfg r f ++ rest) :
    ∃ t, seqWrite la v table i s
          = .raise (locate la table i (Result.error (f.reason s.cfg r la).1 (f.reason s.cfg r la).2)) t
      ∧ AccessFailed s (.write la v) r f rest t := by
  simp only [Move.failureAnswers, Move.remapDraws, List.append_assoc] at hs
  obtain ⟨p, hp, w1, t1, k1, g1, i1⟩ := callAddressRemap_run (la := la) (table := table) (i := i) hs
  obtain ⟨q, hq, w2, t2, k2, g2, i2⟩ := callDataRemap_run (la := la) (d := v) (table := table) (i := i)
    (ctx := r.dataCtx) (s := p) (by rw [w1.cfg]; exact k1)
  have w := w1.trans w2
  have hc := w.cfg
  have hf' : s.cfg.accessFails .write la r f = true := hf
  cases hd : s.cfg.decodeAddr (s.cfg.remapped r.addressCtx la) with
  | error x =>
    obtain rfl := failure_of_error hd hf'
    refine ⟨q, by simp only [seqWrite, hp, hq, hd]; rfl, w, ?_, ?_, i2 (i1 hi)⟩
    · rw [t2, t1, w1.cfg]
      simp [Move.failureEvents, Move.remaps]
    · simpa [Failure.answers] using k2
  | ok a =>
    have hl : s.cfg.legalAddress (s.cfg.remapped r.addressCtx la) = true := by simp [Cfg.legalAddress, hd]
    have ha : s.cfg.seqAccess r.addressCtx la = a := by simp [Cfg.seqAccess, hd]
    obtain ⟨t, h1, h2, h3, h4⟩ := busCycle_fails (s := q) (kind := .write)
      (wdata := a.w.cut (s.cfg.remappedData r.dataCtx la v)) (r := r) (f := f) (rest := rest) (la := la)
      (i2 (i1 hi)).2.2 (by rw [hc]; exact hl) (by rw [hc]; exact hf') k2
    rw [hc, ha] at h1
    refine ⟨t, ?_, w.trans h2.toWithin, ?_, h3, h2.engineIdle⟩
    · simp only [seqWrite, hp, hq, hd, w1.cfg, h1, Res.onRaise_raise, Res.bind_raise]
    · rw [h4, t2, t1, hc, w1.cfg]
      cases f <;> simp [Move.failureEvents, Move.remaps]

/-! ### A loop that stops -/

/-- A loop over an index range ends where a turn raises. -/
theorem forEach_range_stops {body : Nat → State → Res Unit} {i n : Nat} {s t u : State} {r : Result} (hi : i < n)
    (before : forEach body (List.range i) s = .ok () t) (stop : body i t = .raise r u) :
    forEach body (List.range n) s = .raise r u := by
  have h : List.range n = List.range i ++ i :: (List.range (n - i - 1)).map (i + 1 + ·) := by
    obtain ⟨k, rfl⟩ : ∃ k, n = i + 1 + k := ⟨n - i - 1, by omega⟩
    rw [List.range_add, List.range_succ, List.append_assoc, show i + 1 + k - i - 1 = k by omega]
    simp
  rw [h, forEach_append, before, Res.bind_ok, forEach_cons, stop]
  rfl

end Sys2Proof.Machine
end

