-- ==== Sys2Proof/Laws/Outcomes.lean ====
section
/-! SUPPORT. What any part of a command can do, whatever the Board answers: which records it raises, how many cycles it completes, where an Abort may stand, and that it ends idle (60_exceptions.md R361, R364). -/

namespace Sys2Proof.Machine

/-! ### Which records are raised -/

/-- Every record the part can raise satisfies `P`. -/
def Raises {α : Type} (P : Result → Prop) (x : Res α) : Prop := ∀ r t, x = .raise r t → P r

theorem Raises.ok {α : Type} {P : Result → Prop} (a : α) (s : State) : Raises P (Res.ok a s) := by
  intro r t h; cases h

theorem Raises.raise {α : Type} {P : Result → Prop} {r : Result} {s : State} (h : P r) :
    Raises P (Res.raise r s : Res α) := by
  intro r' t h'; cases h'; exact h

theorem Raises.bind {α β : Type} {P : Result → Prop} {x : Res α} {f : α → State → Res β} (hx : Raises P x)
    (hf : ∀ a t, Raises P (f a t)) : Raises P (x.bind f) := by
  cases x with
  | ok a t => exact hf a t
  | raise r t => exact fun r' t' h => hx r' t' (by cases h; rfl)

theorem Raises.onRaise {α : Type} {P Q : Result → Prop} {x : Res α} {f : Result → Result} (hx : Raises P x)
    (h : ∀ r, P r → Q (f r)) : Raises Q (x.onRaise f) := by
  cases x with
  | ok a t => exact Raises.ok a t
  | raise r t => exact Raises.raise (h r (hx r t rfl))

theorem Raises.mono {α : Type} {P Q : Result → Prop} {x : Res α} (hx : Raises P x) (h : ∀ r, P r → Q r) :
    Raises Q x := fun r t e => h r (hx r t e)

theorem forEach_raises {α : Type} {P : Result → Prop} {body : α → State → Res Unit} (l : List α)
    (h : ∀ a s, Raises P (body a s)) (s : State) : Raises P (forEach body l s) := by
  induction l generalizing s with
  | nil => exact Raises.ok () s
  | cons a l ih => rw [forEach_cons]; exact (h a s).bind fun _ t => ih t

/-- The records of a bus cycle (41_bus_engine.md R235, 60_exceptions.md R351). -/
def IsCycleTimeout (r : Result) : Prop :=
  r = Result.error .timeout .ackTimeout ∨ r = Result.error .timeout .syncTimeout
    ∨ r = Result.error .timeout .waitSpaceTimeout ∨ r = Result.error .timeout .vsyncTimeout

theorem preSync_raises (q : Query) (limit : Nat) (why : Info) (s : State) :
    Raises (fun r => r = Result.error .timeout why) (preSync q limit why s) := by
  unfold preSync
  split
  · exact Raises.ok _ _
  · exact Raises.raise rfl

theorem busCycle_raises (kind : CycleKind) (a : Access) (wdata : Datum) (av : Option Byte) (s : State) :
    Raises IsCycleTimeout (busCycle kind a wdata av s) := by
  refine Raises.bind ?_ fun _ s1 => Raises.bind ?_ fun _ s2 => Raises.bind ?_ fun seen s3 => ?_
  · unfold prePhase
    split
    · exact Raises.ok _ _
    · exact (preSync_raises _ _ _ _).mono fun r h => .inr (.inr (.inl h))
    · exact (preSync_raises _ _ _ _).mono fun r h => .inr (.inr (.inr h))
  · unfold synchronize
    split
    · exact Raises.ok _ _
    · unfold waitEdge
      split
      · exact Raises.ok _ _
      · exact Raises.raise (.inr (.inl rfl))
  · unfold phase3 waitAck
    split
    · exact Raises.ok _ _
    · split
      · exact Raises.ok _ _
      · exact Raises.raise (.inl rfl)
  · unfold phase4
    simp only
    split <;> exact Raises.ok _ _

theorem ackCycle_raises (addr : PhysAddr) (av : Option Byte) (s : State) :
    Raises IsCycleTimeout (ackCycle addr av s) :=
  (busCycle_raises _ _ _ _ _).bind fun _ _ => Raises.ok _ _

/-- The acknowledge FSMs raise only Timeout (41_bus_engine.md R235). -/
theorem ackFsm_raises (s : State) : Raises IsCycleTimeout (ackFsm s) := by
  unfold ackFsm
  split
  · exact Raises.ok _ _
  · exact ackCycle_raises _ _ _
  · exact (ackCycle_raises _ _ _).bind fun _ _ => ackCycle_raises _ _ _
  · exact ackCycle_raises _ _ _

/-- The reasons of address validation (20_memory.md R104). -/
def Info.isAddress : Info → Bool
  | .reservedAddressBits | .noIoSpace | .noBlanking | .noVsync | .noLanes | .misaligned => true
  | _ => false

theorem decodeAddr_error {c : Cfg} {la : Word} {e : Info} (h : c.decodeAddr la = .error e) : e.isAddress = true := by
  unfold Cfg.decodeAddr at h
  repeat' split at h
  all_goals (first | (cases h; rfl) | simp at h)

/-- What one access of a sequencer or a direct command raises, located by `f`. -/
def IsAccessError (f : Result → Result) (r : Result) : Prop :=
  ∃ r', r = f r' ∧ (IsCycleTimeout r' ∨ ∃ e, r' = Result.error .unimplemented e ∧ e.isAddress = true)

theorem seqRead_raises (la : Word) (table : TableTag) (i : Byte) (s : State) :
    Raises (IsAccessError (locate la table i)) (seqRead la table i s) := by
  unfold seqRead
  dsimp only
  split
  · rename_i e h
    exact Raises.raise ⟨_, rfl, .inr ⟨e, rfl, decodeAddr_error h⟩⟩
  · exact ((busCycle_raises _ _ _ _ _).onRaise fun r h => ⟨r, rfl, .inl h⟩).bind fun _ _ => Raises.ok _ _

theorem seqWrite_raises (la : Word) (v : Datum) (table : TableTag) (i : Byte) (s : State) :
    Raises (IsAccessError (locate la table i)) (seqWrite la v table i s) := by
  unfold seqWrite
  dsimp only
  split
  · rename_i e h
    exact Raises.raise ⟨_, rfl, .inr ⟨e, rfl, decodeAddr_error h⟩⟩
  · exact ((busCycle_raises _ _ _ _ _).onRaise fun r h => ⟨r, rfl, .inl h⟩).bind fun _ _ => Raises.ok _ _

theorem callBank_raises (table : TableTag) (i : Byte) (hasBank : Bool) (s : State) :
    Raises (fun r => ∃ code, code ≠ .success ∧ r = bankFailure code table i) (callBank table i hasBank s) := by
  unfold callBank
  split
  · simp only
    split
    · exact Raises.ok _ _
    · rename_i h
      exact Raises.raise ⟨_, h, rfl⟩
  · exact Raises.ok _ _

theorem directCycle_raises (kind : CycleKind) (addr : Word) (w : Access → Datum) (s : State) :
    Raises (IsAccessError (Result.atAddr addr)) (directCycle kind addr w s) := by
  unfold directCycle
  split
  · rename_i e h
    exact Raises.raise ⟨_, rfl, .inr ⟨e, rfl, decodeAddr_error h⟩⟩
  · exact (busCycle_raises _ _ _ _ _).onRaise fun r h => ⟨r, rfl, .inl h⟩

/-! ### The course of a part of a command -/

/-- No Abort among these events. -/
def NoAbort (es : List Event) : Prop := ∀ e ∈ es, e.isAbort = false

theorem NoAbort.append {es fs : List Event} (h : NoAbort es) (k : NoAbort fs) : NoAbort (es ++ fs) := by
  intro e he
  rcases List.mem_append.1 he with he | he
  · exact h e he
  · exact k e he

/-- What a raised record says of the events before it: an Abort stands last where it is an AckTimeout, and
nowhere else (60_exceptions.md R364). -/
def Precise (r : Result) (es : List Event) : Prop :=
  r.code ≠ .success ∧ r.info ≠ .none ∧ (r.info ≠ .ackTimeout → NoAbort es)
    ∧ (r.info = .ackTimeout → r.code = .timeout ∧
      ∃ fs kind space paddr w lane, es = fs ++ [.abort kind space paddr w lane .p3] ∧ NoAbort fs)

theorem Precise.after {r : Result} {es fs : List Event} (h : NoAbort es) (k : Precise r fs) : Precise r (es ++ fs) := by
  obtain ⟨k0, k1, k2, k3⟩ := k
  refine ⟨k0, k1, fun hi => h.append (k2 hi), fun hi => ⟨(k3 hi).1, ?_⟩⟩
  obtain ⟨-, gs, kind, space, paddr, w, lane, rfl, hg⟩ := k3 hi
  exact ⟨es ++ gs, kind, space, paddr, w, lane, by simp, h.append hg⟩

/-- How many of these events are completed cycles. -/
def cycles (es : List Event) : Nat := (es.filter Event.isCyc).length

@[simp] theorem cycles_append (es fs : List Event) : cycles (es ++ fs) = cycles es + cycles fs := by simp [cycles]

/-- The course of a part that was begun idle: it ends idle, leaves alone what is not its own, drives clocks and the
host mask as ruled, drives on the bus what its transactions say and nothing else, completes `n` cycles where it raises
nothing, and is precise where it raises. -/
structure Course {α : Type} (n : Nat) (s : State) (x : Res α) : Prop where
  within : Within s x.state
  engineIdle : x.state.EngineIdle
  ruled : ∀ a ∈ newActivity s x.state, maskAsRuled s.cfg a
  drives : busDrives (newActivity s x.state) = (newEvents s x.state).flatMap s.cfg.signalsOf
  completed : ∀ a t, x = .ok a t → NoAbort (newEvents s t) ∧ cycles (newEvents s t) = n
  raised : ∀ r t, x = .raise r t → Precise r (newEvents s t)

theorem newActivity_self (s : State) : newActivity s s = [] := by simp [newActivity]

theorem newEvents_self (s : State) : newEvents s s = [] := by simp [newEvents]

theorem Course.ok {α : Type} {s : State} (a : α) (h : s.EngineIdle) : Course 0 s (Res.ok a s) where
  within := Within.refl s
  engineIdle := h
  ruled := by simp [newActivity_self]
  drives := by simp [newActivity_self, newEvents_self, busDrives]
  completed := by rintro b t e; cases e; simp [newEvents_self, NoAbort, cycles]
  raised := by rintro r t e; cases e

theorem Course.raise {α : Type} {n : Nat} {s : State} {r : Result} (h : s.EngineIdle) (code : r.code ≠ .success)
    (info : r.info ≠ .none) (ack : r.info ≠ .ackTimeout) : Course n s (Res.raise r s : Res α) where
  within := Within.refl s
  engineIdle := h
  ruled := by simp [newActivity_self]
  drives := by simp [newActivity_self, newEvents_self, busDrives]
  completed := by rintro b t e; cases e
  raised := by
    rintro r' t e; cases e
    exact ⟨code, info, fun _ => by simp [newEvents_self, NoAbort], fun h => absurd h ack⟩

theorem Course.bind {α β : Type} {m n : Nat} {s : State} {x : Res α} {f : α → State → Res β} (hx : Course m s x)
    (hf : ∀ a t, x = .ok a t → t.EngineIdle → t.cfg = s.cfg → Course n t (f a t)) :
    Course (m + n) s (x.bind f) := by
  cases x with
  | raise r t =>
    refine ⟨hx.within, hx.engineIdle, hx.ruled, hx.drives, ?_, ?_⟩
    · intro b u e; cases e
    · intro r' u e; cases e; exact hx.raised r t rfl
  | ok a t =>
    have k := hf a t rfl hx.engineIdle hx.within.cfg
    obtain ⟨ha, hc⟩ := hx.completed a t rfl
    refine ⟨hx.within.trans k.within, k.engineIdle, ?_, ?_, ?_, ?_⟩
    · rw [Res.bind_ok, newActivity_trans hx.within.activity k.within.activity]
      intro b hb
      rcases List.mem_append.1 hb with hb | hb
      · exact hx.ruled b hb
      · exact hx.within.cfg ▸ k.ruled b hb
    · have hd := hx.drives
      rw [Res.state_ok] at hd
      rw [Res.bind_ok, newActivity_trans hx.within.activity k.within.activity,
        newEvents_trans hx.within.trace k.within.trace, busDrives_append, List.flatMap_append, Res.state_ok, hd,
        k.drives, show t.cfg = s.cfg from hx.within.cfg]
    · intro b u e
      obtain ⟨ka, kc⟩ := k.completed b u e
      have kw := k.within; rw [show (f a t).state = u by rw [show f a t = .ok b u from e]; rfl] at kw
      rw [newEvents_trans hx.within.trace kw.trace]
      exact ⟨ha.append ka, by simp [hc, kc]⟩
    · intro r u e
      have kw := k.within; rw [show (f a t).state = u by rw [show f a t = .raise r u from e]; rfl] at kw
      rw [newEvents_trans hx.within.trace kw.trace]
      exact (k.raised r u e).after ha

theorem Course.onRaise {α : Type} {n : Nat} {s : State} {x : Res α} {f : Result → Result} (hx : Course n s x)
    (code : ∀ r, (f r).code = r.code) (info : ∀ r, (f r).info = r.info) : Course n s (x.onRaise f) := by
  cases x with
  | ok a t => exact hx
  | raise r t =>
    refine ⟨hx.within, hx.engineIdle, hx.ruled, hx.drives, ?_, ?_⟩
    · rintro b u e; cases e
    · rintro r' u e
      cases e
      have h := hx.raised r t rfl
      unfold Precise at h ⊢
      rwa [code, info]

/-- A part begun after an update of the working registers. -/
theorem Course.after_work {α : Type} {n : Nat} {s : State} {x : Res α} (w : Work)
    (h : Course n { s with work := w } x) : Course n s x :=
  ⟨(work_within s w).trans h.within, h.engineIdle, h.ruled, h.drives, h.completed, h.raised⟩

/-- A part begun after an event that is no cycle. -/
theorem Course.after_within {α : Type} {n : Nat} {s t : State} {x : Res α} (hw : Within s t)
    (quiet : newActivity s t = []) (silent : (newEvents s t).flatMap s.cfg.signalsOf = [])
    (clean : NoAbort (newEvents s t)) (none : cycles (newEvents s t) = 0)
    (h : Course n t x) : Course n s x := by
  refine ⟨hw.trans h.within, h.engineIdle, ?_, ?_, ?_, ?_⟩
  · rw [newActivity_trans hw.activity h.within.activity, quiet]
    simpa [hw.cfg] using h.ruled
  · rw [newActivity_trans hw.activity h.within.activity, quiet, newEvents_trans hw.trace h.within.trace,
      List.flatMap_append, silent, List.nil_append, List.nil_append, h.drives, hw.cfg]
  · intro a u e
    have kw : Within t u := by have := h.within; rw [e] at this; exact this
    obtain ⟨ka, kc⟩ := h.completed a u e
    rw [newEvents_trans hw.trace kw.trace]
    exact ⟨clean.append ka, by simp [none, kc]⟩
  · intro r u e
    have kw : Within t u := by have := h.within; rw [e] at this; exact this
    rw [newEvents_trans hw.trace kw.trace]
    exact (h.raised r u e).after clean

theorem forEach_course {α : Type} {body : α → State → Res Unit} {c : Cfg} {f : α → Nat} (l : List α)
    (h : ∀ a ∈ l, ∀ s, s.EngineIdle → s.cfg = c → Course (f a) s (body a s)) {s : State} (hi : s.EngineIdle)
    (hc : s.cfg = c) : Course (l.map f).sum s (forEach body l s) := by
  induction l generalizing s with
  | nil => exact Course.ok () hi
  | cons a l ih =>
    rw [forEach_cons, List.map_cons, List.sum_cons]
    exact (h a (by simp) s hi hc).bind fun _ t _ ht hct =>
      ih (fun b hb => h b (by simp [hb])) ht (hct.trans hc)

/-- What phase 2 drives is no phase entry. -/
theorem phase2Drives_drives (c : Cfg) (kind : CycleKind) (space : Space) (paddr : PhysAddr) (lane : Lane) :
    (c.phase2Drives kind space paddr lane).filter (fun e => decide (e.2 ≠ .enter))
      = c.phase2Drives kind space paddr lane := by
  rw [List.filter_eq_self]
  intro e he
  unfold Cfg.phase2Drives at he
  split at he <;> simp only [List.map_append, List.mem_append, List.map_map, List.mem_map, List.map_cons, List.map_nil,
    List.mem_singleton, Function.comp_apply] at he
  · rcases he with rfl | rfl <;> rfl
  · rcases he with ⟨k, -, rfl⟩ | rfl <;> rfl

/-- The drives of a completed cycle are the signals of its event. -/
theorem cycleActs_drives (c : Cfg) (kind : CycleKind) (a : Access) (d : Datum) :
    (c.cycleActs kind a d).filter (fun e => decide (e.2 ≠ .enter))
      = c.signalsOf (.cyc kind a.space a.paddr a.w a.lane d) := by
  unfold Cfg.cycleActs Cfg.middleActs earlyEntries phase4Drives Cfg.signalsOf
  simp only [List.filter_append, List.filter_cons, List.cons_append, phase2Drives_drives]
  cases a.pre <;> cases kind <;> simp [phase4Drives]

/-- The drives of an aborted cycle are the signals of its event. -/
theorem abortActs_drives (c : Cfg) (kind : CycleKind) (a : Access) :
    (c.abortActs kind a).filter (fun e => decide (e.2 ≠ .enter))
      = c.signalsOf (.abort kind a.space a.paddr a.w a.lane .p3) := by
  unfold Cfg.abortActs Cfg.middleActs earlyEntries Cfg.signalsOf
  simp only [List.filter_append, List.filter_cons, List.cons_append, phase2Drives_drives]
  cases a.pre <;> simp

/-- The course of one bus cycle whose datum, where it writes one, fits its lanes. -/
theorem busCycle_course (kind : CycleKind) (a : Access) (wdata : Datum) (av : Option Byte) {s : State}
    (hi : s.EngineIdle) (hw : kind = .write → Driveable s.cfg a.w a.lane wdata) :
    Course 1 s (busCycle kind a wdata av s) := by
  rcases busCycle_spec kind a wdata av s hi.2.2 with ⟨d, t, e, hd, hdw⟩ | ⟨r, t, e, hf⟩
  · rw [e]
    refine ⟨hd.toWithin, hd.engineIdle, hd.ruled, ?_, ?_, ?_⟩
    · unfold busDrives
      rw [Res.state_ok, hd.acts fun h => hdw h ▸ hw h, newEvents_of_eq hd.event, cycleActs_drives]
      simp
    · rintro b u e'; cases e'
      rw [newEvents_of_eq hd.event]
      exact ⟨by simp [NoAbort, Event.isAbort], rfl⟩
    · rintro r u e'; cases e'
  · rw [e]
    refine ⟨hf.toWithin, hf.engineIdle, hf.ruled, ?_, ?_, ?_⟩
    · unfold busDrives
      rw [Res.state_raise]
      rcases hf.exit with ⟨-, -, ht, ha⟩ | ⟨ht, hr⟩
      · rw [ha, newEvents_of_eq ht, abortActs_drives]
        simp
      · rw [newEvents_of_eq (es := []) (by simpa using ht)]
        rcases hr with ⟨-, -, ha⟩ | ⟨-, ha⟩ <;> rw [ha]
        · unfold earlyEntries; cases a.pre <;> rfl
        · rfl
    · rintro b u e'; cases e'
    · rintro r' u e'; cases e'
      rcases hf.exit with ⟨rfl, -, ht, -⟩ | ⟨ht, hr⟩
      · rw [newEvents_of_eq ht]
        exact ⟨by decide, by decide, fun h => absurd rfl h, fun _ =>
          ⟨rfl, [], kind, a.space, a.paddr, a.w, a.lane, rfl, by simp [NoAbort]⟩⟩
      · rw [newEvents_of_eq (es := []) (by simpa using ht)]
        rcases hr with ⟨rfl, -⟩ | ⟨rfl | rfl, -⟩ <;>
          exact ⟨by decide, by decide, fun _ => by simp [NoAbort], fun h => absurd h (by decide)⟩

theorem ackCycle_course (addr : PhysAddr) (av : Option Byte) {s : State} (hi : s.EngineIdle) :
    Course 1 s (ackCycle addr av s) :=
  (busCycle_course _ _ _ _ hi (fun h => by cases h)).bind (n := 0) fun _ _ _ ht _ => Course.ok _ ht

/-- An access that passed validation drives what it is given, cut to its width, on its lanes (20_memory.md R81,
R103, R104). -/
theorem decodeAddr_driveable {c : Cfg} {la : Word} {a : Access} (h : c.decodeAddr la = .ok a) (v : Datum) :
    Driveable c a.w a.lane (a.w.cut v) := by
  have ha : a = c.accessOf la := by
    unfold Cfg.decodeAddr at h
    repeat' split at h
    all_goals cases h
    rfl
  subst ha
  have hb : c.busWidth = .two ∧ ¬ (c.accessOf la).w = .one → (c.accessOf la).lane = .both := by
    rintro ⟨h1, h2⟩
    revert h2
    simp only [Cfg.accessOf, Cfg.dataAccessWidth, h1]
    cases blBit la <;> simp
  have hl : c.busWidth = .one → (c.accessOf la).w = .one ∧ (c.accessOf la).lane = .low := by
    intro h1
    simp [Cfg.accessOf, Cfg.dataAccessWidth, h1]
  have low : ∀ d : Datum, (((d.extractLsb' 0 8).zeroExtend 16 : Datum).extractLsb' 0 8).zeroExtend 16
      = (d.extractLsb' 0 8).zeroExtend 16 := by
    intro d
    apply BitVec.eq_of_toNat_eq
    simp [BitVec.extractLsb'_toNat]
  have drive : ∀ (lane : Lane) (d : Datum) (other : Byte), lane ≠ .both →
      sampledDatum lane (drivenBus lane ((d.extractLsb' 0 8).zeroExtend 16) other)
        = (d.extractLsb' 0 8).zeroExtend 16 := by
    intro lane d other hne
    have ho := other.isLt
    have h1 := (((d.extractLsb' 0 8).zeroExtend 16 : Datum).extractLsb' 0 8).isLt
    cases lane
    · exact absurd rfl hne
    all_goals
      simp only [sampledDatum, drivenBus]
      apply BitVec.eq_of_toNat_eq
    · have := BitVec.toNat_append other (((d.extractLsb' 0 8).zeroExtend 16 : Datum).extractLsb' 0 8)
      rw [← Nat.shiftLeft_add_eq_or_of_lt h1, Nat.shiftLeft_eq] at this
      simp [BitVec.extractLsb'_toNat] at this ⊢
      omega
    · have := BitVec.toNat_append (((d.extractLsb' 0 8).zeroExtend 16 : Datum).extractLsb' 0 8) other
      rw [← Nat.shiftLeft_add_eq_or_of_lt ho, Nat.shiftLeft_eq] at this
      simp [BitVec.extractLsb'_toNat, Nat.shiftRight_eq_div_pow] at this ⊢
      omega
  unfold Driveable
  split
  · rename_i hw
    intro other
    rw [hw.2]
    refine drive _ v other ?_
    have h1 := hw.2
    revert h1
    simp only [Cfg.accessOf, Cfg.dataAccessWidth, hw.1]
    cases blBit la <;> cases c.byteOrder <;> cases la.getLsbD 0 <;> simp [laneOf]
  · rename_i hw
    cases hbw : c.busWidth with
    | one =>
      obtain ⟨h1, h2⟩ := hl hbw
      rw [h1, h2]
      exact low v
    | two =>
      have h1 : ¬ (c.accessOf la).w = .one := fun h => hw ⟨hbw, h⟩
      rw [hb ⟨hbw, h1⟩]
      rfl

theorem addressError_ne_ack {e : Info} (h : e.isAddress = true) : e ≠ .ackTimeout ∧ e ≠ .none := by
  cases e <;> simp_all [Info.isAddress]

theorem Calm.engineIdle {s t : State} (h : Calm s t) (hi : s.EngineIdle) : t.EngineIdle :=
  ⟨h.pins.trans hi.1, h.phase.trans hi.2.1, h.hostMask.trans hi.2.2⟩

/-- A part begun after samples. -/
theorem Course.after_calm {α : Type} {n : Nat} {s t : State} {x : Res α} (hi : s.EngineIdle) (hc : Calm s t)
    (h : Course n t x) : Course n s x := by
  have he : newEvents s t = [] := newEvents_of_eq (by simpa using hc.traceKept)
  refine ⟨hc.toWithin.trans h.within, h.engineIdle, ?_, ?_, ?_, ?_⟩
  · rw [newActivity_trans hc.activity h.within.activity]
    intro a ha
    rcases List.mem_append.1 ha with ha | ha
    · exact hc.ruled hi.maskRight a ha
    · exact hc.cfg ▸ h.ruled a ha
  · have hn : busDrives (newActivity s t) = [] := by unfold busDrives; rw [hc.noAct]; rfl
    rw [newActivity_trans hc.activity h.within.activity, newEvents_trans hc.trace h.within.trace, he,
      busDrives_append, hn, List.nil_append, List.nil_append, h.drives, hc.cfg]
  · intro a u e
    have kw : Within t u := by have := h.within; rw [e] at this; exact this
    rw [newEvents_trans hc.trace kw.trace, he]
    exact h.completed a u e
  · intro r u e
    have kw : Within t u := by have := h.within; rw [e] at this; exact this
    rw [newEvents_trans hc.trace kw.trace, he]
    exact h.raised r u e

/-- A part begun after a call of the address remap (R250). -/
theorem Course.after_addressRemap {α : Type} {n : Nat} (la : Word) (table : TableTag) (i : Byte) {s : State} {x : Res α}
    (hi : s.EngineIdle) (h : Course n (callAddressRemap la table i s).2 x) : Course n s x := by
  unfold callAddressRemap at h
  split at h
  · exact h
  · exact Course.after_calm hi (sampled_calm' s (.addressContext table i)) (Course.after_within (emit_within _ _)
      (by simp [newActivity]) (by simp [newEvents, Cfg.signalsOf]) (by simp [newEvents, NoAbort, Event.isAbort])
      (by simp [newEvents, cycles, Event.isCyc]) h)

/-- A part begun after a call of the data remap (R250, R251). -/
theorem Course.after_dataRemap {α : Type} {n : Nat} (la : Word) (d : Datum) (table : TableTag) (i : Byte) {s : State}
    {x : Res α} (hi : s.EngineIdle) (h : Course n (callDataRemap la d table i s).2 x) : Course n s x := by
  unfold callDataRemap at h
  split at h
  · exact h
  · exact Course.after_calm hi (sampled_calm' s (.dataContext table i)) (Course.after_within (emit_within _ _)
      (by simp [newActivity]) (by simp [newEvents, Cfg.signalsOf]) (by simp [newEvents, NoAbort, Event.isAbort])
      (by simp [newEvents, cycles, Event.isCyc]) h)

/-- The course of one sequencer read (42_rom_check.md R250). -/
theorem seqRead_course (la : Word) (table : TableTag) (i : Byte) {s : State} (hi : s.EngineIdle) :
    Course 1 s (seqRead la table i s) := by
  obtain ⟨-, -, -, -, ha⟩ := callAddressRemap_spec la table i s
  refine Course.after_addressRemap la table i hi ?_
  unfold seqRead
  dsimp only
  split
  · rename_i e h
    have he := addressError_ne_ack (decodeAddr_error h)
    exact Course.raise (ha hi) (fun h => by cases h) he.2 he.1
  · refine ((busCycle_course _ _ _ _ (ha hi) (fun h => by cases h)).onRaise (f := locate la table i) (fun _ => rfl)
      fun _ => rfl).bind (n := 0) fun d t _ ht _ => ?_
    obtain ⟨-, -, -, -, hd⟩ := callDataRemap_spec la d table i t
    exact Course.after_dataRemap la d table i ht (Course.ok _ (hd ht))

/-- The course of one sequencer write (42_rom_check.md R251). -/
theorem seqWrite_course (la : Word) (v : Datum) (table : TableTag) (i : Byte) {s : State} (hi : s.EngineIdle) :
    Course 1 s (seqWrite la v table i s) := by
  obtain ⟨-, -, hw, -, ha⟩ := callAddressRemap_spec la table i s
  obtain ⟨-, -, kw, -, hd⟩ := callDataRemap_spec la v table i (callAddressRemap la table i s).2
  refine Course.after_addressRemap la table i hi (Course.after_dataRemap la v table i (ha hi) ?_)
  unfold seqWrite
  dsimp only
  split
  · rename_i e h
    have he := addressError_ne_ack (decodeAddr_error h)
    exact Course.raise (hd (ha hi)) (fun h => by cases h) he.2 he.1
  · rename_i a h
    exact ((busCycle_course _ _ _ _ (hd (ha hi)) fun _ => (kw.cfg.trans hw.cfg) ▸ decodeAddr_driveable h _).onRaise
      (f := locate la table i) (fun _ => rfl) fun _ => rfl).bind (n := 0) fun _ t _ ht _ => Course.ok _ ht

/-- The course of a bank switch (42_rom_check.md R252). -/
theorem callBank_course (table : TableTag) (i : Byte) (hasBank : Bool) {s : State} (hi : s.EngineIdle) :
    Course 0 s (callBank table i hasBank s) := by
  unfold callBank
  split
  · simp only
    refine Course.after_within (emit_within s (.bank table i)) (by simp [newActivity])
      (by simp [newEvents, Cfg.signalsOf]) (by simp [newEvents, NoAbort, Event.isAbort]) (by simp [newEvents, cycles, Event.isCyc]) ?_
    have hs : (State.sampled (s.emit (.bank table i)) (.bankResult table i)).EngineIdle := hi
    refine Course.after_calm (s := s.emit (.bank table i)) hi (sampled_calm' (s.emit (.bank table i)) (.bankResult table i)) ?_
    split
    · exact Course.ok _ hs
    · rename_i h
      exact Course.raise hs h (by simp [bankFailure, Result.error, Result.inTable])
        (by simp [bankFailure, Result.error, Result.inTable])
  · exact Course.ok _ hi

/-- The course of an acknowledge (41_bus_engine.md R231 to R234). -/
theorem ackFsm_course {s : State} (hi : s.EngineIdle) : Course s.cfg.ackCycles s (ackFsm s) := by
  unfold ackFsm Cfg.ackCycles
  cases s.cfg.ackKind <;> simp only
  · exact Course.ok _ hi
  · exact ackCycle_course _ _ hi
  · exact (ackCycle_course _ _ hi).bind (n := 1) fun _ _ _ ht _ => ackCycle_course _ _ ht
  · exact Course.after_calm hi (sampled_calm' s _) (ackCycle_course _ _ hi)

theorem oneOf_course {α β : Type} {table : List α} {tag : TableTag} {idx : Byte} {pass : α → State → Res β}
    {n : Nat} {s : State} (hi : s.EngineIdle) (h : ∀ e, table[idx.toNat]? = some e → Course n s (pass e s)) :
    Course n s (oneOf table tag idx pass s) := by
  unfold oneOf
  cases he : table[idx.toNat]? with
  | none => exact Course.raise hi (fun h => by cases h) (fun h => by cases h) (fun h => by cases h)
  | some e => exact h e he

theorem fullSet_course {α : Type} {table : List α} {pass : Byte → α → State → Res Unit} {c : Cfg} {f : α → Nat}
    {s : State} (hi : s.EngineIdle) (hc : s.cfg = c)
    (h : ∀ r e t, t.EngineIdle → t.cfg = c → Course (f e) t (pass r e t)) :
    Course (table.map f).sum s (fullSet table pass s) := by
  have := forEach_course (f := fun e : α × Nat => f e.1) table.zipIdx
    (fun a _ t ht hct => h (BitVec.ofNat 8 a.2) a.1 t ht hct) hi hc
  have hm : (table.zipIdx.map fun e : α × Nat => f e.1) = table.map f := by
    rw [← List.zipIdx_map_fst 0 table, List.map_map]
    simp
  rw [hm] at this
  exact this

end Sys2Proof.Machine
end

