-- ==== Sys2Proof/Laws/Commands.lean ====
section
/-! SUPPORT. The course of every command but IDLE and CHECK, from an idle engine: its cycles, its events, its end. -/

namespace Sys2Proof.Machine

theorem Course.cast {α : Type} {m n : Nat} {s : State} {x : Res α} (h : Course m s x) (e : m = n) : Course n s x :=
  e ▸ h

/-! ### RomCheck -/

theorem romSampleStep_course (r : Byte) (rom : RomRegion) (k : Nat) {s : State} (hi : s.EngineIdle) :
    Course 1 s (romSampleStep r rom k s) := by
  unfold romSampleStep
  simp only
  refine Course.after_work (setExpected (s.cfg.romSample rom k)
    (setCell r (2 ^ k) ((s.cfg.romGeometry rom).cell (2 ^ k)) s)).work ?_
  refine (seqRead_course _ _ _ (s := setExpected (s.cfg.romSample rom k)
    (setCell r (2 ^ k) ((s.cfg.romGeometry rom).cell (2 ^ k)) s)) hi).bind (n := 0) fun d t _ ht _ => ?_
  refine Course.after_work (setActual d t).work ?_
  split
  · exact Course.ok (s := setActual d t) () ht
  · exact Course.raise (s := setActual d t) ht (fun h => by cases h) (fun h => by cases h) (fun h => by cases h)

theorem samplePass_course (r : Byte) (rom : RomRegion) {s : State} (hi : s.EngineIdle) :
    Course (sampleCount rom.length) s (samplePass r rom s) := by
  refine ((callBank_course .rom r rom.bankSwitch hi).bind (n := sampleCount rom.length)
    fun _ t _ ht _ => ?_).cast (by simp)
  exact (forEach_course (f := fun _ => 1) _ (fun k _ u hu _ => romSampleStep_course r rom k hu) ht rfl).cast
    (by simp)

theorem romCrcStep_course (r : Byte) (rom : RomRegion) (i : Nat) {s : State} (hi : s.EngineIdle) :
    Course 1 s (romCrcStep r rom i s) := by
  unfold romCrcStep
  simp only
  refine Course.after_work (setCell r i ((s.cfg.romGeometry rom).cell i) s).work ?_
  refine (seqRead_course _ _ _ (s := setCell r i ((s.cfg.romGeometry rom).cell i) s) hi).bind (n := 0) fun d t _ ht _ => ?_
  exact Course.after_work (setCrc (t.cfg.feed t.work.crc d (s.cfg.romGeometry rom).w) t).work
    (Course.ok (s := setCrc (t.cfg.feed t.work.crc d (s.cfg.romGeometry rom).w) t) () ht)

theorem crcPass_course (r : Byte) (rom : RomRegion) (compare : Bool) {s : State} (hi : s.EngineIdle) :
    Course rom.length s (crcPass r rom compare s) := by
  refine ((callBank_course .rom r rom.bankSwitch hi).bind (n := rom.length) fun _ t _ ht _ => ?_).cast (by simp)
  refine Course.after_work (setCrc t.cfg.crc.init t).work ?_
  refine ((forEach_course (f := fun _ => 1) (List.range rom.length)
    (fun k _ u hu _ => romCrcStep_course r rom k hu) (s := setCrc t.cfg.crc.init t) ht rfl).bind (n := 0)
    fun _ u _ hu _ => ?_).cast (by simp)
  split
  · exact Course.raise hu (fun h => by cases h) (fun h => by cases h) (fun h => by cases h)
  · exact Course.ok _ hu

theorem romRawStep_course (r : Byte) (rom : RomRegion) (i : Nat) {s : State} (hi : s.EngineIdle) :
    Course 1 s (romRawStep r rom i s) := by
  unfold romRawStep
  simp only
  refine Course.after_work (setCell r i ((s.cfg.romGeometry rom).cell i) s).work ?_
  exact (seqRead_course _ _ _ (s := setCell r i ((s.cfg.romGeometry rom).cell i) s) hi).bind (n := 0) fun d t _ ht _ => Course.ok () ht

theorem rawPass_course (r : Byte) (rom : RomRegion) {s : State} (hi : s.EngineIdle) :
    Course rom.length s (rawPass r rom s) := by
  refine ((callBank_course .rom r rom.bankSwitch hi).bind (n := rom.length) fun _ t _ ht _ => ?_).cast (by simp)
  exact (forEach_course (f := fun _ => 1) _ (fun k _ u hu _ => romRawStep_course r rom k hu) ht rfl).cast (by simp)

/-! ### RamCheck -/

theorem patternWriteStep_course (r : Byte) (g : Geometry) (inverted : Bool) (i : Nat) {s : State}
    (hi : s.EngineIdle) : Course 1 s (patternWriteStep r g inverted i s) :=
  Course.after_work (patternCell r g inverted i s).work
    (seqWrite_course _ _ _ _ (s := patternCell r g inverted i s) hi)

theorem compareCell_course (r : Byte) (la : Word) (m : Datum) (step : BitVec 2) (e d : Datum) {s : State}
    (hi : s.EngineIdle) : Course 0 s (compareCell r la m step e d s) := by
  refine Course.after_work (setActual d s).work ?_
  unfold compareCell
  split
  · exact Course.ok (s := setActual d s) () hi
  · exact Course.raise (s := setActual d s) hi (fun h => by cases h) (fun h => by cases h) (fun h => by cases h)

theorem patternReadStep_course (r : Byte) (g : Geometry) (m : Datum) (inverted : Bool) (step : BitVec 2) (i : Nat)
    {s : State} (hi : s.EngineIdle) : Course 1 s (patternReadStep r g m inverted step i s) := by
  refine Course.after_work (patternCell r g inverted i s).work ?_
  exact (seqRead_course _ _ _ (s := patternCell r g inverted i s) hi).bind (n := 0) fun d t _ ht _ =>
    compareCell_course _ _ _ _ _ _ ht

theorem writePattern_course (r : Byte) (g : Geometry) (inverted : Bool) (seed : Word) {s : State}
    (hi : s.EngineIdle) : Course g.count s (writePattern r g inverted seed s) := by
  refine Course.after_work (setRng seed s).work ?_
  exact (forEach_course (f := fun _ => 1) (List.range g.count)
    (fun k _ u hu _ => patternWriteStep_course r g inverted k hu) (s := setRng seed s) hi rfl).cast (by simp)

theorem verifyPattern_course (r : Byte) (g : Geometry) (m : Datum) (inverted : Bool) (step : BitVec 2) (seed : Word)
    {s : State} (hi : s.EngineIdle) : Course g.count s (verifyPattern r g m inverted step seed s) := by
  refine Course.after_work (setRng seed s).work ?_
  exact (forEach_course (f := fun _ => 1) (List.range g.count)
    (fun k _ u hu _ => patternReadStep_course r g m inverted step k hu) (s := setRng seed s) hi rfl).cast (by simp)

theorem marchPass_course (r : Byte) (g : Geometry) (m : Datum) (seed : Word) (pass : BitVec 2) (inverted : Bool)
    {s : State} (hi : s.EngineIdle) : Course (g.count + g.count) s (marchPass r g m seed pass inverted s) :=
  Course.after_work (setPass pass s).work
    ((writePattern_course r g inverted seed (s := setPass pass s) hi).bind fun _ _ _ ht _ =>
      verifyPattern_course r g m inverted pass seed ht)

theorem marchRegion_course (r : Byte) (seed : Word) (ram : RamRegion) {s : State} (hi : s.EngineIdle) :
    Course (4 * (s.cfg.ramGeometry ram).count) s (marchRegion r seed ram s) := by
  refine ((callBank_course .ram r ram.bankSwitch hi).bind fun _ t _ ht _ =>
    (marchPass_course r _ _ seed 1 false ht).bind fun _ u _ hu _ => marchPass_course r _ _ seed 2 true hu).cast ?_
  omega

theorem crossWrite_course (seed : Word) (r : Byte) (ram : RamRegion) {s : State} (hi : s.EngineIdle) :
    Course (s.cfg.ramGeometry ram).count s (crossWrite seed r ram s) :=
  ((callBank_course .ram r ram.bankSwitch hi).bind fun _ _ _ ht _ => writePattern_course r _ false _ ht).cast
    (by simp)

theorem crossVerify_course (seed : Word) (r : Byte) (ram : RamRegion) {s : State} (hi : s.EngineIdle) :
    Course (s.cfg.ramGeometry ram).count s (crossVerify seed r ram s) :=
  ((callBank_course .ram r ram.bankSwitch hi).bind fun _ _ _ ht _ => verifyPattern_course r _ _ false 0 _ ht).cast
    (by simp)

theorem fixedWriteStep_course (r : Byte) (g : Geometry) (v : Datum) (i : Nat) {s : State} (hi : s.EngineIdle) :
    Course 1 s (fixedWriteStep r g v i s) :=
  Course.after_work (setExpected v (setCell r i (g.cell i) s)).work
    (seqWrite_course _ _ _ _ (s := setExpected v (setCell r i (g.cell i) s)) hi)

theorem boundaryReadStep_course (r : Byte) (g : Geometry) (m : Datum) (j q : Nat) {s : State} (hi : s.EngineIdle) :
    Course 1 s (boundaryReadStep r g m j q s) := by
  unfold boundaryReadStep
  simp only
  refine Course.after_work (setExpected (if q = j then m else 0) (setCell r q (g.cell q) s)).work ?_
  refine (seqRead_course _ _ _ (s := setExpected (if q = j then m else 0) (setCell r q (g.cell q) s)) hi).bind (n := 0)
    fun d t _ ht _ => ?_
  refine Course.after_work (setActual d t).work ?_
  generalize (if q = j then m else 0) = e
  split
  · exact Course.ok (s := setActual d t) () ht
  · exact Course.raise (s := setActual d t) ht (fun h => by cases h) (fun h => by cases h) (fun h => by cases h)

theorem boundaryStep_course (r : Byte) (g : Geometry) (m : Datum) (j : Nat) {s : State} (hi : s.EngineIdle) :
    Course ((boundaryCells g.count).length + 2) s (boundaryStep r g m j s) := by
  refine ((fixedWriteStep_course r g m j hi).bind fun _ t _ ht _ =>
    (forEach_course (f := fun _ => 1) (boundaryCells g.count)
      (fun q _ u hu _ => boundaryReadStep_course r g m j q hu) ht rfl).bind fun _ u _ hu _ =>
        fixedWriteStep_course r g 0 j hu).cast ?_
  simp; omega

theorem boundaryRegion_course (r : Byte) (ram : RamRegion) {s : State} (hi : s.EngineIdle) :
    Course ((boundaryCells (s.cfg.ramGeometry ram).count).length
      * ((boundaryCells (s.cfg.ramGeometry ram).count).length + 3)) s (boundaryRegion r ram s) := by
  refine ((callBank_course .ram r ram.bankSwitch hi).bind fun _ t _ ht _ =>
    (forEach_course (f := fun _ => 1) _ (fun q _ u hu _ => fixedWriteStep_course r _ 0 q hu) ht rfl).bind
      fun _ u _ hu _ => forEach_course (f := fun _ => (boundaryCells (s.cfg.ramGeometry ram).count).length + 2) _
        (fun j _ v hv _ => boundaryStep_course r _ _ j hv) hu rfl).cast ?_
  simp; ring

theorem fillRegion_course (r : Byte) (value : Datum) (ram : RamRegion) {s : State} (hi : s.EngineIdle) :
    Course (s.cfg.ramGeometry ram).count s (fillRegion r value ram s) :=
  ((callBank_course .ram r ram.bankSwitch hi).bind fun _ _ _ ht _ =>
    forEach_course (f := fun _ => 1) _ (fun q _ u hu _ => fixedWriteStep_course r _ _ q hu) ht rfl).cast (by simp)

theorem ramRawStep_course (r : Byte) (g : Geometry) (i : Nat) {s : State} (hi : s.EngineIdle) :
    Course 1 s (ramRawStep r g i s) :=
  Course.after_work (setCell r i (g.cell i) s).work
    ((seqRead_course _ _ _ (s := setCell r i (g.cell i) s) hi).bind (n := 0) fun _ _ _ ht _ => Course.ok () ht)

theorem readRegion_course (r : Byte) (ram : RamRegion) {s : State} (hi : s.EngineIdle) :
    Course (s.cfg.ramGeometry ram).count s (readRegion r ram s) :=
  ((callBank_course .ram r ram.bankSwitch hi).bind fun _ _ _ ht _ =>
    forEach_course (f := fun _ => 1) _ (fun q _ u hu _ => ramRawStep_course r _ q hu) ht rfl).cast (by simp)

/-! ### IoCheck and the Interrupt check -/

theorem inputEntry_course (idx : Byte) (e : InputEntry) {s : State} (hi : s.EngineIdle) :
    Course 1 s (inputEntry idx e s) :=
  ((callBank_course .input idx e.bankSwitch hi).bind fun _ t _ ht _ =>
    Course.after_work (setLa e.address t).work
      ((seqRead_course _ _ _ (s := setLa e.address t) ht).bind (n := 0) fun d u _ hu _ =>
        Course.after_work (setActual d u).work (Course.ok (s := setActual d u) _ hu))).cast (by simp)

theorem outputEntry_course (idx : Byte) (active : Bool) (e : OutputEntry) {s : State} (hi : s.EngineIdle) :
    Course 1 s (outputEntry idx active e s) :=
  ((callBank_course .output idx e.bankSwitch hi).bind fun _ t _ ht _ =>
    Course.after_work (setExpected (t.cfg.outValue e active) (setLa e.address t)).work
      (seqWrite_course _ _ _ _ (s := setExpected (t.cfg.outValue e active) (setLa e.address t)) ht)).cast (by simp)

theorem vectorStep_course (idx : Byte) (extVec : Bool) (vector : Byte) {s : State} (hi : s.EngineIdle) :
    Course (if extVec then s.cfg.ackCycles else 0) s (vectorStep idx extVec vector s) := by
  unfold vectorStep
  cases extVec with
  | false => exact Course.ok 0 hi
  | true =>
    simp only [if_true]
    split
    · exact Course.raise hi (fun h => by cases h) (fun h => by cases h) (fun h => by cases h)
    · refine (((ackFsm_course hi).onRaise (f := atLineStep idx 2) (fun _ => rfl) fun _ => rfl).bind (n := 0)
        fun v t _ ht _ => ?_).cast (by simp)
      split
      · exact Course.ok v ht
      · exact Course.raise ht (fun h => by cases h) (fun h => by cases h) (fun h => by cases h)

theorem clearStep_course (idx : Byte) (l : Line) (v : Byte) {s : State} (hi : s.EngineIdle) :
    Course 0 s (clearStep idx l v s) := by
  have hc := waitLine_calm l true 0 s
  unfold clearStep
  rcases h : waitLine l true 0 s with ⟨_ | _, t⟩ <;> rw [h] at hc <;> refine Course.after_calm hi hc ?_
  · exact Course.ok _ (hc.engineIdle hi)
  · exact Course.raise (hc.engineIdle hi) (fun h => by cases h) (fun h => by cases h) (fun h => by cases h)

theorem interruptSteps_course (idx : Byte) (l : Line) (extVec : Bool) (timeout : Word) (vector : Byte) {s : State}
    (hi : s.EngineIdle) :
    Course (if extVec then s.cfg.ackCycles else 0) s (interruptSteps idx l extVec timeout vector s) := by
  refine Course.after_work (setStep 1 s).work ?_
  have hc := waitLine_calm l true timeout (setStep 1 s)
  have hs : (setStep 1 s).EngineIdle := hi
  unfold interruptSteps
  rcases h : waitLine l true timeout (setStep 1 s) with ⟨_ | _, t⟩ <;> rw [h] at hc <;>
    refine Course.after_calm hs hc ?_
  · exact Course.raise (hc.engineIdle hs) (fun h => by cases h) (fun h => by cases h) (fun h => by cases h)
  · have ht : (setStep 2 t).EngineIdle := hc.engineIdle hs
    refine Course.after_work (setStep 2 t).work ?_
    refine ((vectorStep_course idx extVec vector ht).bind (n := 0) fun v u _ hu _ => ?_).cast ?_
    · exact Course.after_work (setStep 3 u).work (clearStep_course idx l v (s := setStep 3 u) hu)
    · have : t.cfg = s.cfg := hc.cfg
      simp [this]

/-! ### Every command -/

theorem directCycle_course (kind : CycleKind) (addr : Word) (w : Access → Datum) {s : State} (hi : s.EngineIdle)
    (hw : kind = .write → ∀ a, ∃ v, w a = a.w.cut v) : Course 1 s (directCycle kind addr w s) := by
  unfold directCycle
  split
  · rename_i e h
    have he := addressError_ne_ack (decodeAddr_error h)
    exact Course.raise hi (fun h => by cases h) he.2 he.1
  · rename_i a h
    refine (busCycle_course _ _ _ _ hi fun hk => ?_).onRaise (f := Result.atAddr addr) (fun _ => rfl) fun _ => rfl
    obtain ⟨v, hv⟩ := hw hk a
    exact hv ▸ decodeAddr_driveable h v

/-- A command that raises nothing reports Success and no reason (60_exceptions.md R350). -/
def Completes (x : Res Result) : Prop := ∀ r t, x = .ok r t → r.code = .success ∧ r.info = .none

theorem Completes.ok {r : Result} (s : State) (code : r.code = .success) (info : r.info = .none) :
    Completes (.ok r s) := by
  rintro r' t e; cases e; exact ⟨code, info⟩

theorem Completes.raise (r : Result) (s : State) : Completes (.raise r s) := by
  rintro r' t e; cases e

theorem Completes.bind {α : Type} {x : Res α} {f : α → State → Res Result} (h : ∀ a t, Completes (f a t)) :
    Completes (x.bind f) := by
  cases x with
  | ok a t => exact h a t
  | raise r t => exact Completes.raise r t

/-- INTCHK's steps report Success where they raise nothing (44_io_interrupt_check.md R323). -/
theorem interruptSteps_completes (idx : Byte) (l : Line) (extVec : Bool) (timeout : Word) (vector : Byte) (s : State) :
    Completes (interruptSteps idx l extVec timeout vector s) := by
  unfold interruptSteps
  split
  · exact Completes.raise _ _
  · refine Completes.bind fun v t => ?_
    unfold clearStep
    split
    · exact Completes.raise _ _
    · exact Completes.ok _ rfl rfl

/-- A command other than IDLE, issued while not idled, is refused (60_exceptions.md R373). -/
theorem exec_refused {i : Instr} {s : State} (h : s.idled = false) (n1 : i ≠ .idle) :
    exec i s = .next (refuse .notIdled s) := by
  cases i with
  | idle => exact absurd rfl n1
  | check => simp [exec, execCheck, h]
  | _ =>
    simp only [exec, execBusw, execAccw, execMrd, execMwr, execWint, execIack, execRomall, execRomchk, execRomraw,
      execRomcrc, execRammarch, execRamcs, execRamaddr, execRamfill, execRamread, execIoin, execIoout, execIntchk]
    exact guarded_of_not_idled h _

/-- Every command but IDLE and CHECK, from an idle engine: a body whose course has the command's cycle count, then the
command's end. Where the body raises nothing its record is a Success. -/
theorem exec_course (i : Instr) {s : State} (h : s.idled = true) (hi : s.EngineIdle) (n1 : i ≠ .idle)
    (n2 : i ≠ .check) : ∃ x : Res Result, exec i s = .next (complete x) ∧ Course (s.cfg.cycleCount i) s x ∧ Completes x := by
  cases i with
  | idle => exact absurd rfl n1
  | check => exact absurd rfl n2
  | busw addr =>
    simp only [exec, execBusw, guarded_of_idled h]
    exact ⟨_, rfl, Course.ok _ hi, Completes.ok _ rfl rfl⟩
  | accw addr =>
    simp only [exec, execAccw, guarded_of_idled h]
    exact ⟨_, rfl, Course.ok _ hi, Completes.ok _ rfl rfl⟩
  | mrd addr =>
    simp only [exec, execMrd, guarded_of_idled h]
    exact ⟨_, rfl, (directCycle_course _ _ _ hi (fun h => by cases h)).bind (n := 0) fun _ _ _ ht _ => Course.ok _ ht,
      Completes.bind fun _ u => Completes.ok u rfl rfl⟩
  | mwr addr data =>
    simp only [exec, execMwr, guarded_of_idled h]
    exact ⟨_, rfl, (directCycle_course _ _ _ hi fun _ _ => ⟨data, rfl⟩).bind (n := 0) fun _ _ _ ht _ => Course.ok _ ht,
      Completes.bind fun _ u => Completes.ok u rfl rfl⟩
  | wint line level timeout =>
    simp only [exec, execWint, guarded_of_idled h]
    refine ⟨_, rfl, ?_, ?_⟩
    rotate_left
    · split
      · exact Completes.raise _ _
      · split
        · exact Completes.ok _ rfl rfl
        · exact Completes.raise _ _
    cases hl : s.cfg.lineAt line with
    | none => exact Course.raise hi (fun h => by cases h) (fun h => by cases h) (fun h => by cases h)
    | some l =>
      have hc := waitLine_calm l level timeout s
      rcases hw : waitLine l level timeout s with ⟨_ | _, t⟩ <;> rw [hw] at hc <;> simp only [hw] <;>
        refine Course.after_calm hi hc ?_
      · exact Course.raise (hc.engineIdle hi) (fun h => by cases h) (fun h => by cases h) (fun h => by cases h)
      · exact Course.ok _ (hc.engineIdle hi)
  | iack =>
    simp only [exec, execIack, guarded_of_idled h]
    exact ⟨_, rfl, (ackFsm_course hi).bind (n := 0) fun _ _ _ ht _ => Course.ok _ ht,
      Completes.bind fun _ u => Completes.ok u rfl rfl⟩
  | romall =>
    simp only [exec, execRomall, guarded_of_idled h]
    refine ⟨_, rfl, Course.bind (n := 0) ?_ fun _ _ _ ht _ => Course.ok _ ht,
      Completes.bind fun _ u => Completes.ok u rfl rfl⟩
    exact fullSet_course hi rfl fun r e t ht _ => (samplePass_course r e ht).bind fun _ u _ hu _ =>
      (crcPass_course r e true hu).bind (n := 0) fun _ _ _ hv _ => Course.ok () hv
  | romchk region =>
    simp only [exec, execRomchk, guarded_of_idled h]
    refine ⟨_, rfl, Course.bind (n := 0) ?_ fun _ _ _ ht _ => Course.ok _ ht,
      Completes.bind fun _ u => Completes.ok u rfl rfl⟩
    exact oneOf_course hi fun e he => ((samplePass_course region e hi).bind fun _ u _ hu _ =>
      crcPass_course region e true hu).cast (by simp [he])
  | romraw =>
    simp only [exec, execRomraw, guarded_of_idled h]
    refine ⟨_, rfl, Course.bind (n := 0) ?_ fun _ _ _ ht _ => Course.ok _ ht,
      Completes.bind fun _ u => Completes.ok u rfl rfl⟩
    exact fullSet_course hi rfl fun r e t ht _ => rawPass_course r e ht
  | romcrc region =>
    simp only [exec, execRomcrc, guarded_of_idled h]
    refine ⟨_, rfl, Course.bind (n := 0) ?_ fun _ _ _ ht _ => Course.ok _ ht,
      Completes.bind fun _ u => Completes.ok u rfl rfl⟩
    exact oneOf_course hi fun e he => (crcPass_course region e false hi).cast (by simp [he])
  | rammarch region seed =>
    simp only [exec, execRammarch, guarded_of_idled h]
    refine ⟨_, rfl, Course.bind (n := 0) ?_ fun _ _ _ ht _ => Course.ok _ ht,
      Completes.bind fun _ u => Completes.ok u rfl rfl⟩
    exact oneOf_course hi fun e he => (marchRegion_course region seed e hi).cast (by simp [he])
  | ramcs seed =>
    simp only [exec, execRamcs, guarded_of_idled h]
    refine ⟨_, rfl, ?_, Completes.bind fun _ _ => Completes.bind fun _ u => Completes.ok u rfl rfl⟩
    refine ((fullSet_course (f := fun ram => (s.cfg.ramGeometry ram).count) hi rfl fun r e t ht hc =>
      (crossWrite_course seed r e ht).cast (by rw [hc])).bind fun _ u _ hu hc => ?_).cast
        (n := (s.cfg.ramTable.map fun ram => (s.cfg.ramGeometry ram).count).sum
          + ((s.cfg.ramTable.map fun ram => (s.cfg.ramGeometry ram).count).sum + 0)) rfl |>.cast ?_
    · rw [hc]
      exact (fullSet_course (c := s.cfg) (f := fun ram => (s.cfg.ramGeometry ram).count) hu hc fun r e t ht hct =>
        (crossVerify_course seed r e ht).cast (by rw [hct])).bind (n := 0) fun _ _ _ hv _ => Course.ok _ hv
    · simp only [Cfg.cycleCount]
      rw [List.sum_map_mul_left]
      omega
  | ramaddr region =>
    simp only [exec, execRamaddr, guarded_of_idled h]
    refine ⟨_, rfl, Course.bind (n := 0) ?_ fun _ _ _ ht _ => Course.ok _ ht,
      Completes.bind fun _ u => Completes.ok u rfl rfl⟩
    exact oneOf_course hi fun e he => (boundaryRegion_course region e hi).cast (by simp [he])
  | ramfill region value =>
    simp only [exec, execRamfill, guarded_of_idled h]
    refine ⟨_, rfl, Course.bind (n := 0) ?_ fun _ _ _ ht _ => Course.ok _ ht,
      Completes.bind fun _ u => Completes.ok u rfl rfl⟩
    exact oneOf_course hi fun e he => (fillRegion_course region value e hi).cast (by simp [he])
  | ramread region =>
    simp only [exec, execRamread, guarded_of_idled h]
    refine ⟨_, rfl, Course.bind (n := 0) ?_ fun _ _ _ ht _ => Course.ok _ ht,
      Completes.bind fun _ u => Completes.ok u rfl rfl⟩
    exact oneOf_course hi fun e he => (readRegion_course region e hi).cast (by simp [he])
  | ioin input =>
    simp only [exec, execIoin, guarded_of_idled h]
    refine ⟨_, rfl, Course.bind (n := 0) (oneOf_course hi fun e _ => inputEntry_course input e hi)
      fun _ _ _ ht _ => Course.ok _ ht, Completes.bind fun _ u => Completes.ok u rfl rfl⟩
  | ioout output active =>
    simp only [exec, execIoout, guarded_of_idled h]
    refine ⟨_, rfl, Course.bind (n := 0) (oneOf_course hi fun e _ => outputEntry_course output active e hi)
      fun _ _ _ ht _ => Course.ok _ ht, Completes.bind fun _ u => Completes.ok u rfl rfl⟩
  | intchk line extVec timeout vector =>
    simp only [exec, execIntchk, guarded_of_idled h]
    refine ⟨_, rfl, ?_, ?_⟩
    rotate_left
    · split
      · exact Completes.raise _ _
      · exact interruptSteps_completes _ _ _ _ _ _
    cases hl : s.cfg.lineAt line with
    | none => exact Course.raise hi (fun h => by cases h) (fun h => by cases h) (fun h => by cases h)
    | some l => exact interruptSteps_course _ _ _ _ _ hi

end Sys2Proof.Machine
end

