-- ==== Sys2Proof/Laws/PerInstr.lean ====
section
/-! SUPPORT. The fields of an encoded frame (30_encoding.md R110, R111), and for each command that its frame is legal: a row of R114, `RSV` zero, and every field the row marks 0 zero (R115). -/

namespace Sys2Proof

/-! ### The fields of a frame made from fields -/

theorem toNat_append_eq {m n : Nat} (x : BitVec m) (y : BitVec n) : (x ++ y).toNat = 2 ^ n * x.toNat + y.toNat := by
  rw [BitVec.toNat_append, ← Nat.shiftLeft_add_eq_or_of_lt y.isLt, Nat.shiftLeft_eq, Nat.mul_comm]

theorem frameOf_toNat (op idx : Byte) (b : Bool) (x y : Word) :
    (frameOf op idx b x y).toNat
      = op.toNat + 2 ^ 8 * (idx.toNat + 2 ^ 8 * (b.toNat + 2 ^ 16 * (x.toNat + 2 ^ 32 * y.toNat))) := by
  simp only [frameOf, toNat_append_eq, BitVec.toNat_ofBool, BitVec.toNat_ofNat]
  omega

@[simp] theorem opField_frameOf (op idx : Byte) (b : Bool) (x y : Word) : opField (frameOf op idx b x y) = op := by
  apply BitVec.eq_of_toNat_eq
  have := op.isLt
  simp only [opField, BitVec.extractLsb'_toNat, frameOf_toNat, Nat.shiftRight_eq_div_pow]
  omega

@[simp] theorem idxField_frameOf (op idx : Byte) (b : Bool) (x y : Word) : idxField (frameOf op idx b x y) = idx := by
  apply BitVec.eq_of_toNat_eq
  have := op.isLt
  have := idx.isLt
  simp only [idxField, BitVec.extractLsb'_toNat, frameOf_toNat, Nat.shiftRight_eq_div_pow]
  omega

@[simp] theorem bField_frameOf (op idx : Byte) (b : Bool) (x y : Word) : bField (frameOf op idx b x y) = b := by
  have := op.isLt
  have := idx.isLt
  have : b.toNat < 2 := by cases b <;> decide
  unfold bField
  rw [← BitVec.testBit_toNat, frameOf_toNat, Nat.testBit_eq_decide_div_mod_eq]
  cases b <;> simp <;> omega

@[simp] theorem rsvField_frameOf (op idx : Byte) (b : Bool) (x y : Word) : rsvField (frameOf op idx b x y) = 0#15 := by
  apply BitVec.eq_of_toNat_eq
  have := op.isLt
  have := idx.isLt
  have : b.toNat < 2 := by cases b <;> decide
  simp only [rsvField, BitVec.extractLsb'_toNat, frameOf_toNat, Nat.shiftRight_eq_div_pow, BitVec.toNat_ofNat]
  omega

@[simp] theorem xField_frameOf (op idx : Byte) (b : Bool) (x y : Word) : xField (frameOf op idx b x y) = x := by
  apply BitVec.eq_of_toNat_eq
  have := op.isLt
  have := idx.isLt
  have := x.isLt
  have : b.toNat < 2 := by cases b <;> decide
  simp only [xField, BitVec.extractLsb'_toNat, frameOf_toNat, Nat.shiftRight_eq_div_pow]
  omega

@[simp] theorem yField_frameOf (op idx : Byte) (b : Bool) (x y : Word) : yField (frameOf op idx b x y) = y := by
  apply BitVec.eq_of_toNat_eq
  have := op.isLt
  have := idx.isLt
  have := x.isLt
  have := y.isLt
  have : b.toNat < 2 := by cases b <;> decide
  simp only [yField, BitVec.extractLsb'_toNat, frameOf_toNat, Nat.shiftRight_eq_div_pow]
  omega

@[simp] theorem yDatum_frameOf (op idx : Byte) (b : Bool) (x y : Word) :
    yDatum (frameOf op idx b x y) = y.extractLsb' 0 16 := by
  apply BitVec.eq_of_toNat_eq
  have := op.isLt
  have := idx.isLt
  have := x.isLt
  have : b.toNat < 2 := by cases b <;> decide
  simp only [yDatum, BitVec.extractLsb'_toNat, frameOf_toNat, Nat.shiftRight_eq_div_pow]
  omega

@[simp] theorem yByte_frameOf (op idx : Byte) (b : Bool) (x y : Word) :
    yByte (frameOf op idx b x y) = y.extractLsb' 0 8 := by
  apply BitVec.eq_of_toNat_eq
  have := op.isLt
  have := idx.isLt
  have := x.isLt
  have : b.toNat < 2 := by cases b <;> decide
  simp only [yByte, BitVec.extractLsb'_toNat, frameOf_toNat, Nat.shiftRight_eq_div_pow]
  omega

end Sys2Proof

/-! ### Every command's frame is legal -/

/-- A frame fills a row of R114: its opcode is the row's, `RSV` is zero, and so is every field the row marks 0. -/
def Sys2Proof.Laws.EncodedFields.Fills (f : Sys2Proof.Frame) (row : Sys2Proof.OpcodeRow) : Prop :=
  Sys2Proof.opcodeRow (Sys2Proof.opField f) = some row ∧ Sys2Proof.rsvField f = 0#15
    ∧ (row.usesIdx = false → Sys2Proof.idxField f = 0) ∧ (row.usesB = false → Sys2Proof.bField f = false)
    ∧ (row.usesX = false → Sys2Proof.xField f = 0) ∧ (Sys2Proof.yField f).toNat < 2 ^ row.yBits

/-- The frame of the command fills a row of R114. -/
def Sys2Proof.Laws.EncodedFields.Statement (i : Sys2Proof.Instr) : Prop :=
  ∃ row, Sys2Proof.Laws.EncodedFields.Fills (Sys2Proof.encode i) row

/-- A frame made from fields fills the row of its opcode where the fields the row marks 0 are 0. -/
theorem Sys2Proof.Laws.EncodedFields.of_fields {op idx : Sys2Proof.Byte} {b : Bool} {x y : Sys2Proof.Word}
    {row : Sys2Proof.OpcodeRow} (hrow : Sys2Proof.opcodeRow op = some row) (hidx : row.usesIdx = false → idx = 0)
    (hb : row.usesB = false → b = false) (hx : row.usesX = false → x = 0) (hy : y.toNat < 2 ^ row.yBits) :
    Sys2Proof.Laws.EncodedFields.Fills (Sys2Proof.frameOf op idx b x y) row := by
  simpa [Sys2Proof.Laws.EncodedFields.Fills] using ⟨hrow, hidx, hb, hx, hy⟩

theorem Sys2Proof.Laws.EncodedFields.idle : Sys2Proof.Laws.EncodedFields.Statement .idle :=
  ⟨_, Sys2Proof.Laws.EncodedFields.of_fields rfl (by simp) (by simp) (by simp) (by decide)⟩

theorem Sys2Proof.Laws.EncodedFields.check : Sys2Proof.Laws.EncodedFields.Statement .check :=
  ⟨_, Sys2Proof.Laws.EncodedFields.of_fields rfl (by simp) (by simp) (by simp) (by decide)⟩

theorem Sys2Proof.Laws.EncodedFields.busw (addr : Sys2Proof.Word) :
    Sys2Proof.Laws.EncodedFields.Statement (.busw addr) :=
  ⟨_, Sys2Proof.Laws.EncodedFields.of_fields rfl (by simp) (by simp) (by simp) (by decide)⟩

theorem Sys2Proof.Laws.EncodedFields.accw (addr : Sys2Proof.Word) :
    Sys2Proof.Laws.EncodedFields.Statement (.accw addr) :=
  ⟨_, Sys2Proof.Laws.EncodedFields.of_fields rfl (by simp) (by simp) (by simp) (by decide)⟩

theorem Sys2Proof.Laws.EncodedFields.mrd (addr : Sys2Proof.Word) :
    Sys2Proof.Laws.EncodedFields.Statement (.mrd addr) :=
  ⟨_, Sys2Proof.Laws.EncodedFields.of_fields rfl (by simp) (by simp) (by simp) (by decide)⟩

theorem Sys2Proof.Laws.EncodedFields.mwr (addr : Sys2Proof.Word) (data : Sys2Proof.Datum) :
    Sys2Proof.Laws.EncodedFields.Statement (.mwr addr data) :=
  ⟨_, Sys2Proof.Laws.EncodedFields.of_fields rfl (by simp) (by simp) (by simp) (by have := data.isLt; simp; omega)⟩

theorem Sys2Proof.Laws.EncodedFields.wint (line : Sys2Proof.Byte) (level : Bool) (timeout : Sys2Proof.Word) :
    Sys2Proof.Laws.EncodedFields.Statement (.wint line level timeout) :=
  ⟨_, Sys2Proof.Laws.EncodedFields.of_fields rfl (by simp) (by simp) (by simp) (by decide)⟩

theorem Sys2Proof.Laws.EncodedFields.iack : Sys2Proof.Laws.EncodedFields.Statement .iack :=
  ⟨_, Sys2Proof.Laws.EncodedFields.of_fields rfl (by simp) (by simp) (by simp) (by decide)⟩

theorem Sys2Proof.Laws.EncodedFields.romall : Sys2Proof.Laws.EncodedFields.Statement .romall :=
  ⟨_, Sys2Proof.Laws.EncodedFields.of_fields rfl (by simp) (by simp) (by simp) (by decide)⟩

theorem Sys2Proof.Laws.EncodedFields.romchk (region : Sys2Proof.Byte) :
    Sys2Proof.Laws.EncodedFields.Statement (.romchk region) :=
  ⟨_, Sys2Proof.Laws.EncodedFields.of_fields rfl (by simp) (by simp) (by simp) (by decide)⟩

theorem Sys2Proof.Laws.EncodedFields.romraw : Sys2Proof.Laws.EncodedFields.Statement .romraw :=
  ⟨_, Sys2Proof.Laws.EncodedFields.of_fields rfl (by simp) (by simp) (by simp) (by decide)⟩

theorem Sys2Proof.Laws.EncodedFields.romcrc (region : Sys2Proof.Byte) :
    Sys2Proof.Laws.EncodedFields.Statement (.romcrc region) :=
  ⟨_, Sys2Proof.Laws.EncodedFields.of_fields rfl (by simp) (by simp) (by simp) (by decide)⟩

theorem Sys2Proof.Laws.EncodedFields.rammarch (region : Sys2Proof.Byte) (seed : Sys2Proof.Word) :
    Sys2Proof.Laws.EncodedFields.Statement (.rammarch region seed) :=
  ⟨_, Sys2Proof.Laws.EncodedFields.of_fields rfl (by simp) (by simp) (by simp) (by decide)⟩

theorem Sys2Proof.Laws.EncodedFields.ramcs (seed : Sys2Proof.Word) :
    Sys2Proof.Laws.EncodedFields.Statement (.ramcs seed) :=
  ⟨_, Sys2Proof.Laws.EncodedFields.of_fields rfl (by simp) (by simp) (by simp) (by decide)⟩

theorem Sys2Proof.Laws.EncodedFields.ramaddr (region : Sys2Proof.Byte) :
    Sys2Proof.Laws.EncodedFields.Statement (.ramaddr region) :=
  ⟨_, Sys2Proof.Laws.EncodedFields.of_fields rfl (by simp) (by simp) (by simp) (by decide)⟩

theorem Sys2Proof.Laws.EncodedFields.ramfill (region : Sys2Proof.Byte) (value : Sys2Proof.Datum) :
    Sys2Proof.Laws.EncodedFields.Statement (.ramfill region value) :=
  ⟨_, Sys2Proof.Laws.EncodedFields.of_fields rfl (by simp) (by simp) (by simp) (by have := value.isLt; simp; omega)⟩

theorem Sys2Proof.Laws.EncodedFields.ramread (region : Sys2Proof.Byte) :
    Sys2Proof.Laws.EncodedFields.Statement (.ramread region) :=
  ⟨_, Sys2Proof.Laws.EncodedFields.of_fields rfl (by simp) (by simp) (by simp) (by decide)⟩

theorem Sys2Proof.Laws.EncodedFields.ioin (input : Sys2Proof.Byte) :
    Sys2Proof.Laws.EncodedFields.Statement (.ioin input) :=
  ⟨_, Sys2Proof.Laws.EncodedFields.of_fields rfl (by simp) (by simp) (by simp) (by decide)⟩

theorem Sys2Proof.Laws.EncodedFields.ioout (output : Sys2Proof.Byte) (active : Bool) :
    Sys2Proof.Laws.EncodedFields.Statement (.ioout output active) :=
  ⟨_, Sys2Proof.Laws.EncodedFields.of_fields rfl (by simp) (by simp) (by simp) (by decide)⟩

theorem Sys2Proof.Laws.EncodedFields.intchk (line : Sys2Proof.Byte) (extVec : Bool) (timeout : Sys2Proof.Word) (vector : Sys2Proof.Byte) :
    Sys2Proof.Laws.EncodedFields.Statement (.intchk line extVec timeout vector) :=
  ⟨_, Sys2Proof.Laws.EncodedFields.of_fields rfl (by simp) (by simp) (by simp) (by have := vector.isLt; simp; omega)⟩
end

