-- ==== Sys2Proof/Laws/Shapes.lean ====
section
/-! SUPPORT. Everything an execution, a step and an IDLE can be, said once; a frame from its fields. -/

namespace Sys2Proof.Machine

/-- The four ways an execution can go: IDLE, the refusal before IDLE, CHECK, and every other command's course. -/
theorem exec_shape (i : Instr) (s : State) (hinv : s.Inv) :
    (i = .idle ∧ exec i s = .next (finish Result.blank (idleState s)))
    ∨ (s.idled = false ∧ i ≠ .idle ∧ exec i s = .next (refuse .notIdled s))
    ∨ (s.idled = true ∧ i = .check ∧ exec i s = .next (checkEnd (testItems s.cfg.checkItems s)))
    ∨ (s.idled = true ∧ i ≠ .idle ∧ i ≠ .check ∧
        ∃ x : Res Result, exec i s = .next (complete x) ∧ Course (s.cfg.cycleCount i) s x ∧ Completes x) := by
  by_cases n1 : i = .idle
  · subst n1
    exact .inl ⟨rfl, rfl⟩
  cases hid : s.idled with
  | false => exact .inr (.inl ⟨rfl, n1, exec_refused hid n1⟩)
  | true =>
    by_cases n2 : i = .check
    · subst n2
      exact .inr (.inr (.inl ⟨rfl, rfl, by simp only [exec, execCheck, hid, if_true]⟩))
    · have he : s.EngineIdle := ⟨hinv.pinsIdle hid, hinv.betweenCycles⟩
      exact .inr (.inr (.inr ⟨rfl, n1, n2, exec_course i hid he n1 n2⟩))

/-- A step that answers a next state refused an undecodable frame or ran one command, and moved on by one frame. -/
theorem step_shape (s t : State) (h : step s = .next t) :
    t = advance (refuse .illegalCommand s) ∨ ∃ i u, exec i s = .next u ∧ t = advance u := by
  simp only [step] at h
  split at h
  · cases h
  split at h
  · cases h
    exact .inl rfl
  rename_i f i hd
  cases he : exec i s with
  | next u => rw [he] at h; cases h; exact .inr ⟨i, u, he, rfl⟩
  | fault x => rw [he] at h; cases h
  | refused x => rw [he] at h; cases h

/-- What IDLE appends to the activity. -/
theorem idleState_activity (s : State) : (idleState s).activity =
    s.activity ++ (⟨.idle, false, .idlePins⟩ :: if s.cfg.clockMaster = true ∧ s.booted = false then
      s.cfg.idleClockLevel.zipIdx.map fun e => ⟨.idle, false, .clock e.2 e.1⟩ else []) := by
  unfold idleState
  by_cases h : s.cfg.clockMaster = true ∧ s.booted = false
  · have : (((restoreIdle s).log .idlePins).cfg.clockMaster && !((restoreIdle s).log .idlePins).booted) = true := by
      simp [h]
    simp only [this, if_true, h, and_self]
    simp [driveIdleClocks, restoreIdle, State.recorded, Function.comp_def]
  · have : ¬(((restoreIdle s).log .idlePins).cfg.clockMaster &&
        !((restoreIdle s).log .idlePins).booted) = true := by simpa using h
    simp only [this, h, if_false]
    simp [restoreIdle, State.recorded]

/-- What IDLE does at the signal level: clock drives only, under no mask (40_contract.md R152). -/
theorem idleState_quiet (s : State) :
    (∀ a ∈ newActivity s (idleState s), maskAsRuled s.cfg a) ∧ busDrives (newActivity s (idleState s)) = [] := by
  have none : ∀ l : List (Bool × Nat), List.filterMap busAct (l.map fun e => ⟨.idle, false, .clock e.2 e.1⟩) = [] := by
    intro l
    induction l with
    | nil => rfl
    | cons a l ih => exact ih
  rw [newActivity_of_eq (idleState_activity s)]
  split
  · refine ⟨fun a h => ?_, ?_⟩
    · rcases List.mem_cons.1 h with rfl | h
      · simp [maskAsRuled, Phase.masked]
      · obtain ⟨e, -, rfl⟩ := List.mem_map.1 h
        simp [maskAsRuled, Phase.masked]
    · unfold busDrives busActs
      rw [List.filterMap_cons, none]
      rfl
  · refine ⟨fun a h => ?_, rfl⟩
    obtain rfl := List.mem_singleton.1 h
    simp [maskAsRuled, Phase.masked]

/-- What CHECK does at the signal level: samples only, under no mask, and no event (40_contract.md R153). -/
theorem checkEnd_quiet (xs : List CheckItem) (s : State) (m : s.EngineIdle) :
    (∀ a ∈ newActivity s (checkEnd (testItems xs s)), maskAsRuled s.cfg a)
      ∧ busDrives (newActivity s (checkEnd (testItems xs s))) = [] ∧ newEvents s (checkEnd (testItems xs s)) = [] ∧ (checkEnd (testItems xs s)).hostMask = false := by
  have hc := testItems_calm xs s
  rcases ht : testItems xs s with ⟨_ | f, t⟩ <;> rw [ht] at hc
  · have h1 : newActivity s (checkEnd (none, t)) = newActivity s t ++ [⟨t.phase, t.hostMask, .idlePins⟩] := by
      obtain ⟨as, ha⟩ := hc.activity
      have ha : s.activity ++ as = t.activity := ha
      simp [checkEnd, finish, newActivity, State.log, State.recorded, ← ha]
    refine ⟨?_, ?_, ?_, ?_⟩
    · rw [h1]; intro a ha
      rcases List.mem_append.1 ha with ha | ha
      · exact hc.ruled m.maskRight a ha
      · simp at ha; subst ha; have := hc.hostMask; have := hc.phase
        simp_all [maskAsRuled, m.2.1, m.2.2, Phase.masked]
    · rw [h1, busDrives_append]; unfold busDrives; rw [hc.noAct]; rfl
    · exact newEvents_of_eq (by simpa [checkEnd, finish] using hc.traceKept)
    · simpa [checkEnd, finish] using hc.hostMask.trans m.2.2
  · refine ⟨hc.ruled m.maskRight, ?_, ?_, ?_⟩
    · show busDrives (newActivity s t) = []
      unfold busDrives; rw [hc.noAct]; rfl
    · exact newEvents_of_eq (by simpa [checkEnd, holdPin, finish] using hc.traceKept)
    · exact hc.hostMask.trans m.2.2

/-- What IDLE leaves. -/
theorem idleState_eq (s : State) : idleState s = { s with
    pins := .idle, hostMask := false, phase := .idle, idled := true, booted := true
    clk := if s.cfg.clockMaster = true ∧ s.booted = false then s.cfg.idleClockLevel else s.clk
    activity := (idleState s).activity } := by
  rw [idleState_activity]
  unfold idleState
  by_cases h : s.cfg.clockMaster = true ∧ s.booted = false
  · have : (((restoreIdle s).log .idlePins).cfg.clockMaster && !((restoreIdle s).log .idlePins).booted) = true := by
      simp [h]
    simp only [this, if_true, h, and_self]
    simp [driveIdleClocks, restoreIdle, State.recorded, Function.comp_def]
  · have : ¬(((restoreIdle s).log .idlePins).cfg.clockMaster &&
        !((restoreIdle s).log .idlePins).booted) = true := by simpa using h
    simp only [this, h, if_false]
    simp [restoreIdle, State.recorded]

/-- Driving the phases in order drives each phase once, to its own level. -/
theorem drivenLevels_zipIdx (ph : Phase) (m : Bool) (p : Nat) (l : List Bool) (k : Nat) :
    drivenLevels p ((l.zipIdx k).map fun e => ⟨ph, m, .clock e.2 e.1⟩) = if k ≤ p then (l[p - k]?).toList else [] := by
  induction l generalizing k with
  | nil => simp [drivenLevels]
  | cons a l ih =>
    simp only [List.zipIdx_cons, List.map_cons, drivenLevels, ih]
    by_cases h : k = p
    · subst h; simp
    · by_cases h2 : k ≤ p
      · have : k + 1 ≤ p := by omega
        simp only [h, if_false, this, if_true, h2]
        rw [show p - k = (p - (k + 1)) + 1 by omega]
        simp
      · have : ¬ k + 1 ≤ p := by omega
        simp [h, h2, this]

end Sys2Proof.Machine

namespace Sys2Proof

/-- A frame whose reserved bits are 0 is the frame of its fields. -/
theorem frameOf_fields (f : Frame) (h : rsvField f = 0) :
    frameOf (opField f) (idxField f) (bField f) (xField f) (yField f) = f := by
  apply BitVec.eq_of_toNat_eq
  have h1 := congrArg BitVec.toNat h
  have hb : (bField f).toNat = f.toNat / 2 ^ 16 % 2 := by
    unfold bField
    rw [← BitVec.testBit_toNat, Nat.testBit_eq_decide_div_mod_eq]
    have : f.toNat / 2 ^ 16 % 2 < 2 := Nat.mod_lt _ (by decide)
    rcases (by omega : f.toNat / 2 ^ 16 % 2 = 0 ∨ f.toNat / 2 ^ 16 % 2 = 1) with h | h <;> rw [h] <;> rfl
  rw [frameOf_toNat, hb]
  simp only [opField, idxField, rsvField, xField, yField, BitVec.extractLsb'_toNat, Nat.shiftRight_eq_div_pow] at *
  have := f.isLt
  simp at h1
  omega

end Sys2Proof
end

