-- ==== Sys2Proof/Machine/Profile.lean ====
section
/-! DEFINITION. The per-family defaults of the parameters (spec 00_scope.md R13 to R21, 40_contract.md R161, 41_bus_engine.md R223 and R234, 60_exceptions.md R356), each marked there as general knowledge. -/

namespace Sys2Proof.Machine

/-- Default `PHYS_ADDR_BITS` (R13). -/
def Family.physAddrBits : Family → Nat
  | .z80 => 16
  | .m6502 => 16
  | .m68000 => 24
  | .i8086 => 20
  | .m6809 => 16
  | .cdp1802 => 16
  | .hd6309 => 16

/-- Default `DATA_BUS_BYTES` (R14). -/
def Family.busWidth : Family → Width
  | .z80 => .one
  | .m6502 => .one
  | .m68000 => .two
  | .i8086 => .two
  | .m6809 => .one
  | .cdp1802 => .one
  | .hd6309 => .one

/-- Default `BYTE_ORDER` (R15); it matters only to the two 16-bit families. -/
def Family.byteOrder : Family → ByteOrder
  | .m68000 => .big
  | _ => .little

/-- Default `HAS_IO_SPACE` (R16). -/
def Family.hasIoSpace : Family → Bool
  | .z80 => true
  | .i8086 => true
  | _ => false

/-- Default `LINES` (R356). -/
def Family.lines : Family → List Line
  | .z80 => [.nmi, .irq 0]
  | .m6502 => [.nmi, .irq 0]
  | .m68000 => [.irq 1, .irq 2, .irq 3, .irq 4, .irq 5, .irq 6, .irq 7]
  | .i8086 => [.nmi, .irq 0]
  | .m6809 => [.nmi, .irq 0, .irq 1]
  | .cdp1802 => [.irq 0]
  | .hd6309 => [.nmi, .irq 0, .irq 1]

/-- Default `LINE_ACTIVE_LOW` (R356): every line but the I8086's. -/
def Family.linesActiveLow : Family → List Line
  | .i8086 => []
  | f => f.lines

/-- Default `ACK_KIND` (R223, R232 to R234). -/
def Family.ackKind : Family → AckKind
  | .z80 => .single
  | .i8086 => .double
  | .m68000 => .iack
  | _ => .none

/-- Default `ACK_ADDR` of the M68000 (R234): `0xFFFFF0 | (L << 1)`. -/
def m68000AckAddr : Vector PhysAddr 8 :=
  #v[0xFFFFF0, 0xFFFFF2, 0xFFFFF4, 0xFFFFF6, 0xFFFFF8, 0xFFFFFA, 0xFFFFFC, 0xFFFFFE]

/-- Default `CHECK_ITEMS` (40_contract.md R161); `hasPause` says whether the family has a pause input. R161 ends the
address items at `ADDR(n−1)` and does not say what `n` is; DESIGN CHOICE: `n` is the family's default
`PHYS_ADDR_BITS` (assumption 36). -/
def Family.checkItems (f : Family) (hasPause : Bool) : List CheckItem :=
  [.vcc, .gnd, .reset] ++ (if hasPause then [.pause] else [])
    ++ (List.range f.physAddrBits).map .addr
    ++ (List.range (8 * f.busWidth.bytes)).map .data
    ++ [.clock]

/-- A configuration with every default of its family in place: the parameters that have one are replaced, the
OPEN ones are those of `c`. `ACK_ADDR` has a default on the M68000 only. -/
def Cfg.withDefaults (c : Cfg) (hasPause : Bool) : Cfg :=
  { c with
    physAddrBits := c.family.physAddrBits
    busWidth := c.family.busWidth
    byteOrder := c.family.byteOrder
    hasIoSpace := c.family.hasIoSpace
    lines := c.family.lines
    linesActiveLow := c.family.linesActiveLow
    ackKind := c.family.ackKind
    ackAddr := if c.family = .m68000 then m68000AckAddr else c.ackAddr
    hostMaskSpan := true
    checkItems := c.family.checkItems hasPause
    crc := .ieee
    prng := .lcg }

end Sys2Proof.Machine
end

