-- ==== Sys2Proof/Tests/Slice0.lean ====
section
/-! SUPPORT. Tests: the well-formedness smoke tests, the vectors of spec/95_test_vectors.md, and a witness for the hypotheses of every obligation that has some. -/

namespace Sys2Proof.Tests

open Sys2Proof.Machine

/-! ### Small configurations -/

/-- A Z80 board with an acknowledge line. -/
def z80 : Cfg :=
  { Cfg.smallest with
    ackSignal := .line, pollLimit := 3, syncLimit := 2, waitSyncLimit := 3, vsyncLimit := 3, clockCheckLimit := 3
    sampleSteps := [(10, 2)] }.withDefaults false

/-- The same parameters on another family. -/
def on (f : Family) : Cfg := { z80 with family := f }.withDefaults false

/-- A Z80 board with no acknowledge line, so that a bus cycle asks for its clock edge and its data only. -/
def plain : Cfg := { z80 with ackSignal := .none }

/-- A clock-master M6502 with one output clock phase, one half-cycle in each of P1 and P4. -/
def master : Cfg :=
  { on .m6502 with clockMaster := true, ackSignal := .none, idleClockLevel := [true], halfCycles := ⟨1, 0, 0, 1⟩ }

/-- ROM-1's region. -/
def romRegion : RomRegion := ⟨false, 0, 8, [1, 2, 4], 0x88AA689F, "rom"⟩

/-- RAM-4's region. -/
def ramRegion : RamRegion := ⟨false, 0x6000, 0x6003, 1, 0xFF, "ram"⟩

/-- The Z80 board with one entry in each table. -/
def board : Cfg :=
  { plain with
    romTable := [romRegion], ramTable := [ramRegion], inputTable := [⟨false, 0x2000, 0x0F, "in"⟩]
    outputTable := [⟨false, 0x1000, 0x01, 0x00, "out"⟩] }

/-- The same board with a bank switch on every entry. -/
def banked : Cfg :=
  { plain with
    romTable := [{ romRegion with bankSwitch := true }], ramTable := [{ ramRegion with bankSwitch := true }]
    inputTable := [⟨true, 0x2000, 0x0F, "in"⟩], outputTable := [⟨true, 0x1000, 0x01, 0x00, "out"⟩] }

/-! ### Running one command -/

/-- An idled engine on a board that will give these answers. -/
def idled (c : Cfg) (answers : List Raw) : State :=
  { State.initial c [] answers with idled := true, booted := true, pins := .idle }

/-- The state a command leaves. -/
def after (i : Instr) (s : State) : State :=
  match exec i s with
  | .next t => t
  | _ => s

/-- What a command reports and shows. -/
def shown (i : Instr) (s : State) : Result × List Event × List Raw :=
  ((after i s).result, (after i s).trace, (after i s).script)

/-- The answers to a run of reads on a board without an acknowledge line. -/
def reads (vs : List Raw) : List Raw := vs.flatMap fun v => [1, v]

/-- A cycle on a board without an acknowledge line: the edge is seen at the first poll. -/
def quick : Handshake := ⟨[], [1], [], [], [], [], .unpolled⟩

/-- A cycle on a board with one: the acknowledge is seen at the second poll. -/
def polled : Handshake := ⟨[], [1], [], [], [0, 1], [], .ready⟩

/-- A cycle that is never acknowledged in three polls. -/
def silent : Handshake := ⟨[], [1], [], [], [0, 0, 0], [], .unpolled⟩

/-- The replies to a run of reads on a board without an acknowledge line. -/
def replies (vs : List Raw) : List Reply := vs.map fun v => ⟨quick, v, 0, 0⟩

theorem idled_engineIdle (c : Cfg) (answers : List Raw) : (idled c answers).EngineIdle := ⟨rfl, rfl, rfl⟩

theorem idled_inv {c : Cfg} (h : c.wf = true) (answers : List Raw) : (idled c answers).Inv where
  cfgWf := h
  betweenCycles := ⟨rfl, rfl⟩
  pinsIdle := fun _ => rfl
  pinsQuiet := by simp [idled]
  oneRecordEach := rfl
  resultIsLast := fun h => absurd rfl h

/-! ### Well-formedness: each check refuses an ill-formed configuration (R135, R390) -/

theorem test_wf_accepts : z80.wf = true ∧ master.wf = true ∧ board.wf = true ∧ banked.wf = true
    ∧ (on .m68000).wf = true ∧ (on .i8086).wf = true := by decide

theorem test_wf_clockMaster : ({ z80 with clockMaster := true, idleClockLevel := [true] } : Cfg).clockMasterLegal = false
    ∧ ({ z80 with clockMaster := true, idleClockLevel := [true] } : Cfg).wf = false := by decide

theorem test_wf_twoClockMasters :
    ({ z80 with clockMasterFamilies := [.m6502, .m6502] } : Cfg).twoClockMasters = false := by decide

theorem test_wf_bounds : ({ z80 with pollLimit := 0 } : Cfg).boundsPositive = false
    ∧ ({ z80 with clockCheckLimit := 0 } : Cfg).boundsPositive = false := by decide

theorem test_wf_addressFits : ({ z80 with physAddrBits := 25 } : Cfg).addressFits = false := by decide

theorem test_wf_latch : ({ z80 with latchBytes := 2, latchOrder := [1, 1] } : Cfg).latchComplete = false
    ∧ ({ z80 with latchBytes := 1, latchOrder := [0] } : Cfg).latchComplete = false := by decide

theorem test_wf_phases : ({ master with idleClockLevel := [] } : Cfg).phasesExist = false
    ∧ ({ master with nextPhase := [(([true], true), 1)] } : Cfg).phasesExist = false := by decide

theorem test_wf_tables : ({ z80 with inputTable := List.replicate 257 ⟨false, 0, 0, ""⟩ } : Cfg).tablesFit = false := by
  decide +kernel

theorem test_wf_rom : ({ romRegion with length := 0, samples := [] } : RomRegion).wf board = false
    ∧ ({ romRegion with start := 0xFFFFFC } : RomRegion).wf board = false
    ∧ ({ romRegion with samples := [1, 2] } : RomRegion).wf board = false
    ∧ ({ romRegion with start := 0x04000000 } : RomRegion).wf board = false := by decide

theorem test_wf_ram : ({ ramRegion with last := 0x5FFF } : RamRegion).wf board = false
    ∧ ({ ramRegion with step := 0 } : RamRegion).wf board = false
    ∧ ({ ramRegion with last := 0x01006003 } : RamRegion).wf board = false := by decide

/-- IO-8: an I/O address on a family without that space. -/
theorem test_wf_descriptors :
    ({ on .m6502 with outputTable := [⟨false, 0x01000040, 1, 0, ""⟩] } : Cfg).descriptorsLegal = false := by decide

/-! ### Frames (95_test_vectors.md 2.1), each written out as W2 W1 W0 -/

theorem test_decode_idle : decode 0x00000000_00000000_00000001 = .ok .idle := by decide
theorem test_decode_check : decode 0x00000000_00000000_00000002 = .ok .check := by decide
theorem test_decode_busw : decode 0x00000000_00000000_00000003 = .ok (.busw 0) := by decide
theorem test_decode_accw : decode 0x00000000_04001001_00000004 = .ok (.accw 0x04001001) := by decide
theorem test_decode_mrd : decode 0x00000000_01000010_00000005 = .ok (.mrd 0x01000010) := by decide
theorem test_decode_mwr : decode 0x0000005A_00006000_00000006 = .ok (.mwr 0x6000 0x5A) := by decide
theorem test_decode_wint : decode 0x00000000_00000BB8_00010807 = .ok (.wint 8 true 3000) := by decide
theorem test_decode_iack : decode 0x00000000_00000000_00000008 = .ok .iack := by decide
theorem test_decode_romall : decode 0x00000000_00000000_00000010 = .ok .romall := by decide
theorem test_decode_romchk : decode 0x00000000_00000000_00000011 = .ok (.romchk 0) := by decide
theorem test_decode_romraw : decode 0x00000000_00000000_00000012 = .ok .romraw := by decide
theorem test_decode_romcrc : decode 0x00000000_00000000_00000013 = .ok (.romcrc 0) := by decide
theorem test_decode_rammarch : decode 0x00000000_00000007_00000120 = .ok (.rammarch 1 7) := by decide
theorem test_decode_ramcs : decode 0x00000000_00000007_00000021 = .ok (.ramcs 7) := by decide
theorem test_decode_ramaddr : decode 0x00000000_00000000_00000022 = .ok (.ramaddr 0) := by decide
theorem test_decode_ramfill : decode 0x00000001_00000000_00000123 = .ok (.ramfill 1 1) := by decide
theorem test_decode_ramread : decode 0x00000000_00000000_00000024 = .ok (.ramread 0) := by decide
theorem test_decode_ioin : decode 0x00000000_00000000_00000030 = .ok (.ioin 0) := by decide
theorem test_decode_ioout : decode 0x00000000_00000000_00010031 = .ok (.ioout 0 true) := by decide
theorem test_decode_intchk : decode 0x00000003_00000BB8_00010840 = .ok (.intchk 8 true 3000 3) := by decide

/-- ENC-30 to ENC-36. -/
theorem test_illegal_frames :
    decode 0x00000000_00000000_00000000 = .error (.unknownOpcode 0)
      ∧ decode 0x00000000_00000000_00000009 = .error (.unknownOpcode 9)
      ∧ decode 0x00000000_00000000_00020001 = .error .reservedBits
      ∧ decode 0x00000000_00000001_00000001 = .error .nonzeroX
      ∧ decode 0x00010000_00006000_00000006 = .error .nonzeroY
      ∧ decode 0x00000000_00000000_00010011 = .error .nonzeroB
      ∧ decode 0x00000100_00000000_00000140 = .error .nonzeroY := by decide

/-- ENC-5's byte stream, with two bytes after it; and a stream that is too short. -/
theorem test_byte_stream :
    decodeBytes [0x06, 0, 0, 0, 0x00, 0x60, 0, 0, 0x5A, 0, 0, 0, 0xEE, 0xFF] = .ok (.mwr 0x6000 0x5A, [0xEE, 0xFF])
      ∧ decodeBytes (List.replicate 11 0x01) = .error .tooShort := by decide

/-- ENC-22's frame and byte stream. -/
theorem test_encode_intchk :
    encode (.intchk 8 true 3000 3) = 0x00000003_00000BB8_00010840
      ∧ encodeBytes (.intchk 8 true 3000 3) = [0x40, 8, 1, 0, 0xB8, 0x0B, 0, 0, 3, 0, 0, 0] := by decide

/-- The host's word, its bits above `nbits` zero. -/
theorem test_table_word : decodeTableWord 96 0x0000005A_00006000_00000006 = some (.mwr 0x6000 0x5A)
    ∧ decodeTableWord 16 0x0811 = some (.romchk 8) ∧ decodeTableWord 96 0x20001 = none := by decide

/-! ### Address validation (2.2), geometry (2.4), the generator (2.5), CRC-32 (2.6) -/

/-- DEC-1, DEC-2, DEC-17. -/
theorem test_dec_legal : z80.decodeAddr 0x00006000 = .ok ⟨.mem, .none, 0x6000, .one, .low⟩
    ∧ z80.decodeAddr 0x01000010 = .ok ⟨.io, .none, 0x0010, .one, .low⟩
    ∧ z80.decodeAddr 0x00FF6000 = .ok ⟨.mem, .none, 0x6000, .one, .low⟩ := by decide

/-- DEC-4 to DEC-7, DEC-9 to DEC-11, DEC-19, DEC-20. -/
theorem test_dec_refused : z80.decodeAddr 0x10000000 = .error .reservedAddressBits
    ∧ (on .m6502).decodeAddr 0x13000000 = .error .reservedAddressBits
    ∧ z80.decodeAddr 0x0A006000 = .error .reservedAddressBits
    ∧ z80.decodeAddr 0x02006000 = .error .noBlanking ∧ z80.decodeAddr 0x08006000 = .error .noVsync
    ∧ z80.decodeAddr 0x04006000 = .error .noLanes ∧ (on .m68000).decodeAddr 0x1001 = .error .misaligned
    ∧ (on .i8086).decodeAddr 0x01000003 = .error .misaligned
    ∧ (on .m68000).decodeAddr 0x01000000 = .error .noIoSpace := by decide

/-- DEC-12 to DEC-16, DEC-18. -/
theorem test_dec_lanes : (on .m68000).decodeAddr 0x1000 = .ok ⟨.mem, .none, 0x1000, .two, .both⟩
    ∧ (on .m68000).decodeAddr 0x04001000 = .ok ⟨.mem, .none, 0x1000, .one, .high⟩
    ∧ (on .m68000).decodeAddr 0x04001001 = .ok ⟨.mem, .none, 0x1001, .one, .low⟩
    ∧ (on .i8086).decodeAddr 0x04001000 = .ok ⟨.mem, .none, 0x1000, .one, .low⟩
    ∧ (on .i8086).decodeAddr 0x04001001 = .ok ⟨.mem, .none, 0x1001, .one, .high⟩
    ∧ (on .i8086).decodeAddr 0x00FFFFFE = .ok ⟨.mem, .none, 0xFFFFE, .two, .both⟩ := by decide

/-- GEO-3, GEO-4, GEO-7. -/
theorem test_geometry :
    ((on .m68000).ramGeometry ⟨false, 0x04100001, 0x0410FFFF, 1, 0xFF, ""⟩).count = 32768
      ∧ ((on .m68000).ramGeometry ⟨false, 0x04100001, 0x0410FFFF, 2, 0xFF, ""⟩).cell 16383 = 0x0410FFFD
      ∧ (z80.ramGeometry ⟨false, 0x6000, 0x6005, 2, 0xFF, ""⟩).count = 3 := by decide

/-- R136's values, and RAM-14's `Pset`. -/
theorem test_sampleCount : [1, 2, 3, 4, 5, 8, 9, 0x800, 0x801].map sampleCount = [0, 1, 2, 2, 3, 3, 4, 11, 12]
    ∧ boundaryCells 2048 = [0, 1, 2, 4, 8, 16, 32, 64, 128, 256, 512, 1024] := by decide +kernel

/-- RAM-1 to RAM-3. -/
theorem test_generator :
    (List.range 8).map (Generator.lcg.pattern 7 .one) = [0x20, 0xDA, 0xCC, 0x4E, 0xA1, 0x14, 0x69, 0x98]
      ∧ (List.range 2).map (Generator.lcg.pattern 7 .two) = [0x3D20, 0xE9DA]
      ∧ (List.range 4).map (Generator.lcg.pattern 8 .one) = [0x3A, 0x13, 0x15, 0xC8]
      ∧ Generator.lcg.next 0 = 0x3C6EF35F := by decide +kernel

/-- CRC-1, and the 16-bit feed of 2.6. -/
theorem test_crc :
    z80.crc.final ([0x31, 0x32, 0x33, 0x34, 0x35, 0x36, 0x37, 0x38, 0x39].foldl (z80.feed · · .one) z80.crc.init)
        = 0xCBF43926
      ∧ z80.crc.final ([1, 0x0203, 0x0405, 0x0607].foldl ((on .m68000).feed · · .two) z80.crc.init) = 0x88AA689F
      ∧ z80.crc.final ([0x100, 0x0302, 0x0504, 0x0706].foldl ((on .i8086).feed · · .two) z80.crc.init) = 0x88AA689F := by
  decide +kernel

/-! ### One command on one board (2.3, 2.7 to 2.11) -/

/-- CON-1, on a fresh engine. -/
theorem test_idle : (after .idle (State.initial z80 [] [])).result = Result.blank
    ∧ (after .idle (State.initial z80 [] [])).idled = true ∧ (after .idle (State.initial z80 [] [])).pins = .idle := by
  decide

/-- The first IDLE of a clock-master engine drives its clock to the idle level (R152). -/
theorem test_idle_master : (after .idle (State.initial master [] [])).clk = [true]
    ∧ drivenLevels 0 (after .idle (State.initial master [] [])).activity = [true] := by decide

/-- CON-27. -/
theorem test_check_reset : (after .check (idled { z80 with checkItems := [.vcc, .reset, .clock] } [1, 1])).result
      = { Result.blank with code := .mismatch, info := .pinMismatch, expected := 0, actual := 1, pin := some .reset }
    ∧ (after .check (idled { z80 with checkItems := [.vcc, .reset, .clock] } [1, 1])).idled = false := by decide

/-- CON-30. -/
theorem test_check_clock : shown .check (idled { z80 with checkItems := [.vcc, .clock] } [1, 1, 1, 1])
    = ({ Result.blank with code := .mismatch, info := .pinMismatch, expected := 2, actual := 1, pin := some .clock },
      [], []) := by decide

/-- CON-3. -/
theorem test_busw : (after (.busw 0) (idled (on .m68000) [])).result.value = 2 := by decide

/-- CON-4 to CON-6. -/
theorem test_accw : (after (.accw 0x04001001) (idled (on .m68000) [])).result.value = 1
    ∧ (after (.accw 0x1000) (idled (on .m68000) [])).result.value = 2
    ∧ (after (.accw 0x04006000) (idled z80 [])).result.value = 1 := by decide

/-- CON-10: the low lane of a 16-bit bus. -/
theorem test_mrd_lane : shown (.mrd 0x04001001) (idled (on .m68000) [1, 1, 0x1234])
    = ({ Result.blank with value := 0x34 }, [.cyc .read .mem 0x1001 .one .low 0x34], []) := by decide

/-- CON-11 and EXC-4. -/
theorem test_mrd_abort : shown (.mrd 0x6000) (idled z80 [1, 0, 0, 0, 7])
    = ({ Result.blank with code := .timeout, info := .ackTimeout, addr := 0x6000 },
      [.abort .read .mem 0x6000 .one .low .p3], [7])
    ∧ (after (.mrd 0x6000) (idled z80 [1, 0, 0, 0])).hostMask = false := by decide

/-- CON-8. -/
theorem test_mwr : shown (.mwr 0x6000 0x1A5) (idled z80 [1, 1])
    = (Result.blank, [.cyc .write .mem 0x6000 .one .low 0xA5], []) := by decide

/-- CON-14. -/
theorem test_wint : shown (.wint 8 true 3000) (idled z80 [0, 0, 1, 7])
    = ({ Result.blank with table := .line, index := 8 }, [], [7]) := by decide

/-- CON-15: one sample. -/
theorem test_wint_once : shown (.wint 8 true 0) (idled z80 [0, 7])
    = ({ Result.blank with code := .timeout, info := .lineTimeout, table := .line, index := 8 }, [], [7]) := by decide

/-- CON-22: the second cycle's vector. -/
theorem test_iack_double : shown .iack (idled (on .i8086) [1, 1, 0xFF, 1, 1, 0x20])
    = ({ Result.blank with value := 0x20 },
      [.cyc .ack .mem 0 .one .low 0xFF, .cyc .ack .mem 0 .one .low 0x20], []) := by decide

/-- CON-24: level 2, VPA, so the autovector. -/
theorem test_iack_vpa :
    shown .iack (idled { on .m68000 with autovector := #v[24, 25, 26, 27, 28, 29, 30, 31] } [2, 1, 2, 0x40])
      = ({ Result.blank with value := 26 }, [.cyc .ack .mem 0xFFFFF4 .one .low 26], []) := by decide

/-- ROM-9. -/
theorem test_romall : shown .romall (idled z80 []) = (Result.blank, [], []) := by decide

/-- ROM-1: eleven reads. -/
theorem test_romchk : (after (.romchk 0) (idled board (reads [1, 2, 4, 0, 1, 2, 3, 4, 5, 6, 7]))).result
      = { Result.blank with value := 0x88AA689F, table := .rom, index := 0 }
    ∧ (after (.romchk 0) (idled board (reads [1, 2, 4, 0, 1, 2, 3, 4, 5, 6, 7]))).trace.length = 11 := by decide +kernel

/-- ROM-2. -/
theorem test_romchk_sample : shown (.romchk 0) (idled board (reads [1, 6]))
    = ({ Result.blank with
          code := .mismatch, info := .dataMismatch, addr := 2, expected := 2, actual := 6, table := .rom, index := 0 },
      [.cyc .read .mem 1 .one .low 1, .cyc .read .mem 2 .one .low 6], []) := by decide

/-- ROM-10. -/
theorem test_romraw : (after .romraw (idled board (reads [0, 1, 2, 3, 4, 5, 6, 7]))).result = Result.blank
    ∧ (after .romraw (idled board (reads [0, 1, 2, 3, 4, 5, 6, 7]))).trace.length = 8 := by decide +kernel

/-- ROM-11: the cells swapped by an address remap, each call of it with the context 3. -/
theorem test_romcrc_remap :
    (after (.romcrc 0)
      (idled
        { board with
          addressRemap := some [((3, 0), 1), ((3, 1), 0), ((3, 2), 3), ((3, 3), 2), ((3, 4), 5), ((3, 5), 4), ((3, 6), 7),
            ((3, 7), 6)] }
        ([1, 0, 3, 2, 5, 4, 7, 6].flatMap fun v => [3, 1, v]))).result
      = { Result.blank with value := 0xC3299525, table := .rom, index := 0 } := by decide +kernel

/-- R23: the answer of a remap varies with its context as well as with its address and datum. -/
theorem test_remap_context :
    let c := { board with addressRemap := some [((5, 0x2000), 0x2001)], dataRemap := some [((6, 0x2000, 0xA7), 0xA8)] }
    shown (.ioin 0) (idled c [5, 1, 0xA7, 6])
        = ({ Result.blank with value := 8, table := .input, index := 0 },
          [.aremap 0x2000 0x2001, .cyc .read .mem 0x2001 .one .low 0xA7, .dremap 0x2000 0xA7 0xA8], [])
      ∧ shown (.ioin 0) (idled c [4, 1, 0xA7, 4])
        = ({ Result.blank with value := 7, table := .input, index := 0 },
          [.aremap 0x2000 0x2000, .cyc .read .mem 0x2000 .one .low 0xA7, .dremap 0x2000 0xA7 0xA7], []) := by decide

/-- RAM-4: sixteen cycles. -/
theorem test_rammarch :
    (after (.rammarch 0 7)
      (idled board ([1, 1, 1, 1] ++ reads [0x20, 0xDA, 0xCC, 0x4E] ++ [1, 1, 1, 1]
        ++ reads [0xDF, 0x25, 0x33, 0xB1]))).result = { Result.blank with table := .ram, index := 0 } := by
  decide +kernel

/-- RAM-5: bit 0 of 0x6002 stuck at 0. -/
theorem test_rammarch_stuck :
    (after (.rammarch 0 7)
      (idled board ([1, 1, 1, 1] ++ reads [0x20, 0xDA, 0xCC, 0x4E] ++ [1, 1, 1, 1] ++ reads [0xDF, 0x25, 0x32]))).result
      = { Result.blank with
          code := .mismatch, info := .dataMismatch, addr := 0x6002, expected := 0x33, actual := 0x32
          table := .ram, index := 0, step := 2 } := by
  decide +kernel

/-- RAM-6: two regions on one device. -/
theorem test_ramcs :
    (after (.ramcs 7) (idled { board with ramTable := [ramRegion, ramRegion] } (List.replicate 8 1 ++ reads [0x3A]))).result
      = { Result.blank with
          code := .mismatch, info := .dataMismatch, addr := 0x6000, expected := 0x20, actual := 0x3A
          table := .ram, index := 0 } := by
  decide +kernel

/-- RAM-8: 0x6002 aliases 0x6000. -/
theorem test_ramaddr : (after (.ramaddr 0) (idled board ([1, 1, 1, 1] ++ reads [0xFF, 0, 0xFF]))).result
    = { Result.blank with
        code := .mismatch, info := .dataMismatch, addr := 0x6002, expected := 0, actual := 0xFF
        table := .ram, index := 0 } := by
  decide +kernel

/-- RAM-9. -/
theorem test_ramfill : shown (.ramfill 0 0x55) (idled board [1, 1, 1, 1])
    = ({ Result.blank with table := .ram, index := 0 },
      [.cyc .write .mem 0x6000 .one .low 0x55, .cyc .write .mem 0x6001 .one .low 0x55,
        .cyc .write .mem 0x6002 .one .low 0x55, .cyc .write .mem 0x6003 .one .low 0x55], []) := by decide +kernel

/-- RAM-10. -/
theorem test_ramread : (after (.ramread 0) (idled board (reads [9, 8, 7, 6]))).trace
    = [.cyc .read .mem 0x6000 .one .low 9, .cyc .read .mem 0x6001 .one .low 8,
      .cyc .read .mem 0x6002 .one .low 7, .cyc .read .mem 0x6003 .one .low 6] := by decide +kernel

/-- IO-1. -/
theorem test_ioin : shown (.ioin 0) (idled board (reads [0xA7]))
    = ({ Result.blank with value := 7, table := .input, index := 0 }, [.cyc .read .mem 0x2000 .one .low 0xA7], []) := by
  decide

/-- IO-7: an I/O port with an invert mask. -/
theorem test_ioout : shown (.ioout 0 true) (idled { plain with outputTable := [⟨false, 0x01000040, 0x80, 0x0F, ""⟩] } [1])
    = ({ Result.blank with table := .output, index := 0 }, [.cyc .write .io 0x40 .one .low 0x8F], []) := by decide

/-- INT-1. -/
theorem test_intchk : shown (.intchk 8 true 3000 3) (idled plain ([0, 1] ++ reads [3] ++ [0]))
    = ({ Result.blank with value := 3, table := .line, index := 8 }, [.cyc .ack .mem 0 .one .low 3], []) := by decide

/-- INT-5. -/
theorem test_intchk_still : (after (.intchk 8 true 3000 3) (idled plain ([0, 1] ++ reads [3] ++ [1]))).result
    = { Result.blank with code := .unexpected, info := .lineStillActive, table := .line, index := 8, step := 3 } := by
  decide

/-- EXC-1 and EXC-2: the order of the refusals on a fresh engine. -/
theorem test_refusal_order :
    step (State.initial board [0] []) = .next (advance (refuse .illegalCommand (State.initial board [0] [])))
      ∧ (after (.romchk 5) (State.initial board [] [])).result
        = { Result.blank with code := .unimplemented, info := .notIdled } := ⟨rfl, by decide⟩

/-- R33: the pins are Active from the first phase of a cycle, P0 of a wait-space access or P1, and idle again after it. -/
theorem test_pins_active_in_phases :
    ((prePhase (latchCycle .read ⟨.mem, .waitSpace, 0, .one, .low⟩ 0 (idled plain [1, 0]))).state.pins = .active
      ∧ (synchronize (enterPhase .p1 (idled plain [1]))).state.pins = .active)
      ∧ (phase2 (enterPhase .p1 (idled plain []))).pins = .active
      ∧ (after (.mrd 0x2000) (idled plain (reads [0xA7]))).pins = .idle := by decide

/-- R210: a 6502 has neither a memory/IO flag nor lane selects, a Z80 the former, a 68000 the latter. -/
theorem test_status_flags :
    (on .m6502).statusFlags .write .mem .low = .status true none false none
      ∧ z80.statusFlags .ack .mem .low = .status false (some .mem) true none
      ∧ (on .m68000).statusFlags .read .mem .both = .status false none false (some .both) := by decide

/-- Whatever the configuration, the machine after reset runs the command placed at its pc. -/
theorem test_fetch_word : (State.reset.withFetchWord 96 1).fetch = some 1 := by rfl

/-! ### Witnesses: for each obligation with hypotheses, states and operands that meet them together -/

/-- The command gives a next state. -/
def ends (i : Instr) (s : State) : Bool :=
  match exec i s with
  | .next _ => true
  | _ => false

theorem next_after {i : Instr} {s : State} (h : ends i s = true) : exec i s = .next (after i s) := by
  unfold ends at h
  unfold after
  split at h <;> simp_all

/-- The state a step leaves. -/
def stepped (s : State) : State :=
  match step s with
  | .next t => t
  | _ => s

/-- The step gives a next state. -/
def steps (s : State) : Bool :=
  match step s with
  | .next _ => true
  | _ => false

theorem next_stepped {s : State} (h : steps s = true) : step s = .next (stepped s) := by
  unfold steps at h
  unfold stepped
  split at h <;> simp_all

/-- An idled engine with one command to run. -/
def loaded (c : Cfg) (i : Instr) (answers : List Raw) : State := { idled c answers with program := [encode i] }

theorem loaded_inv {c : Cfg} (h : c.wf = true) (i : Instr) (answers : List Raw) : (loaded c i answers).Inv where
  cfgWf := h
  betweenCycles := ⟨rfl, rfl⟩
  pinsIdle := fun _ => rfl
  pinsQuiet := by simp [loaded, idled]
  oneRecordEach := rfl
  resultIsLast := fun h => absurd rfl h

/-- A clock-master engine after its first IDLE, with one command to run. -/
def masterIdled (i : Instr) (answers : List Raw) : State :=
  { after .idle (State.initial master [] []) with
    program := [Sys2Proof.encode .idle, Sys2Proof.encode i], script := answers, pc := 1 }

theorem masterIdled_inv (i : Instr) (answers : List Raw) : (masterIdled i answers).Inv where
  cfgWf := by show master.wf = true; decide
  betweenCycles := ⟨rfl, rfl⟩
  pinsIdle := fun _ => rfl
  pinsQuiet := by show Pins.idle ≠ Pins.active; decide
  oneRecordEach := rfl
  resultIsLast := fun _ => rfl

theorem masterIdled_levels (i : Instr) (answers : List Raw) (p : Nat) :
    drivenLevels p (masterIdled i answers).activity = if 0 = p then [true] else [] := rfl

theorem masterIdled_clockInv (i : Instr) (answers : List Raw) : (masterIdled i answers).ClockInv where
  bootedIfIdled := fun _ => rfl
  clkLength := rfl
  undrivenBeforeBoot := fun h => by cases h
  recordsLastLevel := by
    intro _ p hp
    have h : p < 1 := hp
    have h0 : p = 0 := by omega
    subst h0
    rfl
  alternates := by
    intro p
    rw [masterIdled_levels]
    split <;> simp

theorem inactive {c : Cfg} {l : Line} {xs : List Raw} (h : xs.all (fun x => !lineLevelOf c l x) = true) :
    ∀ x ∈ xs, lineLevelOf c l x = false := by simpa using h

theorem not_active {c : Cfg} {l : Line} {xs : List Raw} (h : xs.all (fun x => !lineLevelOf c l x) = true) :
    ∀ x ∈ xs, lineLevelOf c l x ≠ true := by simpa using h

theorem witness_EncodeOfDecode : ∃ f i, decode f = .ok i := ⟨0x00000000_00006000_00000005, .mrd 0x6000, by decide⟩

theorem witness_StepRunsDecodedCommand : ∃ (s t : State) (f : Frame) (i : Instr),
    s.program[s.pc]? = some f ∧ decode f = .ok i ∧ exec i s = .next t :=
  ⟨loaded z80 (.mrd 0x6000) [1, 1, 0xA5], _, 0x00000000_00006000_00000005, .mrd 0x6000, by decide, by decide,
    next_after (by decide)⟩

theorem witness_IllegalFrameIsRefused : ∃ (s : State) (f : Frame), s.program[s.pc]? = some f ∧ legalFrame f = false :=
  ⟨State.initial z80 [0x00000000_00000000_00020001] [], _, rfl, by decide⟩

theorem witness_ConstructionLeaves : (∃ c : Cfg, c.wf = false) ∧ ∃ c : Cfg, c.wf = true :=
  ⟨⟨{ z80 with pollLimit := 0 }, by decide⟩, z80, by decide⟩

/-- The engine runs a read; a step of it exists. -/
theorem witness_StepKeepsInv : ∃ s t : State, s.Inv ∧ step s = .next t :=
  ⟨loaded z80 (.mrd 0x6000) [1, 1, 0xA5], _, loaded_inv (by decide) _ _, next_stepped (by decide)⟩

/-- A clock-master engine runs a read, two half-cycles in it. -/
theorem witness_StepKeepsClockInv : ∃ s t : State, s.Inv ∧ s.ClockInv ∧ step s = .next t
    ∧ drivenLevels 0 t.activity = [true, false, true] :=
  ⟨masterIdled (.mrd 0x6000) [0, 0, 0xA5], _, masterIdled_inv _ _, masterIdled_clockInv _ _,
    next_stepped (by decide), by decide⟩

/-- A read on an address latched in two bytes, high byte first: the mask is set through P2 to P4 and not after, and each
byte is latched once. -/
theorem witness_SignalsFollowTheirPhases : ∃ s t : State, s.Inv ∧ step s = .next t ∧ s.cfg.latchBytes ≠ 0
    ∧ ⟨.p3, true, .enter⟩ ∈ newActivity s t ∧ ⟨.p4, true, .terminate⟩ ∈ newActivity s t
    ∧ busDrives (newActivity s t) = [(.p2, .latchByte 1 0x60), (.p2, .latchByte 0 0x01),
      (.p2, .status false (some .mem) false none), (.p3, .strobes .read .mem .low), (.p4, .terminate)] :=
  ⟨loaded { z80 with latchBytes := 2, latchOrder := [1, 0] } (.mrd 0x6001) [1, 1, 0xA5], _, loaded_inv (by decide) _ _,
    next_stepped (by decide), by decide, by decide, by decide, by decide⟩

theorem witness_ExitStateIsIdle :
    (∃ s t : State, s.Inv ∧ s.idled = false ∧ exec .idle s = .next t)
      ∧ (∃ s t : State, s.Inv ∧ s.idled = true ∧ exec (.mrd 0x6000) s = .next t ∧ t.result.code = .timeout)
      ∧ ∃ s t : State, s.Inv ∧ s.idled = true ∧ exec .check s = .next t ∧ t.result.code = .success :=
  ⟨⟨{ idled z80 [] with idled := false, booted := false, pins := .unknown }, _,
      ⟨by decide, ⟨rfl, rfl⟩, by simp, by simp, rfl, fun h => absurd rfl h⟩, rfl, next_after (by decide)⟩,
    ⟨idled z80 [1, 0, 0, 0], _, idled_inv (by decide) _, rfl, next_after (by decide), by decide⟩,
    idled { z80 with checkItems := [.vcc, .clock] } [1, 0, 1], _, idled_inv (by decide) _, rfl,
    next_after (by decide), by decide⟩

theorem witness_NotIdledIsRefused : ∃ (s : State) (f : Frame) (i : Instr),
    s.program[s.pc]? = some f ∧ decode f = .ok i ∧ i ≠ .idle ∧ s.idled = false :=
  ⟨State.initial z80 [0x00000000_00006000_00000005] [], _, .mrd 0x6000, rfl, by decide, by decide, rfl⟩

theorem witness_OneRecordPerStep : ∃ s t : State, s.Inv ∧ step s = .next t :=
  ⟨loaded z80 (.mrd 0x6000) [1, 1, 0xA5], _, loaded_inv (by decide) _ _, next_stepped (by decide)⟩

/-- The first `n` moves of a command. -/
def firstMoves (c : Cfg) (i : Instr) (n : Nat) : List Move := ((c.moves i).take n).map Prod.snd

/-- The move after them, with its spot. -/
def moveAt (c : Cfg) (i : Instr) (n : Nat) : Spot × Move := (c.moves i).getD n (⟨.rom, 0, 0⟩, .bank .rom 0)

theorem reaches_of {c : Cfg} {i : Instr} {n : Nat} {qs : List Reply} (hn : n < (c.moves i).length)
    (ha : planAccepts c (firstMoves c i n) qs = true) (hc : i = .romall → c.crcsRight (firstMoves c i n) qs) :
    c.Reaches i (firstMoves c i n) qs (moveAt c i n).1 (moveAt c i n).2 where
  plan := by
    refine ⟨(c.moves i).take n, (c.moves i).drop (n + 1), ?_, rfl⟩
    have h : (moveAt c i n) = (c.moves i)[n] := by simp [moveAt, hn]
    rw [h, ← List.drop_eq_getElem_cons hn, List.take_append_drop]
  accepted := ha
  crcs := hc

/-- Two of each region, each with a bank switch; an acknowledge line, blanking and video sync. -/
def paired : Cfg :=
  { board with
    ackSignal := .line, hasBlanking := true, hasVsync := true
    romTable := [{ romRegion with bankSwitch := true }, { romRegion with bankSwitch := true, start := 0x1000 }]
    ramTable := [{ ramRegion with bankSwitch := true, last := 0x6001 },
      { ramRegion with bankSwitch := true, start := 0x02007000, last := 0x02007001 },
      { ramRegion with start := 0x08007000, last := 0x08007001 }]
    addressRemap := some [((5, 0x2000), 0x10002000)] }

theorem paired_wf : paired.wf = true := by decide +kernel

theorem paired_fits : paired.tablesFit = true := by decide +kernel

/-- A reply on it: a bank switch that succeeds, or a cycle that does, with this value. -/
def yes (v : Raw) : Reply := ⟨polled, v, 0, 0⟩

/-- The replies to the two passes over its first ROM region. -/
def firstRom : List Reply × List Reply :=
  ([yes 0, yes 1, yes 2, yes 4], [yes 0, yes 0, yes 1, yes 2, yes 3, yes 4, yes 5, yes 6, yes 7])

theorem romall_reaches {n : Nat} {here : List Move} {rs : List Reply} (hn : n < (paired.moves .romall).length)
    (hb : firstMoves paired .romall n = paired.romAllPlan 0 (paired.romTable.take 1) ++ here)
    (hl : here.length < 13) (ha : planAccepts paired (firstMoves paired .romall n) (firstRom.1 ++ firstRom.2 ++ rs) = true) :
    paired.Reaches .romall (firstMoves paired .romall n) (firstRom.1 ++ firstRom.2 ++ rs) (moveAt paired .romall n).1
      (moveAt paired .romall n).2 :=
  reaches_of hn ha fun _ => ⟨1, _, here, [firstRom], rs, rfl, hb, by simp, by decide +kernel, by
    have h : (paired.samplePlan 1 { romRegion with bankSwitch := true, start := 0x1000 }
      ++ paired.romPlan 1 { romRegion with bankSwitch := true, start := 0x1000 }).length = 13 := by decide +kernel
    exact h ▸ hl⟩

/-- A cycle on it after the toggle of its pre-phase. -/
def toggled (v : Raw) : Reply := ⟨{ polled with pre := [1, 0] }, v, 0, 0⟩

/-- The replies to the write phase of RAMCS on it. -/
def crossWrites : List Reply := [yes 0, yes 0, yes 0, yes 0, toggled 0, toggled 0, toggled 0, toggled 0]

theorem witness_SuccessHasNoReason :
    (∃ (i : Instr) (s t : State), s.Inv ∧ exec i s = .next t ∧ t.result.code = .success)
      ∧ ∃ (i : Instr) (s t : State), s.Inv ∧ exec i s = .next t ∧ t.result.info ≠ .none :=
  ⟨⟨.mrd 0x6000, idled z80 [1, 1, 0xA5], _, idled_inv (by decide) _, next_after (by decide +kernel), by decide +kernel⟩,
    .mrd 0x04006000, idled z80 [], _, idled_inv (by decide) _, next_after (by decide +kernel), by decide +kernel⟩

/-- The sources of a Mismatch: a bank switch, CHECK, a ROM sample, a ROM CRC, a march and a vector. -/
theorem witness_WhoRaisesMismatch : ∀ x ∈ [
      (Instr.romchk 0, idled banked [2]), (.check, idled { z80 with checkItems := [.reset] } [1]),
      (.romchk 0, idled board (reads [1, 6])),
      (.romchk 0, idled board (reads [1, 2, 4, 0, 1, 2, 3, 4, 5, 6, 0x17])),
      (.rammarch 0 7, idled board ([1, 1, 1, 1] ++ reads [0])), (.ramcs 7, idled board ([1, 1, 1, 1] ++ reads [0])),
      (.romall, idled board (reads [1, 6])), (.ramaddr 0, idled board ([1, 1, 1, 1] ++ reads [0])),
      (.intchk 8 true 0 3, idled plain ([1] ++ reads [7]))],
    ∃ t, exec x.1 x.2 = .next t ∧ t.result.code = .mismatch := by
  intro x hx
  refine ⟨after x.1 x.2, next_after ?_, ?_⟩
  · revert x; decide +kernel
  · revert x; decide +kernel

theorem witness_WhoRaisesUnexpected :
    (∃ s t : State, exec (.intchk 8 true 0 3) s = .next t ∧ t.result.code = .unexpected)
      ∧ ∃ s t : State, exec (.ioin 0) s = .next t ∧ t.result.code = .unexpected :=
  ⟨⟨idled plain ([1] ++ reads [3] ++ [1]), _, next_after (by decide +kernel), by decide +kernel⟩,
    idled banked [4], _, next_after (by decide +kernel), by decide +kernel⟩

theorem witness_FailedCheckForcesIdle : ∃ s t : State,
    s.idled = true ∧ exec .check s = .next t ∧ t.result.code ≠ .success :=
  ⟨idled { z80 with checkItems := [.vcc, .reset, .clock] } [1, 1], _, rfl, next_after (by decide +kernel), by decide +kernel⟩

/-- One command of each shape CommandFrame names. -/
theorem witness_CommandFrame : ∀ x ∈ [
      (Instr.idle, ([] : List Raw)), (.check, [1, 0, 0]), (.busw 0, []), (.accw 0x04000001, []), (.mrd 0x6000, [1, 0xA5]),
      (.mwr 0x6000 0x5A, [1]), (.iack, [1, 3]), (.wint 8 true 0, [1]), (.romall, reads [1, 2, 5]), (.romraw, reads [0, 1]),
      (.romchk 0, reads [1, 6]), (.romcrc 0, reads [0, 1, 2, 3, 4, 5, 6, 7]), (.rammarch 0 7, [0, 0]), (.ramcs 7, [0, 0]),
      (.ramaddr 0, [1, 0, 0]), (.ramfill 0 0x55, [1, 1, 1, 1]), (.ramread 0, reads [9, 8, 7, 6]), (.ioin 0, reads [0xA7]),
      (.ioout 0 true, [1]), (.intchk 8 false 0 0, [1, 0])],
    ∃ s t, State.Inv s ∧ s.idled = true ∧ exec x.1 s = .next t := by
  intro x hx
  have h : ends x.1 (idled board x.2) = true := by revert x; decide +kernel
  exact ⟨idled board x.2, _, idled_inv (by decide +kernel) _, rfl, next_after h⟩

/-- Every item passes; and the second fails where the first passed. The clock item passes at its last sample, and
fails at its last one. -/
theorem witness_CheckTestsItsItems :
    (∃ (s : State) (xs : List (CheckItem × List Raw)) (rest : List Raw), s.idled = true
      ∧ s.cfg.checkItems = xs.map Prod.fst ∧ (∀ x ∈ xs, x.1.passes s.cfg x.2 = true)
      ∧ s.script = xs.flatMap Prod.snd ++ rest)
    ∧ (∃ (s : State) (xs : List (CheckItem × List Raw)) (later : List CheckItem) (answers rest : List Raw),
      s.idled = true ∧ s.cfg.checkItems = xs.map Prod.fst ++ .reset :: later
      ∧ (∀ x ∈ xs, x.1.passes s.cfg x.2 = true) ∧ CheckItem.fails s.cfg .reset true answers = true
      ∧ s.script = xs.flatMap Prod.snd ++ answers ++ rest)
    ∧ ∃ (s : State) (xs : List (CheckItem × List Raw)) (later : List CheckItem) (answers rest : List Raw),
      s.idled = true ∧ s.cfg.checkItems = xs.map Prod.fst ++ .clock :: later
      ∧ (∀ x ∈ xs, x.1.passes s.cfg x.2 = true) ∧ CheckItem.fails s.cfg .clock false answers = true
      ∧ s.script = xs.flatMap Prod.snd ++ answers ++ rest :=
  ⟨⟨idled { z80 with checkItems := [.vcc, .reset, .clock] } [1, 0, 1, 1, 0, 9], [(.vcc, [1]), (.reset, [0]), (.clock, [1, 1, 0])],
      [9], rfl, rfl, by decide +kernel, rfl⟩,
    ⟨idled { z80 with checkItems := [.vcc, .reset, .clock] } [1, 1, 9], [(.vcc, [1])], [.clock], [1], [9], rfl, rfl,
      by decide +kernel, by decide +kernel, rfl⟩,
    idled { z80 with checkItems := [.vcc, .clock] } [1, 0, 0, 0, 9], [(.vcc, [1])], [], [0, 0, 0], [9], rfl, rfl,
      by decide +kernel, by decide +kernel, rfl⟩

theorem witness_WidthQueries : ∃ s : State, s.idled = true := ⟨idled (on .m68000) [], rfl⟩

/-- Address words that meet the hypothesis of each clause, at the edges of the selectors. -/
theorem witness_AddressValidation :
    (∃ la : Word, la.toNat / 2 ^ 28 ≠ 0 ∧ z80.decodeAddr la = .error .reservedAddressBits)
      ∧ (∃ la : Word, la.toNat / 2 ^ 28 = 0 ∧ la.getLsbD 25 = true ∧ la.getLsbD 27 = true)
      ∧ (∃ la : Word, la.toNat / 2 ^ 28 = 0 ∧ ¬(la.getLsbD 25 = true ∧ la.getLsbD 27 = true)
        ∧ la.getLsbD 24 = true ∧ (on .m68000).hasIoSpace = false)
      ∧ (∃ la : Word, la.toNat / 2 ^ 28 = 0 ∧ ¬(la.getLsbD 25 = true ∧ la.getLsbD 27 = true)
        ∧ la.getLsbD 25 = true ∧ z80.hasBlanking = false)
      ∧ (∃ la : Word, la.toNat / 2 ^ 28 = 0 ∧ ¬(la.getLsbD 25 = true ∧ z80.hasBlanking = false)
        ∧ la.getLsbD 27 = true ∧ z80.hasVsync = false)
      ∧ (∃ la : Word, la.toNat / 2 ^ 28 = 0 ∧ la.getLsbD 26 = true ∧ z80.busWidth = .one)
      ∧ (∃ la : Word, la.toNat / 2 ^ 28 = 0 ∧ (on .m68000).busWidth = .two ∧ la.getLsbD 26 = false ∧ la.getLsbD 0 = true)
      ∧ ∃ la : Word, (on .m68000).decodeAddr la = .ok ⟨.mem, .none, 0xFFFFFF, .one, .low⟩ :=
  ⟨⟨0x10000000, by decide +kernel, by decide +kernel⟩, ⟨0x0A000000, by decide +kernel, by decide +kernel, by decide +kernel⟩,
    ⟨0x01000000, by decide +kernel, by decide +kernel, by decide +kernel, by decide +kernel⟩, ⟨0x02000000, by decide +kernel, by decide +kernel, by decide +kernel, by decide +kernel⟩,
    ⟨0x08000000, by decide +kernel, by decide +kernel, by decide +kernel, by decide +kernel⟩, ⟨0x04000000, by decide +kernel, by decide +kernel, by decide +kernel⟩,
    ⟨0x00000001, by decide +kernel, by decide +kernel, by decide +kernel, by decide +kernel⟩, ⟨0x04FFFFFF, by decide +kernel⟩⟩

theorem witness_AddressRefusedBeforeTheBus : ∃ (s : State) (addr : Word) (e : Info),
    s.idled = true ∧ s.EngineIdle ∧ s.cfg.decodeAddr addr = .error e :=
  ⟨idled z80 [], 0x04006000, .noLanes, rfl, idled_engineIdle _ _, by decide +kernel⟩

/-- With an acknowledge seen at the second poll, and with each pre-phase. -/
theorem witness_ReadCompletes :
    (∃ (s : State) (addr : Word) (a : Access) (h : Handshake) (bus : Raw) (rest : List Raw), s.idled = true
      ∧ s.EngineIdle ∧ s.cfg.decodeAddr addr = .ok a ∧ h.fits s.cfg .read a.pre = true ∧ s.script = h.answers ++ bus :: rest)
    ∧ (∃ h : Handshake, h.fits { z80 with hasBlanking := true } .read .waitSpace = true)
    ∧ ∃ h : Handshake, h.fits { z80 with hasVsync := true } .read .vsync = true :=
  ⟨⟨idled z80 [1, 0, 1, 0xA5, 7], 0x6000, ⟨.mem, .none, 0x6000, .one, .low⟩, polled, 0xA5, [7], rfl,
      idled_engineIdle _ _, by decide +kernel, by decide +kernel, rfl⟩,
    ⟨{ polled with pre := [0, 1, 1, 0] }, by decide +kernel⟩, { polled with pre := [1, 0], ack := [0, 0, 1] }, by decide +kernel⟩

/-- On an 8-bit bus; and on one lane of a 16-bit bus, where the unused lane is drawn. -/
theorem witness_WriteCompletes :
    (∃ (s : State) (addr : Word) (a : Access) (h : Handshake) (draw : Raw) (rest : List Raw), s.idled = true
      ∧ s.EngineIdle ∧ s.cfg.decodeAddr addr = .ok a ∧ h.fits s.cfg .write a.pre = true
      ∧ s.script = h.answers ++ laneDraw s.cfg a.w draw ++ rest)
    ∧ ∃ (s : State) (addr : Word) (a : Access) (h : Handshake) (draw : Raw) (rest : List Raw), s.idled = true
      ∧ s.EngineIdle ∧ s.cfg.decodeAddr addr = .ok a ∧ h.fits s.cfg .write a.pre = true
      ∧ laneDraw s.cfg a.w draw = [draw] ∧ s.script = h.answers ++ laneDraw s.cfg a.w draw ++ rest :=
  ⟨⟨idled z80 [1, 0, 1, 7], 0x6000, ⟨.mem, .none, 0x6000, .one, .low⟩, polled, 0, [7], rfl, idled_engineIdle _ _,
      by decide +kernel, by decide +kernel, rfl⟩,
    idled (on .m68000) [1, 0, 1, 0xEE, 7], 0x04001001, ⟨.mem, .none, 0x1001, .one, .low⟩, polled, 0xEE, [7], rfl,
      idled_engineIdle _ _, by decide +kernel, by decide +kernel, by decide +kernel, rfl⟩

/-- The Z80 board with a blanking and a video-sync input. -/
def screened : Cfg := { z80 with hasBlanking := true, hasVsync := true }

/-- A read and a write of a legal address, with an acknowledge, without one, and without a clock edge; and a read in
wait space and one in video-sync space without a toggle. -/
theorem witness_AtMostOneCycle : ∀ x ∈ [
      (Instr.mrd 0x6000, CycleKind.read, (0 : Datum), (⟨.mem, .none, 0x6000, .one, .low⟩ : Access), ([1, 1, 0xA5] : List Raw)),
      (.mrd 0x6000, .read, 0, ⟨.mem, .none, 0x6000, .one, .low⟩, [1, 0, 0, 0]),
      (.mwr 0x6000 0x107, .write, 7, ⟨.mem, .none, 0x6000, .one, .low⟩, [1, 1]),
      (.mwr 0x6000 0x107, .write, 7, ⟨.mem, .none, 0x6000, .one, .low⟩, [0, 0]),
      (.mrd 0x02006000, .read, 0, ⟨.mem, .waitSpace, 0x6000, .one, .low⟩, [0, 0, 0, 0]),
      (.mrd 0x08006000, .read, 0, ⟨.mem, .vsync, 0x6000, .one, .low⟩, [0, 0, 0, 0])],
    ∃ (s t : State) (addr : Word), s.Inv ∧ s.idled = true
      ∧ (x.1 = .mrd addr ∧ x.2.1 = .read ∧ x.2.2.1 = 0
        ∨ (∃ data, x.1 = .mwr addr data
          ∧ x.2.2.1 = if x.2.2.2.1.w = .one then (data.extractLsb' 0 8).zeroExtend 16 else data) ∧ x.2.1 = .write)
      ∧ s.cfg.decodeAddr addr = .ok x.2.2.2.1 ∧ exec x.1 s = .next t := by
  intro x hx
  have h : ends x.1 (idled screened x.2.2.2.2) = true := by
    revert x; decide +kernel
  refine ⟨idled screened x.2.2.2.2, after x.1 (idled screened x.2.2.2.2), ?_⟩
  simp only [List.mem_cons, List.not_mem_nil, or_false] at hx
  rcases hx with rfl | rfl | rfl | rfl | rfl | rfl
  · exact ⟨0x6000, idled_inv (by decide +kernel) _, rfl, .inl ⟨rfl, rfl, rfl⟩, by decide +kernel, next_after h⟩
  · exact ⟨0x6000, idled_inv (by decide +kernel) _, rfl, .inl ⟨rfl, rfl, rfl⟩, by decide +kernel, next_after h⟩
  · exact ⟨0x6000, idled_inv (by decide +kernel) _, rfl, .inr ⟨⟨0x107, rfl, by decide +kernel⟩, rfl⟩, by decide +kernel, next_after h⟩
  · exact ⟨0x6000, idled_inv (by decide +kernel) _, rfl, .inr ⟨⟨0x107, rfl, by decide +kernel⟩, rfl⟩, by decide +kernel, next_after h⟩
  · exact ⟨0x02006000, idled_inv (by decide +kernel) _, rfl, .inl ⟨rfl, rfl, rfl⟩, by decide +kernel, next_after h⟩
  · exact ⟨0x08006000, idled_inv (by decide +kernel) _, rfl, .inl ⟨rfl, rfl, rfl⟩, by decide +kernel, next_after h⟩

/-- Answers that time out each of the four waits, at its limit. -/
theorem witness_BoundedWaitsTimeOut :
    (∃ (s : State) (addr : Word) (a : Access) (h : Handshake) (rest : List Raw), s.idled = true ∧ s.EngineIdle
      ∧ s.cfg.decodeAddr addr = .ok a ∧ h.unanswered s.cfg .read a.pre = true ∧ s.script = h.answersToAck ++ rest)
    ∧ (∃ (s : State) (addr : Word) (a : Access) (h : Handshake) (rest : List Raw), s.idled = true ∧ s.EngineIdle
      ∧ s.cfg.decodeAddr addr = .ok a ∧ h.unsynchronized s.cfg a.pre = true ∧ s.script = h.pre ++ h.edge ++ rest)
    ∧ (∃ (s : State) (addr : Word) (a : Access) (x : Raw) (xs rest : List Raw), s.idled = true ∧ s.EngineIdle
      ∧ s.cfg.decodeAddr addr = .ok a ∧ a.pre = .waitSpace ∧ xs.length = s.cfg.waitSyncLimit
      ∧ neverToggles (levelOf x) xs = true ∧ s.script = x :: xs ++ rest)
    ∧ ∃ (s : State) (addr : Word) (a : Access) (x : Raw) (xs rest : List Raw), s.idled = true ∧ s.EngineIdle
      ∧ s.cfg.decodeAddr addr = .ok a ∧ a.pre = .vsync ∧ xs.length = s.cfg.vsyncLimit
      ∧ neverToggles (levelOf x) xs = true ∧ s.script = x :: xs ++ rest :=
  ⟨⟨idled z80 [1, 0, 0, 0, 7], 0x6000, ⟨.mem, .none, 0x6000, .one, .low⟩, silent, [7], rfl, idled_engineIdle _ _,
      by decide +kernel, by decide +kernel, rfl⟩,
    ⟨idled z80 [0, 0, 7], 0x6000, ⟨.mem, .none, 0x6000, .one, .low⟩, { silent with edge := [0, 0] }, [7], rfl,
      idled_engineIdle _ _, by decide +kernel, by decide +kernel, rfl⟩,
    ⟨idled { z80 with hasBlanking := true } [0, 0, 1, 1, 7], 0x02006000, ⟨.mem, .waitSpace, 0x6000, .one, .low⟩, 0,
      [0, 1, 1], [7], rfl, idled_engineIdle _ _, by decide +kernel, rfl, rfl, by decide +kernel, rfl⟩,
    idled { z80 with hasVsync := true } [1, 1, 1, 1, 7], 0x08006000, ⟨.mem, .vsync, 0x6000, .one, .low⟩, 1,
      [1, 1, 1], [7], rfl, idled_engineIdle _ _, by decide +kernel, rfl, rfl, by decide +kernel, rfl⟩

/-- The last sample hits; every sample misses; there is no such line. `SAMPLES(3000)` is 3 here. -/
theorem witness_WaitForInterruptLine :
    (∃ (s : State) (idx : Byte) (timeout : Word) (l : Line) (misses : List Raw) (hit : Raw) (rest : List Raw),
      s.idled = true ∧ s.EngineIdle ∧ s.cfg.lineAt idx = some l ∧ misses.length + 1 = s.cfg.samples timeout
      ∧ (∀ x ∈ misses, lineLevelOf s.cfg l x ≠ true) ∧ lineLevelOf s.cfg l hit = true
      ∧ s.script = misses ++ hit :: rest)
    ∧ (∃ (s : State) (idx : Byte) (timeout : Word) (l : Line) (misses rest : List Raw),
      s.idled = true ∧ s.EngineIdle ∧ s.cfg.lineAt idx = some l ∧ misses.length = s.cfg.samples timeout
      ∧ (∀ x ∈ misses, lineLevelOf s.cfg l x ≠ true) ∧ s.script = misses ++ rest)
    ∧ ∃ (s : State) (idx : Byte), s.idled = true ∧ s.EngineIdle ∧ s.cfg.lineAt idx = none :=
  ⟨⟨idled z80 [0, 0, 1, 7], 8, 3000, .nmi, [0, 0], 1, [7], rfl, idled_engineIdle _ _, by decide +kernel, by decide +kernel, not_active (by decide +kernel),
      by decide +kernel, rfl⟩,
    ⟨idled z80 [0, 0, 0, 7], 8, 3000, .nmi, [0, 0, 0], [7], rfl, idled_engineIdle _ _, by decide +kernel, by decide +kernel, not_active (by decide +kernel),
      rfl⟩,
    idled z80 [], 9, rfl, idled_engineIdle _ _, by decide +kernel⟩

/-- The edges of the numbering: 9 and 255 name no line, 8 no line of the M68000, 7 and 0 none of these families. -/
theorem witness_NoSuchLine :
    (∃ (s : State) (idx : Byte), s.idled = true ∧ s.EngineIdle ∧ idx.toNat = 9)
      ∧ (∃ (s : State) (idx : Byte), s.idled = true ∧ s.EngineIdle ∧ idx.toNat = 255)
      ∧ (∃ (s : State) (idx : Byte), s.idled = true ∧ s.EngineIdle ∧ idx.toNat = 8 ∧ Line.nmi ∉ s.cfg.lines)
      ∧ (∃ (s : State) (idx : Byte), s.idled = true ∧ s.EngineIdle
        ∧ ∃ n : Fin 8, idx.toNat = n.val ∧ n = 7 ∧ Line.irq n ∉ s.cfg.lines)
      ∧ ∃ (s : State) (idx : Byte), s.idled = true ∧ s.EngineIdle
        ∧ ∃ n : Fin 8, idx.toNat = n.val ∧ n = 0 ∧ Line.irq n ∉ s.cfg.lines :=
  ⟨⟨idled z80 [], 9, rfl, idled_engineIdle _ _, rfl⟩, ⟨idled z80 [], 255, rfl, idled_engineIdle _ _, rfl⟩,
    ⟨idled (on .m68000) [], 8, rfl, idled_engineIdle _ _, rfl, by decide +kernel⟩,
    ⟨idled z80 [], 7, rfl, idled_engineIdle _ _, 7, rfl, rfl, by decide +kernel⟩,
    idled (on .m68000) [], 0, rfl, idled_engineIdle _ _, 0, rfl, rfl, by decide +kernel⟩

/-- An acknowledge of each kind. -/
theorem witness_AcknowledgeCompletes : ∀ x ∈ [
      (on .m6502, (⟨0, []⟩ : AckReply)), (z80, ⟨0, [⟨polled, 3, 0, 0⟩]⟩), (on .i8086, ⟨0, [⟨polled, 0xFF, 0, 0⟩, ⟨polled, 0x20, 0, 0⟩]⟩),
      (on .m68000, ⟨4, [⟨polled, 0x40, 0, 0⟩]⟩), (on .m68000, ⟨2, [⟨{ polled with ack := [2], seen := .vpa }, 0, 0, 0⟩]⟩)],
    ∃ (s : State) (rest : List Raw), s.cfg = x.1 ∧ s.idled = true ∧ s.EngineIdle ∧ x.2.fits s.cfg = true
      ∧ s.script = x.2.answers s.cfg ++ rest := by
  intro x hx
  have h : x.2.fits x.1 = true := by revert x; decide +kernel
  exact ⟨idled x.1 (x.2.answers x.1 ++ [7]), [7], rfl, rfl, idled_engineIdle _ _, h, rfl⟩

/-- The Abort of an acknowledge cycle. -/
def abortAck (c : Cfg) (level : Raw) : Event := .abort .ack .mem (AckReply.address c ⟨level, []⟩) .one .low .p3

/-- The Cyc of the first acknowledge cycle. -/
def cycAck (c : Cfg) (d : Datum) : Event := .cyc .ack .mem (AckReply.address c ⟨0, []⟩) .one .low d

/-- A handshake that sees no clock edge in two polls. -/
def unclocked : Handshake := { silent with edge := [0, 0], ack := [] }

/-- The four ways an acknowledge stops: one cycle without an acknowledge, one without an edge, and the second cycle of
the kind `double` without either. -/
theorem acks_stop :
    AckStops (on .m68000) 4 .ackTimeout [4, 1, 0, 0, 0] [abortAck (on .m68000) 4]
      ∧ AckStops z80 0 .syncTimeout [0, 0] []
      ∧ AckStops (on .i8086) 0 .ackTimeout [1, 0, 1, 0xFF, 1, 0, 0, 0] [cycAck (on .i8086) 0xFF, abortAck (on .i8086) 0]
      ∧ AckStops (on .i8086) 0 .syncTimeout [1, 0, 1, 0xFF, 0, 0] [cycAck (on .i8086) 0xFF] :=
  ⟨⟨silent, _, _, .inl ⟨by decide +kernel, rfl, rfl, rfl⟩, .inl ⟨by decide +kernel, rfl⟩⟩,
    ⟨unclocked, _, _, .inr ⟨by decide +kernel, rfl, rfl, rfl⟩, .inl ⟨by decide +kernel, rfl⟩⟩,
    ⟨silent, _, _, .inl ⟨by decide +kernel, rfl, rfl, rfl⟩, .inr ⟨⟨polled, 0xFF, 0, 0⟩, by decide +kernel, by decide +kernel, rfl, rfl⟩⟩,
    ⟨unclocked, _, _, .inr ⟨by decide +kernel, rfl, rfl, rfl⟩, .inr ⟨⟨polled, 0xFF, 0, 0⟩, by decide +kernel, by decide +kernel, rfl, rfl⟩⟩⟩

theorem witness_AcknowledgeTimesOut : ∀ x ∈ [
      (on .m68000, (4 : Raw), Info.ackTimeout, ([4, 1, 0, 0, 0] : List Raw), [abortAck (on .m68000) 4]),
      (z80, 0, .syncTimeout, [0, 0], []),
      (on .i8086, 0, .ackTimeout, [1, 0, 1, 0xFF, 1, 0, 0, 0], [cycAck (on .i8086) 0xFF, abortAck (on .i8086) 0]),
      (on .i8086, 0, .syncTimeout, [1, 0, 1, 0xFF, 0, 0], [cycAck (on .i8086) 0xFF])],
    ∃ (s : State) (rest : List Raw), s.cfg = x.1 ∧ s.idled = true ∧ s.EngineIdle ∧ s.cfg.ackKind ≠ .none
      ∧ AckStops s.cfg x.2.1 x.2.2.1 x.2.2.2.1 x.2.2.2.2 ∧ s.script = x.2.2.2.1 ++ rest := by
  intro x hx
  refine ⟨idled x.1 (x.2.2.2.1 ++ [7]), [7], rfl, rfl, idled_engineIdle _ _, ?_⟩
  obtain ⟨h1, h2, h3, h4⟩ := acks_stop
  simp only [List.mem_cons, List.not_mem_nil, or_false] at hx
  rcases hx with rfl | rfl | rfl | rfl
  · exact ⟨by decide +kernel, h1, rfl⟩
  · exact ⟨by decide +kernel, h2, rfl⟩
  · exact ⟨by decide +kernel, h3, rfl⟩
  · exact ⟨by decide +kernel, h4, rfl⟩

/-- The replies of ROM-1's board: three samples, eight cells. -/
theorem witness_RomChkCompletes : ∃ (s : State) (idx : Byte) (rom : RomRegion) (ps qs : List Reply) (rest : List Raw),
    s.idled = true ∧ s.EngineIdle ∧ s.cfg.romTable[idx.toNat]? = some rom
    ∧ planAccepts s.cfg (s.cfg.samplePlan idx rom) ps = true ∧ planAccepts s.cfg (s.cfg.romPlan idx rom) qs = true
    ∧ s.cfg.crcOf rom (planValues s.cfg (s.cfg.romPlan idx rom) qs) = rom.crc32
    ∧ s.script = planAnswers s.cfg (s.cfg.samplePlan idx rom) ps ++ planAnswers s.cfg (s.cfg.romPlan idx rom) qs ++ rest :=
  ⟨idled board (reads [1, 2, 4, 0, 1, 2, 3, 4, 5, 6, 7] ++ [9]), 0, romRegion, replies [1, 2, 4],
    replies [0, 1, 2, 3, 4, 5, 6, 7], [9], rfl, idled_engineIdle _ _, by decide +kernel, by decide +kernel, by decide +kernel,
    by decide +kernel, by decide +kernel⟩

/-- With a bank switch, which answers Success. -/
theorem witness_RomCrcCompletes : ∃ (s : State) (idx : Byte) (rom : RomRegion) (qs : List Reply) (rest : List Raw),
    s.idled = true ∧ s.EngineIdle ∧ s.cfg.romTable[idx.toNat]? = some rom
    ∧ planAccepts s.cfg (s.cfg.romPlan idx rom) qs = true
    ∧ s.script = planAnswers s.cfg (s.cfg.romPlan idx rom) qs ++ rest :=
  ⟨idled banked ([0] ++ reads [0, 1, 2, 3, 4, 5, 6, 7]), 0, { romRegion with bankSwitch := true },
    ⟨quick, 0, 0, 0⟩ :: replies [0, 1, 2, 3, 4, 5, 6, 7], [], rfl, idled_engineIdle _ _, by decide +kernel, by decide +kernel,
    by decide +kernel⟩

theorem witness_RomRawCompletes : ∃ (s : State) (qs : List Reply) (rest : List Raw), s.idled = true ∧ s.EngineIdle
    ∧ planAccepts s.cfg s.cfg.romRawPlan qs = true ∧ s.script = planAnswers s.cfg s.cfg.romRawPlan qs ++ rest :=
  ⟨idled board (reads [0, 1, 2, 3, 4, 5, 6, 7]), replies [0, 1, 2, 3, 4, 5, 6, 7], [], rfl, idled_engineIdle _ _,
    by decide +kernel, by decide +kernel⟩

theorem witness_RomAllCompletes : ∃ (s : State) (ps : List (List Reply × List Reply)) (rest : List Raw),
    s.idled = true ∧ s.EngineIdle ∧ s.cfg.romAllAccepts 0 s.cfg.romTable ps = true
    ∧ s.script = planAnswers s.cfg (s.cfg.romAllPlan 0 s.cfg.romTable) (ps.flatMap fun p => p.1 ++ p.2) ++ rest :=
  ⟨idled { board with romTable := [romRegion, romRegion] }
      (reads [1, 2, 4, 0, 1, 2, 3, 4, 5, 6, 7] ++ reads [1, 2, 4, 0, 1, 2, 3, 4, 5, 6, 7]),
    [(replies [1, 2, 4], replies [0, 1, 2, 3, 4, 5, 6, 7]), (replies [1, 2, 4], replies [0, 1, 2, 3, 4, 5, 6, 7])], [],
    rfl, idled_engineIdle _ _, by decide +kernel, by decide +kernel⟩

/-- A sample that differs, the last one (`k = 2`); and a CRC that differs where the samples are right. Of ROMALL, a
sample of the second region, and the second region's CRC. -/
theorem witness_RomFirstMismatch :
    (∃ (s : State) (idx : Byte) (rom : RomRegion) (ps : List Reply) (rest : List Raw) (k : Nat) (r : Reply) (d : Datum)
      (before : List Move), s.idled = true ∧ s.EngineIdle ∧ s.cfg.romTable[idx.toNat]? = some rom
      ∧ k + 1 = sampleCount rom.length
      ∧ before = bankMoves .rom idx rom.bankSwitch ++ (List.range k).map (fun j =>
        .read ((s.cfg.romGeometry rom).cell (2 ^ j)) (s.cfg.romSample rom j) (BitVec.allOnes 16))
      ∧ planAccepts s.cfg before ps = true
      ∧ (Move.read ((s.cfg.romGeometry rom).cell (2 ^ k)) 0 0).accepts s.cfg r = true
      ∧ d = s.cfg.readValue ((s.cfg.romGeometry rom).cell (2 ^ k)) r
      ∧ d ≠ s.cfg.romSample rom k
      ∧ s.script = planAnswers s.cfg before ps
        ++ (Move.read ((s.cfg.romGeometry rom).cell (2 ^ k)) 0 0).answers s.cfg r ++ rest)
    ∧ (∃ (s : State) (idx : Byte) (rom : RomRegion) (ps qs : List Reply) (rest : List Raw) (f : Word), s.idled = true
      ∧ s.EngineIdle ∧ s.cfg.romTable[idx.toNat]? = some rom
      ∧ planAccepts s.cfg (s.cfg.samplePlan idx rom) ps = true ∧ planAccepts s.cfg (s.cfg.romPlan idx rom) qs = true
      ∧ f = s.cfg.crcOf rom (planValues s.cfg (s.cfg.romPlan idx rom) qs) ∧ f ≠ rom.crc32
      ∧ s.script = planAnswers s.cfg (s.cfg.samplePlan idx rom) ps ++ planAnswers s.cfg (s.cfg.romPlan idx rom) qs
        ++ rest)
    ∧ (∃ (s : State) (before : List Move) (qs : List Reply) (spot : Spot) (la : Word) (e m : Datum) (r : Reply)
      (rest : List Raw), s.idled = true ∧ s.EngineIdle ∧ s.cfg.Reaches .romall before qs spot (.read la e m)
      ∧ la = 0x1001 ∧ spot = ⟨.rom, 1, 0⟩ ∧ s.cfg.disagrees la e m r = true
      ∧ s.script = planAnswers s.cfg before qs ++ (Move.read la e m).answers s.cfg r ++ rest)
    ∧ ∃ (s : State) (k : Nat) (idx : Byte) (rom : RomRegion) (before : List Move) (done : List (List Reply × List Reply))
      (ps qs : List Reply) (f : Word) (rest : List Raw), k = 1 ∧ s.idled = true ∧ s.EngineIdle
      ∧ s.cfg.romTable[k]? = some rom ∧ idx = BitVec.ofNat 8 k
      ∧ before = s.cfg.romAllPlan 0 (s.cfg.romTable.take k) ++ s.cfg.samplePlan idx rom ++ s.cfg.romPlan idx rom
      ∧ s.cfg.romAllAccepts 0 (s.cfg.romTable.take k) done = true
      ∧ planAccepts s.cfg (s.cfg.samplePlan idx rom) ps = true ∧ planAccepts s.cfg (s.cfg.romPlan idx rom) qs = true
      ∧ f = s.cfg.crcOf rom (planValues s.cfg (s.cfg.romPlan idx rom) qs) ∧ f ≠ rom.crc32
      ∧ s.script = planAnswers s.cfg before ((done.flatMap fun p => p.1 ++ p.2) ++ ps ++ qs) ++ rest :=
  ⟨⟨idled board (reads [1, 2, 5] ++ [9]), 0, romRegion, replies [1, 2], [9], 2, ⟨quick, 5, 0, 0⟩, 5, _, rfl,
      idled_engineIdle _ _, by decide +kernel, by decide +kernel, rfl, by decide +kernel, by decide +kernel, by decide +kernel,
      by decide +kernel, by decide +kernel⟩,
    ⟨idled board (reads [1, 2, 4, 0, 1, 2, 3, 4, 5, 6, 0x17]), 0, romRegion, replies [1, 2, 4],
      replies [0, 1, 2, 3, 4, 5, 6, 0x17], [], 0x951D78FB, rfl, idled_engineIdle _ _, by decide +kernel, by decide +kernel,
      by decide +kernel, by decide +kernel, by decide +kernel, by decide +kernel⟩,
    ⟨idled { board with romTable := [romRegion, { romRegion with start := 0x1000 }] }
        (reads [1, 2, 4, 0, 1, 2, 3, 4, 5, 6, 7, 9] ++ [3]), _, replies [1, 2, 4, 0, 1, 2, 3, 4, 5, 6, 7], _, 0x1001, 1,
      0xFFFF, ⟨quick, 9, 0, 0⟩, [3], rfl, idled_engineIdle _ _, reaches_of (n := 11) (by decide +kernel) (by decide +kernel) fun _ =>
        ⟨1, _, [], [(replies [1, 2, 4], replies [0, 1, 2, 3, 4, 5, 6, 7])], [], rfl, by decide +kernel, by decide +kernel,
          by decide +kernel, by decide +kernel⟩, rfl, by decide +kernel, by decide +kernel, by decide +kernel⟩,
    idled { board with romTable := [romRegion, { romRegion with start := 0x1000 }] }
        (reads [1, 2, 4, 0, 1, 2, 3, 4, 5, 6, 7, 1, 2, 4, 0, 1, 2, 3, 4, 5, 6, 0x17] ++ [3]), 1, 1, _, _,
      [(replies [1, 2, 4], replies [0, 1, 2, 3, 4, 5, 6, 7])], replies [1, 2, 4], replies [0, 1, 2, 3, 4, 5, 6, 0x17],
      0x951D78FB, [3], rfl, rfl, idled_engineIdle _ _, rfl, rfl, rfl, by decide +kernel, by decide +kernel, by decide +kernel,
      by decide +kernel, by decide +kernel, by decide +kernel⟩

/-- The replies of RAM-4's board. -/
def marchReplies : List Reply :=
  replies [0, 0, 0, 0, 0x20, 0xDA, 0xCC, 0x4E, 0, 0, 0, 0, 0xDF, 0x25, 0x33, 0xB1]

theorem witness_RamMarchCompletes : ∃ (s : State) (idx : Byte) (seed : Word) (ram : RamRegion) (qs : List Reply)
    (rest : List Raw), s.idled = true ∧ s.EngineIdle ∧ s.cfg.ramTable[idx.toNat]? = some ram
    ∧ planAccepts s.cfg (s.cfg.marchPlan idx ram seed) qs = true
    ∧ s.script = planAnswers s.cfg (s.cfg.marchPlan idx ram seed) qs ++ rest :=
  ⟨idled board ([1, 1, 1, 1] ++ reads [0x20, 0xDA, 0xCC, 0x4E] ++ [1, 1, 1, 1] ++ reads [0xDF, 0x25, 0x33, 0xB1]), 0, 7,
    ramRegion, marchReplies, [], rfl, idled_engineIdle _ _, by decide +kernel, by decide +kernel, by decide +kernel⟩

/-- RAM-5's mismatch in the second pass; and one at the first cell of the first. Of RAMCS, the first cell of the
second region; of RAMADDR, a cell that holds what was written to its neighbour. -/
theorem witness_RamFirstMismatch : (∀ x ∈ [
      (true, 2, marchReplies.take 14, (0x32 : Raw)), (false, 0, replies [0, 0, 0, 0], 0x21)],
    ∃ (s : State) (idx : Byte) (seed : Word) (ram : RamRegion) (before : List Move) (r : Reply) (la : Word) (d : Datum)
      (rest : List Raw), s.idled = true ∧ s.EngineIdle ∧ s.cfg.ramTable[idx.toNat]? = some ram
      ∧ x.2.1 < (s.cfg.ramGeometry ram).count
      ∧ before = bankMoves .ram idx ram.bankSwitch ++ s.cfg.writePlan ram seed false
        ++ (if x.1 then s.cfg.verifyPlan ram seed false ++ s.cfg.writePlan ram seed true else [])
        ++ (s.cfg.verifyPlan ram seed x.1).take x.2.1
      ∧ planAccepts s.cfg before x.2.2.1 = true ∧ la = (s.cfg.ramGeometry ram).cell x.2.1
      ∧ (Move.read la 0 0).accepts s.cfg r = true ∧ d = s.cfg.readValue la r
      ∧ d &&& s.cfg.ramMask ram ≠ s.cfg.marchValue ram seed x.1 x.2.1 &&& s.cfg.ramMask ram
      ∧ s.script = planAnswers s.cfg before x.2.2.1 ++ (Move.read la 0 0).answers s.cfg r ++ rest)
    ∧ ∀ x ∈ [(Instr.ramcs 7, 12, crossWrites ++ [yes 0, yes 0x20, yes 0xDA, yes 0], toggled 0x3B,
          (0x02007000 : Word), (0x3A : Datum)),
        (.ramaddr 0, 5, [yes 0, yes 0, yes 0, yes 0, yes 0xFF], yes 0xFF, 0x6001, 0)],
      ∃ (s : State) (before : List Move) (spot : Spot) (rest : List Raw),
        ((∃ seed, x.1 = .ramcs seed) ∨ ∃ idx, x.1 = .ramaddr idx) ∧ s.idled = true ∧ s.EngineIdle
        ∧ s.cfg.tablesFit = true ∧ s.cfg.Reaches x.1 before x.2.2.1 spot (.read x.2.2.2.2.1 x.2.2.2.2.2 0xFF)
        ∧ s.cfg.disagrees x.2.2.2.2.1 x.2.2.2.2.2 0xFF x.2.2.2.1 = true
        ∧ s.script = planAnswers s.cfg before x.2.2.1
          ++ (Move.read x.2.2.2.2.1 x.2.2.2.2.2 0xFF).answers s.cfg x.2.2.2.1 ++ rest := by
  refine ⟨?_, fun x hx => ?_⟩
  rotate_left
  · have h1 : x.2.1 < (paired.moves x.1).length := by revert x; decide +kernel
    have h2 : planAccepts paired (firstMoves paired x.1 x.2.1) x.2.2.1 = true := by revert x; decide +kernel
    have h3 : (moveAt paired x.1 x.2.1).2 = .read x.2.2.2.2.1 x.2.2.2.2.2 0xFF := by revert x; decide +kernel
    have h4 : paired.disagrees x.2.2.2.2.1 x.2.2.2.2.2 0xFF x.2.2.2.1 = true := by revert x; decide +kernel
    have h5 : x.1 ≠ .romall := by revert x; decide +kernel
    refine ⟨idled paired (planAnswers paired (firstMoves paired x.1 x.2.1) x.2.2.1
        ++ (Move.read x.2.2.2.2.1 x.2.2.2.2.2 0xFF).answers paired x.2.2.2.1 ++ [7]), _, _, [7], ?_, rfl,
      idled_engineIdle _ _, paired_fits, h3 ▸ reaches_of h1 h2 fun h => absurd h h5, h4, rfl⟩
    simp only [List.mem_cons, List.not_mem_nil, or_false] at hx
    rcases hx with rfl | rfl
    · exact .inl ⟨_, rfl⟩
    · exact .inr ⟨_, rfl⟩
  intro x hx
  simp only [List.mem_cons, List.not_mem_nil, or_false] at hx
  rcases hx with rfl | rfl
  · exact ⟨idled board ([1, 1, 1, 1] ++ reads [0x20, 0xDA, 0xCC, 0x4E] ++ [1, 1, 1, 1] ++ reads [0xDF, 0x25, 0x32]), 0, 7,
      ramRegion, _, ⟨quick, 0x32, 0, 0⟩, 0x6002, 0x32, [], rfl, idled_engineIdle _ _, by decide +kernel, by decide +kernel, rfl,
      by decide +kernel, by decide +kernel, by decide +kernel, by decide +kernel, by decide +kernel, by decide +kernel⟩
  · exact ⟨idled board ([1, 1, 1, 1] ++ reads [0x21]), 0, 7, ramRegion, _, ⟨quick, 0x21, 0, 0⟩, 0x6000, 0x21, [], rfl,
      idled_engineIdle _ _, by decide +kernel, by decide +kernel, rfl, by decide +kernel, by decide +kernel, by decide +kernel,
      by decide +kernel, by decide +kernel, by decide +kernel⟩

/-- Two separate regions: RAM-2's pattern in the second. -/
theorem witness_RamCsCompletes : ∃ (s : State) (seed : Word) (qs : List Reply) (rest : List Raw), s.idled = true
    ∧ s.EngineIdle ∧ s.cfg.tablesFit = true ∧ planAccepts s.cfg (s.cfg.crossPlan seed) qs = true
    ∧ s.script = planAnswers s.cfg (s.cfg.crossPlan seed) qs ++ rest :=
  ⟨idled { board with ramTable := [ramRegion, { ramRegion with start := 0x7000, last := 0x7001 }] }
      (List.replicate 6 1 ++ reads [0x20, 0xDA, 0xCC, 0x4E, 0x3A, 0x13]), 7,
    replies [0, 0, 0, 0, 0, 0, 0x20, 0xDA, 0xCC, 0x4E, 0x3A, 0x13], [], rfl, idled_engineIdle _ _, by decide +kernel,
    by decide +kernel, by decide +kernel⟩

/-- RAM-7's board. -/
theorem witness_RamAddrCompletes : ∃ (s : State) (idx : Byte) (ram : RamRegion) (qs : List Reply) (rest : List Raw),
    s.idled = true ∧ s.EngineIdle ∧ s.cfg.ramTable[idx.toNat]? = some ram
    ∧ planAccepts s.cfg (s.cfg.boundaryPlan idx ram) qs = true
    ∧ s.script = planAnswers s.cfg (s.cfg.boundaryPlan idx ram) qs ++ rest :=
  ⟨idled board ([1, 1, 1] ++ ([1] ++ reads [0xFF, 0, 0] ++ [1]) ++ ([1] ++ reads [0, 0xFF, 0] ++ [1])
      ++ ([1] ++ reads [0, 0, 0xFF] ++ [1])), 0, ramRegion,
    replies [0, 0, 0, 0, 0xFF, 0, 0, 0, 0, 0, 0xFF, 0, 0, 0, 0, 0, 0xFF, 0], [], rfl, idled_engineIdle _ _, by decide +kernel,
    by decide +kernel, by decide +kernel⟩

theorem witness_RamFillCompletes : ∃ (s : State) (idx : Byte) (value : Datum) (ram : RamRegion) (qs : List Reply)
    (rest : List Raw), s.idled = true ∧ s.EngineIdle ∧ s.cfg.ramTable[idx.toNat]? = some ram
    ∧ planAccepts s.cfg (s.cfg.fillPlan idx ram value) qs = true
    ∧ s.script = planAnswers s.cfg (s.cfg.fillPlan idx ram value) qs ++ rest :=
  ⟨idled board [1, 1, 1, 1], 0, 0x55, ramRegion, replies [0, 0, 0, 0], [], rfl, idled_engineIdle _ _, by decide +kernel,
    by decide +kernel, by decide +kernel⟩

theorem witness_RamReadCompletes : ∃ (s : State) (idx : Byte) (ram : RamRegion) (qs : List Reply) (rest : List Raw),
    s.idled = true ∧ s.EngineIdle ∧ s.cfg.ramTable[idx.toNat]? = some ram
    ∧ planAccepts s.cfg (s.cfg.ramReadPlan idx ram) qs = true
    ∧ s.script = planAnswers s.cfg (s.cfg.ramReadPlan idx ram) qs ++ rest :=
  ⟨idled board (reads [9, 8, 7, 6]), 0, ramRegion, replies [9, 8, 7, 6], [], rfl, idled_engineIdle _ _, by decide +kernel,
    by decide +kernel, by decide +kernel⟩

/-- RAM-4's march, at its last cell and its highest masked bit. -/
theorem witness_StuckBitIsCaught : ∃ (s t : State) (idx : Byte) (seed : Word) (ram : RamRegion) (a : Access) (i b : Nat),
    s.Inv ∧ s.idled = true ∧ s.cfg.addressRemap = none ∧ s.cfg.dataRemap = none
    ∧ s.cfg.ramTable[idx.toNat]? = some ram ∧ exec (.rammarch idx seed) s = .next t ∧ t.result.code = .success
    ∧ i + 1 = (s.cfg.ramGeometry ram).count ∧ s.cfg.decodeAddr ((s.cfg.ramGeometry ram).cell i) = .ok a
    ∧ (s.cfg.ramMask ram).getLsbD b = true :=
  ⟨idled board ([1, 1, 1, 1] ++ reads [0x20, 0xDA, 0xCC, 0x4E] ++ [1, 1, 1, 1] ++ reads [0xDF, 0x25, 0x33, 0xB1]), _, 0,
    7, ramRegion, ⟨.mem, .none, 0x6003, .one, .low⟩, 3, 7, idled_inv (by decide +kernel) _, rfl, rfl, rfl, by decide +kernel,
    next_after (by decide +kernel), by decide +kernel, by decide +kernel, by decide +kernel, by decide +kernel⟩

/-- A well-formed table with a ROM and a RAM region; the last cells of both are in range. -/
theorem witness_CellsKeepTheirSelectors : ∃ c : Cfg, c.wf = true ∧ romRegion ∈ c.romTable ∧ 7 < romRegion.length
    ∧ ramRegion ∈ c.ramTable ∧ 3 < (c.ramGeometry ramRegion).count :=
  ⟨board, by decide +kernel, by decide +kernel, by decide +kernel, by decide +kernel, by decide +kernel⟩

theorem witness_IoInCompletes : ∃ (s : State) (idx : Byte) (e : InputEntry) (ps : List Reply) (r : Reply)
    (rest : List Raw), s.idled = true ∧ s.EngineIdle ∧ s.cfg.inputTable[idx.toNat]? = some e
    ∧ planAccepts s.cfg (inputPlan idx e) (ps ++ [r]) = true
    ∧ s.script = planAnswers s.cfg (inputPlan idx e) (ps ++ [r]) ++ rest :=
  ⟨idled banked ([0] ++ reads [0xA7]), 0, ⟨true, 0x2000, 0x0F, "in"⟩, [⟨quick, 0, 0, 0⟩], ⟨quick, 0xA7, 0, 0⟩, [], rfl,
    idled_engineIdle _ _, by decide +kernel, by decide +kernel, by decide +kernel⟩

theorem witness_IoOutCompletes : ∃ (s : State) (idx : Byte) (active : Bool) (e : OutputEntry) (v : Datum)
    (ps : List Reply) (rest : List Raw), s.idled = true ∧ s.EngineIdle ∧ s.cfg.outputTable[idx.toNat]? = some e
    ∧ v = (s.cfg.dataAccessWidth e.address).cut ((if active then e.activeMask else 0) ^^^ e.invertMask)
    ∧ planAccepts s.cfg (bankMoves .output idx e.bankSwitch ++ [.write e.address v]) ps = true
    ∧ s.script = planAnswers s.cfg (bankMoves .output idx e.bankSwitch ++ [.write e.address v]) ps ++ rest :=
  ⟨idled board [1], 0, true, ⟨false, 0x1000, 0x01, 0x00, "out"⟩, 1, replies [0], [], rfl, idled_engineIdle _ _,
    by decide +kernel, by decide +kernel, by decide +kernel, by decide +kernel⟩

/-- An input and an output whose cycle sees no clock edge; the same of every sequencer; and each cause of a failed
access: an address that the remap makes illegal, no blanking and no video-sync toggle, no clock edge in the second
region, no acknowledge in the second region. -/
theorem witness_SequencerFailureIsLocated :
    (∃ (s t : State) (e : InputEntry), s.Inv ∧ s.idled = true ∧ t.result.code ≠ .success
      ∧ t.result.info ≠ .bankSwitchFailed ∧ s.cfg.inputTable[(0 : Byte).toNat]? = some e ∧ exec (.ioin 0) s = .next t)
    ∧ (∃ (s t : State) (e : OutputEntry), s.Inv ∧ s.idled = true ∧ t.result.code ≠ .success
      ∧ t.result.info ≠ .bankSwitchFailed ∧ s.cfg.outputTable[(0 : Byte).toNat]? = some e
      ∧ exec (.ioout 0 true) s = .next t)
    ∧ (∀ i ∈ [Instr.romall, .romchk 0, .romraw, .romcrc 0, .rammarch 0 7, .ramcs 7, .ramaddr 0, .ramfill 0 1, .ramread 0,
        .ioin 0, .ioout 0 true], ∃ s t : State, s.Inv ∧ s.idled = true ∧ s.cfg.moves i ≠ [] ∧ exec i s = .next t
      ∧ t.result.code = .timeout ∧ t.result.info ≠ .bankSwitchFailed)
    ∧ ∀ x ∈ [(Instr.ioin 0, 0, ([] : List Reply), (0x2000 : Word), { yes 0 with addressCtx := 5 }, Failure.address .reservedAddressBits),
        (.ramcs 7, 4, crossWrites.take 4, 0x02007000, ⟨{ silent with pre := [0, 1, 1, 1] }, 0, 0, 0⟩, .toggle),
        (.ramfill 2 1, 0, [], 0x08007000, ⟨{ silent with pre := [0, 0, 0, 0] }, 0, 0, 0⟩, .toggle),
        (.romraw, 10, (List.range 10).map fun _ => yes 0, 0x1000, ⟨unclocked, 0, 0, 0⟩, .edge),
        (.romall, 14, firstRom.1 ++ firstRom.2 ++ [yes 0], 0x1001, ⟨silent, 0, 0, 0⟩, .ack)],
      ∃ (s : State) (before : List Move) (spot : Spot) (m : Move) (rest : List Raw), s.idled = true ∧ s.EngineIdle
        ∧ s.cfg.tablesFit = true ∧ s.cfg.Reaches x.1 before x.2.2.1 spot m ∧ m.address? = some x.2.2.2.1
        ∧ m.fails s.cfg x.2.2.2.2.1 x.2.2.2.2.2 = true
        ∧ s.script = planAnswers s.cfg before x.2.2.1 ++ m.failureAnswers s.cfg x.2.2.2.2.1 x.2.2.2.2.2 ++ rest :=
  ⟨⟨idled board [0, 0], after (.ioin 0) (idled board [0, 0]), ⟨false, 0x2000, 0x0F, "in"⟩, idled_inv (by decide +kernel) _, rfl,
      by decide +kernel, by decide +kernel, by decide +kernel, next_after (by decide +kernel)⟩,
    ⟨idled board [0, 0], after (.ioout 0 true) (idled board [0, 0]), ⟨false, 0x1000, 0x01, 0x00, "out"⟩,
      idled_inv (by decide +kernel) _, rfl, by decide +kernel, by decide +kernel, by decide +kernel, next_after (by decide +kernel)⟩,
    fun i hi => by
      have h : ends i (idled board [0, 0]) = true ∧ (after i (idled board [0, 0])).result.code = .timeout
          ∧ (after i (idled board [0, 0])).result.info ≠ .bankSwitchFailed ∧ board.moves i ≠ [] := by
        revert i; decide +kernel
      exact ⟨idled board [0, 0], _, idled_inv (by decide +kernel) _, rfl, h.2.2.2, next_after h.1, h.2.1, h.2.2.1⟩,
    fun x hx => by
      have h1 : x.2.1 < (paired.moves x.1).length := by revert x; decide +kernel
      have h2 : planAccepts paired (firstMoves paired x.1 x.2.1) x.2.2.1 = true := by revert x; decide +kernel
      have h3 : (moveAt paired x.1 x.2.1).2.address? = some x.2.2.2.1 := by revert x; decide +kernel
      have h4 : (moveAt paired x.1 x.2.1).2.fails paired x.2.2.2.2.1 x.2.2.2.2.2 = true := by revert x; decide +kernel
      refine ⟨idled paired (planAnswers paired (firstMoves paired x.1 x.2.1) x.2.2.1
          ++ (moveAt paired x.1 x.2.1).2.failureAnswers paired x.2.2.2.2.1 x.2.2.2.2.2 ++ [7]), firstMoves paired x.1 x.2.1, (moveAt paired x.1 x.2.1).1, _, [7], rfl,
        idled_engineIdle _ _, paired_fits, ?_, h3, h4, rfl⟩
      simp only [List.mem_cons, List.not_mem_nil, or_false] at hx
      rcases hx with rfl | rfl | rfl | rfl | rfl
      rotate_right
      · exact romall_reaches (here := [.bank .rom 1]) h1 (by decide +kernel) (by decide) h2
      all_goals exact reaches_of h1 h2 (fun h => by cases h)⟩

/-- The line is active at the last sample, and inactive after it: without an acknowledge, and with one. -/
theorem witness_IntChkCompletes :
    (∃ (s : State) (idx : Byte) (timeout : Word) (l : Line) (misses : List Raw) (hit off : Raw) (rest : List Raw),
      s.idled = true ∧ s.EngineIdle ∧ s.cfg.lineAt idx = some l ∧ misses.length + 1 = s.cfg.samples timeout
      ∧ (∀ x ∈ misses, lineLevelOf s.cfg l x = false) ∧ lineLevelOf s.cfg l hit = true ∧ lineLevelOf s.cfg l off = false
      ∧ s.script = misses ++ hit :: off :: rest)
    ∧ ∃ (s : State) (idx : Byte) (timeout : Word) (vector : Byte) (l : Line) (misses : List Raw) (hit off : Raw)
      (rest : List Raw) (a : AckReply), s.idled = true ∧ s.EngineIdle ∧ s.cfg.lineAt idx = some l
      ∧ misses.length + 1 = s.cfg.samples timeout
      ∧ (∀ x ∈ misses, lineLevelOf s.cfg l x = false) ∧ lineLevelOf s.cfg l hit = true ∧ lineLevelOf s.cfg l off = false
      ∧ s.cfg.ackKind ≠ .none ∧ a.fits s.cfg = true ∧ a.vector s.cfg = vector
      ∧ s.script = misses ++ hit :: (a.answers s.cfg ++ off :: rest) :=
  ⟨⟨idled plain [0, 0, 1, 0, 7], 8, 3000, .nmi, [0, 0], 1, 0, [7], rfl, idled_engineIdle _ _, by decide +kernel, by decide +kernel,
      inactive (by decide +kernel), by decide +kernel, by decide +kernel, rfl⟩,
    idled z80 [0, 0, 1, 1, 0, 1, 3, 0, 7], 8, 3000, 3, .nmi, [0, 0], 1, 0, [7], ⟨0, [⟨polled, 3, 0, 0⟩]⟩, rfl,
      idled_engineIdle _ _, by decide +kernel, by decide +kernel, inactive (by decide +kernel), by decide +kernel, by decide +kernel, by decide +kernel, by decide +kernel, by decide +kernel,
      by decide +kernel⟩

/-- The ways INTCHK fails here: no active sample, no vector, an acknowledge that stops (its first cycle unanswered,
its second without a clock edge), another vector,
and the line still active without an acknowledge and with one. -/
theorem witness_IntChkFailures :
    (∃ (s : State) (timeout : Word) (misses rest : List Raw), s.idled = true ∧ s.EngineIdle
      ∧ s.cfg.lineAt 8 = some .nmi ∧ (∀ x ∈ misses, lineLevelOf s.cfg .nmi x = false)
      ∧ misses.length = s.cfg.samples timeout ∧ s.script = misses ++ rest)
    ∧ (∃ (s : State) (timeout : Word) (misses : List Raw) (hit : Raw) (rest : List Raw), s.idled = true ∧ s.EngineIdle
      ∧ s.cfg.lineAt 8 = some .nmi ∧ (∀ x ∈ misses, lineLevelOf s.cfg .nmi x = false)
      ∧ lineLevelOf s.cfg .nmi hit = true ∧ misses.length < s.cfg.samples timeout ∧ s.cfg.ackKind = .none
      ∧ s.script = misses ++ hit :: rest)
    ∧ (∀ x ∈ [(z80, Info.ackTimeout, ([1, 0, 0, 0] : List Raw), [abortAck z80 0]),
        (on .i8086, .syncTimeout, [1, 0, 1, 0xFF, 0, 0], [cycAck (on .i8086) 0xFF])],
      ∃ (s : State) (timeout : Word) (misses : List Raw) (hit level : Raw) (rest : List Raw),
      s.cfg = x.1 ∧ s.idled = true ∧ s.EngineIdle
      ∧ s.cfg.lineAt 8 = some .nmi ∧ (∀ y ∈ misses, lineLevelOf s.cfg .nmi y = false)
      ∧ lineLevelOf s.cfg .nmi hit = true ∧ misses.length < s.cfg.samples timeout ∧ s.cfg.ackKind ≠ .none
      ∧ AckStops s.cfg level x.2.1 x.2.2.1 x.2.2.2 ∧ s.script = misses ++ hit :: (x.2.2.1 ++ rest))
    ∧ (∃ (s : State) (timeout : Word) (vector : Byte) (misses : List Raw) (hit : Raw) (a : AckReply) (rest : List Raw),
      s.idled = true ∧ s.EngineIdle
      ∧ s.cfg.lineAt 8 = some .nmi ∧ (∀ x ∈ misses, lineLevelOf s.cfg .nmi x = false)
      ∧ lineLevelOf s.cfg .nmi hit = true ∧ misses.length < s.cfg.samples timeout ∧ s.cfg.ackKind ≠ .none
      ∧ a.fits s.cfg = true ∧ a.vector s.cfg ≠ vector ∧ s.script = misses ++ hit :: (a.answers s.cfg ++ rest))
    ∧ (∃ (s : State) (timeout : Word) (misses : List Raw) (hit still : Raw) (rest : List Raw), s.idled = true
      ∧ s.EngineIdle ∧ s.cfg.lineAt 8 = some .nmi ∧ (∀ x ∈ misses, lineLevelOf s.cfg .nmi x = false)
      ∧ lineLevelOf s.cfg .nmi hit = true ∧ lineLevelOf s.cfg .nmi still = true ∧ misses.length < s.cfg.samples timeout
      ∧ s.script = misses ++ hit :: still :: rest)
    ∧ ∃ (s : State) (timeout : Word) (vector : Byte) (misses : List Raw) (hit still : Raw) (a : AckReply)
      (rest : List Raw), s.idled = true
      ∧ s.EngineIdle ∧ s.cfg.lineAt 8 = some .nmi ∧ (∀ x ∈ misses, lineLevelOf s.cfg .nmi x = false)
      ∧ lineLevelOf s.cfg .nmi hit = true ∧ lineLevelOf s.cfg .nmi still = true ∧ misses.length < s.cfg.samples timeout
      ∧ s.cfg.ackKind ≠ .none ∧ a.fits s.cfg = true ∧ a.vector s.cfg = vector
      ∧ s.script = misses ++ hit :: (a.answers s.cfg ++ still :: rest) :=
  ⟨⟨idled z80 [0, 7], 0, [0], [7], rfl, idled_engineIdle _ _, by decide +kernel, inactive (by decide +kernel), by decide +kernel, rfl⟩,
    ⟨idled (on .m6502) [1, 7], 0, [], 1, [7], rfl, idled_engineIdle _ _, by decide +kernel, inactive (by decide +kernel), by decide +kernel, by decide +kernel,
      by decide +kernel, rfl⟩,
    fun x hx => by
      refine ⟨idled x.1 (1 :: (x.2.2.1 ++ [7])), 0, [], 1, 0, [7], rfl, rfl, idled_engineIdle _ _, ?_⟩
      simp only [List.mem_cons, List.not_mem_nil, or_false] at hx
      rcases hx with rfl | rfl
      · exact ⟨by decide +kernel, inactive (by decide +kernel), by decide +kernel, by decide +kernel, by decide +kernel,
          ⟨silent, _, _, .inl ⟨by decide +kernel, rfl, rfl, rfl⟩, .inl ⟨by decide +kernel, rfl⟩⟩, rfl⟩
      · exact ⟨by decide +kernel, inactive (by decide +kernel), by decide +kernel, by decide +kernel, by decide +kernel,
          acks_stop.2.2.2, rfl⟩,
    ⟨idled z80 [1, 1, 0, 1, 7], 0, 3, [], 1, ⟨0, [⟨polled, 7, 0, 0⟩]⟩, [], rfl, idled_engineIdle _ _, by decide +kernel, inactive (by decide +kernel),
      by decide +kernel, by decide +kernel, by decide +kernel, by decide +kernel, by decide +kernel, by decide +kernel⟩,
    ⟨idled z80 [1, 1, 7], 0, [], 1, 1, [7], rfl, idled_engineIdle _ _, by decide +kernel, inactive (by decide +kernel), by decide +kernel, by decide +kernel,
      by decide +kernel, rfl⟩,
    idled z80 [1, 1, 0, 1, 3, 1], 0, 3, [], 1, 1, ⟨0, [⟨polled, 3, 0, 0⟩]⟩, [], rfl, idled_engineIdle _ _, by decide +kernel, inactive (by decide +kernel),
      by decide +kernel, by decide +kernel, by decide +kernel, by decide +kernel, by decide +kernel, by decide +kernel, by decide +kernel⟩

/-- An index just past each table. -/
theorem witness_IndexRangeRefused : ∃ s : State, s.idled = true ∧ s.EngineIdle
    ∧ s.cfg.romTable.length = (1 : Byte).toNat ∧ s.cfg.ramTable.length = (1 : Byte).toNat
    ∧ s.cfg.inputTable.length = (1 : Byte).toNat ∧ s.cfg.outputTable.length = (1 : Byte).toNat :=
  ⟨idled board [], rfl, idled_engineIdle _ _, rfl, rfl, rfl, rfl⟩

/-- A callback that answers Timeout, on each table; and that of the second pass of ROMCHK, of the second region of ROMRAW
and of ROMALL, and of the verify phase of RAMCS. -/
theorem witness_BankSwitchFailureStops : (∃ (s : State) (raw : Raw) (rest : List Raw), s.idled = true ∧ s.EngineIdle
    ∧ codeOf raw ≠ .success ∧ s.script = raw :: rest
    ∧ (∃ rom, s.cfg.romTable[(0 : Byte).toNat]? = some rom ∧ rom.bankSwitch = true)
    ∧ (∃ ram, s.cfg.ramTable[(0 : Byte).toNat]? = some ram ∧ ram.bankSwitch = true)
    ∧ (∃ e, s.cfg.inputTable[(0 : Byte).toNat]? = some e ∧ e.bankSwitch = true)
    ∧ ∃ e, s.cfg.outputTable[(0 : Byte).toNat]? = some e ∧ e.bankSwitch = true)
    ∧ ∀ x ∈ [(Instr.romchk 0, 4, [yes 0, yes 1, yes 2, yes 4], TableTag.rom, (0 : Byte)),
        (.romraw, 9, (List.range 9).map fun _ => yes 0, .rom, 1), (.ramcs 7, 8, crossWrites, .ram, 0),
        (.romall, 13, firstRom.1 ++ firstRom.2 ++ [], .rom, 1)],
      ∃ (s : State) (before : List Move) (spot : Spot) (raw : Raw) (rest : List Raw), s.idled = true ∧ s.EngineIdle
        ∧ s.cfg.tablesFit = true ∧ s.cfg.Reaches x.1 before x.2.2.1 spot (.bank x.2.2.2.1 x.2.2.2.2)
        ∧ codeOf raw ≠ .success ∧ s.script = planAnswers s.cfg before x.2.2.1 ++ raw :: rest := by
  refine ⟨⟨idled banked [1, 7], 1, [7], rfl, idled_engineIdle _ _, by decide +kernel, rfl, ⟨_, rfl, rfl⟩, ⟨_, rfl, rfl⟩,
    ⟨_, rfl, rfl⟩, ⟨_, rfl, rfl⟩⟩, fun x hx => ?_⟩
  have h1 : x.2.1 < (paired.moves x.1).length := by revert x; decide +kernel
  have h2 : planAccepts paired (firstMoves paired x.1 x.2.1) x.2.2.1 = true := by revert x; decide +kernel
  have h3 : (moveAt paired x.1 x.2.1).2 = .bank x.2.2.2.1 x.2.2.2.2 := by revert x; decide +kernel
  refine ⟨idled paired (planAnswers paired (firstMoves paired x.1 x.2.1) x.2.2.1 ++ [1, 7]),
    firstMoves paired x.1 x.2.1, (moveAt paired x.1 x.2.1).1, 1, [7], rfl, idled_engineIdle _ _, paired_fits, ?_,
    by decide +kernel, rfl⟩
  rw [← h3]
  simp only [List.mem_cons, List.not_mem_nil, or_false] at hx
  rcases hx with rfl | rfl | rfl | rfl
  rotate_right
  · exact romall_reaches (here := []) h1 (by decide +kernel) (by decide) h2
  all_goals exact reaches_of h1 h2 (fun h => by cases h)

theorem witness_AbortIffAckTimeout :
    (∃ (i : Instr) (s t : State), s.Inv ∧ exec i s = .next t ∧ t.result.info ≠ .ackTimeout)
      ∧ ∃ (i : Instr) (s t : State), s.Inv ∧ exec i s = .next t ∧ t.result.info = .ackTimeout :=
  ⟨⟨.mrd 0x6000, idled z80 [1, 1, 0xA5], _, idled_inv (by decide +kernel) _, next_after (by decide +kernel), by decide +kernel⟩,
    .mrd 0x6000, idled z80 [1, 0, 0, 0], _, idled_inv (by decide +kernel) _, next_after (by decide +kernel), by decide +kernel⟩

theorem witness_ExactCycleCounts : ∃ (i : Instr) (s t : State),
    s.Inv ∧ exec i s = .next t ∧ t.result.code = .success ∧ s.cfg.cycleCount i = 11 :=
  ⟨.romchk 0, idled board (reads [1, 2, 4, 0, 1, 2, 3, 4, 5, 6, 7]), _, idled_inv (by decide +kernel) _,
    next_after (by decide +kernel), by decide +kernel, by decide +kernel⟩

end Sys2Proof.Tests
end

/-! ### Construction (70_reset_and_hazards.md R390): what each check asks, and what the checks ask together -/

namespace Sys2Proof.Machine

/-- R135 item 3: an address is legal where `decodeAddr` answers an access. -/
theorem Cfg.legalAddress_iff (c : Cfg) (la : Word) : c.legalAddress la = true ↔ ∃ a, c.decodeAddr la = .ok a := by
  unfold Cfg.legalAddress
  cases c.decodeAddr la <;> simp

theorem addrField_toNat (la : Word) : (addrField la).toNat = la.toNat % 2 ^ 24 := by
  simp [addrField]

theorem selectors_toNat (la : Word) : (selectors la).toNat = la.toNat / 2 ^ 24 := by
  simp only [selectors, BitVec.extractLsb'_toNat, Nat.shiftRight_eq_div_pow]
  omega

theorem selectors_eq_iff (a b : Word) : selectors a = selectors b ↔ a.toNat / 2 ^ 24 = b.toNat / 2 ^ 24 := by
  rw [← BitVec.toNat_inj, selectors_toNat, selectors_toNat]

theorem Width.bytes_eq_ite (w : Width) : w.bytes = if w = .two then 2 else 1 := by
  cases w <;> rfl

theorem Cfg.stride_one (c : Cfg) (start : Word) : c.stride start 1 = if c.busWidth = .two then 2 else 1 := by
  rw [Cfg.stride, Nat.one_mul, Cfg.dataBusWidth, Width.bytes_eq_ite]

/-- R136: `K(n)` counts the `k` with `2 ^ k < n`. -/
theorem lt_sampleCount_iff (n k : Nat) : k < sampleCount n ↔ 2 ^ k < n := by
  have hpow : 1 ≤ 2 ^ k := Nat.one_le_two_pow
  unfold sampleCount
  split
  · next hle => omega
  · next hgt =>
    have hlog : k ≤ (n - 1).log2 ↔ 2 ^ k ≤ n - 1 := Nat.le_log2 (by omega)
    omega

/-- A natural number is settled by the numbers below it, so a list of samples has length `K(n)` exactly where its
indices are the `k` of R136. -/
theorem eq_sampleCount_iff (m n : Nat) : m = sampleCount n ↔ ∀ k, k < m ↔ 2 ^ k < n := by
  simp only [← lt_sampleCount_iff]
  refine ⟨fun h k => by rw [h], fun h => ?_⟩
  exact Nat.le_antisymm (Nat.le_of_not_lt fun hlt => Nat.lt_irrefl _ ((h _).mp hlt))
    (Nat.le_of_not_lt fun hlt => Nat.lt_irrefl _ ((h _).mpr hlt))

theorem RomRegion.wf_iff (c : Cfg) (r : RomRegion) : r.wf c = true ↔
    (1 ≤ r.length
      ∧ r.start.toNat % 2 ^ 24 + (r.length - 1) * (if c.busWidth = .two then 2 else 1) < 2 ^ 24
      ∧ ∀ k : Nat, k < r.samples.length ↔ 2 ^ k < r.length)
    ∧ ∃ a, c.decodeAddr r.start = .ok a := by
  simp only [RomRegion.wf, Bool.and_eq_true, decide_eq_true_eq, addrField_toNat, Cfg.stride_one,
    eq_sampleCount_iff, Cfg.legalAddress_iff, and_assoc]

theorem RamRegion.wf_iff (c : Cfg) (r : RamRegion) : r.wf c = true ↔
    (r.start.toNat ≤ r.last.toNat ∧ 1 ≤ r.step ∧ r.start.toNat / 2 ^ 24 = r.last.toNat / 2 ^ 24)
    ∧ ∃ a, c.decodeAddr r.start = .ok a := by
  simp only [RamRegion.wf, Bool.and_eq_true, decide_eq_true_eq, BitVec.le_def, selectors_eq_iff,
    Cfg.legalAddress_iff, and_assoc]

/-- R135 items 1 to 3: the shape of every region, and every address of a table legal. -/
theorem Cfg.descriptorsLegal_iff (c : Cfg) : c.descriptorsLegal = true ↔
    (∀ ram ∈ c.ramTable, ram.start.toNat ≤ ram.last.toNat ∧ 1 ≤ ram.step
      ∧ ram.start.toNat / 2 ^ 24 = ram.last.toNat / 2 ^ 24)
    ∧ (∀ rom ∈ c.romTable, 1 ≤ rom.length
      ∧ rom.start.toNat % 2 ^ 24 + (rom.length - 1) * (if c.busWidth = .two then 2 else 1) < 2 ^ 24
      ∧ ∀ k : Nat, k < rom.samples.length ↔ 2 ^ k < rom.length)
    ∧ (∀ ram ∈ c.ramTable, ∃ a, c.decodeAddr ram.start = .ok a)
    ∧ (∀ rom ∈ c.romTable, ∃ a, c.decodeAddr rom.start = .ok a)
    ∧ (∀ e ∈ c.inputTable, ∃ a, c.decodeAddr e.address = .ok a)
    ∧ ∀ e ∈ c.outputTable, ∃ a, c.decodeAddr e.address = .ok a := by
  simp only [Cfg.descriptorsLegal, Bool.and_eq_true, List.all_eq_true, RomRegion.wf_iff, RamRegion.wf_iff,
    Cfg.legalAddress_iff]
  constructor
  · rintro ⟨⟨⟨hrom, hram⟩, inAddr⟩, outAddr⟩
    obtain ⟨romShape, romAddr⟩ := forall₂_and.mp hrom
    obtain ⟨ramShape, ramAddr⟩ := forall₂_and.mp hram
    exact ⟨ramShape, romShape, ramAddr, romAddr, inAddr, outAddr⟩
  · rintro ⟨ramShape, romShape, ramAddr, romAddr, inAddr, outAddr⟩
    exact ⟨⟨⟨forall₂_and.mpr ⟨romShape, romAddr⟩, forall₂_and.mpr ⟨ramShape, ramAddr⟩⟩, inAddr⟩, outAddr⟩

/-- R135 item 4. -/
theorem Cfg.tablesFit_iff (c : Cfg) : c.tablesFit = true ↔
    c.ramTable.length ≤ 256 ∧ c.romTable.length ≤ 256 ∧ c.inputTable.length ≤ 256 ∧ c.outputTable.length ≤ 256 := by
  simp only [Cfg.tablesFit, Bool.and_eq_true, decide_eq_true_eq]
  omega

/-- R12. -/
theorem Cfg.clockMasterLegal_iff (c : Cfg) :
    c.clockMasterLegal = true ↔ (c.clockMaster = true → c.family ∈ c.clockMasterFamilies) := by
  cases h : c.clockMaster <;> simp [Cfg.clockMasterLegal, h]

/-- R20: the list names a set of two tags. -/
theorem Cfg.twoClockMasters_iff (c : Cfg) :
    c.twoClockMasters = true ↔ ∃ f g, f ≠ g ∧ c.clockMasterFamilies = [f, g] := by
  simp only [Cfg.twoClockMasters, Bool.and_eq_true, decide_eq_true_eq, List.length_eq_two]
  constructor
  · rintro ⟨⟨f, g, hfg⟩, hnd⟩
    exact ⟨f, g, by simpa [hfg] using hnd, hfg⟩
  · rintro ⟨f, g, hne, hfg⟩
    exact ⟨⟨f, g, hfg⟩, by simpa [hfg] using hne⟩

/-- R19. -/
theorem Cfg.boundsPositive_iff (c : Cfg) : c.boundsPositive = true ↔
    1 ≤ c.pollLimit ∧ 1 ≤ c.syncLimit ∧ 1 ≤ c.waitSyncLimit ∧ 1 ≤ c.vsyncLimit ∧ 1 ≤ c.clockCheckLimit := by
  simp only [Cfg.boundsPositive, Bool.and_eq_true, decide_eq_true_eq, and_assoc]

/-- By counting: `n` different numbers below `n` are all of them. -/
theorem perm_range_iff (l : List Nat) (n : Nat) :
    l.Perm (List.range n) ↔ l.length = n ∧ l.Nodup ∧ ∀ k ∈ l, k < n := by
  constructor
  · intro h
    exact ⟨by simpa using h.length_eq, h.nodup_iff.mpr List.nodup_range, fun k hk => by simpa using h.mem_iff.mp hk⟩
  · rintro ⟨hlen, hnd, hlt⟩
    have hsub : l ⊆ List.range n := fun k hk => List.mem_range.mpr (hlt k hk)
    exact (List.subperm_of_subset hnd hsub).perm_of_length_le (by simp [hlen])

/-- 41_bus_engine.md R209: no latch and no order, or an order of all the bytes of the address. -/
theorem Cfg.latchComplete_iff (c : Cfg) : c.latchComplete = true ↔
    c.latchBytes = 0 ∧ c.latchOrder = []
      ∨ c.latchBytes = (c.physAddrBits + 7) / 8 ∧ c.latchOrder.Perm (List.range c.latchBytes) := by
  have hperm : c.latchComplete = true ↔ (c.latchBytes = 0 ∨ c.latchBytes = (c.physAddrBits + 7) / 8)
      ∧ c.latchOrder.Perm (List.range c.latchBytes) := by
    simp only [Cfg.latchComplete, Bool.and_eq_true, decide_eq_true_eq, List.all_eq_true, perm_range_iff, and_assoc]
  have hzero : c.latchBytes = 0 → (c.latchOrder.Perm (List.range c.latchBytes) ↔ c.latchOrder = []) := by
    intro h
    rw [h, List.range_zero, List.perm_nil]
  rw [hperm, or_and_right, and_congr_right hzero]

/-- R20: a clock-master engine has an output clock, and every entry of `nextPhase` names one. -/
theorem Cfg.phasesExist_iff (c : Cfg) : c.phasesExist = true ↔
    (c.clockMaster = true → c.idleClockLevel ≠ []) ∧ ∀ e ∈ c.nextPhase, e.2 < c.idleClockLevel.length := by
  have hpos : 1 ≤ c.clockPhases ↔ c.idleClockLevel ≠ [] := List.length_pos_iff
  simp only [Cfg.phasesExist, Bool.and_eq_true, Bool.or_eq_true, Bool.not_eq_true', List.all_eq_true,
    decide_eq_true_eq, hpos]
  refine and_congr ?_ Iff.rfl
  cases c.clockMaster <;> simp

/-- R390: construction of an ill-formed configuration is refused. -/
theorem State.construct_of_not_wf {c : Cfg} (h : c.wf = false) (p : List Frame) (x : List Raw) :
    State.construct c p x = .refused .illFormedConfig := by
  simp [State.construct, h]

/-- R391: construction of a well-formed configuration leaves the reset values. -/
theorem State.construct_of_wf {c : Cfg} (h : c.wf = true) (p : List Frame) (x : List Raw) :
    State.construct c p x = .next (State.initial c p x) := by
  simp [State.construct, h]

/-- Settles O9: `Cfg.wf` is the conjunction of its eight checks, each of which asks what its `_iff` lemma says, and
construction branches on it. -/
theorem constructionLeaves : Obligations.ConstructionLeaves := by
  unfold Obligations.ConstructionLeaves
  refine ⟨fun c => ?_, fun c p x h => State.construct_of_not_wf h p x, fun c p x h => ?_,
    State.construct_of_wf Config.supplied.wf [] []⟩
  · simp only [Cfg.wf, Bool.and_eq_true]
    rw [c.clockMasterLegal_iff, c.twoClockMasters_iff, c.boundsPositive_iff, c.latchComplete_iff, c.phasesExist_iff,
      c.tablesFit_iff, c.descriptorsLegal_iff, Cfg.addressFits, decide_eq_true_eq]
    constructor
    · rintro ⟨⟨⟨⟨⟨⟨⟨master, two⟩, bounds⟩, bits⟩, latch⟩, clocks, next⟩, fit⟩, ram, rom, addresses⟩
      exact ⟨master, ram, rom, addresses, fit, bounds, two, bits, latch, clocks, next⟩
    · rintro ⟨master, ram, rom, addresses, fit, bounds, two, bits, latch, clocks, next⟩
      exact ⟨⟨⟨⟨⟨⟨⟨master, two⟩, bounds⟩, bits⟩, latch⟩, clocks, next⟩, fit⟩, ram, rom, addresses⟩
  · exact ⟨State.initial c p x, State.construct_of_wf h p x, rfl, rfl, rfl, rfl, rfl, rfl, rfl, rfl, rfl, rfl, rfl, rfl⟩

end Sys2Proof.Machine

/-! ### The invariants and the frame of every command (10_state.md R35 to R37, R42, R49, R50) -/

namespace Sys2Proof.Machine

/-! #### The reset state -/

theorem State.initial_inv {c : Cfg} (h : c.wf = true) (p : List Frame) (x : List Raw) :
    (State.initial c p x).Inv where
  cfgWf := h
  betweenCycles := ⟨rfl, rfl⟩
  pinsIdle := fun idled => by cases idled
  pinsQuiet := fun active => by cases active
  oneRecordEach := rfl
  resultIsLast := fun recorded => absurd rfl recorded

theorem State.initial_clockInv (c : Cfg) (p : List Frame) (x : List Raw) : (State.initial c p x).ClockInv where
  bootedIfIdled := fun idled => by cases idled
  clkLength := by cases h : c.clockMaster <;> simp [State.initial, h]
  undrivenBeforeBoot := fun _ _ => rfl
  recordsLastLevel := fun booted => by cases booted
  alternates := fun _ => List.isChain_nil

/-- Settles O10: the constructed state of any well-formed configuration has both invariants, and the supplied
configuration is well-formed. -/
theorem invariantsAtReset : Obligations.InvariantsAtReset :=
  ⟨State.initial_inv Config.supplied.wf [] [], State.initial_clockInv Config.supplied.cfg [] []⟩

/-! #### One step -/

theorem step_of_decode {s : State} {f : Frame} {i : Instr} (fetched : s.program[s.pc]? = some f)
    (decoded : decode f = .ok i) : step s = afterCommand (exec i s) := by
  simp only [step, State.fetch, fetched, decoded]

/-- Settles O6: the step is the end of the decoded command's execution, which advances the pc. -/
theorem stepRunsDecodedCommand : Obligations.StepRunsDecodedCommand := by
  intro s t f i fetched decoded ran
  rw [step_of_decode fetched decoded, ran]
  rfl

/-! #### How every command ends -/

/-- How a command ends, whatever it did: the idle discipline holds, one record was written, and what only a step or an
Orchestrator writes is as it was. -/
structure CommandEnd (s t : State) : Prop where
  cfg : t.cfg = s.cfg
  program : t.program = s.program
  pc : t.pc = s.pc
  results : t.results = s.results ++ [t.result]
  betweenCycles : t.BetweenCycles
  pinsIdle : t.idled = true → t.pins = .idle
  pinsQuiet : t.pins ≠ .active

/-- The pc's advance makes up for the one record. -/
theorem CommandEnd.advance_inv {s t : State} (h : CommandEnd s t) (hs : s.Inv) : (advance t).Inv where
  cfgWf := by rw [advance_cfg, h.cfg]; exact hs.cfgWf
  betweenCycles := h.betweenCycles
  pinsIdle := h.pinsIdle
  pinsQuiet := h.pinsQuiet
  oneRecordEach := by
    rw [advance_results, advance_pc, h.results, h.pc, List.length_append, hs.oneRecordEach, List.length_singleton]
  resultIsLast := fun _ => by rw [advance_results, h.results, List.getLast?_concat, advance_result]

theorem refuse_commandEnd (info : Info) {s : State} (hs : s.Inv) : CommandEnd s (refuse info s) :=
  ⟨rfl, rfl, rfl, rfl, hs.betweenCycles, hs.pinsIdle, hs.pinsQuiet⟩

theorem execIdle_commandEnd (s : State) : CommandEnd s (finish Result.blank (idleState s)) := by
  rw [idleState_eq]
  exact ⟨rfl, rfl, rfl, rfl, ⟨rfl, rfl⟩, fun _ => rfl, fun active => by cases active⟩

/-- CHECK ends with idle pins, or not idled and holding the item that failed (40_contract.md R153). -/
theorem checkEnd_commandEnd (items : List CheckItem) {s : State} (hs : s.BetweenCycles) :
    CommandEnd s (checkEnd (testItems items s)) := by
  have calm := testItems_calm items s
  rcases tested : testItems items s with ⟨_ | failure, t⟩ <;> rw [tested] at calm
  all_goals have between : t.BetweenCycles := ⟨calm.phase.trans hs.1, calm.hostMask.trans hs.2⟩
  · exact ⟨calm.cfg, calm.program, calm.pc, congrArg (· ++ [Result.blank]) calm.results, between, fun _ => rfl,
      fun active => by cases active⟩
  · exact ⟨calm.cfg, calm.program, calm.pc, congrArg (· ++ [pinMismatch failure]) calm.results, between,
      fun idled => (by cases idled), fun active => by cases active⟩

/-- Ending a command whose body left the engine idle leaves it idle (40_contract.md R160, 60_exceptions.md R362). -/
theorem complete_engineIdle {x : Res Result} (h : x.state.EngineIdle) : (complete x).EngineIdle := by
  cases x with
  | ok r t => exact h
  | raise r t => exact ⟨rfl, rfl, rfl⟩

theorem Course.commandEnd {n : Nat} {s : State} {x : Res Result} (h : Course n s x) : CommandEnd s (complete x) := by
  have carried := h.within.toCarried.trans (complete_carried x)
  obtain ⟨pins, between⟩ := complete_engineIdle h.engineIdle
  refine ⟨carried.cfg, carried.program, carried.pc, ?_, between, fun _ => pins, fun active => ?_⟩
  · rw [complete_results, h.within.results]
  · rw [pins] at active; cases active

theorem exec_commandEnd {i : Instr} {s t : State} (hs : s.Inv) (h : exec i s = .next t) : CommandEnd s t := by
  rcases exec_shape i s hs with ⟨-, ran⟩ | ⟨-, -, ran⟩ | ⟨-, -, ran⟩ | ⟨-, -, -, x, ran, course, -⟩
  all_goals
    rw [ran] at h
    cases h
  · exact execIdle_commandEnd s
  · exact refuse_commandEnd .notIdled hs
  · exact checkEnd_commandEnd _ hs.betweenCycles
  · exact course.commandEnd

/-- Settles O11: a step is the advance after a command or after the refusal of an illegal frame, and both end as
`CommandEnd` says. -/
theorem stepKeepsInv : Obligations.StepKeepsInv := by
  intro s t hs h
  rcases step_shape s t h with rfl | ⟨i, u, ran, rfl⟩
  · exact (refuse_commandEnd .illegalCommand hs).advance_inv hs
  · exact (exec_commandEnd hs ran).advance_inv hs

/-! #### Commands that only sample -/

/-- Nothing was written but the Board's answers used up and the signal-level record. -/
def OnlyAsked (s t : State) : Prop := t = { s with script := t.script, activity := t.activity }

theorem OnlyAsked.trans {s t u : State} (h : OnlyAsked s t) (k : OnlyAsked t u) : OnlyAsked s u :=
  Eq.trans k (by rw [h])

theorem sampled_onlyAsked (s : State) (q : Query) : OnlyAsked s (s.sampled q) := rfl

theorem clockLoop_onlyAsked (k : Nat) (seen : ClockSeen) (s : State) : OnlyAsked s (clockLoop k seen s).2 := by
  induction k generalizing seen s with
  | zero => rfl
  | succ k ih =>
    rw [clockLoop]
    split
    · exact sampled_onlyAsked s _
    · exact (sampled_onlyAsked s _).trans (ih _ _)

theorem testItem_onlyAsked (item : CheckItem) (s : State) : OnlyAsked s (testItem item s).2 := by
  cases item
  case clock => exact clockLoop_onlyAsked _ _ s
  all_goals exact sampled_onlyAsked s _

/-- CHECK's tests count no poll (10_state.md R38, 40_contract.md R162). -/
theorem testItems_onlyAsked (items : List CheckItem) (s : State) : OnlyAsked s (testItems items s).2 := by
  induction items generalizing s with
  | nil => rfl
  | cons item rest ih =>
    have asked := testItem_onlyAsked item s
    rw [testItems]
    rcases tested : testItem item s with ⟨_ | failure, t⟩ <;> rw [tested] at asked
    · exact asked.trans (ih t)
    · exact asked

/-- Nothing was written but the poll count, the Board's answers used up and the signal-level record. -/
def OnlyPolled (s t : State) : Prop := t = { s with polls := t.polls, script := t.script, activity := t.activity }

theorem OnlyPolled.trans {s t u : State} (h : OnlyPolled s t) (k : OnlyPolled t u) : OnlyPolled s u :=
  Eq.trans k (by rw [h])

theorem lineSampled_onlyPolled (s : State) (l : Line) : OnlyPolled s (s.lineSampled l) := rfl

theorem waitLoop_onlyPolled (l : Line) (level : Bool) (k : Nat) (s : State) :
    OnlyPolled s (waitLoop l level k s).2 := by
  induction k generalizing s with
  | zero => rfl
  | succ k ih =>
    rw [waitLoop]
    split
    · exact lineSampled_onlyPolled s l
    · exact (lineSampled_onlyPolled s l).trans (ih _)

theorem waitLine_onlyPolled (l : Line) (level : Bool) (timeout : Word) (s : State) :
    OnlyPolled s (waitLine l level timeout s).2 :=
  OnlyPolled.trans (t := { s with polls := 0 }) rfl (waitLoop_onlyPolled l level _ _)

theorem restoreIdle_of_engineIdle {s : State} (h : s.EngineIdle) : restoreIdle s = s := by
  obtain ⟨pins, phase, hostMask⟩ := h
  rw [restoreIdle, ← pins, ← phase, ← hostMask]

/-- On an idle engine trap entry has nothing to restore, so either way a command ends by writing its record. -/
theorem complete_of_engineIdle {x : Res Result} (h : x.state.EngineIdle) : ∃ r, complete x = finish r x.state := by
  cases x with
  | ok r t => exact ⟨r, rfl⟩
  | raise r t => exact ⟨r, congrArg (finish r) (restoreIdle_of_engineIdle h)⟩

theorem OnlyPolled.engineIdle {s t : State} (h : OnlyPolled s t) (hi : s.EngineIdle) : t.EngineIdle := by
  rw [h]
  exact hi

theorem guarded_frame_of_onlyPolled {s t : State} {body : State → Res Result} (idled : s.idled = true)
    (hi : s.EngineIdle) (h : guarded s body = .next t) (polled : OnlyPolled s (body s).state) :
    t = { s with
      polls := t.polls, result := t.result, results := t.results, script := t.script, activity := t.activity } := by
  rw [guarded_of_idled idled] at h
  cases h
  obtain ⟨r, ended⟩ := complete_of_engineIdle (polled.engineIdle hi)
  rw [ended, polled]
  rfl

/-! #### The frame of each command -/

theorem execIdle_frame {s t : State} (h : exec .idle s = .next t) :
    t = { s with
      pins := t.pins, clk := t.clk, hostMask := t.hostMask, idled := t.idled, booted := t.booted
      phase := t.phase, result := t.result, results := t.results, activity := t.activity } := by
  cases h
  rw [idleState_eq]
  rfl

theorem execCheck_frame {s t : State} (idled : s.idled = true) (h : exec .check s = .next t) :
    t = { s with
      pins := t.pins, idled := t.idled, result := t.result, results := t.results
      script := t.script, activity := t.activity } := by
  simp only [exec, execCheck, idled, if_true] at h
  cases h
  have asked := testItems_onlyAsked s.cfg.checkItems s
  rcases tested : testItems s.cfg.checkItems s with ⟨_ | failure, t⟩ <;> rw [tested, OnlyAsked] at asked
  all_goals
    rw [show t = _ from asked]
    rfl

/-- WINT samples its line, where the family has it, and writes its record (40_contract.md R158). -/
theorem execWint_frame {line : Byte} {level : Bool} {timeout : Word} {s t : State} (idled : s.idled = true)
    (hi : s.EngineIdle) (h : exec (.wint line level timeout) s = .next t) :
    t = { s with
      polls := t.polls, result := t.result, results := t.results, script := t.script, activity := t.activity } := by
  simp only [exec, execWint] at h
  refine guarded_frame_of_onlyPolled idled hi h ?_
  cases s.cfg.lineAt line with
  | none => rfl
  | some l =>
    have polled := waitLine_onlyPolled l level timeout s
    dsimp only
    rcases waited : waitLine l level timeout s with ⟨_ | _, u⟩ <;> rw [waited] at polled <;> exact polled

theorem Res.bind_ok_state {α β : Type} (x : Res α) (g : α → β) : (x.bind fun a t => .ok (g a) t).state = x.state := by
  cases x <;> rfl

theorem busCycle_end (kind : CycleKind) (a : Access) (wdata : Datum) (av : Option Byte) {s : State}
    (hm : s.hostMask = false) : CycleEnd s (busCycle kind a wdata av s).state := by
  rcases busCycle_spec kind a wdata av s hm with ⟨d, t, ran, done, -⟩ | ⟨r, t, ran, failed⟩
  · rw [ran]; exact done.toCycleEnd
  · rw [ran]; exact failed.toCycleEnd

theorem directCycle_within (kind : CycleKind) (addr : Word) (w : Access → Datum) {s : State}
    (hm : s.hostMask = false) : BusWithin s (directCycle kind addr w s).state := by
  unfold directCycle
  split
  · exact BusWithin.refl s
  · rw [Res.onRaise_state]
    exact (busCycle_end kind _ _ none hm).toBusWithin

theorem ackCycle_end (addr : PhysAddr) (av : Option Byte) {s : State} (hm : s.hostMask = false) :
    CycleEnd s (ackCycle addr av s).state := by
  rw [ackCycle, Res.bind_ok_state]
  exact busCycle_end _ _ _ av hm

/-- What an acknowledge can do: bus cycles, after one sample of the priority level (41_bus_engine.md R231 to R234). -/
theorem ackFsm_within {s : State} (hm : s.hostMask = false) : BusWithin s (ackFsm s).state := by
  unfold ackFsm
  split
  · exact BusWithin.refl s
  · exact (ackCycle_end _ none hm).toBusWithin
  · have ended := ackCycle_end (s.cfg.ackAddrAt 0) none hm
    refine Res.bind_rel (R := BusWithin) BusWithin.trans ended.toBusWithin fun v t ran => ?_
    rw [ran] at ended
    obtain ⟨-, -, unmasked⟩ := ended.engineIdle
    exact (ackCycle_end _ none unmasked).toBusWithin
  · have asked := (sampled_calm' s .priorityLevel).toBusWithin
    exact asked.trans (ackCycle_end (s := s.sampled .priorityLevel) _ _ hm).toBusWithin

/-- Ending a bus command keeps the working registers. -/
theorem BusWithin.complete_busOnly {s : State} {x : Res Result} (h : BusWithin s x.state) : BusOnly s (complete x) :=
  h.busOnly.trans ⟨complete_carried x, by cases x <;> rfl⟩

theorem guarded_busOnly {s t : State} {body : State → Res Result} (idled : s.idled = true)
    (h : guarded s body = .next t) (within : BusWithin s (body s).state) : BusOnly s t := by
  rw [guarded_of_idled idled] at h
  cases h
  exact within.complete_busOnly

/-- MRD, MWR and IACK write what their bus cycles write, and no working register (10_state.md R50). -/
theorem exec_busOnly {i : Instr} {s t : State} (idled : s.idled = true) (hm : s.hostMask = false)
    (bus : (∃ addr, i = .mrd addr) ∨ (∃ addr data, i = .mwr addr data) ∨ i = .iack) (h : exec i s = .next t) :
    BusOnly s t := by
  rcases bus with ⟨addr, rfl⟩ | ⟨addr, data, rfl⟩ | rfl
  all_goals
    simp only [exec, execMrd, execMwr, execIack] at h
    refine guarded_busOnly idled h ?_
    rw [Res.bind_ok_state]
  · exact directCycle_within _ _ _ hm
  · exact directCycle_within _ _ _ hm
  · exact ackFsm_within hm

theorem exec_carried {i : Instr} {s t : State} (idled : s.idled = true) (hi : s.EngineIdle) (notIdle : i ≠ .idle)
    (notCheck : i ≠ .check) (h : exec i s = .next t) : Carried s t := by
  obtain ⟨x, ran, course, -⟩ := exec_course i idled hi notIdle notCheck
  rw [ran] at h
  cases h
  exact course.within.toCarried.trans (complete_carried x)

/-- Settles O22, one frame lemma per row of R50. -/
theorem commandFrame : Obligations.CommandFrame := by
  intro i s t hs idled h
  have hi : s.EngineIdle := ⟨hs.pinsIdle idled, hs.betweenCycles⟩
  have hm : s.hostMask = false := hs.betweenCycles.2
  cases i with
  | idle => exact execIdle_frame h
  | check => exact execCheck_frame idled h
  | busw _ | accw _ =>
    cases (guarded_of_idled idled _).symm.trans h
    rfl
  | mrd addr => exact exec_busOnly idled hm (.inl ⟨addr, rfl⟩) h
  | mwr addr data => exact exec_busOnly idled hm (.inr (.inl ⟨addr, data, rfl⟩)) h
  | iack => exact exec_busOnly idled hm (.inr (.inr rfl)) h
  | wint _ _ _ => exact execWint_frame idled hi h
  | _ => exact exec_carried idled hi (fun e => by cases e) (fun e => by cases e) h

end Sys2Proof.Machine

/-! ### Memory accesses (20_memory.md): lanes, address validation, and the one bus cycle of MRD and MWR -/

namespace Sys2Proof.Machine

/-! #### Lanes (R81, R103) -/

theorem sampledDatum_low_drivenBus (d : Datum) (other : Byte) :
    sampledDatum .low (drivenBus .low d other) = (d.extractLsb' 0 8).zeroExtend 16 :=
  congrArg (BitVec.zeroExtend 16) (BitVec.extractLsb'_append_eq_right (a := other) (b := d.extractLsb' 0 8))

theorem sampledDatum_high_drivenBus (d : Datum) (other : Byte) :
    sampledDatum .high (drivenBus .high d other) = (d.extractLsb' 0 8).zeroExtend 16 :=
  congrArg (BitVec.zeroExtend 16) (BitVec.extractLsb'_append_eq_left (a := d.extractLsb' 0 8) (b := other))

/-- Settles O36: the two bytes of the bus are appended, and each half of the sum reads back as it was. -/
theorem lanesCarryTheirByte : Obligations.LanesCarryTheirByte := fun d other =>
  ⟨rfl, sampledDatum_low_drivenBus d other, sampledDatum_high_drivenBus d other⟩

theorem Width.cut_eq_ite (w : Width) (d : Datum) :
    w.cut d = if w = .one then (d.extractLsb' 0 8).zeroExtend 16 else d := by
  cases w <;> rfl

/-! #### Address validation (R104) -/

theorem reservedField_ne_zero_iff (la : Word) : reservedField la ≠ 0 ↔ la.toNat / 2 ^ 28 ≠ 0 := by
  have bound := la.isLt
  rw [ne_eq, ← BitVec.toNat_inj, reservedField, BitVec.extractLsb'_toNat, Nat.shiftRight_eq_div_pow,
    BitVec.ofNat_eq_ofNat, BitVec.toNat_zero]
  omega

theorem Cfg.dataAccessWidth_eq_ite (c : Cfg) (la : Word) :
    c.dataAccessWidth la = if c.busWidth = .one ∨ la.getLsbD 26 = true then .one else .two := by
  unfold Cfg.dataAccessWidth blBit
  cases c.busWidth <;> simp

theorem Cfg.dataAccessWidth_eq_two_iff (c : Cfg) (la : Word) :
    c.dataAccessWidth la = .two ↔ c.busWidth = .two ∧ la.getLsbD 26 = false := by
  unfold Cfg.dataAccessWidth blBit
  cases c.busWidth <;> simp

/-- The checks in the order of R104, each as the bits of the address word it reads (30_encoding.md R112). -/
theorem Cfg.decodeAddr_eq_ite (c : Cfg) (la : Word) : c.decodeAddr la =
    if la.toNat / 2 ^ 28 ≠ 0 then .error .reservedAddressBits
    else if la.getLsbD 25 = true ∧ la.getLsbD 27 = true then .error .reservedAddressBits
    else if la.getLsbD 24 = true ∧ c.hasIoSpace = false then .error .noIoSpace
    else if la.getLsbD 25 = true ∧ c.hasBlanking = false then .error .noBlanking
    else if la.getLsbD 27 = true ∧ c.hasVsync = false then .error .noVsync
    else if la.getLsbD 26 = true ∧ c.busWidth = .one then .error .noLanes
    else if c.busWidth = .two ∧ la.getLsbD 26 = false ∧ la.getLsbD 0 = true then .error .misaligned
    else .ok (c.accessOf la) := by
  simp only [Cfg.decodeAddr, reservedField_ne_zero_iff, ioBit, wsBit, blBit, vsBit, Cfg.dataAccessWidth_eq_two_iff,
    Bool.and_eq_true, Bool.not_eq_true', decide_eq_true_eq, and_assoc, and_self_left]

theorem Cfg.drivenBits_toNat (c : Cfg) (a : PhysAddr) : (c.drivenBits a).toNat = a.toNat % 2 ^ c.physAddrBits := by
  rw [Cfg.drivenBits, BitVec.toNat_ofNat, Nat.mod_eq_of_lt (Nat.lt_of_le_of_lt (Nat.mod_le _ _) a.isLt)]

theorem Cfg.accessOf_paddr_toNat (c : Cfg) (la : Word) :
    (c.accessOf la).paddr.toNat = la.toNat % 2 ^ 24 % 2 ^ c.physAddrBits := by
  rw [Cfg.accessOf, Cfg.drivenBits_toNat, addrField_toNat]

/-- R103: a big-endian bus has its even bytes on the high lane, a little-endian one on the low lane. -/
theorem laneOf_eq_ite (order : ByteOrder) (odd : Bool) : laneOf order odd =
    if order = .big then (if odd then .low else .high) else (if odd then .high else .low) := by
  cases order <;> cases odd <;> rfl

theorem Cfg.accessOf_lane (c : Cfg) (la : Word) : (c.accessOf la).lane =
    if c.busWidth = .one then .low
    else if la.getLsbD 26 = false then .both
    else if c.byteOrder = .big then (if la.getLsbD 0 then .low else .high)
    else (if la.getLsbD 0 then .high else .low) := by
  rw [← laneOf_eq_ite]
  simp only [Cfg.accessOf, Cfg.dataAccessWidth_eq_two_iff]
  cases c.busWidth <;> simp

/-- Settles O26: each clause takes one more branch of the checks. -/
theorem addressValidation : Obligations.AddressValidation := by
  intro c la
  rw [Cfg.decodeAddr_eq_ite]
  refine ⟨fun reserved => if_pos reserved, fun unreserved => ?_⟩
  rw [if_neg (not_not.mpr unreserved)]
  refine ⟨fun both => if_pos both, fun notBoth => ?_⟩
  rw [if_neg notBoth]
  refine ⟨fun io => if_pos io, fun notIo => ?_⟩
  rw [if_neg notIo]
  refine ⟨fun blanking => if_pos blanking, fun notBlanking => ?_⟩
  rw [if_neg notBlanking]
  refine ⟨fun vsync => if_pos vsync, fun notVsync => ?_⟩
  rw [if_neg notVsync]
  refine ⟨fun lanes => if_pos lanes, fun notLanes => ?_⟩
  rw [if_neg notLanes]
  refine ⟨fun misaligned => if_pos misaligned, fun aligned => ?_⟩
  rw [if_neg aligned]
  exact ⟨c.accessOf la, rfl, rfl, rfl, c.accessOf_paddr_toNat la, c.dataAccessWidth_eq_ite la, c.accessOf_lane la⟩

/-! #### MRD and MWR of an address that fails validation -/

theorem directCycle_of_error {s : State} {addr : Word} {e : Info} (h : s.cfg.decodeAddr addr = .error e)
    (kind : CycleKind) (w : Access → Datum) :
    directCycle kind addr w s = .raise ((Result.error .unimplemented e).atAddr addr) s := by
  rw [directCycle, h]

/-- Settles O27: the refusal is raised in the state the command began in, whose engine is idle, so trap entry writes
the record only. -/
theorem addressRefusedBeforeTheBus : Obligations.AddressRefusedBeforeTheBus := by
  intro s addr e i bus idled hi invalid
  refine ⟨(Result.error .unimplemented e).atAddr addr, ?_, rfl⟩
  have trapped : trapEntry ((Result.error .unimplemented e).atAddr addr) s
      = finish ((Result.error .unimplemented e).atAddr addr) s := by
    rw [trapEntry, restoreIdle_of_engineIdle hi]
  rcases bus with rfl | ⟨data, rfl⟩
  · rw [exec, execMrd, guarded_of_idled idled, directCycle_of_error invalid, Res.bind_raise, complete_raise, trapped]
    rfl
  · rw [exec, execMwr, guarded_of_idled idled, directCycle_of_error invalid, Res.bind_raise, complete_raise, trapped]
    rfl

/-! #### The one bus cycle of MRD and MWR -/

theorem driveData_latch (s : State) : (driveData s).latch = s.latch := by
  unfold driveData
  split <;> rfl

/-- Without an autovector, a read gives what it sampled (41_bus_engine.md R213). -/
theorem phase4_rdata {seen : AckSeen} {s t : State} {d : Datum} (ran : phase4 none seen s = .ok d t)
    (notWrite : t.latch.kind ≠ .write) : d = t.latch.rdata := by
  unfold phase4 at ran
  dsimp only at ran
  split at ran
  · next isWrite =>
    cases ran
    rw [closeCycle_latch, driveData_latch] at notWrite
    exact absurd isWrite notWrite
  · cases ran
    rfl

/-- The datum of a bus cycle is P4's. -/
theorem busCycle_rdata {kind : CycleKind} {a : Access} {wdata d : Datum} {s t : State}
    (ran : busCycle kind a wdata none s = .ok d t) (notWrite : t.latch.kind ≠ .write) : d = t.latch.rdata := by
  obtain ⟨-, s1, -, ran⟩ := Res.bind_eq_ok.mp ran
  obtain ⟨-, s2, -, ran⟩ := Res.bind_eq_ok.mp ran
  obtain ⟨seen, s3, -, ran⟩ := Res.bind_eq_ok.mp ran
  exact phase4_rdata ran notWrite

/-- A reason of P0 is raised by the pre-phase it names (41_bus_engine.md R203, R204). -/
def NamesItsPrePhase (pre : PrePhase) (r : Result) : Prop :=
  (r.info = .waitSpaceTimeout → pre = .waitSpace) ∧ (r.info = .vsyncTimeout → pre = .vsync)

theorem prePhase_namesItsPrePhase (s : State) : Raises (NamesItsPrePhase s.latch.pre) (prePhase s) := by
  unfold prePhase
  cases s.latch.pre with
  | none => exact Raises.ok _ _
  | waitSpace =>
    refine (preSync_raises _ _ _ _).mono ?_
    rintro r rfl
    exact ⟨fun _ => rfl, fun vsync => (nomatch vsync)⟩
  | vsync =>
    refine (preSync_raises _ _ _ _).mono ?_
    rintro r rfl
    exact ⟨fun waitSpace => (nomatch waitSpace), fun _ => rfl⟩

theorem synchronize_raises (s : State) : Raises (fun r => r = Result.error .timeout .syncTimeout) (synchronize s) := by
  unfold synchronize
  split
  · exact Raises.ok _ _
  · rcases waitEdge_spec s with ⟨t, ran, -⟩ | ⟨t, ran, -⟩ <;> rw [ran]
    · exact Raises.ok _ _
    · exact Raises.raise rfl

theorem phase3_raises (s : State) : Raises (fun r => r = Result.error .timeout .ackTimeout) (phase3 s) := by
  rw [phase3]
  rcases waitAck_spec (assertStrobes (masterClocks s.cfg.halfCycles.p3 (enterPhase .p3 s))) with
    ⟨seen, t, ran, -⟩ | ⟨t, ran, -⟩ <;> rw [ran]
  · exact Raises.ok _ _
  · exact Raises.raise rfl

/-- P4 always completes. -/
theorem phase4_raises (av : Option Byte) (seen : AckSeen) (s : State) : Raises (fun _ => False) (phase4 av seen s) := by
  unfold phase4
  dsimp only
  split <;> exact Raises.ok _ _

theorem busCycle_namesItsPrePhase (kind : CycleKind) (a : Access) (wdata : Datum) (av : Option Byte) (s : State) :
    Raises (NamesItsPrePhase a.pre) (busCycle kind a wdata av s) := by
  have other : ∀ {why : Info} (r : Result), why ≠ .waitSpaceTimeout → why ≠ .vsyncTimeout →
      r = Result.error .timeout why → NamesItsPrePhase a.pre r := by
    rintro why r notWaitSpace notVsync rfl
    exact ⟨fun waitSpace => absurd waitSpace notWaitSpace, fun vsync => absurd vsync notVsync⟩
  refine (prePhase_namesItsPrePhase (latchCycle kind a wdata s)).bind fun _ s1 => ?_
  refine ((synchronize_raises _).mono fun r => other r (by decide) (by decide)).bind fun _ s2 => ?_
  refine ((phase3_raises _).mono fun r => other r (by decide) (by decide)).bind fun seen s3 => ?_
  exact (phase4_raises av seen s3).mono fun r => False.elim

/-- The kind and the driven datum of MRD and MWR (40_contract.md R156, R157). -/
def DirectAccess (i : Instr) (addr : Word) (a : Access) (kind : CycleKind) (wdata : Datum) : Prop :=
  i = .mrd addr ∧ kind = .read ∧ wdata = 0
    ∨ (∃ data, i = .mwr addr data ∧ wdata = if a.w = .one then (data.extractLsb' 0 8).zeroExtend 16 else data)
      ∧ kind = .write

theorem DirectAccess.kind_ne_ack {i : Instr} {addr : Word} {a : Access} {kind : CycleKind} {wdata : Datum}
    (h : DirectAccess i addr a kind wdata) : kind ≠ .ack := by
  rcases h with ⟨-, rfl, -⟩ | ⟨-, rfl⟩ <;> decide

theorem DirectAccess.driveable {i : Instr} {addr : Word} {a : Access} {kind : CycleKind} {wdata : Datum} {c : Cfg}
    (h : DirectAccess i addr a kind wdata) (legal : c.decodeAddr addr = .ok a) (isWrite : kind = .write) :
    Driveable c a.w a.lane wdata := by
  rcases h with ⟨-, rfl, -⟩ | ⟨⟨data, -, rfl⟩, -⟩
  · cases isWrite
  · rw [← Width.cut_eq_ite]
    exact decodeAddr_driveable legal data

/-- MRD and MWR of a legal address are one bus cycle and its report, a Success where the cycle completes. -/
theorem DirectAccess.exec_eq {i : Instr} {addr : Word} {a : Access} {kind : CycleKind} {wdata : Datum} {s : State}
    (h : DirectAccess i addr a kind wdata) (legal : s.cfg.decodeAddr addr = .ok a) (idled : s.idled = true) :
    ∃ report : Datum → Result, (∀ d, (report d).code = .success)
      ∧ exec i s = .next (complete
          (((busCycle kind a wdata none s).onRaise (Result.atAddr addr)).bind fun d u => .ok (report d) u)) := by
  have direct : ∀ w, directCycle kind addr w s = (busCycle kind a (w a) none s).onRaise (Result.atAddr addr) := by
    intro w
    rw [directCycle, legal]
  rcases h with ⟨rfl, rfl, rfl⟩ | ⟨⟨data, rfl, rfl⟩, rfl⟩
  · refine ⟨fun d => Result.value32 (d.zeroExtend 32), fun _ => rfl, ?_⟩
    rw [exec, execMrd, guarded_of_idled idled, direct]
  · refine ⟨fun _ => Result.blank, fun _ => rfl, ?_⟩
    rw [exec, execMwr, guarded_of_idled idled, direct, Width.cut_eq_ite]

/-- A completed cycle's datum is what its latch holds: the sample of a read, the operand of a write. -/
theorem CycleDone.datum {s t : State} {kind : CycleKind} {a : Access} {wdata d : Datum}
    (h : CycleDone s kind a wdata d t) (ran : busCycle kind a wdata none s = .ok d t)
    (written : kind = .write → d = wdata) (notAck : kind ≠ .ack) :
    d = if kind = .read then t.latch.rdata else wdata := by
  obtain ⟨rdata, latched⟩ := h.latch
  cases kind with
  | read => exact busCycle_rdata ran (by rw [latched]; exact nofun)
  | write => exact written rfl
  | ack => exact absurd rfl notAck

/-- A latch of which all but `rdata` is known, in the form that names its own `rdata`. -/
theorem CycleLatch.eq_of_exists_rdata {l : CycleLatch} {kind : CycleKind} {a : Access} {wdata : Datum}
    (h : ∃ rdata, l = ⟨kind, a.space, a.pre, a.paddr, a.w, a.lane, wdata, rdata⟩) :
    l = ⟨kind, a.space, a.pre, a.paddr, a.w, a.lane, wdata, l.rdata⟩ := by
  obtain ⟨rdata, rfl⟩ := h
  rfl

/-- Settles O30: the command is the one bus cycle of its operands, and its ends are the exits of `busCycle_spec`. -/
theorem atMostOneCycle : Obligations.AtMostOneCycle := by
  intro s t addr i kind wdata a hs idled (access : DirectAccess i addr a kind wdata) legal ran
  obtain ⟨report, success, direct⟩ := access.exec_eq legal idled
  cases direct.symm.trans ran
  rcases busCycle_spec kind a wdata none s hs.betweenCycles.2 with
    ⟨d, u, cycle, done, written⟩ | ⟨r, u, cycle, failed⟩
  · rw [cycle, Res.onRaise_ok, Res.bind_ok]
    exact ⟨done.engineIdle, done.toBusWithin.complete_busOnly (x := .ok (report d) u),
      CycleLatch.eq_of_exists_rdata done.latch, .inl ⟨success d, d, done.datum cycle written access.kind_ne_ack,
      newEvents_of_eq done.event, done.acts fun isWrite => written isWrite ▸ access.driveable legal isWrite⟩⟩
  · rw [cycle, Res.onRaise_raise, Res.bind_raise]
    obtain ⟨waitSpace, vsync⟩ := busCycle_namesItsPrePhase kind a wdata none s r u cycle
    refine ⟨⟨rfl, rfl, rfl⟩, failed.toBusWithin.complete_busOnly (x := .raise (r.atAddr addr) u),
      CycleLatch.eq_of_exists_rdata failed.latch, .inr ?_⟩
    rcases failed.exit with ⟨rfl, -, event, acts⟩ | ⟨kept, early⟩
    · exact .inl ⟨rfl, newEvents_of_eq event, acts⟩
    · have noEvent : newEvents s u = [] := newEvents_of_eq (by rw [kept, List.append_nil])
      rcases early with ⟨rfl, -, acts⟩ | ⟨rfl | rfl, acts⟩
      · exact .inr (.inl ⟨rfl, noEvent, acts⟩)
      · exact .inr (.inr ⟨.inl ⟨rfl, waitSpace rfl⟩, noEvent, acts⟩)
      · exact .inr (.inr ⟨.inr ⟨rfl, vsync rfl⟩, noEvent, acts⟩)

end Sys2Proof.Machine

/-! ### The encoding (30_encoding.md R110 to R118): decoder, encoder, opcode table and byte streams agree -/

namespace Sys2Proof

open Sys2Proof.Laws.EncodedFields

/-! #### The decoder accepts a frame exactly where it fills a row -/

/-- R118: the decoder's checks together ask that the frame fills the row of its opcode. -/
theorem decode_eq_ok_iff (f : Frame) (i : Instr) : decode f = .ok i ↔ ∃ row, Fills f row ∧ row.build f = i := by
  unfold decode Fills
  cases opcodeRow (opField f) with
  | none => simp
  | some row =>
    simp only [Option.some.injEq]
    constructor
    · intro decoded
      split_ifs at decoded with rsv idx b x y
      cases decoded
      exact ⟨row, ⟨rfl, by simpa using rsv, by simpa using idx, by simpa using b, by simpa using x,
        by simpa using y⟩, rfl⟩
    · rintro ⟨_, ⟨rfl, rsv, idx, b, x, y⟩, rfl⟩
      rw [if_neg (by simpa using rsv), if_neg (by simpa using idx), if_neg (by simpa using b),
        if_neg (by simpa using x), if_neg (by simpa using y)]

/-- R114, R115: the frame of every command fills a row. -/
theorem encode_fills (i : Instr) : ∃ row, Fills (encode i) row := by
  cases i with
  | idle => exact idle
  | check => exact check
  | busw addr => exact busw addr
  | accw addr => exact accw addr
  | mrd addr => exact mrd addr
  | mwr addr data => exact mwr addr data
  | wint line level timeout => exact wint line level timeout
  | iack => exact iack
  | romall => exact romall
  | romchk region => exact romchk region
  | romraw => exact romraw
  | romcrc region => exact romcrc region
  | rammarch region seed => exact rammarch region seed
  | ramcs seed => exact ramcs seed
  | ramaddr region => exact ramaddr region
  | ramfill region value => exact ramfill region value
  | ramread region => exact ramread region
  | ioin input => exact ioin input
  | ioout output active => exact ioout output active
  | intchk line extVec timeout vector => exact intchk line extVec timeout vector

theorem extractLsb'_zeroExtend_self {m n : Nat} (h : m ≤ n) (v : BitVec m) : (v.zeroExtend n).extractLsb' 0 m = v := by
  apply BitVec.eq_of_toNat_eq
  have := Nat.lt_of_lt_of_le v.isLt (Nat.pow_le_pow_right (by decide : 0 < 2) h)
  simp [BitVec.extractLsb'_toNat, Nat.mod_eq_of_lt this, Nat.mod_eq_of_lt v.isLt]

/-- R114, R116: the row of a command's opcode builds the command from the fields of its frame. -/
theorem build_encode {i : Instr} {row : OpcodeRow} (h : opcodeRow (opField (encode i)) = some row) :
    row.build (encode i) = i := by
  cases i
  all_goals
    simp only [encode, opField_frameOf] at h ⊢
    cases h
    simp only [idxField_frameOf, bField_frameOf, xField_frameOf, yDatum_frameOf, yByte_frameOf]
  case mwr | ramfill | intchk => rw [extractLsb'_zeroExtend_self (by decide)]

/-- Settles O1: the frame fills the row of its opcode, so it decodes to what the row builds. -/
theorem decodeOfEncode : Obligations.DecodeOfEncode := by
  intro i
  obtain ⟨row, fills⟩ := encode_fills i
  exact (decode_eq_ok_iff _ _).mpr ⟨row, fills, build_encode fills.1⟩

/-! #### A decoded frame is the frame of its command -/

theorem setWidth_extractLsb'_of_lt {m n : Nat} {v : BitVec n} (h : v.toNat < 2 ^ m) :
    (v.extractLsb' 0 m).setWidth n = v := by
  apply BitVec.eq_of_toNat_eq
  simp [BitVec.extractLsb'_toNat, Nat.mod_eq_of_lt h]

/-- R127: encoding what a row builds puts the operands back in the fields they came from. -/
theorem encode_build_frameOf {op idx : Byte} {b : Bool} {x y : Word} {row : OpcodeRow}
    (found : opcodeRow op = some row) (hidx : row.usesIdx = false → idx = 0) (hb : row.usesB = false → b = false)
    (hx : row.usesX = false → x = 0) (hy : y.toNat < 2 ^ row.yBits) :
    encode (row.build (frameOf op idx b x y)) = frameOf op idx b x y := by
  have y_low : (y.extractLsb' 0 row.yBits).zeroExtend 32 = y := setWidth_extractLsb'_of_lt hy
  have op_eq : ∀ k, op.toNat = k → op = BitVec.ofNat 8 k := fun k known => by simp [← known]
  unfold opcodeRow at found
  split at found
  all_goals cases found
  all_goals
    next known =>
    obtain rfl := op_eq _ known
    simp only [encode, idxField_frameOf, bField_frameOf, xField_frameOf, yDatum_frameOf, yByte_frameOf]
    simp_all
  
/-- A frame that fills a row is the frame of what the row builds from it. -/
theorem encode_build {f : Frame} {row : OpcodeRow} (fills : Fills f row) : encode (row.build f) = f := by
  obtain ⟨found, rsv, idx, b, x, y⟩ := fills
  rw [← frameOf_fields f rsv]
  exact encode_build_frameOf found idx b x y

/-- Settles O2. -/
theorem encodeOfDecode : Obligations.EncodeOfDecode := by
  intro f i decoded
  obtain ⟨row, fills, rfl⟩ := (decode_eq_ok_iff f i).mp decoded
  exact encode_build fills

/-! #### The opcode table as masks -/

theorem bField_toNat (f : Frame) : (bField f).toNat = f.toNat / 2 ^ 16 % 2 := by
  rw [bField, ← BitVec.testBit_toNat, Nat.testBit_eq_decide_div_mod_eq]
  rcases Nat.mod_two_eq_zero_or_one (f.toNat / 2 ^ 16) with h | h <;> rw [h] <;> rfl

/-- The fields of R111 make up the whole frame. -/
theorem frame_eq_iff (f g : Frame) : f = g ↔ opField f = opField g ∧ idxField f = idxField g ∧ bField f = bField g
    ∧ rsvField f = rsvField g ∧ xField f = xField g ∧ yField f = yField g := by
  refine ⟨by rintro rfl; simp, fun ⟨op, idx, b, rsv, x, y⟩ => ?_⟩
  have b : (bField f).toNat = (bField g).toNat := by rw [b]
  rw [bField_toNat, bField_toNat] at b
  rw [← BitVec.toNat_inj] at op idx rsv x y ⊢
  simp only [opField, idxField, rsvField, xField, yField, BitVec.extractLsb'_toNat, Nat.shiftRight_eq_div_pow]
    at op idx rsv x y
  have := f.isLt
  have := g.isLt
  omega

/-- The bits of a frame that a row leaves to operands (R114); every other bit is fixed (R115). -/
def OpcodeRow.operandBits (row : OpcodeRow) : Frame :=
  frameOf 0 (if row.usesIdx then BitVec.allOnes 8 else 0) row.usesB (if row.usesX then BitVec.allOnes 32 else 0)
    (~~~(BitVec.allOnes 32 <<< row.yBits))

theorem and_allOnes_shiftLeft_eq_zero_iff {w : Nat} (v : BitVec w) (n : Nat) :
    v &&& BitVec.allOnes w <<< n = 0#w ↔ v.toNat < 2 ^ n := by
  constructor
  · intro high
    refine Nat.lt_pow_two_of_testBit _ fun i hi => ?_
    by_cases hw : i < w
    · have bit := congrArg (·.getLsbD i) high
      simpa [hw, show ¬ i < n by omega, show i - n < w by omega, ← BitVec.getLsbD_eq_getElem, BitVec.testBit_toNat]
        using bit
    · exact Nat.testBit_lt_two_pow (Nat.lt_of_lt_of_le v.isLt (Nat.pow_le_pow_right (by decide) (by omega)))
  · intro low
    refine BitVec.eq_of_getLsbD_eq fun i hw => ?_
    by_cases hi : i < n
    · simp [hi]
    · have bit : v.getLsbD i = false :=
        Nat.testBit_lt_two_pow (Nat.lt_of_lt_of_le low (Nat.pow_le_pow_right (by decide) (by omega)))
      simp [bit]

theorem extractLsb'_and_not {w : Nat} (f g : BitVec w) (start len : Nat) (h : start + len ≤ w) :
    (f &&& ~~~g).extractLsb' start len = f.extractLsb' start len &&& ~~~g.extractLsb' start len := by
  refine BitVec.eq_of_getLsbD_eq fun i hi => ?_
  have : start + i < w := by omega
  simp [hi, this]


/-- Masking a frame masks each of its fields. -/
theorem frame_and_not_eq_iff (f g h : Frame) : f &&& ~~~g = h ↔
    opField f &&& ~~~opField g = opField h ∧ idxField f &&& ~~~idxField g = idxField h
      ∧ (bField f && !bField g) = bField h ∧ rsvField f &&& ~~~rsvField g = rsvField h
      ∧ xField f &&& ~~~xField g = xField h ∧ yField f &&& ~~~yField g = yField h := by
  have op : opField (f &&& ~~~g) = opField f &&& ~~~opField g := extractLsb'_and_not f g 0 8 (by omega)
  have idx : idxField (f &&& ~~~g) = idxField f &&& ~~~idxField g := extractLsb'_and_not f g 8 8 (by omega)
  have b : bField (f &&& ~~~g) = (bField f && !bField g) := by simp [bField]
  have rsv : rsvField (f &&& ~~~g) = rsvField f &&& ~~~rsvField g := extractLsb'_and_not f g 17 15 (by omega)
  have x : xField (f &&& ~~~g) = xField f &&& ~~~xField g := extractLsb'_and_not f g 32 32 (by omega)
  have y : yField (f &&& ~~~g) = yField f &&& ~~~yField g := extractLsb'_and_not f g 64 32 (by omega)
  rw [frame_eq_iff, op, idx, b, rsv, x, y]

theorem and_not_operand_eq_zero_iff {w : Nat} (v : BitVec w) (operand : Bool) :
    v &&& ~~~(if operand then BitVec.allOnes w else 0#w) = 0#w ↔ (operand = false → v = 0#w) := by
  cases operand <;> simp

/-- Outside a row's operand bits a frame is the bare opcode exactly where it has that opcode and fills the row. -/
theorem and_not_operandBits_eq_iff (f : Frame) {op : Byte} {row : OpcodeRow} (found : opcodeRow op = some row) :
    f &&& ~~~row.operandBits = frameOf op 0 false 0 0 ↔ opField f = op ∧ Fills f row := by
  have allBits : ∀ {w : Nat} (v : BitVec w), v &&& ~~~0#w = v := fun v => by rw [BitVec.not_zero, BitVec.and_allOnes]
  have bit : (bField f && !row.usesB) = false ↔ (row.usesB = false → bField f = false) := by
    cases row.usesB <;> simp
  rw [frame_and_not_eq_iff]
  simp only [OpcodeRow.operandBits, opField_frameOf, idxField_frameOf, bField_frameOf, rsvField_frameOf,
    xField_frameOf, yField_frameOf, BitVec.ofNat_eq_ofNat, allBits, and_not_operand_eq_zero_iff, bit, BitVec.not_not,
    and_allOnes_shiftLeft_eq_zero_iff]
  constructor
  · rintro ⟨rfl, idx, b, rsv, x, y⟩
    exact ⟨rfl, found, rsv, idx, b, x, y⟩
  · rintro ⟨rfl, -, rsv, idx, b, x, y⟩
    exact ⟨rfl, idx, b, rsv, x, y⟩

/-- The masks of spec/opcode_table.json are the bits outside the operands of the rows of R114, in the order of their
opcodes. -/
theorem opcodeMasks_eq : opcodeMasks = (List.range 256).filterMap fun op =>
    (opcodeRow (BitVec.ofNat 8 op)).map fun row => (frameOf (BitVec.ofNat 8 op) 0 false 0 0, ~~~row.operandBits) := by
  decide +kernel

theorem legalFrame_iff (f : Frame) : legalFrame f = true ↔ ∃ row, Fills f row := by
  simp only [legalFrame, opcodeMasks_eq, List.any_eq_true, List.mem_filterMap, List.mem_range, Option.map_eq_some_iff,
    decide_eq_true_eq]
  constructor
  · rintro ⟨_, ⟨op, -, row, found, rfl⟩, masked⟩
    exact ⟨row, ((and_not_operandBits_eq_iff f found).mp masked).2⟩
  · rintro ⟨row, fills⟩
    have op : BitVec.ofNat 8 (opField f).toNat = opField f := by
      rw [BitVec.ofNat_toNat, BitVec.setWidth_eq]
    refine ⟨_, ⟨(opField f).toNat, (opField f).isLt, row, by rw [op]; exact fills.1, rfl⟩, ?_⟩
    rw [op]
    exact (and_not_operandBits_eq_iff f fills.1).mpr ⟨rfl, fills⟩

/-- Settles O3: both sides say that the frame fills a row. -/
theorem decodesExactlyTheTable : Obligations.DecodesExactlyTheTable := by
  intro f
  rw [legalFrame_iff]
  constructor
  · rintro ⟨i, decoded⟩
    obtain ⟨row, fills, -⟩ := (decode_eq_ok_iff f i).mp decoded
    exact ⟨row, fills⟩
  · rintro ⟨row, fills⟩
    exact ⟨row.build f, (decode_eq_ok_iff f _).mpr ⟨row, fills, rfl⟩⟩

/-! #### Byte streams (R110) -/

theorem frameBytes_length (f : Frame) : (frameBytes f).length = 12 := by simp [frameBytes]

theorem bytesValue_append_singleton (bs : List Byte) (b : Byte) :
    bytesValue (bs ++ [b]) = bytesValue bs + 256 ^ bs.length * b.toNat := by
  induction bs with
  | nil => simp [bytesValue]
  | cons a bs ih =>
    simp only [List.cons_append, bytesValue, ih, List.length_cons]
    ring

/-- The first `n` bytes of a word stand for its value modulo `256 ^ n`. -/
theorem bytesValue_extract {w : Nat} (v : BitVec w) (n : Nat) :
    bytesValue ((List.range n).map fun k => v.extractLsb' (8 * k) 8) = v.toNat % 256 ^ n := by
  induction n with
  | zero => simp [bytesValue, Nat.mod_one]
  | succ n ih =>
    have byte : (v.extractLsb' (8 * n) 8).toNat = v.toNat / 256 ^ n % 256 := by
      rw [BitVec.extractLsb'_toNat, Nat.shiftRight_eq_div_pow, Nat.pow_mul]
    rw [List.range_succ, List.map_append, List.map_singleton, bytesValue_append_singleton, ih, List.length_map,
      List.length_range, byte, Nat.pow_succ, Nat.mod_mul]

theorem bytesValue_frameBytes (f : Frame) : bytesValue (frameBytes f) = f.toNat := by
  rw [frameBytes, bytesValue_extract]
  exact Nat.mod_eq_of_lt f.isLt

theorem takeFrame_frameBytes (f : Frame) (rest : List Byte) : takeFrame (frameBytes f ++ rest) = some (f, rest) := by
  have long : 12 ≤ (frameBytes f ++ rest).length := by simp [frameBytes_length]
  rw [takeFrame, if_pos long, List.take_left' (frameBytes_length f), List.drop_left' (frameBytes_length f),
    bytesValue_frameBytes, BitVec.ofNat_toNat, BitVec.setWidth_eq]

/-- Settles O4: the first twelve bytes are the command's frame, which decodes to the command. -/
theorem streamRoundTrip : Obligations.StreamRoundTrip := by
  intro i rest
  rw [encodeBytes, decodeBytes, takeFrame_frameBytes]
  simp only [decodeOfEncode i]

end Sys2Proof

namespace Sys2Proof.Machine

/-! #### An illegal frame (R115) -/

theorem decode_error_of_not_legal {f : Frame} (illegal : legalFrame f = false) : ∃ e, decode f = .error e := by
  cases decoded : decode f with
  | error e => exact ⟨e, rfl⟩
  | ok i =>
    rw [(decodesExactlyTheTable f).mp ⟨i, decoded⟩] at illegal
    cases illegal

/-- Settles O7: the frame decodes to an error, and the refusal writes the record and the mark only. -/
theorem illegalFrameIsRefused : Obligations.IllegalFrameIsRefused := by
  intro s f fetched illegal
  obtain ⟨e, decoded⟩ := decode_error_of_not_legal illegal
  simp only [step, State.fetch, fetched, decoded]
  rfl

/-! ### Lines, samples and cells (30_encoding.md R113, R117, R135, R136) -/

/-! #### Lines -/

theorem lineOfIndex_of_lt {idx : Byte} {n : Fin 8} (h : idx.toNat = n.val) : lineOfIndex idx = some (.irq n) := by
  rw [lineOfIndex, dif_pos (by omega)]
  simp only [h]

theorem lineOfIndex_eight {idx : Byte} (h : idx.toNat = 8) : lineOfIndex idx = some .nmi := by
  rw [lineOfIndex, dif_neg (by omega), if_pos (BitVec.eq_of_toNat_eq h)]

theorem lineOfIndex_of_gt {idx : Byte} (h : 9 ≤ idx.toNat) : lineOfIndex idx = none := by
  have notEight : idx ≠ 8 := by
    rintro rfl
    exact absurd h (by decide)
  rw [lineOfIndex, dif_neg (by omega), if_neg notEight]

/-- R117: a number that names no line, or a line the family lacks. -/
theorem Cfg.lineAt_eq_none {c : Cfg} {idx : Byte}
    (h : 9 ≤ idx.toNat ∨ idx.toNat = 8 ∧ Line.nmi ∉ c.lines ∨ ∃ n : Fin 8, idx.toNat = n.val ∧ Line.irq n ∉ c.lines) :
    c.lineAt idx = none := by
  rcases h with gt | ⟨eight, lacks⟩ | ⟨n, isN, lacks⟩
  · rw [Cfg.lineAt, lineOfIndex_of_gt gt]
  · rw [Cfg.lineAt, lineOfIndex_eight eight]
    exact if_neg lacks
  · rw [Cfg.lineAt, lineOfIndex_of_lt isN]
    exact if_neg lacks

/-- A record raised in the state an idle engine began the command in is all the command writes. -/
theorem guarded_raise_of_engineIdle {s : State} {body : State → Res Result} {r : Result} (idled : s.idled = true)
    (hi : s.EngineIdle) (raised : body s = .raise r s) : guarded s body = .next (finish r s) := by
  rw [guarded_of_idled idled, raised, complete_raise, trapEntry, restoreIdle_of_engineIdle hi]

/-- Settles O33: the line is looked up before anything is sampled. -/
theorem noSuchLine : Obligations.NoSuchLine := by
  intro s idx idled hi lacks
  have none : s.cfg.lineAt idx = none := Cfg.lineAt_eq_none lacks
  refine ⟨fun level timeout => ⟨Result.noSuchLine idx, ?_, rfl⟩,
    fun extVec timeout vector => ⟨(Result.noSuchLine idx).atStep 1, ?_, rfl⟩⟩
  · rw [exec, execWint]
    refine guarded_raise_of_engineIdle (r := Result.noSuchLine idx) idled hi ?_
    rw [none]
  · rw [exec, execIntchk]
    refine guarded_raise_of_engineIdle (r := (Result.noSuchLine idx).atStep 1) idled hi ?_
    rw [none]

/-! #### Samples -/

/-- Settles O51, by `lt_sampleCount_iff`. -/
theorem sampleCountIsExact : Obligations.SampleCountIsExact := lt_sampleCount_iff

/-! #### Cells -/

theorem cellAddr_toNat (start : Word) (stride i : Nat) : (cellAddr start stride i).toNat
    = 2 ^ 24 * (selectors start).toNat + ((addrField start).toNat + i * stride) % 2 ^ 24 := by
  rw [cellAddr, toNat_append_eq, BitVec.toNat_ofNat]

/-- R113: moving the address field leaves the selectors. -/
theorem selectors_cellAddr (start : Word) (stride i : Nat) : selectors (cellAddr start stride i) = selectors start := by
  rw [← BitVec.toNat_inj, selectors_toNat, cellAddr_toNat]
  omega

/-- A cell whose place fits the address field stands there. -/
theorem addrField_cellAddr {start : Word} {stride i : Nat} (fits : (addrField start).toNat + i * stride < 2 ^ 24) :
    (addrField (cellAddr start stride i)).toNat = (addrField start).toNat + i * stride := by
  rw [addrField_toNat, cellAddr_toNat, Nat.mod_eq_of_lt fits]
  omega

theorem Cfg.stride_eq (c : Cfg) (start : Word) (step : Nat) : c.stride start step = step * c.busWidth.bytes := rfl

theorem Width.bytes_pos (w : Width) : 0 < w.bytes := by cases w <;> decide

/-- R135 items 1 to 3, at the regions of a well-formed configuration. -/
theorem Cfg.wf_descriptorsLegal {c : Cfg} (h : c.wf = true) : c.descriptorsLegal = true := by
  simp only [Cfg.wf, Bool.and_eq_true] at h
  exact h.2

/-- R253: no cell of a ROM region carries out of the address field. -/
theorem RomRegion.cell_fits {c : Cfg} {rom : RomRegion} (h : rom.wf c = true) {i : Nat} (hi : i < rom.length) :
    (addrField rom.start).toNat + i * c.stride rom.start 1 < 2 ^ 24 := by
  simp only [RomRegion.wf, Bool.and_eq_true, decide_eq_true_eq] at h
  obtain ⟨⟨⟨-, fits⟩, -⟩, -⟩ := h
  have : i * c.stride rom.start 1 ≤ (rom.length - 1) * c.stride rom.start 1 := Nat.mul_le_mul_right _ (by omega)
  omega

/-- R280: the cells of a RAM region are those at most at its end. -/
theorem lt_ramGeometry_count_iff {c : Cfg} {ram : RamRegion} (h : ram.wf c = true) (i : Nat) :
    i < (c.ramGeometry ram).count
      ↔ (addrField ram.start).toNat + i * c.stride ram.start ram.step ≤ (addrField ram.last).toNat := by
  obtain ⟨⟨ordered, stepPos, sameSelectors⟩, -⟩ := (RamRegion.wf_iff c ram).mp h
  have stridePos : 0 < c.stride ram.start ram.step := Nat.mul_pos stepPos c.busWidth.bytes_pos
  have inOrder : (addrField ram.start).toNat ≤ (addrField ram.last).toNat := by
    rw [addrField_toNat, addrField_toNat]
    omega
  have quotient : i ≤ ((addrField ram.last).toNat - (addrField ram.start).toNat) / c.stride ram.start ram.step
      ↔ i * c.stride ram.start ram.step ≤ (addrField ram.last).toNat - (addrField ram.start).toNat :=
    Nat.le_div_iff_mul_le stridePos
  simp only [Cfg.ramGeometry]
  omega

/-- Settles O50. -/
theorem cellsKeepTheirSelectors : Obligations.CellsKeepTheirSelectors := by
  intro c wf
  have legal := Cfg.wf_descriptorsLegal wf
  simp only [Cfg.descriptorsLegal, Bool.and_eq_true, List.all_eq_true] at legal
  obtain ⟨⟨⟨roms, rams⟩, -⟩, -⟩ := legal
  refine ⟨fun rom mem i hi => ⟨selectors_cellAddr _ _ _, ?_⟩, fun ram mem => ⟨fun i => ?_, fun i hi =>
    ⟨selectors_cellAddr _ _ _, ?_⟩⟩⟩
  · rw [← Nat.one_mul c.busWidth.bytes]
    exact addrField_cellAddr (RomRegion.cell_fits (roms rom mem) hi)
  · exact lt_ramGeometry_count_iff (rams ram mem) i
  · have atMostLast := (lt_ramGeometry_count_iff (rams ram mem) i).mp hi
    exact addrField_cellAddr (Nat.lt_of_le_of_lt atMostLast (addrField ram.last).isLt)

end Sys2Proof.Machine

/-! ### How a sequencer ends (42_rom_check.md R250 to R254, 60_exceptions.md R361): its plan runs, or a move stops it -/

namespace Sys2Proof.Machine

/-! #### Where a plan stops -/

/-- The record of a read whose datum `d` disagrees (60_exceptions.md R352). -/
def compareRecord (spot : Spot) (la : Word) (e m d : Datum) : Result :=
  (Result.dataMismatch la (e &&& m) (d &&& m) spot.table spot.index).atStep spot.step

/-- How one move can stop a sequencer: the Board's answers to it, the events it appends, and the record. -/
inductive MoveStops (c : Cfg) (spot : Spot) : Move → List Raw → List Event → Result → Prop
  /-- A bank switch answers another code than Success (60_exceptions.md R374). -/
  | bank (table : TableTag) (i : Byte) (raw : Raw) : codeOf raw ≠ .success →
    MoveStops c spot (.bank table i) [raw] [.bank table i] (bankFailure (codeOf raw) table i)
  /-- An access fails (R351, R353). -/
  | access (m : Move) (la : Word) (r : Reply) (f : Failure) : m.address? = some la → m.fails c r f = true →
    MoveStops c spot m (m.failureAnswers c r f) (m.failureEvents c r f)
      (locate la spot.table spot.index (Result.error (f.reason c r la).1 (f.reason c r la).2))
  /-- A read completes, and its compare disagrees (R352). -/
  | compare (la : Word) (e m : Datum) (r : Reply) : c.disagrees la e m r = true →
    MoveStops c spot (.read la e m) ((Move.read la e m).answers c r) ((Move.read la e m).events c r)
      (c.mismatchRecord spot r la e m)

/-- The Board's answers carry a plan up to a move that stops it: the events up to there, the record, and the answers
left over. -/
inductive PlanStops (c : Cfg) : List (Spot × Move) → List Raw → List Event → Result → List Raw → Prop
  | here {spot : Spot} {m : Move} {later : List (Spot × Move)} {answers rest : List Raw} {es : List Event}
      {rec : Result} :
    MoveStops c spot m answers es rec → PlanStops c ((spot, m) :: later) (answers ++ rest) es rec rest
  | later {spot : Spot} {m : Move} {plan : List (Spot × Move)} {r : Reply} {script rest : List Raw} {es : List Event}
      {rec : Result} :
    m.accepts c r = true → PlanStops c plan script es rec rest →
    PlanStops c ((spot, m) :: plan) (m.answers c r ++ script) (m.events c r ++ es) rec rest

/-- The moves of a plan, without their spots. -/
def movesOf (plan : List (Spot × Move)) : List Move := plan.map Prod.snd

@[simp] theorem movesOf_append (ps qs : List (Spot × Move)) : movesOf (ps ++ qs) = movesOf ps ++ movesOf qs :=
  List.map_append

@[simp] theorem movesOf_atSpot (table : TableTag) (i : Byte) (step : BitVec 2) (ms : List Move) :
    movesOf (atSpot table i step ms) = ms := by
  simp [movesOf, atSpot, Function.comp_def]

theorem PlanStops.not_nil {c : Cfg} {script rest : List Raw} {es : List Event} {rec : Result} :
    ¬ PlanStops c [] script es rec rest := nofun

/-- A plan of two parts stops in the first, or runs through it and stops in the second. -/
theorem PlanStops.of_append {c : Cfg} {ps qs : List (Spot × Move)} {script rest : List Raw} {es : List Event}
    {rec : Result} (h : PlanStops c (ps ++ qs) script es rec rest) :
    PlanStops c ps script es rec rest
      ∨ ∃ rs script' es', planAccepts c (movesOf ps) rs = true ∧ script = planAnswers c (movesOf ps) rs ++ script'
        ∧ es = planEvents c (movesOf ps) rs ++ es' ∧ PlanStops c qs script' es' rec rest := by
  induction ps generalizing script es with
  | nil => exact .inr ⟨[], script, es, rfl, rfl, rfl, h⟩
  | cons p ps ih =>
    cases h with
    | here stops => exact .inl (.here stops)
    | later accepted stops =>
      rename_i m r script es
      rcases ih stops with inFirst | ⟨rs, script', es', accepts, rfl, rfl, inSecond⟩
      · exact .inl (.later accepted inFirst)
      · refine .inr ⟨r :: rs, script', es', ?_, ?_, ?_, inSecond⟩
        · simp [movesOf, planAccepts, accepted] at accepts ⊢; exact accepts
        · simp [movesOf, planAnswers]
        · simp [movesOf, planEvents]

/-- A plan runs through the moves before one that stops. -/
theorem PlanStops.at {c : Cfg} {first later : List (Spot × Move)} {spot : Spot} {m : Move} {rs : List Reply}
    {answers rest : List Raw} {es : List Event} {rec : Result} (accepted : planAccepts c (movesOf first) rs = true)
    (stops : MoveStops c spot m answers es rec) :
    PlanStops c (first ++ (spot, m) :: later) (planAnswers c (movesOf first) rs ++ (answers ++ rest))
      (planEvents c (movesOf first) rs ++ es) rec rest := by
  induction first generalizing rs with
  | nil =>
    cases rs with
    | nil => exact .here stops
    | cons r rs => simp [movesOf, planAccepts] at accepted
  | cons p first ih =>
    cases rs with
    | nil => simp [movesOf, planAccepts] at accepted
    | cons r rs =>
      simp only [movesOf, List.map_cons, planAccepts, Bool.and_eq_true] at accepted
      obtain ⟨headAccepted, tailAccepted⟩ := accepted
      have := PlanStops.later (spot := p.1) headAccepted (ih tailAccepted)
      simpa [movesOf, planAnswers, planEvents] using this

/-! #### What a part of a sequencer does with its plan -/

/-- A Timeout or an Unimplemented that is no bank switch's carries the address, the table and the index of one of these
moves, and nothing else (30_encoding.md R121, R122). -/
def NamesMoveOf (plan : List (Spot × Move)) (r : Result) : Prop :=
  r.code = .timeout ∨ r.code = .unimplemented → r.info ≠ .bankSwitchFailed →
    ∃ spot m la, (spot, m) ∈ plan ∧ m.address? = some la
      ∧ r = { Result.blank with
          code := r.code, info := r.info, addr := la, table := spot.table, index := spot.index }

theorem NamesMoveOf.mono {ps qs : List (Spot × Move)} (sub : ps ⊆ qs) {r : Result} (h : NamesMoveOf ps r) :
    NamesMoveOf qs r := by
  intro code info
  obtain ⟨spot, m, la, mem, address, eq⟩ := h code info
  exact ⟨spot, m, la, sub mem, address, eq⟩

/-- The state in which a part stopped: its events recorded and its answers used up. -/
structure Stopped (s : State) (es : List Event) (rest : List Raw) (t : State) : Prop extends Within s t where
  events : t.trace = s.trace ++ es
  answersLeft : t.script = rest

theorem Stopped.after_ran {s t u : State} {ms : List Move} {rs : List Reply} {es : List Event} {rest : List Raw}
    (h : Ran s ms rs t) (k : Stopped t es rest u) : Stopped s (planEvents s.cfg ms rs ++ es) rest u :=
  ⟨h.toWithin.trans k.toWithin, by rw [k.events, h.events, List.append_assoc], k.answersLeft⟩

theorem Stopped.after_work {s t : State} {es : List Event} {rest : List Raw} (w : Work)
    (h : Stopped { s with work := w } es rest t) : Stopped s es rest t :=
  ⟨(work_within s w).trans h.toWithin, h.events, h.answersLeft⟩

theorem Stopped.then_work {s t : State} {es : List Event} {rest : List Raw} (w : Work) (h : Stopped s es rest t) :
    Stopped s es rest { t with work := w } :=
  ⟨h.toWithin.trans (work_within t w), h.events, h.answersLeft⟩

variable {α β : Type} {c : Cfg}

/-- Whatever the Board answers, a part begun on the idle engine of a configuration leaves it so, and its failures name
a move of its plan. -/
structure Locates (c : Cfg) (plan : List (Spot × Move)) (body : State → Res α) : Prop where
  keeps : ∀ s, s.cfg = c → s.EngineIdle → (body s).state.cfg = c ∧ (body s).state.EngineIdle
  names : ∀ s, s.cfg = c → s.EngineIdle → Raises (NamesMoveOf plan) (body s)

/-- On answers that carry its plan to a move that stops it, the part stops there, with that move's record. `P` is what
it asks of the working registers. -/
structure StopsAlong (c : Cfg) (P : Work → Prop) (plan : List (Spot × Move)) (body : State → Res α) : Prop
    extends Locates c plan body where
  stops : ∀ s es rec rest, s.cfg = c → s.EngineIdle → P s.work → PlanStops c plan s.script es rec rest →
    ∃ t, body s = .raise rec t ∧ Stopped s es rest t

/-- On answers that fit every move of its plan the part runs to its end, too, and leaves working registers of which `Q`
holds. -/
structure Performs (c : Cfg) (P : Work → Prop) (plan : List (Spot × Move)) (body : State → Res α)
    (Q : List Reply → Work → Prop) : Prop extends StopsAlong c P plan body where
  completes : ∀ s rs rest, s.cfg = c → s.EngineIdle → P s.work → planAccepts c (movesOf plan) rs = true →
    s.script = planAnswers c (movesOf plan) rs ++ rest →
    ∃ a t, body s = .ok a t ∧ Ran s (movesOf plan) rs t ∧ t.script = rest ∧ Q rs t.work

/-- Nothing is asked of the working registers. -/
def anyWork : Work → Prop := fun _ => True

/-! ##### Rules -/

theorem Locates.bind {ps qs : List (Spot × Move)} {x : State → Res α} {f : α → State → Res β} (hx : Locates c ps x)
    (hf : ∀ a, Locates c qs (f a)) : Locates c (ps ++ qs) fun s => (x s).bind f where
  keeps s hc hi := by
    obtain ⟨cfg, idle⟩ := hx.keeps s hc hi
    cases ran : x s with
    | raise r t => rw [ran] at cfg idle; exact ⟨cfg, idle⟩
    | ok a t => rw [ran] at cfg idle; exact (hf a).keeps t cfg idle
  names s hc hi := by
    obtain ⟨cfg, idle⟩ := hx.keeps s hc hi
    have named := hx.names s hc hi
    cases ran : x s with
    | raise r t =>
      rw [ran] at named
      exact Raises.raise ((named r t rfl).mono (List.subset_append_left ps qs))
    | ok a t =>
      rw [ran] at cfg idle
      exact ((hf a).names t cfg idle).mono fun _ => NamesMoveOf.mono (List.subset_append_right ps qs)

/-- A part that only writes working registers, and raises nothing or a Mismatch. -/
theorem Locates.of_work {body : State → Res α}
    (h : ∀ s, s.cfg = c → ∃ w, (∃ a, body s = .ok a { s with work := w })
      ∨ ∃ r, r.code = .mismatch ∧ body s = .raise r { s with work := w }) : Locates c [] body where
  keeps s hc hi := by
    obtain ⟨w, ⟨a, ran⟩ | ⟨r, -, ran⟩⟩ := h s hc <;> rw [ran] <;> exact ⟨hc, hi⟩
  names s hc _ := by
    obtain ⟨w, ⟨a, ran⟩ | ⟨r, mismatch, ran⟩⟩ := h s hc <;> rw [ran]
    · exact Raises.ok _ _
    · refine Raises.raise fun code => ?_
      rw [mismatch] at code
      rcases code with code | code <;> cases code

/-- A part that begins by writing working registers. -/
theorem Locates.after_work {plan : List (Spot × Move)} {body body' : State → Res α} (upd : State → Work)
    (h : ∀ s, s.cfg = c → body s = body' { s with work := upd s }) (k : Locates c plan body') :
    Locates c plan body where
  keeps s hc hi := by rw [h s hc]; exact k.keeps { s with work := upd s } hc hi
  names s hc hi := by rw [h s hc]; exact k.names { s with work := upd s } hc hi

theorem StopsAlong.bind {P : Work → Prop} {Q : List Reply → Work → Prop} {ps qs : List (Spot × Move)}
    {x : State → Res α} {f : α → State → Res β} (hx : Performs c P ps x Q) (hf : ∀ a rs, StopsAlong c (Q rs) qs (f a)) :
    StopsAlong c P (ps ++ qs) fun s => (x s).bind f where
  toLocates := hx.toLocates.bind fun a => (hf a []).toLocates
  stops s es rec rest hc hi hP stop := by
    rcases stop.of_append with inFirst | ⟨rs, script', es', accepted, script, rfl, inSecond⟩
    · obtain ⟨t, ran, stopped⟩ := hx.stops s es rec rest hc hi hP inFirst
      exact ⟨t, by rw [ran, Res.bind_raise], stopped⟩
    · obtain ⟨a, t, ran, through, left, hQ⟩ := hx.completes s rs script' hc hi hP accepted script
      obtain ⟨u, raised, stopped⟩ := (hf a rs).stops t es' rec rest (through.cfg.trans hc) (through.engineIdle hi) hQ
        (left ▸ inSecond)
      exact ⟨u, by rw [ran, Res.bind_ok, raised], hc ▸ stopped.after_ran through⟩

theorem Performs.bind {P : Work → Prop} {Q R : List Reply → Work → Prop} {ps qs : List (Spot × Move)}
    {x : State → Res α} {f : α → State → Res β} (hx : Performs c P ps x Q)
    (hf : ∀ a rs, Performs c (Q rs) qs (f a) fun rs' => R (rs ++ rs')) :
    Performs c P (ps ++ qs) (fun s => (x s).bind f) R where
  toStopsAlong := StopsAlong.bind hx fun a rs => (hf a rs).toStopsAlong
  completes s rs rest hc hi hP accepted script := by
    rw [movesOf_append] at accepted script ⊢
    obtain ⟨rs₁, rs₂, rfl, accepted₁, accepted₂⟩ := planAccepts_append.mp accepted
    rw [planAnswers_append (planAccepts_length accepted₁), List.append_assoc] at script
    obtain ⟨a, t, ran, through, left, hQ⟩ := hx.completes s rs₁ _ hc hi hP accepted₁ script
    obtain ⟨b, u, ran', through', left', hR⟩ := (hf a rs₁).completes t rs₂ rest (through.cfg.trans hc)
      (through.engineIdle hi) hQ accepted₂ left
    exact ⟨b, u, by rw [ran, Res.bind_ok, ran'], through.trans through', left', hR⟩

/-- A part that only writes working registers. -/
theorem Performs.of_work {P : Work → Prop} {Q : List Reply → Work → Prop} {body : State → Res α}
    (h : ∀ s, s.cfg = c → ∃ a w, body s = .ok a { s with work := w } ∧ (P s.work → Q [] w)) :
    Performs c P [] body Q where
  toLocates := Locates.of_work fun s hc => by
    obtain ⟨a, w, ran, -⟩ := h s hc
    exact ⟨w, .inl ⟨a, ran⟩⟩
  stops _ _ _ _ _ _ _ stop := absurd stop PlanStops.not_nil
  completes s rs rest hc hi hP accepted script := by
    obtain ⟨a, w, ran, hQ⟩ := h s hc
    obtain rfl : rs = [] := List.length_eq_zero_iff.mp (planAccepts_length accepted).symm
    exact ⟨a, _, ran, (Ran.nil s).then_work w, script, hQ hP⟩

/-- A part that only writes working registers, and raises nothing or a Mismatch, has no move to stop at. -/
theorem Locates.stopsAlong {P : Work → Prop} {body : State → Res α} (h : Locates c [] body) : StopsAlong c P [] body :=
  ⟨h, fun _ _ _ _ _ _ _ stop => absurd stop PlanStops.not_nil⟩

theorem StopsAlong.after_work {P P' : Work → Prop} {plan : List (Spot × Move)} {body body' : State → Res α}
    (upd : State → Work) (loc : Locates c plan body)
    (h : ∀ s, s.cfg = c → P s.work → body s = body' { s with work := upd s } ∧ P' (upd s))
    (k : StopsAlong c P' plan body') : StopsAlong c P plan body where
  toLocates := loc
  stops s es rec rest hc hi hP stop := by
    obtain ⟨eq, hP'⟩ := h s hc hP
    obtain ⟨t, ran, stopped⟩ := k.stops { s with work := upd s } es rec rest hc hi hP' stop
    exact ⟨t, eq.trans ran, stopped.after_work⟩

/-- A part that begins by writing working registers. -/
theorem Performs.after_work {P P' : Work → Prop} {Q : List Reply → Work → Prop} {plan : List (Spot × Move)}
    {body body' : State → Res α} (upd : State → Work) (loc : Locates c plan body)
    (h : ∀ s, s.cfg = c → P s.work → body s = body' { s with work := upd s } ∧ P' (upd s))
    (k : Performs c P' plan body' Q) : Performs c P plan body Q where
  toStopsAlong := k.toStopsAlong.after_work upd loc h
  completes s rs rest hc hi hP accepted script := by
    obtain ⟨eq, hP'⟩ := h s hc hP
    obtain ⟨a, t, ran, through, left, hQ⟩ := k.completes { s with work := upd s } rs rest hc hi hP' accepted script
    exact ⟨a, t, eq.trans ran, through.after_work, left, hQ⟩

theorem Performs.mono {P : Work → Prop} {Q Q' : List Reply → Work → Prop} {plan : List (Spot × Move)}
    {body : State → Res α} (h : Performs c P plan body Q) (weaker : ∀ rs w, Q rs w → Q' rs w) :
    Performs c P plan body Q' :=
  ⟨h.toStopsAlong, fun s rs rest hc hi hP accepted script => by
    obtain ⟨a, t, ran, through, left, hQ⟩ := h.completes s rs rest hc hi hP accepted script
    exact ⟨a, t, ran, through, left, weaker rs _ hQ⟩⟩

/-! ##### Loops -/

theorem Locates.forEach {plan : α → List (Spot × Move)} {body : α → State → Res Unit} (l : List α)
    (turn : ∀ x ∈ l, Locates c (plan x) (body x)) : Locates c (l.flatMap plan) (forEach body l) := by
  induction l with
  | nil => exact Locates.of_work fun s _ => ⟨s.work, .inl ⟨(), rfl⟩⟩
  | cons x l ih => exact (turn x (by simp)).bind fun _ => ih fun y mem => turn y (by simp [mem])

/-- A loop over a list performs the plans of its turns in order. -/
theorem Performs.forEach {P : Work → Prop} {plan : α → List (Spot × Move)} {body : α → State → Res Unit} (l : List α)
    (turn : ∀ x ∈ l, Performs c P (plan x) (body x) fun _ => P) :
    Performs c P (l.flatMap plan) (forEach body l) fun _ => P := by
  induction l with
  | nil => exact Performs.of_work fun s _ => ⟨(), s.work, rfl, id⟩
  | cons x l ih => exact (turn x (by simp)).bind fun _ _ => ih fun y mem => turn y (by simp [mem])

/-- A loop over an index range performs the plans of its turns in order, keeping an invariant of the index, the replies
so far and the working registers. -/
theorem Performs.forEach_range {I : Nat → List Reply → Work → Prop} {plan : Nat → List (Spot × Move)}
    {body : Nat → State → Res Unit} (n : Nat)
    (turn : ∀ i < n, ∀ ps, Performs c (I i ps) (plan i) (body i) fun rs => I (i + 1) (ps ++ rs)) :
    Performs c (I 0 []) ((List.range n).flatMap plan) (Machine.forEach body (List.range n)) (I n) := by
  induction n with
  | zero => exact Performs.of_work fun s _ => ⟨(), s.work, rfl, id⟩
  | succ n ih =>
    have last : Machine.forEach body [n] = body n := by
      funext s
      rw [forEach_cons]
      cases body n s <;> rfl
    have split : Machine.forEach body (List.range (n + 1))
        = fun s => (Machine.forEach body (List.range n) s).bind fun _ => body n := by
      funext s
      rw [List.range_succ, forEach_append, last]
    rw [split, List.range_succ, List.flatMap_append, List.flatMap_singleton]
    exact (ih fun i hi => turn i (by omega)).bind fun _ ps => turn n (by omega) ps

/-! ##### One move -/

theorem IsAccessError.located {la : Word} {table : TableTag} {i : Byte} {r : Result}
    (h : IsAccessError (locate la table i) r) : (r.code = .timeout ∨ r.code = .unimplemented)
      ∧ r = { Result.blank with code := r.code, info := r.info, addr := la, table := table, index := i } := by
  obtain ⟨r', rfl, timeout | ⟨e, rfl, -⟩⟩ := h
  · obtain rfl | rfl | rfl | rfl := timeout <;> exact ⟨.inl rfl, rfl⟩
  · exact ⟨.inr rfl, rfl⟩

theorem IsAccessError.namesMoveOf {spot : Spot} {m : Move} {la : Word} {r : Result} (address : m.address? = some la)
    (h : IsAccessError (locate la spot.table spot.index) r) : NamesMoveOf [(spot, m)] r :=
  fun _ _ => ⟨spot, m, la, List.mem_singleton_self _, address, h.located.2⟩

theorem AccessFailed.stopped {s t : State} {m : Move} {r : Reply} {f : Failure} {rest : List Raw}
    (h : AccessFailed s m r f rest t) : Stopped s (m.failureEvents s.cfg r f) rest t :=
  ⟨h.toWithin, h.events, h.answersLeft⟩

theorem Ran.stopped {s t : State} {ms : List Move} {rs : List Reply} {rest : List Raw} (h : Ran s ms rs t)
    (left : t.script = rest) : Stopped s (planEvents s.cfg ms rs) rest t :=
  ⟨h.toWithin, h.events, left⟩

/-- A plan of one move stops at that move. -/
theorem PlanStops.of_singleton {spot : Spot} {m : Move} {script rest : List Raw} {es : List Event} {rec : Result}
    (h : PlanStops c [(spot, m)] script es rec rest) :
    ∃ answers, script = answers ++ rest ∧ MoveStops c spot m answers es rec := by
  cases h with
  | here stops => exact ⟨_, rfl, stops⟩
  | later _ stops => exact absurd stops PlanStops.not_nil

theorem planAccepts_singleton {m : Move} {rs : List Reply} (h : planAccepts c [m] rs = true) :
    ∃ r, rs = [r] ∧ m.accepts c r = true := by
  obtain ⟨r, rfl⟩ := List.length_eq_one_iff.mp (planAccepts_length h).symm
  exact ⟨r, rfl, by simpa [planAccepts] using h⟩

/-- A bank switch performs its one move, or none (42_rom_check.md R252). -/
theorem callBank_performs (P : Work → Prop) (table : TableTag) (i : Byte) (step : BitVec 2) (hasBank : Bool) :
    Performs c P (atSpot table i step (bankMoves table i hasBank)) (callBank table i hasBank) fun _ => P where
  keeps s hc hi :=
    have course := callBank_course table i hasBank hi
    ⟨course.within.cfg.trans hc, course.engineIdle⟩
  names s hc hi := by
    refine (callBank_raises table i hasBank s).mono ?_
    rintro r ⟨code, -, rfl⟩
    exact fun _ notBank => absurd rfl notBank
  stops s es rec rest hc hi hP stop := by
    cases hasBank with
    | false => exact absurd stop PlanStops.not_nil
    | true =>
      obtain ⟨answers, script, stops⟩ := stop.of_singleton
      cases stops with
      | access _ la r f address => cases address
      | bank _ _ raw failed =>
        have answer : (s.emit (.bank table i)).reply (.bankResult table i) = raw := reply_of_script script _
        refine ⟨(s.emit (.bank table i)).sampled (.bankResult table i), ?_,
          (emit_within s _).trans (sampled_calm' _ _).toWithin, rfl, by simp [script]⟩
        simp only [callBank, if_true, answer]
  completes s rs rest hc hi hP accepted script := by
    rw [movesOf_atSpot] at accepted script ⊢
    obtain ⟨t, ran, through, left, work⟩ := callBank_run (hc ▸ accepted) (hc ▸ script)
    exact ⟨(), t, ran, through, left, work ▸ hP⟩

/-- A sequencer write performs its one move (R251). -/
theorem seqWrite_performs (P : Work → Prop) (spot : Spot) (la : Word) (v : Datum) :
    Performs c P [(spot, .write la v)] (seqWrite la v spot.table spot.index) fun _ => P where
  keeps s hc hi :=
    have course := seqWrite_course la v spot.table spot.index hi
    ⟨course.within.cfg.trans hc, course.engineIdle⟩
  names _ _ _ := (seqWrite_raises la v spot.table spot.index _).mono fun _ => IsAccessError.namesMoveOf rfl
  stops s es rec rest hc hi hP stop := by
    subst hc
    obtain ⟨answers, script, stops⟩ := stop.of_singleton
    cases stops with
    | access _ la' r f address fails =>
      cases address
      obtain ⟨t, raised, failed⟩ := seqWrite_fails hi fails script
      exact ⟨t, raised, failed.stopped⟩
  completes s rs rest hc hi hP accepted script := by
    subst hc
    obtain ⟨r, rfl, accepts⟩ := planAccepts_singleton accepted
    obtain ⟨t, ran, through, left, work⟩ := seqWrite_run hi accepts (by simpa [movesOf, planAnswers] using script)
    exact ⟨(), t, ran, through, left, work ▸ hP⟩

/-- A sequencer read, and the compare of its value: either way working registers are written. -/
def readAndCompare (spot : Spot) (la : Word) (e m : Datum) (a : Datum → State → α) (w : Datum → State → Work)
    (s : State) : Res α :=
  (seqRead la spot.table spot.index s).bind fun d t =>
    if maskedEq d e m then .ok (a d t) { t with work := w d t }
    else .raise (compareRecord spot la e m d) { t with work := w d t }

/-- The compare is a part of its own, without moves. -/
theorem compare_locates (spot : Spot) (la : Word) (e m : Datum) (a : Datum → State → α) (w : Datum → State → Work)
    (d : Datum) : Locates c [] fun t => if maskedEq d e m then .ok (a d t) { t with work := w d t }
      else .raise (compareRecord spot la e m d) { t with work := w d t } := by
  refine Locates.of_work fun t _ => ⟨w d t, ?_⟩
  split
  · exact .inl ⟨_, rfl⟩
  · exact .inr ⟨_, rfl, rfl⟩

theorem seqRead_locates (spot : Spot) (la : Word) (e m : Datum) :
    Locates c [(spot, .read la e m)] (seqRead la spot.table spot.index) where
  keeps _ hc hi :=
    have course := seqRead_course la spot.table spot.index hi
    ⟨course.within.cfg.trans hc, course.engineIdle⟩
  names _ _ _ := (seqRead_raises la spot.table spot.index _).mono fun _ => IsAccessError.namesMoveOf rfl

/-- Where a read and its compare fail does not depend on the value expected. -/
theorem readAndCompare_locates (spot : Spot) (la : Word) (e e' m : Datum) (a : Datum → State → α)
    (w : Datum → State → Work) : Locates c [(spot, .read la e m)] (readAndCompare spot la e' m a w) :=
  (seqRead_locates spot la e m).bind (qs := []) fun d => compare_locates spot la e' m a w d

/-- A sequencer read with its compare performs its one move (R250, R258, 43_ram_check.md R283). -/
theorem readAndCompare_performs {P : Work → Prop} {Q : List Reply → Work → Prop} (spot : Spot) (la : Word)
    (e m : Datum) (a : Datum → State → α) (w : Datum → State → Work)
    (hQ : ∀ t r, t.cfg = c → P t.work → Q [r] (w (c.readValue la r) t)) :
    Performs c P [(spot, .read la e m)] (readAndCompare spot la e m a w) Q where
  toLocates := readAndCompare_locates spot la e e m a w
  stops s es rec rest hc hi hP stop := by
    subst hc
    obtain ⟨answers, script, stops⟩ := stop.of_singleton
    cases stops with
    | access _ la' r f address fails =>
      cases address
      obtain ⟨t, raised, failed⟩ := seqRead_fails hi fails script
      exact ⟨t, by rw [readAndCompare, raised, Res.bind_raise], failed.stopped⟩
    | compare _ _ _ r disagrees =>
      simp only [Cfg.disagrees, Bool.and_eq_true, Bool.not_eq_true'] at disagrees
      obtain ⟨runs, differs⟩ := disagrees
      have accepts : (Move.read la 0 0).accepts s.cfg r = true := by simp [Move.accepts, runs, maskedEq]
      obtain ⟨t, ran, through, left, -⟩ := seqRead_run (table := spot.table) (i := spot.index) hi accepts script
      have stopped : Stopped s ((Move.read la e m).events s.cfg r) rest t := by
        simpa [planEvents, Move.events] using through.stopped left
      refine ⟨_, ?_, stopped.then_work (w (s.cfg.readValue la r) t)⟩
      rw [readAndCompare, ran, Res.bind_ok, differs]
      rfl
  completes s rs rest hc hi hP accepted script := by
    subst hc
    obtain ⟨r, rfl, accepts⟩ := planAccepts_singleton accepted
    obtain ⟨t, ran, through, left, work, agrees⟩ := seqRead_run (table := spot.table) (i := spot.index) hi accepts
      (by simpa [movesOf, planAnswers] using script)
    refine ⟨a (s.cfg.readValue la r) t, _, ?_, through.then_work (w (s.cfg.readValue la r) t), left,
      hQ t r through.cfg (work ▸ hP)⟩
    rw [readAndCompare, ran, Res.bind_ok, agrees]
    rfl

end Sys2Proof.Machine

/-! ### Every sequencer performs its plan (42_rom_check.md R256 to R264, 43_ram_check.md R280 to R288,
44_io_interrupt_check.md R320, R321) -/

namespace Sys2Proof.Machine

variable {α β : Type} {c : Cfg}

/-! #### Plans at a spot -/

theorem atSpot_append (table : TableTag) (i : Byte) (step : BitVec 2) (ms ns : List Move) :
    atSpot table i step (ms ++ ns) = atSpot table i step ms ++ atSpot table i step ns := List.map_append

theorem atSpot_map (table : TableTag) (i : Byte) (step : BitVec 2) (f : α → Move) (l : List α) :
    atSpot table i step (l.map f) = l.flatMap fun x => [(⟨table, i, step⟩, f x)] := by
  rw [atSpot, List.map_map, List.map_eq_flatMap]
  rfl

theorem atSpot_flatMap (table : TableTag) (i : Byte) (step : BitVec 2) (f : α → List Move) (l : List α) :
    atSpot table i step (l.flatMap f) = l.flatMap fun x => atSpot table i step (f x) := List.map_flatMap

/-! #### Parts that begin with a write of the working registers -/

theorem Performs.after_anyWork {Q : List Reply → Work → Prop} {plan : List (Spot × Move)} {body body' : State → Res α}
    (upd : State → Work) (h : ∀ s, s.cfg = c → body s = body' { s with work := upd s })
    (k : Performs c anyWork plan body' Q) : Performs c anyWork plan body Q :=
  k.after_work upd (k.toLocates.after_work upd h) fun s hc _ => ⟨h s hc, trivial⟩

/-! #### Compares -/

theorem maskedEq_allOnes (d e : Datum) : maskedEq d e (BitVec.allOnes 16) = decide (d = e) := by
  rw [maskedEq, BitVec.and_allOnes, BitVec.and_allOnes]

theorem maskedEq_zero (d e : Datum) : maskedEq d e 0 = true := by simp [maskedEq]

theorem compareRecord_allOnes (table : TableTag) (i : Byte) (la : Word) (e d : Datum) :
    compareRecord ⟨table, i, 0⟩ la e (BitVec.allOnes 16) d = Result.dataMismatch la e d table i := by
  rw [compareRecord, BitVec.and_allOnes, BitVec.and_allOnes]
  rfl

/-- A read that compares nothing. -/
theorem readAndCompare_zero (spot : Spot) (la : Word) (a : Datum → State → α) (w : Datum → State → Work) (s : State) :
    readAndCompare spot la 0 0 a w s
      = (seqRead la spot.table spot.index s).bind fun d t => .ok (a d t) { t with work := w d t } := by
  simp only [readAndCompare, maskedEq_zero, if_true]

/-! #### RomCheck -/

theorem romSampleStep_performs (r : Byte) (rom : RomRegion) (k : Nat) : Performs c anyWork
    [(⟨.rom, r, 0⟩, .read ((c.romGeometry rom).cell (2 ^ k)) (c.romSample rom k) (BitVec.allOnes 16))]
    (romSampleStep r rom k) fun _ => anyWork := by
  refine Performs.after_anyWork (fun s => (setExpected (c.romSample rom k)
    (setCell r (2 ^ k) ((c.romGeometry rom).cell (2 ^ k)) s)).work) ?_
    (readAndCompare_performs ⟨.rom, r, 0⟩ ((c.romGeometry rom).cell (2 ^ k)) (c.romSample rom k) (BitVec.allOnes 16)
      (fun _ _ => ()) (fun d t => (setActual d t).work) fun _ _ _ _ => trivial)
  rintro s rfl
  simp only [readAndCompare, maskedEq_allOnes, decide_eq_true_eq, compareRecord_allOnes]
  rfl

/-- The sample pass performs its plan (R258). -/
theorem samplePass_performs (r : Byte) (rom : RomRegion) :
    Performs c anyWork (atSpot .rom r 0 (c.samplePlan r rom)) (samplePass r rom) fun _ => anyWork := by
  rw [Cfg.samplePlan, atSpot_append, atSpot_map]
  exact (callBank_performs anyWork .rom r 0 rom.bankSwitch).bind fun _ _ =>
    Performs.forEach _ fun k _ => romSampleStep_performs r rom k

theorem romRawStep_performs (r : Byte) (rom : RomRegion) (i : Nat) : Performs c anyWork
    [(⟨.rom, r, 0⟩, .read ((c.romGeometry rom).cell i) 0 0)] (romRawStep r rom i) fun _ => anyWork := by
  refine Performs.after_anyWork (fun s => (setCell r i ((c.romGeometry rom).cell i) s).work) ?_
    (readAndCompare_performs ⟨.rom, r, 0⟩ ((c.romGeometry rom).cell i) 0 0 (fun _ _ => ()) (fun _ t => t.work)
      fun _ _ _ _ => trivial)
  rintro s rfl
  rw [readAndCompare_zero]
  rfl

/-- The raw read of a region performs its plan (R263). -/
theorem rawPass_performs (r : Byte) (rom : RomRegion) :
    Performs c anyWork (atSpot .rom r 0 (c.romPlan r rom)) (rawPass r rom) fun _ => anyWork := by
  rw [Cfg.romPlan, atSpot_append, atSpot_map]
  exact (callBank_performs anyWork .rom r 0 rom.bankSwitch).bind fun _ _ =>
    Performs.forEach _ fun i _ => romRawStep_performs r rom i

/-- The `crc` register holds the running CRC of the values the first `i` cells gave (R259, R260). -/
def CrcSoFar (c : Cfg) (rom : RomRegion) (i : Nat) (rs : List Reply) (w : Work) : Prop :=
  rs.length = i ∧ w.crc = (planValues c ((List.range i).map fun k => .read ((c.romGeometry rom).cell k) 0 0) rs).foldl
    (fun acc d => c.feed acc d (c.romGeometry rom).w) c.crc.init

theorem CrcSoFar.next {rom : RomRegion} {i : Nat} {rs : List Reply} {w w' : Work} (h : CrcSoFar c rom i rs w)
    (r : Reply) (fed : w'.crc = c.feed w.crc (c.readValue ((c.romGeometry rom).cell i) r) (c.romGeometry rom).w) :
    CrcSoFar c rom (i + 1) (rs ++ [r]) w' := by
  obtain ⟨length, crc⟩ := h
  refine ⟨by rw [List.length_append, length]; rfl, ?_⟩
  rw [List.range_succ, List.map_append, planValues_append (by simp [length]), List.foldl_append, ← crc, fed]
  rfl

theorem romCrcStep_performs (r : Byte) (rom : RomRegion) (i : Nat) (rs : List Reply) : Performs c (CrcSoFar c rom i rs)
    [(⟨.rom, r, 0⟩, .read ((c.romGeometry rom).cell i) 0 0)] (romCrcStep r rom i)
    fun rs' => CrcSoFar c rom (i + 1) (rs ++ rs') := by
  have read := readAndCompare_performs (P := CrcSoFar c rom i rs) (Q := fun rs' => CrcSoFar c rom (i + 1) (rs ++ rs'))
    ⟨.rom, r, 0⟩ ((c.romGeometry rom).cell i) 0 0 (fun _ _ => ())
    (fun d t => (setCrc (t.cfg.feed t.work.crc d (c.romGeometry rom).w) t).work)
    fun t reply hc soFar => soFar.next reply (by rw [hc]; rfl)
  have eq : ∀ s, s.cfg = c → romCrcStep r rom i s = readAndCompare ⟨.rom, r, 0⟩ ((c.romGeometry rom).cell i) 0 0
      (fun _ _ => ()) (fun d t => (setCrc (t.cfg.feed t.work.crc d (c.romGeometry rom).w) t).work)
      { s with work := (setCell r i ((c.romGeometry rom).cell i) s).work } := by
    rintro s rfl
    rw [readAndCompare_zero]
    rfl
  exact read.after_work _ (read.toLocates.after_work _ eq) fun s hc soFar => ⟨eq s hc, soFar⟩

/-- The cells of the CRC pass, from `CRC_INIT`. -/
theorem romCrcLoop_performs (r : Byte) (rom : RomRegion) : Performs c anyWork
    (atSpot .rom r 0 ((List.range rom.length).map fun i => .read ((c.romGeometry rom).cell i) 0 0))
    (fun t => forEach (romCrcStep r rom) (List.range rom.length) (setCrc t.cfg.crc.init t))
    (CrcSoFar c rom rom.length) := by
  rw [atSpot_map]
  have loop := Performs.forEach_range (c := c) (I := CrcSoFar c rom) rom.length fun i _ => romCrcStep_performs r rom i
  have eq : ∀ s, s.cfg = c → forEach (romCrcStep r rom) (List.range rom.length) (setCrc s.cfg.crc.init s)
      = forEach (romCrcStep r rom) (List.range rom.length) { s with work := (setCrc c.crc.init s).work } := by
    rintro s rfl
    rfl
  exact loop.after_work _ (loop.toLocates.after_work _ eq) fun s hc _ => ⟨eq s hc, rfl, rfl⟩

/-- The end of a CRC pass: the compare, where one is asked for (R259). -/
def crcEnd (r : Byte) (rom : RomRegion) (compare : Bool) (u : State) : Res Word :=
  if compare && decide (u.cfg.crc.final u.work.crc ≠ rom.crc32) then
    .raise (crcMismatch r rom (u.cfg.crc.final u.work.crc)) u
  else .ok (u.cfg.crc.final u.work.crc) u

theorem crcEnd_locates (r : Byte) (rom : RomRegion) (compare : Bool) : Locates c [] (crcEnd r rom compare) := by
  refine Locates.of_work fun s _ => ⟨s.work, ?_⟩
  unfold crcEnd
  split
  · exact .inr ⟨_, rfl, rfl⟩
  · exact .inl ⟨_, rfl⟩

theorem crcPass_eq (r : Byte) (rom : RomRegion) (compare : Bool) (s : State) :
    crcPass r rom compare s = (callBank .rom r rom.bankSwitch s).bind fun _ t =>
      (forEach (romCrcStep r rom) (List.range rom.length) (setCrc t.cfg.crc.init t)).bind fun _ =>
        crcEnd r rom compare := rfl

/-- The CRC pass stops along its plan; that its compare fails is after all moves (R259). -/
theorem crcPass_stopsAlong (r : Byte) (rom : RomRegion) (compare : Bool) :
    StopsAlong c anyWork (atSpot .rom r 0 (c.romPlan r rom)) (crcPass r rom compare) := by
  rw [Cfg.romPlan, atSpot_append]
  refine StopsAlong.bind (callBank_performs anyWork .rom r 0 rom.bankSwitch) fun _ _ => ?_
  have := StopsAlong.bind (qs := []) (romCrcLoop_performs (c := c) r rom) fun _ _ =>
    (crcEnd_locates r rom compare).stopsAlong
  rwa [List.append_nil] at this

theorem planValues_bankMoves (table : TableTag) (i : Byte) (hasBank : Bool) (rs : List Reply) :
    planValues c (bankMoves table i hasBank) rs = [] := by
  cases hasBank <;> cases rs <;> rfl

/-- The CRC pass runs to its end where the CRC of the values the cells gave is the region's (R259). -/
theorem crcPass_completes {r : Byte} {rom : RomRegion} {s : State} {rs : List Reply} {rest : List Raw}
    (hi : s.EngineIdle) (accepted : planAccepts s.cfg (s.cfg.romPlan r rom) rs = true)
    (script : s.script = planAnswers s.cfg (s.cfg.romPlan r rom) rs ++ rest)
    (right : s.cfg.crcOf rom (planValues s.cfg (s.cfg.romPlan r rom) rs) = rom.crc32) :
    ∃ f t, crcPass r rom true s = .ok f t ∧ Ran s (s.cfg.romPlan r rom) rs t ∧ t.script = rest := by
  rw [Cfg.romPlan] at accepted script right ⊢
  obtain ⟨ps, qs, rfl, accepted₁, accepted₂⟩ := planAccepts_append.mp accepted
  rw [planAnswers_append (planAccepts_length accepted₁), List.append_assoc] at script
  rw [planValues_append (planAccepts_length accepted₁), planValues_bankMoves, List.nil_append] at right
  obtain ⟨t, ran, through, left, -⟩ := callBank_run accepted₁ script
  obtain ⟨⟨⟩, u, ran', through', left', -, crc⟩ := (romCrcLoop_performs (c := s.cfg) r rom).completes t qs rest
    through.cfg (through.engineIdle hi) trivial (by rwa [movesOf_atSpot]) (by rwa [movesOf_atSpot])
  rw [movesOf_atSpot] at through'
  have all := through.trans through'
  have final : u.cfg.crc.final u.work.crc = rom.crc32 := by
    rw [all.cfg, crc]
    exact right
  refine ⟨rom.crc32, u, ?_, all, left'⟩
  rw [crcPass_eq, ran, Res.bind_ok, ran', Res.bind_ok, crcEnd, final]
  simp

/-! #### RamCheck -/

/-- The generator stands before cell `i` of the pattern of a seed (43_ram_check.md R282). -/
def PatternAt (c : Cfg) (seed : Word) (i : Nat) (w : Work) : Prop := w.rng = c.prng.after seed i

theorem patternValue_eq_marchValue {seed rng : Word} {i : Nat} (ram : RamRegion) (inverted : Bool)
    (h : rng = c.prng.after seed i) :
    patternValue c (c.ramGeometry ram).w inverted rng = c.marchValue ram seed inverted i := by
  rw [h]
  rfl

theorem patternWriteStep_locates (r : Byte) (g : Geometry) (step : BitVec 2) (v : Datum) (inverted : Bool) (i : Nat) :
    Locates c [(⟨.ram, r, step⟩, .write (g.cell i) v)] (patternWriteStep r g inverted i) where
  keeps _ hc hi :=
    have course := patternWriteStep_course r g inverted i hi
    ⟨course.within.cfg.trans hc, course.engineIdle⟩
  names _ _ _ := (seqWrite_raises _ _ _ _ _).mono fun _ => IsAccessError.namesMoveOf (spot := ⟨.ram, r, step⟩) rfl

theorem patternWriteStep_performs (r : Byte) (ram : RamRegion) (seed : Word) (step : BitVec 2) (inverted : Bool)
    (i : Nat) : Performs c (PatternAt c seed i)
    [(⟨.ram, r, step⟩, .write ((c.ramGeometry ram).cell i) (c.marchValue ram seed inverted i))]
    (patternWriteStep r (c.ramGeometry ram) inverted i) fun _ => PatternAt c seed (i + 1) := by
  refine (seqWrite_performs (PatternAt c seed (i + 1)) ⟨.ram, r, step⟩ _ _).after_work
    (fun s => (patternCell r (c.ramGeometry ram) inverted i s).work) (patternWriteStep_locates _ _ _ _ _ _) ?_
  rintro s rfl rng
  rw [← patternValue_eq_marchValue ram inverted rng]
  exact ⟨rfl, congrArg s.cfg.prng.next rng⟩

/-- A cell is read back against whatever value `expv` then holds. -/
theorem patternReadStep_eq (r : Byte) (g : Geometry) (m : Datum) (inverted : Bool) (step : BitVec 2) (i : Nat)
    (s : State) : patternReadStep r g m inverted step i s
      = readAndCompare ⟨.ram, r, step⟩ (g.cell i) (patternValue s.cfg g.w inverted s.work.rng) m (fun _ _ => ())
        (fun d t => (setActual d t).work) { s with work := (patternCell r g inverted i s).work } := rfl

theorem patternReadStep_locates (r : Byte) (g : Geometry) (m : Datum) (inverted : Bool) (step : BitVec 2) (e : Datum)
    (i : Nat) : Locates c [(⟨.ram, r, step⟩, .read (g.cell i) e m)] (patternReadStep r g m inverted step i) where
  keeps s hc hi := by
    rw [patternReadStep_eq]
    exact (readAndCompare_locates _ _ e _ _ _ _).keeps _ hc hi
  names s hc hi := by
    rw [patternReadStep_eq]
    exact (readAndCompare_locates _ _ e _ _ _ _).names _ hc hi

theorem patternReadStep_performs (r : Byte) (ram : RamRegion) (seed : Word) (m : Datum) (step : BitVec 2)
    (inverted : Bool) (i : Nat) : Performs c (PatternAt c seed i)
    [(⟨.ram, r, step⟩, .read ((c.ramGeometry ram).cell i) (c.marchValue ram seed inverted i) m)]
    (patternReadStep r (c.ramGeometry ram) m inverted step i) fun _ => PatternAt c seed (i + 1) := by
  refine (readAndCompare_performs (P := PatternAt c seed (i + 1)) ⟨.ram, r, step⟩ _ _ m (fun _ _ => ())
    (fun d t => (setActual d t).work) fun _ _ _ next => next).after_work
    (fun s => (patternCell r (c.ramGeometry ram) inverted i s).work) (patternReadStep_locates _ _ _ _ _ _ _) ?_
  rintro s rfl rng
  rw [← patternValue_eq_marchValue ram inverted rng]
  exact ⟨patternReadStep_eq _ _ _ _ _ _ s, congrArg s.cfg.prng.next rng⟩

/-- A loop over the cells of a region that starts the generator from a seed. -/
theorem Performs.from_seed {seed : Word} {plan : Nat → List (Spot × Move)}
    {body : Nat → State → Res Unit} (n : Nat)
    (turn : ∀ i, Performs c (PatternAt c seed i) (plan i) (body i) fun _ => PatternAt c seed (i + 1)) :
    Performs c anyWork ((List.range n).flatMap plan)
      (fun s => Machine.forEach body (List.range n) (setRng seed s)) fun _ => anyWork := by
  have loop := Performs.forEach_range (I := fun i _ => PatternAt c seed i) n fun i _ _ => turn i
  have seeded := loop.after_work (P := anyWork)
    (body := fun s => Machine.forEach body (List.range n) (setRng seed s)) (fun s => (setRng seed s).work)
    (loop.toLocates.after_work _ fun _ _ => rfl) fun _ _ _ => ⟨rfl, rfl⟩
  exact seeded.mono fun _ _ _ => trivial

theorem writePattern_performs (r : Byte) (ram : RamRegion) (seed : Word) (step : BitVec 2) (inverted : Bool) :
    Performs c anyWork (atSpot .ram r step (c.writePlan ram seed inverted))
      (writePattern r (c.ramGeometry ram) inverted seed) fun _ => anyWork := by
  rw [Cfg.writePlan, atSpot_map]
  exact Performs.from_seed _ fun i => patternWriteStep_performs r ram seed step inverted i

theorem verifyPattern_performs (r : Byte) (ram : RamRegion) (seed : Word) (step : BitVec 2) (inverted : Bool) :
    Performs c anyWork (atSpot .ram r step (c.verifyPlan ram seed inverted))
      (verifyPattern r (c.ramGeometry ram) (c.ramMask ram) inverted step seed) fun _ => anyWork := by
  rw [Cfg.verifyPlan, atSpot_map]
  exact Performs.from_seed _ fun i => patternReadStep_performs r ram seed (c.ramMask ram) step inverted i

/-- One pass of the march: its writes, and its reads, whose compares report the pass (R284). -/
theorem marchPass_performs (r : Byte) (ram : RamRegion) (seed : Word) (pass : BitVec 2) (inverted : Bool) :
    Performs c anyWork
      (atSpot .ram r 0 (c.writePlan ram seed inverted) ++ atSpot .ram r pass (c.verifyPlan ram seed inverted))
      (marchPass r (c.ramGeometry ram) (c.ramMask ram) seed pass inverted) fun _ => anyWork :=
  Performs.after_anyWork (fun s => (setPass pass s).work) (fun _ _ => rfl)
    ((writePattern_performs r ram seed 0 inverted).bind fun _ _ => verifyPattern_performs r ram seed pass inverted)

/-- A part that opens with reading the configuration. -/
theorem Performs.of_cfg {P : Work → Prop} {Q : List Reply → Work → Prop} {plan : List (Spot × Move)}
    {body : Cfg → State → Res α} (h : Performs c P plan (body c) Q) : Performs c P plan (fun s => body s.cfg s) Q where
  keeps := by rintro s rfl; exact h.keeps s rfl
  names := by rintro s rfl; exact h.names s rfl
  stops := by rintro s es rec rest rfl; exact h.stops s es rec rest rfl
  completes := by rintro s rs rest rfl; exact h.completes s rs rest rfl

/-- The march on a region performs its plan (R284). -/
theorem marchRegion_performs (r : Byte) (seed : Word) (ram : RamRegion) : Performs c anyWork
    (atSpot .ram r 0 (bankMoves .ram r ram.bankSwitch ++ c.writePlan ram seed false)
      ++ atSpot .ram r 1 (c.verifyPlan ram seed false) ++ atSpot .ram r 0 (c.writePlan ram seed true)
      ++ atSpot .ram r 2 (c.verifyPlan ram seed true)) (marchRegion r seed ram) fun _ => anyWork := by
  have passes : atSpot .ram r 0 (bankMoves .ram r ram.bankSwitch ++ c.writePlan ram seed false)
      ++ atSpot .ram r 1 (c.verifyPlan ram seed false) ++ atSpot .ram r 0 (c.writePlan ram seed true)
      ++ atSpot .ram r 2 (c.verifyPlan ram seed true)
      = atSpot .ram r 0 (bankMoves .ram r ram.bankSwitch)
        ++ ((atSpot .ram r 0 (c.writePlan ram seed false) ++ atSpot .ram r 1 (c.verifyPlan ram seed false))
          ++ (atSpot .ram r 0 (c.writePlan ram seed true) ++ atSpot .ram r 2 (c.verifyPlan ram seed true))) := by
    simp only [atSpot_append, List.append_assoc]
  rw [passes]
  refine Performs.of_cfg (body := fun c s => (callBank .ram r ram.bankSwitch s).bind fun _ t =>
    (marchPass r (c.ramGeometry ram) (c.ramMask ram) seed 1 false t).bind fun _ =>
      marchPass r (c.ramGeometry ram) (c.ramMask ram) seed 2 true) ?_
  exact (callBank_performs anyWork .ram r 0 ram.bankSwitch).bind fun _ _ =>
    (marchPass_performs r ram seed 1 false).bind fun _ _ => marchPass_performs r ram seed 2 true

/-- The write phase of the chip-select test on a region performs its plan (R285). -/
theorem crossWrite_performs (seed : Word) (r : Byte) (ram : RamRegion) : Performs c anyWork
    (atSpot .ram r 0 (bankMoves .ram r ram.bankSwitch ++ c.writePlan ram (regionSeed seed r) false))
    (crossWrite seed r ram) fun _ => anyWork := by
  rw [atSpot_append]
  exact ((callBank_performs anyWork .ram r 0 ram.bankSwitch).bind fun _ _ =>
    writePattern_performs r ram (regionSeed seed r) 0 false).of_cfg (body := fun c s =>
      (callBank .ram r ram.bankSwitch s).bind fun _ => writePattern r (c.ramGeometry ram) false (regionSeed seed r))

/-- The verify phase of the chip-select test on a region performs its plan (R285). -/
theorem crossVerify_performs (seed : Word) (r : Byte) (ram : RamRegion) : Performs c anyWork
    (atSpot .ram r 0 (bankMoves .ram r ram.bankSwitch ++ c.verifyPlan ram (regionSeed seed r) false))
    (crossVerify seed r ram) fun _ => anyWork := by
  rw [atSpot_append]
  exact ((callBank_performs anyWork .ram r 0 ram.bankSwitch).bind fun _ _ =>
    verifyPattern_performs r ram (regionSeed seed r) 0 false).of_cfg (body := fun c s =>
      (callBank .ram r ram.bankSwitch s).bind fun _ =>
        verifyPattern r (c.ramGeometry ram) (c.ramMask ram) false 0 (regionSeed seed r))

theorem fixedWriteStep_performs (r : Byte) (g : Geometry) (v : Datum) (i : Nat) :
    Performs c anyWork [(⟨.ram, r, 0⟩, .write (g.cell i) v)] (fixedWriteStep r g v i) fun _ => anyWork :=
  Performs.after_anyWork (fun s => (setExpected v (setCell r i (g.cell i) s)).work) (fun _ _ => rfl)
    (seqWrite_performs anyWork ⟨.ram, r, 0⟩ (g.cell i) v)

/-- Under the mask, the mask and 0 are what a boundary cell is read back as (R286). -/
theorem boundaryReadStep_performs (r : Byte) (g : Geometry) (m : Datum) (j q : Nat) : Performs c anyWork
    [(⟨.ram, r, 0⟩, .read (g.cell q) (if q = j then m else 0) m)] (boundaryReadStep r g m j q) fun _ => anyWork := by
  refine Performs.after_anyWork (fun s => (setExpected (if q = j then m else 0) (setCell r q (g.cell q) s)).work) ?_
    (readAndCompare_performs ⟨.ram, r, 0⟩ (g.cell q) (if q = j then m else 0) m (fun _ _ => ())
      (fun d t => (setActual d t).work) fun _ _ _ _ => trivial)
  intro s _
  have masked : (if q = j then m else 0) &&& m = if q = j then m else 0 := by
    split
    · exact BitVec.and_self
    · exact BitVec.zero_and
  simp only [readAndCompare, maskedEq, compareRecord, masked, decide_eq_true_eq]
  rfl

theorem boundaryStep_performs (r : Byte) (ram : RamRegion) (j : Nat) : Performs c anyWork
    (atSpot .ram r 0 (c.boundaryTurn ram j)) (boundaryStep r (c.ramGeometry ram) (c.ramMask ram) j)
    fun _ => anyWork := by
  rw [Cfg.boundaryTurn, List.cons_append, ← List.singleton_append, atSpot_append, atSpot_append, atSpot_map]
  exact (fixedWriteStep_performs r (c.ramGeometry ram) (c.ramMask ram) j).bind fun _ _ =>
    (Performs.forEach _ fun q _ => boundaryReadStep_performs r (c.ramGeometry ram) (c.ramMask ram) j q).bind
      fun _ _ => fixedWriteStep_performs r (c.ramGeometry ram) 0 j

/-- The address-line walk on a region performs its plan (R286). -/
theorem boundaryRegion_performs (r : Byte) (ram : RamRegion) : Performs c anyWork
    (atSpot .ram r 0 (c.boundaryPlan r ram)) (boundaryRegion r ram) fun _ => anyWork := by
  rw [Cfg.boundaryPlan, atSpot_append, atSpot_append, atSpot_map, atSpot_flatMap, List.append_assoc]
  exact ((callBank_performs anyWork .ram r 0 ram.bankSwitch).bind fun _ _ =>
    (Performs.forEach _ fun q _ => fixedWriteStep_performs r (c.ramGeometry ram) 0 q).bind fun _ _ =>
      Performs.forEach _ fun j _ => boundaryStep_performs r ram j).of_cfg (body := fun c s =>
        (callBank .ram r ram.bankSwitch s).bind fun _ t =>
          (forEach (fixedWriteStep r (c.ramGeometry ram) 0) (boundaryCells (c.ramGeometry ram).count) t).bind
            fun _ => forEach (boundaryStep r (c.ramGeometry ram) (c.ramMask ram))
              (boundaryCells (c.ramGeometry ram).count))

/-- The fill of a region performs its plan (R287). -/
theorem fillRegion_performs (r : Byte) (value : Datum) (ram : RamRegion) : Performs c anyWork
    (atSpot .ram r 0 (c.fillPlan r ram value)) (fillRegion r value ram) fun _ => anyWork := by
  rw [Cfg.fillPlan, atSpot_append, atSpot_map]
  exact ((callBank_performs anyWork .ram r 0 ram.bankSwitch).bind fun _ _ =>
    Performs.forEach _ fun i _ => fixedWriteStep_performs r (c.ramGeometry ram) _ i).of_cfg (body := fun c s =>
      (callBank .ram r ram.bankSwitch s).bind fun _ =>
        forEach (fixedWriteStep r (c.ramGeometry ram) ((c.ramGeometry ram).w.cut value))
          (List.range (c.ramGeometry ram).count))

theorem ramRawStep_performs (r : Byte) (g : Geometry) (i : Nat) :
    Performs c anyWork [(⟨.ram, r, 0⟩, .read (g.cell i) 0 0)] (ramRawStep r g i) fun _ => anyWork := by
  refine Performs.after_anyWork (fun s => (setCell r i (g.cell i) s).work) ?_
    (readAndCompare_performs ⟨.ram, r, 0⟩ (g.cell i) 0 0 (fun _ _ => ()) (fun _ t => t.work) fun _ _ _ _ => trivial)
  intro s _
  rw [readAndCompare_zero]
  rfl

/-- The raw read of a region performs its plan (R288). -/
theorem readRegion_performs (r : Byte) (ram : RamRegion) : Performs c anyWork
    (atSpot .ram r 0 (c.ramReadPlan r ram)) (readRegion r ram) fun _ => anyWork := by
  rw [Cfg.ramReadPlan, atSpot_append, atSpot_map]
  exact ((callBank_performs anyWork .ram r 0 ram.bankSwitch).bind fun _ _ =>
    Performs.forEach _ fun i _ => ramRawStep_performs r (c.ramGeometry ram) i).of_cfg (body := fun c s =>
      (callBank .ram r ram.bankSwitch s).bind fun _ =>
        forEach (ramRawStep r (c.ramGeometry ram)) (List.range (c.ramGeometry ram).count))

/-! #### IoCheck -/

/-- IOIN on an entry performs its plan (R320). -/
theorem inputEntry_performs (idx : Byte) (e : InputEntry) :
    Performs c anyWork (atSpot .input idx 0 (inputPlan idx e)) (inputEntry idx e) fun _ => anyWork := by
  rw [inputPlan, atSpot_append]
  refine (callBank_performs anyWork .input idx 0 e.bankSwitch).bind fun _ _ =>
    Performs.after_anyWork (fun s => (setLa e.address s).work) ?_
      (readAndCompare_performs ⟨.input, idx, 0⟩ e.address 0 0 (fun d t => t.cfg.inputValue e d)
        (fun d t => (setActual d t).work) fun _ _ _ _ => trivial)
  intro s _
  rw [readAndCompare_zero]
  rfl

/-- IOOUT on an entry performs its plan (R321). -/
theorem outputEntry_performs (idx : Byte) (active : Bool) (e : OutputEntry) :
    Performs c anyWork (atSpot .output idx 0 (c.outputPlan idx e active)) (outputEntry idx active e)
      fun _ => anyWork := by
  rw [Cfg.outputPlan, atSpot_append]
  refine (callBank_performs anyWork .output idx 0 e.bankSwitch).bind fun _ _ =>
    Performs.after_anyWork (fun s => (setExpected (c.outValue e active) (setLa e.address s)).work) ?_
      (seqWrite_performs anyWork ⟨.output, idx, 0⟩ e.address (c.outValue e active))
  rintro s rfl
  rfl

end Sys2Proof.Machine

/-! ### A sequencer command's failures (30_encoding.md R121, R122, 60_exceptions.md R351, R353, R361, R364) -/

namespace Sys2Proof.Machine

section
variable {α β : Type} {c : Cfg}

/-! #### The body of a sequencer command -/

/-- On an idled engine of this configuration the command is this body and its end, a Success where it raises nothing. -/
def HasBody (c : Cfg) (i : Instr) (body : State → Res Result) : Prop :=
  ∀ s, s.cfg = c → s.idled = true → exec i s = .next (complete (body s)) ∧ Completes (body s)

/-- A part, and what is reported of its value. -/
def reporting (x : State → Res α) (report : α → β) (s : State) : Res β :=
  (x s).bind fun a u => .ok (report a) u

theorem reporting_completes {report : α → Result} (success : ∀ a, (report a).code = .success ∧ (report a).info = .none)
    (x : State → Res α) (s : State) : Completes (reporting x report s) :=
  Completes.bind fun a u => Completes.ok u (success a).1 (success a).2

theorem Locates.reporting {plan : List (Spot × Move)} {x : State → Res α} (h : Locates c plan x) (report : α → β) :
    Locates c plan (reporting x report) := by
  have := h.bind (qs := []) (f := fun a u => Res.ok (report a) u) fun a => Locates.of_work fun s _ =>
    ⟨s.work, .inl ⟨report a, rfl⟩⟩
  rwa [List.append_nil] at this

theorem StopsAlong.reporting {P : Work → Prop} {plan : List (Spot × Move)} {x : State → Res α}
    (h : StopsAlong c P plan x) (report : α → β) : StopsAlong c P plan (reporting x report) where
  toLocates := h.toLocates.reporting report
  stops s es rec rest hc hi hP stop := by
    obtain ⟨t, raised, stopped⟩ := h.stops s es rec rest hc hi hP stop
    exact ⟨t, by rw [Machine.reporting, raised, Res.bind_raise], stopped⟩

theorem oneOf_of_some {table : List α} {tag : TableTag} {idx : Byte} {e : α}
    (found : table[idx.toNat]? = some e) (pass : α → State → Res β) (s : State) :
    oneOf table tag idx pass s = pass e s := by
  rw [oneOf, found]

/-- Where an index byte names every region, region `k`'s seed is `seed + k` (43_ram_check.md R285). -/
theorem regionSeed_ofNat (seed : Word) {k : Nat} (h : k < 256) :
    regionSeed seed (BitVec.ofNat 8 k) = seed + BitVec.ofNat 32 k := by
  rw [regionSeed]
  congr 1
  apply BitVec.eq_of_toNat_eq
  simp
  omega

theorem hasBody_reporting {i : Instr} {x : Cfg → State → Res α} {report : α → Result}
    (success : ∀ a, (report a).code = .success ∧ (report a).info = .none)
    (ran : ∀ s, exec i s = guarded s fun t => reporting (x t.cfg) report t) : HasBody c i (reporting (x c) report) := by
  rintro s rfl idled
  exact ⟨by rw [ran, guarded_of_idled idled], reporting_completes success _ s⟩

/-- A single-region command whose index names an entry is its pass over that entry (42_rom_check.md R255). -/
theorem hasBody_oneOf {i : Instr} (table : Cfg → List α) {tag : TableTag} {idx : Byte} {e : α}
    {pass : α → State → Res β} {report : β → Result} (found : (table c)[idx.toNat]? = some e)
    (success : ∀ a, (report a).code = .success ∧ (report a).info = .none)
    (ran : ∀ s, exec i s = guarded s fun t => reporting (oneOf (table t.cfg) tag idx pass) report t) :
    HasBody c i (reporting (pass e) report) := by
  have one : reporting (oneOf (table c) tag idx pass) report = reporting (pass e) report := by
    funext s
    rw [reporting, oneOf_of_some found]
    rfl
  exact one ▸ hasBody_reporting (x := fun c => oneOf (table c) tag idx pass) success ran

/-- The chip-select test: every region written, then every region read back (43_ram_check.md R285). -/
def crossPasses (seed : Word) (c : Cfg) (s : State) : Res Unit :=
  (fullSet c.ramTable (crossWrite seed) s).bind fun _ u => fullSet u.cfg.ramTable (crossVerify seed) u

theorem Res.bind_assoc {γ : Type} (x : Res α) (f : α → State → Res β) (g : β → State → Res γ) :
    (x.bind f).bind g = x.bind fun a s => (f a s).bind g := by
  cases x <;> rfl

theorem exec_ramcs (seed : Word) (s : State) : exec (.ramcs seed) s
    = guarded s fun t => reporting (crossPasses seed t.cfg) (fun _ => Result.blank.inTable .ram 0) t := by
  simp only [reporting, crossPasses, Res.bind_assoc]
  rfl

theorem crossPasses_performs (seed : Word) (fit : c.tablesFit = true) :
    Performs c anyWork (c.moves (.ramcs seed)) (crossPasses seed c) fun _ => anyWork := by
  obtain ⟨ramFits, -⟩ := c.tablesFit_iff.mp fit
  have seeds : ∀ e ∈ c.ramTable.zipIdx, regionSeed seed (BitVec.ofNat 8 e.2) = seed + BitVec.ofNat 32 e.2 := by
    intro e mem
    have : e.2 < 0 + c.ramTable.length := List.snd_lt_add_of_mem_zipIdx mem
    exact regionSeed_ofNat seed (by omega)
  refine Performs.bind (Performs.forEach c.ramTable.zipIdx fun e mem => ?_) fun _ _ =>
    Performs.of_cfg (body := fun c => fullSet c.ramTable (crossVerify seed))
      (Performs.forEach c.ramTable.zipIdx fun e mem => ?_)
  · rw [← seeds e mem]
    exact crossWrite_performs seed _ e.1
  · rw [← seeds e mem]
    exact crossVerify_performs seed _ e.1

/-- Both passes over a ROM region (42_rom_check.md R261). -/
def romPasses (r : Byte) (rom : RomRegion) (s : State) : Res Word :=
  (samplePass r rom s).bind fun _ => crcPass r rom true

theorem romPasses_stopsAlong (r : Byte) (rom : RomRegion) :
    StopsAlong c anyWork (atSpot .rom r 0 (c.samplePlan r rom ++ c.romPlan r rom)) (romPasses r rom) := by
  rw [atSpot_append]
  exact StopsAlong.bind (samplePass_performs r rom) fun _ _ => crcPass_stopsAlong r rom true

/-- A single-region command stops along its moves: where it has some, its index names an entry. -/
theorem oneOf_stopsAlong {i : Instr} (table : Cfg → List α) {tag : TableTag} {idx : Byte}
    {pass : α → State → Res β} {report : β → Result} {plan : α → List (Spot × Move)}
    (moves : c.moves i = (table c)[idx.toNat]?.elim [] plan) (sequencer : c.moves i ≠ [])
    (success : ∀ a, (report a).code = .success ∧ (report a).info = .none)
    (ran : ∀ s, exec i s = guarded s fun t => reporting (oneOf (table t.cfg) tag idx pass) report t)
    (h : ∀ e, StopsAlong c anyWork (plan e) (pass e)) :
    ∃ body, HasBody c i body ∧ StopsAlong c anyWork (c.moves i) body := by
  cases found : (table c)[idx.toNat]? with
  | none => exact absurd (by rw [moves, found]; rfl) sequencer
  | some e =>
    rw [moves, found]
    exact ⟨_, hasBody_oneOf table found success ran, (h e).reporting report⟩

/-- Every sequencer command but ROMALL stops along its moves. -/
theorem exec_stopsAlong {i : Instr} (fit : c.tablesFit = true) (sequencer : c.moves i ≠ []) (notRomall : i ≠ .romall) :
    ∃ body, HasBody c i body ∧ StopsAlong c anyWork (c.moves i) body := by
  cases i with
  | romall => exact absurd rfl notRomall
  | romchk idx =>
    refine oneOf_stopsAlong Cfg.romTable ?_ sequencer (fun _ => ⟨rfl, rfl⟩) (fun _ => rfl) (romPasses_stopsAlong idx)
    rw [Cfg.moves]; cases c.romTable[idx.toNat]? <;> rfl
  | romraw =>
    exact ⟨_, hasBody_reporting (x := fun c => fullSet c.romTable rawPass) (fun _ => ⟨rfl, rfl⟩) fun _ => rfl,
      (Performs.forEach c.romTable.zipIdx fun e _ => rawPass_performs _ e.1).toStopsAlong.reporting fun _ =>
        Result.blank⟩
  | romcrc idx =>
    refine oneOf_stopsAlong Cfg.romTable ?_ sequencer (fun _ => ⟨rfl, rfl⟩) (fun _ => rfl) fun rom =>
      crcPass_stopsAlong idx rom false
    rw [Cfg.moves]; cases c.romTable[idx.toNat]? <;> rfl
  | rammarch idx seed =>
    refine oneOf_stopsAlong Cfg.ramTable ?_ sequencer (fun _ => ⟨rfl, rfl⟩) (fun _ => rfl) fun ram =>
      (marchRegion_performs idx seed ram).toStopsAlong
    rw [Cfg.moves]; cases c.ramTable[idx.toNat]? <;> rfl
  | ramcs seed =>
    exact ⟨_, hasBody_reporting (x := crossPasses seed) (fun _ => ⟨rfl, rfl⟩) (exec_ramcs seed),
      (crossPasses_performs seed fit).toStopsAlong.reporting fun _ => Result.blank.inTable .ram 0⟩
  | ramaddr idx =>
    refine oneOf_stopsAlong Cfg.ramTable ?_ sequencer (fun _ => ⟨rfl, rfl⟩) (fun _ => rfl) fun ram =>
      (boundaryRegion_performs idx ram).toStopsAlong
    rw [Cfg.moves]; cases c.ramTable[idx.toNat]? <;> rfl
  | ramfill idx value =>
    refine oneOf_stopsAlong Cfg.ramTable ?_ sequencer (fun _ => ⟨rfl, rfl⟩) (fun _ => rfl) fun ram =>
      (fillRegion_performs idx value ram).toStopsAlong
    rw [Cfg.moves]; cases c.ramTable[idx.toNat]? <;> rfl
  | ramread idx =>
    refine oneOf_stopsAlong Cfg.ramTable ?_ sequencer (fun _ => ⟨rfl, rfl⟩) (fun _ => rfl) fun ram =>
      (readRegion_performs idx ram).toStopsAlong
    rw [Cfg.moves]; cases c.ramTable[idx.toNat]? <;> rfl
  | ioin idx =>
    refine oneOf_stopsAlong Cfg.inputTable ?_ sequencer (fun _ => ⟨rfl, rfl⟩) (fun _ => rfl) fun e =>
      (inputEntry_performs idx e).toStopsAlong
    rw [Cfg.moves]; cases c.inputTable[idx.toNat]? <;> rfl
  | ioout idx active =>
    refine oneOf_stopsAlong Cfg.outputTable ?_ sequencer (fun _ => ⟨rfl, rfl⟩) (fun _ => rfl) fun e =>
      (outputEntry_performs idx active e).toStopsAlong
    rw [Cfg.moves]; cases c.outputTable[idx.toNat]? <;> rfl
  | _ => exact absurd rfl sequencer

/-! #### ROMALL (42_rom_check.md R262) -/

/-- ROMALL's turn over one region. -/
def romAllTurn (e : RomRegion × Nat) : State → Res Unit := reporting (romPasses (BitVec.ofNat 8 e.2) e.1) fun _ => ()

/-- ROMALL's moves in one region. -/
def Cfg.romAllMoves (c : Cfg) (e : RomRegion × Nat) : List (Spot × Move) :=
  atSpot .rom (BitVec.ofNat 8 e.2) 0 (c.samplePlan (BitVec.ofNat 8 e.2) e.1 ++ c.romPlan (BitVec.ofNat 8 e.2) e.1)

theorem romAllTurn_stopsAlong (e : RomRegion × Nat) : StopsAlong c anyWork (c.romAllMoves e) (romAllTurn e) :=
  (romPasses_stopsAlong _ e.1).reporting _

/-- ROMALL's turns over the whole table. -/
def romAllTurns (c : Cfg) : State → Res Unit := forEach romAllTurn c.romTable.zipIdx

theorem exec_romall (s : State) :
    exec .romall s = guarded s fun t => reporting (romAllTurns t.cfg) (fun _ => Result.blank) t := by
  have turn : romAllTurn = fun e u => (samplePass (BitVec.ofNat 8 e.2) e.1 u).bind fun _ v =>
      (crcPass (BitVec.ofNat 8 e.2) e.1 true v).bind fun _ w => .ok () w := by
    funext e u
    rw [romAllTurn, reporting, romPasses, Res.bind_assoc]
  rw [exec, execRomall]
  simp only [reporting, romAllTurns, turn]
  rfl

theorem romall_hasBody : HasBody c .romall (reporting (romAllTurns c) fun _ => Result.blank) :=
  hasBody_reporting (fun _ => ⟨rfl, rfl⟩) exec_romall

theorem romAllTurns_locates : Locates c (c.moves .romall) (romAllTurns c) :=
  Locates.forEach _ fun e _ => (romAllTurn_stopsAlong e).toLocates

/-- A region's turn runs to its end where its samples and its CRC are right. -/
theorem romAllTurn_completes {rom : RomRegion} {k : Nat} {s : State} {ps qs : List Reply} {rest : List Raw}
    (hi : s.EngineIdle) (accepted₁ : planAccepts s.cfg (s.cfg.samplePlan (BitVec.ofNat 8 k) rom) ps = true)
    (accepted₂ : planAccepts s.cfg (s.cfg.romPlan (BitVec.ofNat 8 k) rom) qs = true)
    (right : s.cfg.crcOf rom (planValues s.cfg (s.cfg.romPlan (BitVec.ofNat 8 k) rom) qs) = rom.crc32)
    (script : s.script = planAnswers s.cfg (s.cfg.samplePlan (BitVec.ofNat 8 k) rom) ps
      ++ (planAnswers s.cfg (s.cfg.romPlan (BitVec.ofNat 8 k) rom) qs ++ rest)) :
    ∃ t, romAllTurn (rom, k) s = .ok () t
      ∧ Ran s (s.cfg.samplePlan (BitVec.ofNat 8 k) rom ++ s.cfg.romPlan (BitVec.ofNat 8 k) rom) (ps ++ qs) t
      ∧ t.script = rest := by
  obtain ⟨⟨⟩, t, ran, through, left, -⟩ := (samplePass_performs (c := s.cfg) (BitVec.ofNat 8 k) rom).completes s ps _
    rfl hi trivial (by rwa [movesOf_atSpot]) (by rwa [movesOf_atSpot])
  rw [movesOf_atSpot] at through
  have hc := through.cfg
  obtain ⟨f, u, ran', through', left'⟩ := crcPass_completes (r := BitVec.ofNat 8 k) (rom := rom) (rs := qs)
    (rest := rest) (through.engineIdle hi) (hc ▸ accepted₂) (hc ▸ left) (hc ▸ right)
  refine ⟨u, ?_, through.trans (hc ▸ through'), left'⟩
  rw [romAllTurn, reporting, romPasses, ran, Res.bind_ok, ran', Res.bind_ok]

theorem romAllPlan_cons (c : Cfg) (k : Nat) (rom : RomRegion) (roms : List RomRegion) :
    c.romAllPlan k (rom :: roms)
      = (c.samplePlan (BitVec.ofNat 8 k) rom ++ c.romPlan (BitVec.ofNat 8 k) rom) ++ c.romAllPlan (k + 1) roms := rfl

/-- ROMALL's turns over the regions from index `k` on run to their end where every sample and CRC is right. -/
theorem romAllTurns_complete {roms : List RomRegion} {k : Nat} {done : List (List Reply × List Reply)} {s : State}
    {rest : List Raw} (hi : s.EngineIdle) (right : s.cfg.romAllAccepts k roms done = true)
    (script : s.script = planAnswers s.cfg (s.cfg.romAllPlan k roms) (done.flatMap fun p => p.1 ++ p.2) ++ rest) :
    ∃ t, forEach romAllTurn (roms.zipIdx k) s = .ok () t
      ∧ Ran s (s.cfg.romAllPlan k roms) (done.flatMap fun p => p.1 ++ p.2) t ∧ t.script = rest := by
  induction roms generalizing k done s with
  | nil =>
    cases done with
    | nil => exact ⟨s, rfl, Ran.nil s, script⟩
    | cons p done => cases right
  | cons rom roms ih =>
    cases done with
    | nil => cases right
    | cons p done =>
      simp only [Cfg.romAllAccepts, Bool.and_eq_true, decide_eq_true_eq] at right
      obtain ⟨⟨⟨samples, cells⟩, crc⟩, others⟩ := right
      have here := planAccepts_append.mpr ⟨p.1, p.2, rfl, samples, cells⟩
      rw [romAllPlan_cons, List.flatMap_cons] at script ⊢
      rw [planAnswers_append (planAccepts_length here), planAnswers_append (planAccepts_length samples),
        List.append_assoc, List.append_assoc] at script
      obtain ⟨t, ran, through, left⟩ := romAllTurn_completes hi samples cells crc script
      have hc := through.cfg
      obtain ⟨u, ran', through', left'⟩ := ih (through.engineIdle hi) (hc ▸ others) (hc ▸ left)
      refine ⟨u, ?_, through.trans (hc ▸ through'), left'⟩
      rw [List.zipIdx_cons, forEach_cons, ran, Res.bind_ok, ran']

theorem romAllAccepts_planAccepts {roms : List RomRegion} {k : Nat} {done : List (List Reply × List Reply)}
    (right : c.romAllAccepts k roms done = true) :
    planAccepts c (c.romAllPlan k roms) (done.flatMap fun p => p.1 ++ p.2) = true := by
  induction roms generalizing k done with
  | nil =>
    cases done with
    | nil => rfl
    | cons p done => cases right
  | cons rom roms ih =>
    cases done with
    | nil => cases right
    | cons p done =>
      simp only [Cfg.romAllAccepts, Bool.and_eq_true] at right
      obtain ⟨⟨⟨samples, cells⟩, -⟩, others⟩ := right
      exact planAccepts_append.mpr ⟨_, _, rfl, planAccepts_append.mpr ⟨_, _, rfl, samples, cells⟩, ih others⟩

/-- The place of an element in the middle one of three lists. -/
theorem exists_middle {x : α} {first later as bs cs : List α} (h : first ++ x :: later = as ++ (bs ++ cs))
    (after : as.length ≤ first.length) (before : first.length < as.length + bs.length) :
    ∃ first' later', first = as ++ first' ∧ bs = first' ++ x :: later' := by
  obtain ⟨first', rfl⟩ : as <+: first := List.prefix_of_prefix_length_le ⟨_, h.symm⟩ ⟨_, rfl⟩ after
  rw [List.append_assoc, List.append_cancel_left_eq] at h
  obtain ⟨tail, rfl⟩ : first' <+: bs :=
    List.prefix_of_prefix_length_le ⟨_, h⟩ ⟨_, rfl⟩ (by rw [List.length_append] at before; omega)
  rw [List.append_assoc, List.append_cancel_left_eq] at h
  cases tail with
  | nil => simp at before
  | cons y tail =>
    obtain ⟨rfl, -⟩ := List.cons.inj h
    exact ⟨first', tail, rfl, rfl⟩

/-- The regions around region `k`, each with its index. -/
theorem zipIdx_around {l : List α} {k : Nat} {x : α} (found : l[k]? = some x) :
    l.zipIdx = (l.take k).zipIdx ++ (x, k) :: (l.drop (k + 1)).zipIdx (k + 1) := by
  obtain ⟨lt, rfl⟩ := List.getElem?_eq_some_iff.mp found
  conv_lhs => rw [← List.take_append_drop k l, List.drop_eq_getElem_cons lt]
  rw [List.zipIdx_append, List.length_take, Nat.min_eq_left (by omega), Nat.zero_add, List.zipIdx_cons]

theorem movesOf_flatMap_romAllMoves (c : Cfg) (roms : List RomRegion) :
    movesOf (roms.zipIdx.flatMap c.romAllMoves) = c.romAllPlan 0 roms := by
  rw [movesOf, List.map_flatMap]
  exact List.flatMap_congr fun e _ => movesOf_atSpot _ _ _ _

/-- ROMALL stops at the move it reaches: the regions before run to their end, and the region's own turn stops. -/
theorem romAllTurns_stops {before : List Move} {qs : List Reply} {spot : Spot} {m : Move} {answers rest : List Raw}
    {es : List Event} {rec : Result} {s : State} (hi : s.EngineIdle) (reaches : s.cfg.Reaches .romall before qs spot m)
    (stops : MoveStops s.cfg spot m answers es rec)
    (script : s.script = planAnswers s.cfg before qs ++ answers ++ rest) :
    ∃ t, romAllTurns s.cfg s = .raise rec t ∧ Stopped s (planEvents s.cfg before qs ++ es) rest t := by
  obtain ⟨⟨first, later, moves, rfl⟩, accepted, crcs⟩ := reaches
  obtain ⟨k, rom, here, done, rs, found, place, rfl, right, short⟩ := crcs rfl
  have around := zipIdx_around found
  have regions := movesOf_flatMap_romAllMoves s.cfg (s.cfg.romTable.take k)
  have split : s.cfg.moves .romall = (s.cfg.romTable.take k).zipIdx.flatMap s.cfg.romAllMoves
      ++ (s.cfg.romAllMoves (rom, k) ++ ((s.cfg.romTable.drop (k + 1)).zipIdx (k + 1)).flatMap s.cfg.romAllMoves) := by
    have : s.cfg.moves .romall = s.cfg.romTable.zipIdx.flatMap s.cfg.romAllMoves := rfl
    rw [this, around, List.flatMap_append, List.flatMap_cons]
  have lengths := congrArg List.length place
  have regionLength := congrArg List.length regions
  simp only [movesOf, List.length_map, List.length_append] at lengths regionLength
  obtain ⟨first', later', rfl, inRegion⟩ := exists_middle (moves.symm.trans split) (by omega)
    (by simp only [Cfg.romAllMoves, atSpot, List.length_map]; omega)
  have inHere : movesOf _ ++ movesOf first' = _ := (movesOf_append _ _).symm.trans place
  rw [regions, List.append_cancel_left_eq] at inHere
  subst inHere
  have regionsAccepted := romAllAccepts_planAccepts right
  obtain ⟨qs₁, qs₂, eq, accepted₁, accepted₂⟩ := planAccepts_append.mp (place ▸ accepted)
  obtain ⟨rfl, rfl⟩ := List.append_inj eq
    ((planAccepts_length regionsAccepted).symm.trans (planAccepts_length accepted₁))
  rw [place, planAnswers_append (planAccepts_length regionsAccepted), List.append_assoc, List.append_assoc] at script
  obtain ⟨t, ran, through, left⟩ := romAllTurns_complete hi right script
  have stop : PlanStops s.cfg (s.cfg.romAllMoves (rom, k)) t.script (planEvents s.cfg (movesOf first') rs ++ es) rec
      rest :=
    inRegion ▸ left ▸ PlanStops.at accepted₂ stops
  obtain ⟨u, raised, stopped⟩ := (romAllTurn_stopsAlong (rom, k)).stops t _ rec rest through.cfg
    (through.engineIdle hi) trivial stop
  refine ⟨u, ?_, ?_⟩
  · rw [romAllTurns, around, forEach_append, ran, Res.bind_ok, forEach_cons, raised, Res.bind_raise]
  · rw [place, planEvents_append (planAccepts_length regionsAccepted), List.append_assoc]
    exact stopped.after_ran through

end

/-! #### The end of a sequencer command -/

section
variable {c : Cfg} {i : Instr}

/-- A sequencer command is a body whose failures name one of the command's moves. -/
theorem exec_locates (fit : c.tablesFit = true) (sequencer : c.moves i ≠ []) :
    ∃ body, HasBody c i body ∧ Locates c (c.moves i) body := by
  by_cases romall : i = .romall
  · subst romall
    exact ⟨_, romall_hasBody, romAllTurns_locates.reporting _⟩
  · obtain ⟨body, hasBody, along⟩ := exec_stopsAlong fit sequencer romall
    exact ⟨body, hasBody, along.toLocates⟩

/-- A command that reports another code than Success raised what it reports. -/
theorem HasBody.raised {body : State → Res Result} {s t : State} (h : HasBody s.cfg i body) (idled : s.idled = true)
    (ran : exec i s = .next t) (failed : t.result.code ≠ .success) : ∃ u, body s = .raise t.result u := by
  obtain ⟨runs, completes⟩ := h s rfl idled
  cases ended : body s with
  | ok r u =>
    rw [ended, complete_ok, ran] at runs
    cases runs
    exact absurd (completes r u ended).1 failed
  | raise r u =>
    rw [ended, complete_raise, ran] at runs
    cases runs
    exact ⟨u, rfl⟩

/-- Ending a command that stopped: its record, its events and the answers it left over. -/
theorem Stopped.completed {s t : State} {es : List Event} {rest : List Raw} (h : Stopped s es rest t) (r : Result) :
    Completed s (trapEntry r t) r es rest where
  toCarried := h.toCarried.trans (complete_carried (.raise r t))
  result := rfl
  results := by rw [trapEntry_results, h.results]
  events := h.events
  answersLeft := h.answersLeft
  engineIdle := ⟨rfl, rfl, rfl⟩

theorem HasBody.completed {body : State → Res Result} {s t : State} {r : Result} {es : List Event} {rest : List Raw}
    (h : HasBody s.cfg i body) (idled : s.idled = true) (raised : body s = .raise r t) (stopped : Stopped s es rest t) :
    ∃ t, exec i s = .next t ∧ Completed s t r es rest :=
  ⟨trapEntry r t, by rw [(h s rfl idled).1, raised, complete_raise], stopped.completed r⟩

/-- A move that stops the sequencer that has come to it ends the command with that move's record and events. -/
theorem exec_stops {before : List Move} {qs : List Reply} {spot : Spot} {m : Move} {answers rest : List Raw}
    {es : List Event} {rec : Result} {s : State} (idled : s.idled = true) (hi : s.EngineIdle)
    (fit : s.cfg.tablesFit = true) (reaches : s.cfg.Reaches i before qs spot m)
    (stops : MoveStops s.cfg spot m answers es rec)
    (script : s.script = planAnswers s.cfg before qs ++ answers ++ rest) :
    ∃ t, exec i s = .next t ∧ Completed s t rec (planEvents s.cfg before qs ++ es) rest := by
  by_cases romall : i = .romall
  · subst romall
    obtain ⟨t, raised, stopped⟩ := romAllTurns_stops hi reaches stops script
    exact romall_hasBody.completed idled (by rw [reporting, raised, Res.bind_raise]) stopped
  · obtain ⟨⟨first, later, moves, rfl⟩, accepted, -⟩ := reaches
    obtain ⟨body, hasBody, along⟩ := exec_stopsAlong fit (by simp [moves]) romall
    have stop : PlanStops s.cfg (s.cfg.moves i) s.script (planEvents s.cfg (movesOf first) qs ++ es) rec rest := by
      rw [moves, script, List.append_assoc]
      exact PlanStops.at accepted stops
    obtain ⟨t, raised, stopped⟩ := along.stops s _ rec rest rfl hi trivial stop
    exact hasBody.completed idled raised stopped

/-! #### The one access of IOIN and IOOUT (44_io_interrupt_check.md R320, R321) -/

/-- The record of a bank switch, or of an access to this address. -/
def IsEntryError (la : Word) (table : TableTag) (idx : Byte) (r : Result) : Prop :=
  r.info = .bankSwitchFailed ∨ IsAccessError (locate la table idx) r

theorem callBank_raises_entryError (la : Word) (table : TableTag) (idx : Byte) (hasBank : Bool) (s : State) :
    Raises (IsEntryError la table idx) (callBank table idx hasBank s) := by
  refine (callBank_raises table idx hasBank s).mono ?_
  rintro r ⟨code, -, rfl⟩
  exact .inl rfl

theorem inputEntry_raises (idx : Byte) (e : InputEntry) (s : State) :
    Raises (IsEntryError e.address .input idx) (inputEntry idx e s) :=
  (callBank_raises_entryError e.address .input idx e.bankSwitch s).bind fun _ _ =>
    ((seqRead_raises e.address .input idx _).mono fun _ => Or.inr).bind fun _ _ => Raises.ok _ _

theorem outputEntry_raises (idx : Byte) (active : Bool) (e : OutputEntry) (s : State) :
    Raises (IsEntryError e.address .output idx) (outputEntry idx active e s) :=
  (callBank_raises_entryError e.address .output idx e.bankSwitch s).bind fun _ _ =>
    (seqWrite_raises e.address _ .output idx _).mono fun _ => Or.inr

/-- A failed command on one entry, whose failures are that entry's, and no bank switch's. -/
theorem HasBody.entry_located {α : Type} {x : State → Res α} {report : α → Result} {s t : State} {la : Word}
    {table : TableTag} {idx : Byte} (h : HasBody s.cfg i (reporting x report)) (idled : s.idled = true)
    (raises : ∀ s, Raises (IsEntryError la table idx) (x s)) (ran : exec i s = .next t)
    (failed : t.result.code ≠ .success) (notBank : t.result.info ≠ .bankSwitchFailed) :
    (t.result.code = .timeout ∨ t.result.code = .unimplemented)
      ∧ t.result = { Result.blank with
          code := t.result.code, info := t.result.info, addr := la, table := table, index := idx } := by
  obtain ⟨u, raised⟩ := h.raised idled ran failed
  have reports : Raises (IsEntryError la table idx) (reporting x report s) := (raises s).bind fun _ _ => Raises.ok _ _
  exact ((reports _ u raised).resolve_left notBank).located

theorem ioin_hasBody {idx : Byte} {e : InputEntry} (found : c.inputTable[idx.toNat]? = some e) :
    HasBody c (.ioin idx)
      (reporting (inputEntry idx e) fun v => (Result.value32 (v.zeroExtend 32)).inTable .input idx) :=
  hasBody_oneOf Cfg.inputTable found (fun _ => ⟨rfl, rfl⟩) fun _ => rfl

theorem ioout_hasBody {idx : Byte} {active : Bool} {e : OutputEntry} (found : c.outputTable[idx.toNat]? = some e) :
    HasBody c (.ioout idx active) (reporting (outputEntry idx active e) fun _ => Result.blank.inTable .output idx) :=
  hasBody_oneOf Cfg.outputTable found (fun _ => ⟨rfl, rfl⟩) fun _ => rfl

theorem Cfg.wf_tablesFit (h : c.wf = true) : c.tablesFit = true := by
  simp only [Cfg.wf, Bool.and_eq_true] at h
  obtain ⟨⟨-, fit⟩, -⟩ := h
  exact fit

end

/-- Settles O54: every sequencer performs the plan of its moves, and stops at the first of them that fails. -/
theorem sequencerFailureIsLocated : Obligations.SequencerFailureIsLocated := by
  refine ⟨fun s t idx inv idled failed notBank => ⟨fun e found ran => ?_, fun e active found ran => ?_⟩,
    fun s t i inv idled sequencer ran code notBank => ?_,
    fun s i before qs spot m la r f rest idled hi fit reaches address fails script => ?_⟩
  · exact (ioin_hasBody found).entry_located idled (inputEntry_raises idx e) ran failed notBank
  · exact (ioout_hasBody found).entry_located idled (outputEntry_raises idx active e) ran failed notBank
  · obtain ⟨body, hasBody, located⟩ := exec_locates (Cfg.wf_tablesFit inv.cfgWf) sequencer
    have failed : t.result.code ≠ .success := by
      rcases code with code | code <;> rw [code] <;> decide
    obtain ⟨u, raised⟩ := hasBody.raised idled ran failed
    exact located.names s rfl ⟨inv.pinsIdle idled, inv.betweenCycles⟩ _ u raised code notBank
  · exact exec_stops idled hi fit reaches (.access m la r f address fails) script

end Sys2Proof.Machine

/-! ### The Contract commands (40_contract.md R150 to R162): how they end, IDLE, CHECK, and the direct bus commands on
answers that fit -/

namespace Sys2Proof.Machine

/-! #### Every command ends idle (R160) -/

/-- IDLE leaves the engine idled, a failed CHECK does not, and every other command run on an idled engine leaves it
so. -/
theorem exec_keeps_idled {i : Instr} {s t : State} (hs : s.Inv) (idled : s.idled = true ∨ i = .idle)
    (ran : exec i s = .next t) (passed : i ≠ .check ∨ t.result.code = .success) : t.idled = true := by
  rcases exec_shape i s hs with ⟨rfl, shape⟩ | ⟨notIdled, notIdle, -⟩ | ⟨wasIdled, rfl, shape⟩
    | ⟨wasIdled, -, -, x, shape, course, -⟩
  · cases shape.symm.trans ran
    rw [idleState_eq]
    rfl
  · rcases idled with idled | idle
    · exact absurd (notIdled.symm.trans idled) nofun
    · exact absurd idle notIdle
  · cases shape.symm.trans ran
    have calm := testItems_calm s.cfg.checkItems s
    rcases tested : testItems s.cfg.checkItems s with ⟨_ | failure, t⟩ <;> rw [tested] at calm passed
    · exact calm.idled.trans wasIdled
    · rcases passed with notCheck | success
      · exact absurd rfl notCheck
      · cases success
  · cases shape.symm.trans ran
    exact (course.within.toCarried.trans (complete_carried x)).idled.trans wasIdled

/-- Settles O14: however a command ends, an idled engine has idle pins and no cycle under way, and only a failed CHECK
leaves the engine not idled. -/
theorem exitStateIsIdle : Obligations.ExitStateIsIdle := by
  intro i s t hs idled ran passed
  have ended := exec_commandEnd hs ran
  have stays := exec_keeps_idled hs idled ran passed
  exact ⟨⟨ended.pinsIdle stays, ended.betweenCycles⟩, stays⟩

/-! #### IDLE (R152) -/

theorem exec_idle_eq (s : State) : exec .idle s = .next { s with
    pins := .idle, hostMask := false, phase := .idle, idled := true, booted := true
    clk := if s.cfg.clockMaster = true ∧ s.booted = false then s.cfg.idleClockLevel else s.clk
    result := Result.blank, results := s.results ++ [Result.blank], activity := (idleState s).activity } :=
  congrArg (fun t => Host.Outcome.next (finish Result.blank t)) (idleState_eq s)

/-- The clock drives of IDLE: each phase once, to its idle level, by the first IDLE of a clock-master engine. -/
theorem drivenLevels_of_idle {s t : State} (h : t.activity = (idleState s).activity) (p : Nat) :
    drivenLevels p (newActivity s t)
      = if s.cfg.clockMaster = true ∧ s.booted = false then s.cfg.idleClockLevel[p]?.toList else [] := by
  rw [newActivity_of_eq (h.trans (idleState_activity s))]
  split
  · exact drivenLevels_zipIdx .idle false p s.cfg.idleClockLevel 0
  · rfl

/-- An IDLE of an engine that is as an IDLE left it changes only the records. -/
theorem exec_idle_again {s : State} (hi : s.EngineIdle) (idled : s.idled = true) (booted : s.booted = true)
    (last : s.result = Result.blank) :
    ∃ t, exec .idle s = .next t ∧ t = { s with results := s.results ++ [Result.blank], activity := t.activity }
      ∧ ∀ p, drivenLevels p (newActivity s t) = [] := by
  have notFirst : ¬ (s.cfg.clockMaster = true ∧ s.booted = false) := fun first =>
    absurd (booted.symm.trans first.2) nofun
  refine ⟨_, exec_idle_eq s, ?_, fun p => (drivenLevels_of_idle rfl p).trans (if_neg notFirst)⟩
  obtain ⟨pins, phase, hostMask⟩ := hi
  rw [if_neg notFirst, ← pins, ← phase, ← hostMask, ← last, idled, ← booted]

/-- Settles O23: the state is that of `exec_idle_eq`, and it is one in which a second IDLE drives no clock. -/
theorem idleDrivesIdle : Obligations.IdleDrivesIdle := by
  intro s
  exact ⟨_, exec_idle_eq s, rfl, newEvents_of_eq (List.append_nil _).symm, drivenLevels_of_idle rfl,
    exec_idle_again ⟨rfl, rfl, rfl⟩ rfl rfl rfl⟩

/-! #### CHECK (R153, R161, R162) -/

/-- Only the Board was asked: its answers are used up to `rest`, and no clock phase was driven. -/
def Asked (s : State) (rest : List Raw) (t : State) : Prop :=
  ∃ as, t = { s with script := rest, activity := s.activity ++ as } ∧ ∀ p, drivenLevels p as = []

theorem Asked.refl {s : State} {rest : List Raw} (h : s.script = rest) : Asked s rest s :=
  ⟨[], by simp [← h], fun _ => rfl⟩

theorem Asked.trans {s t u : State} {rest rest' : List Raw} (h : Asked s rest t) (k : Asked t rest' u) :
    Asked s rest' u := by
  obtain ⟨as, rfl, undriven⟩ := h
  obtain ⟨bs, rfl, undriven'⟩ := k
  refine ⟨as ++ bs, ?_, fun p => ?_⟩
  · rw [← List.append_assoc]
  · rw [drivenLevels_append, undriven, undriven', List.append_nil]

theorem Asked.cfg {s t : State} {rest : List Raw} (h : Asked s rest t) : t.cfg = s.cfg := by
  obtain ⟨as, rfl, -⟩ := h
  rfl

theorem Asked.script {s t : State} {rest : List Raw} (h : Asked s rest t) : t.script = rest := by
  obtain ⟨as, rfl, -⟩ := h
  rfl

theorem sampled_asked {s : State} {raw : Raw} {rest : List Raw} (h : s.script = raw :: rest) (q : Query) :
    Asked s rest (s.sampled q) :=
  ⟨[s.recorded (.sample q (s.reply q))], by rw [State.sampled, h, List.tail_cons], fun _ => rfl⟩

/-- The clock toggles: both levels are seen at the last of these answers. -/
theorem clockEnds_run {k : Nat} {seen : ClockSeen} {xs rest : List Raw} {s : State}
    (h : clockEnds k seen xs = true) (script : s.script = xs ++ rest) :
    ∃ t, clockLoop k seen s = (.both, t) ∧ Asked s rest t := by
  induction k generalizing seen xs s with
  | zero => cases h
  | succ k ih =>
    cases xs with
    | nil => cases h
    | cons x xs =>
      have asked := sampled_asked script .clockInput
      rw [clockEnds] at h
      rw [clockLoop, reply_of_script script]
      split at h
      · next both =>
        rw [if_pos both]
        obtain rfl := List.isEmpty_iff.mp h
        exact ⟨_, rfl, asked⟩
      · next notBoth =>
        rw [if_neg notBoth]
        obtain ⟨t, ran, after⟩ := ih h asked.script
        exact ⟨t, ran, asked.trans after⟩

/-- The clock stays at one level through all its samples. -/
theorem clockLoop_stuck {k : Nat} {seen : ClockSeen} {level : Bool} {xs rest : List Raw} {s : State}
    (adds : seen.add level = .only level) (length : xs.length = k + 1) (levels : ∀ x ∈ xs, levelOf x = level)
    (script : s.script = xs ++ rest) : ∃ t, clockLoop (k + 1) seen s = (.only level, t) ∧ Asked s rest t := by
  induction k generalizing seen xs s with
  | zero =>
    obtain ⟨x, rfl⟩ := List.length_eq_one_iff.mp length
    rw [clockLoop, reply_of_script script, levels x (List.mem_singleton_self x), adds, if_neg nofun]
    exact ⟨_, rfl, sampled_asked script _⟩
  | succ k ih =>
    cases xs with
    | nil => cases length
    | cons x xs =>
      have asked := sampled_asked script .clockInput
      rw [clockLoop, reply_of_script script, levels x List.mem_cons_self, adds, if_neg nofun]
      have again : (ClockSeen.only level).add level = .only level := if_pos rfl
      obtain ⟨t, ran, after⟩ := ih again (Nat.succ.inj length) (fun y mem => levels y (List.mem_cons_of_mem x mem))
        asked.script
      exact ⟨t, ran, asked.trans after⟩

theorem levelWord_eq_ite (level : Bool) : levelWord level = if level then 1 else 0 := by
  cases level <;> rfl

/-- What an item other than the clock does: one sample of its pin. -/
theorem testItem_of_ne_clock {item : CheckItem} {raw : Raw} {rest : List Raw} {s : State} (pin : item ≠ .clock)
    (script : s.script = raw :: rest) :
    ∃ t, testItem item s = (pinFailure item (levelOf raw), t) ∧ Asked s rest t := by
  have asked := sampled_asked script (.pin item)
  rw [← reply_of_script script (.pin item)]
  cases item with
  | clock => exact absurd rfl pin
  | _ => exact ⟨_, rfl, asked⟩

/-- The answers to one sample at a level (R161). -/
theorem eq_singleton_of_sampledOnce {level : Bool} {rs : List Raw} (one : decide (rs.length = 1) = true)
    (levels : (rs.all fun r => decide (levelOf r = level)) = true) : ∃ raw, rs = [raw] ∧ levelOf raw = level := by
  obtain ⟨raw, rfl⟩ := List.length_eq_one_iff.mp (of_decide_eq_true one)
  exact ⟨raw, rfl, of_decide_eq_true (List.all_eq_true.mp levels raw (List.mem_singleton_self raw))⟩

theorem CheckItem.passes_of_ne_clock {c : Cfg} {item : CheckItem} {rs : List Raw} (pin : item ≠ .clock)
    (h : item.passes c rs = true) : ∃ raw, rs = [raw] ∧ levelOf raw = item.expected := by
  cases item with
  | clock => exact absurd rfl pin
  | _ =>
    obtain ⟨one, levels⟩ := Bool.and_eq_true_iff.mp h
    exact eq_singleton_of_sampledOnce one levels

theorem CheckItem.fails_of_ne_clock {c : Cfg} {item : CheckItem} {level : Bool} {rs : List Raw} (pin : item ≠ .clock)
    (h : item.fails c level rs = true) : ∃ raw, rs = [raw] ∧ levelOf raw = level ∧ level ≠ item.expected := by
  cases item with
  | clock => exact absurd rfl pin
  | _ =>
    obtain ⟨sampled, wrong⟩ := Bool.and_eq_true_iff.mp h
    obtain ⟨one, levels⟩ := Bool.and_eq_true_iff.mp sampled
    obtain ⟨raw, eq, atLevel⟩ := eq_singleton_of_sampledOnce one levels
    exact ⟨raw, eq, atLevel, of_decide_eq_true wrong⟩

theorem CheckItem.expectedNumber_of_ne_clock {item : CheckItem} (pin : item ≠ .clock) :
    item.expectedNumber = levelWord item.expected := by
  cases item with
  | clock => exact absurd rfl pin
  | _ => rfl

theorem testItem_passes {item : CheckItem} {rs rest : List Raw} {s : State} (h : item.passes s.cfg rs = true)
    (script : s.script = rs ++ rest) : ∃ t, testItem item s = (none, t) ∧ Asked s rest t := by
  by_cases clock : item = .clock
  · subst clock
    obtain ⟨t, ran, asked⟩ := clockEnds_run h script
    exact ⟨t, by rw [testItem, ran]; rfl, asked⟩
  · obtain ⟨raw, rfl, level⟩ := CheckItem.passes_of_ne_clock clock h
    obtain ⟨t, ran, asked⟩ := testItem_of_ne_clock clock script
    exact ⟨t, by rw [ran, pinFailure, if_pos level], asked⟩

theorem testItem_fails {item : CheckItem} {level : Bool} {rs rest : List Raw} {s : State}
    (h : item.fails s.cfg level rs = true) (script : s.script = rs ++ rest) :
    ∃ t, testItem item s = (some ⟨item, item.expectedNumber, if level then 1 else 0⟩, t) ∧ Asked s rest t := by
  rw [← levelWord_eq_ite]
  by_cases clock : item = .clock
  · subst clock
    simp only [CheckItem.fails, Bool.and_eq_true, decide_eq_true_eq, Bool.not_eq_true', List.isEmpty_eq_false_iff,
      List.all_eq_true] at h
    obtain ⟨⟨length, nonempty⟩, levels⟩ := h
    obtain ⟨k, limit⟩ := Nat.exists_eq_succ_of_ne_zero (mt List.length_eq_zero_iff.mp nonempty)
    obtain ⟨t, ran, asked⟩ := clockLoop_stuck (seen := .nothing) rfl limit levels script
    exact ⟨t, by rw [testItem, ← length, limit, ran]; rfl, asked⟩
  · obtain ⟨raw, rfl, rfl, wrong⟩ := CheckItem.fails_of_ne_clock clock h
    obtain ⟨t, ran, asked⟩ := testItem_of_ne_clock clock script
    exact ⟨t, by rw [ran, pinFailure, if_neg wrong, CheckItem.expectedNumber_of_ne_clock clock], asked⟩

/-- CHECK goes on to the items after those that pass. -/
theorem testItems_passes {xs : List (CheckItem × List Raw)} {rest : List Raw} {s : State} (later : List CheckItem)
    (h : ∀ x ∈ xs, x.1.passes s.cfg x.2 = true) (script : s.script = xs.flatMap Prod.snd ++ rest) :
    ∃ t, testItems (xs.map Prod.fst ++ later) s = testItems later t ∧ Asked s rest t := by
  induction xs generalizing s with
  | nil => exact ⟨s, rfl, Asked.refl script⟩
  | cons x xs ih =>
    rw [List.flatMap_cons, List.append_assoc] at script
    obtain ⟨t, passed, asked⟩ := testItem_passes (h x List.mem_cons_self) script
    obtain ⟨u, ran, after⟩ := ih (s := t) (fun y mem => asked.cfg ▸ h y (List.mem_cons_of_mem x mem)) asked.script
    exact ⟨u, by rw [List.map_cons, List.cons_append, testItems, passed]; exact ran, asked.trans after⟩

/-- Settles O24: the items that pass are asked in turn, and the first that fails ends the tests. -/
theorem checkTestsItsItems : Obligations.CheckTestsItsItems := by
  have check : ∀ {s : State}, s.idled = true → exec .check s = .next (checkEnd (testItems s.cfg.checkItems s)) :=
    fun idled => if_pos idled
  refine ⟨fun s xs rest idled items passes script => ?_,
    fun s xs item later level answers rest idled items passes fails script => ?_⟩
  · obtain ⟨t, ran, as, rfl, undriven⟩ := testItems_passes [] passes script
    refine ⟨as ++ [s.recorded .idlePins], ?_, fun p => ?_⟩
    · rw [check idled, items, ← List.append_nil (xs.map Prod.fst), ran, ← List.append_assoc]
      rfl
    · rw [drivenLevels_append, undriven]
      rfl
  · rw [List.append_assoc] at script
    obtain ⟨t, ran, asked⟩ := testItems_passes (item :: later) passes script
    obtain ⟨u, failed, failing⟩ := testItem_fails (asked.cfg ▸ fails) asked.script
    obtain ⟨as, rfl, undriven⟩ := asked.trans failing
    refine ⟨as, pinMismatch ⟨item, item.expectedNumber, if level then 1 else 0⟩, ?_, rfl, undriven⟩
    rw [check idled, items, ran, testItems, failed]
    rfl

/-! #### BUSW and ACCW (R154, R155) -/

theorem widthWord_dataAccessWidth (c : Cfg) (addr : Word) :
    widthWord (c.dataAccessWidth addr) = if c.busWidth = .one ∨ addr.getLsbD 26 = true then 1 else 2 := by
  rw [Cfg.dataAccessWidth_eq_ite]
  split <;> rfl

theorem widthWord_dataBusWidth (c : Cfg) (addr : Word) :
    widthWord (c.dataBusWidth addr) = if c.busWidth = .two then 2 else 1 := by
  rw [Cfg.dataBusWidth]
  cases c.busWidth <;> rfl

/-- Settles O25: both commands answer the record of their width, whatever the address. -/
theorem widthQueries : Obligations.WidthQueries := by
  intro s addr idled
  refine ⟨⟨_, guarded_of_idled idled _, ?_⟩, _, guarded_of_idled idled _, ?_⟩
  · rw [← widthWord_dataBusWidth s.cfg addr]
    rfl
  · rw [← widthWord_dataAccessWidth]
    rfl

/-! #### Transactions that complete -/

/-- A part of a direct bus command ran: the events it appended, the Board's answers it left over, an idle engine. -/
structure Transacted (s : State) (es : List Event) (rest : List Raw) (t : State) : Prop extends BusWithin s t where
  events : t.trace = s.trace ++ es
  answersLeft : t.script = rest
  engineIdle : t.EngineIdle

theorem Transacted.refl {s : State} {rest : List Raw} (hi : s.EngineIdle) (script : s.script = rest) :
    Transacted s [] rest s :=
  ⟨BusWithin.refl s, (List.append_nil _).symm, script, hi⟩

theorem Transacted.trans {s t u : State} {es fs : List Event} {rest rest' : List Raw} (h : Transacted s es rest t)
    (k : Transacted t fs rest' u) : Transacted s (es ++ fs) rest' u where
  toBusWithin := h.toBusWithin.trans k.toBusWithin
  events := by rw [k.events, h.events, List.append_assoc]
  answersLeft := k.answersLeft
  engineIdle := k.engineIdle

/-- A part after one question to the Board. -/
theorem Transacted.after_sampled {s t : State} {es : List Event} {rest : List Raw} {q : Query}
    (h : Transacted (s.sampled q) es rest t) : Transacted s es rest t :=
  ⟨(sampled_calm' s q).toBusWithin.trans h.toBusWithin, h.events, h.answersLeft, h.engineIdle⟩

theorem CycleDone.transacted {s t : State} {kind : CycleKind} {a : Access} {wdata d : Datum} {rest : List Raw}
    (h : CycleDone s kind a wdata d t) (left : t.script = rest) :
    Transacted s [.cyc kind a.space a.paddr a.w a.lane d] rest t :=
  ⟨h.toBusWithin, h.event, left, h.engineIdle⟩

/-- A command that ends after its transactions. -/
theorem Transacted.finished {s t : State} {es : List Event} {rest : List Raw} (h : Transacted s es rest t)
    (r : Result) : Completed s (finish r t) r es rest ∧ BusOnly s (finish r t) := by
  have only : BusOnly s (finish r t) := h.toBusWithin.complete_busOnly (x := .ok r t)
  exact ⟨⟨only.toCarried, rfl, congrArg (· ++ [r]) h.results, h.events, h.answersLeft, h.engineIdle⟩, only⟩

/-! #### MRD and MWR (R156, R157) -/

theorem directCycle_of_ok {s : State} {addr : Word} {a : Access} (legal : s.cfg.decodeAddr addr = .ok a)
    (kind : CycleKind) (wdata : Access → Datum) :
    directCycle kind addr wdata s = (busCycle kind a (wdata a) none s).onRaise (Result.atAddr addr) := by
  rw [directCycle, legal]

/-- Settles O28: MRD is the one read cycle of `busCycle_reads`, and reports its datum. -/
theorem readCompletes : Obligations.ReadCompletes := by
  rintro s addr a h bus rest idled ⟨-, -, unmasked⟩ legal fits script
  obtain ⟨t, ran, done, left⟩ := busCycle_reads (wdata := 0) (av := none) (by decide) unmasked fits script
  refine ⟨finish (Result.value32 ((pinsDatum a none h.seen bus).zeroExtend 32)) t, pinsDatum a none h.seen bus, ?_,
    rfl, (done.transacted left).finished _⟩
  rw [exec, execMrd, guarded_of_idled idled, directCycle_of_ok legal, ran]
  rfl

/-- Settles O29: MWR is the one write cycle of `busCycle_writes`, of its datum cut to the width. -/
theorem writeCompletes : Obligations.WriteCompletes := by
  rintro s addr data a h draw rest idled ⟨-, -, unmasked⟩ legal fits script
  obtain ⟨t, ran, done, left⟩ := busCycle_writes (wdata := a.w.cut data) (av := none) unmasked fits script
  refine ⟨finish Result.blank t, a.w.cut data, ?_, Width.cut_eq_ite _ _, (done.transacted left).finished _⟩
  rw [exec, execMwr, guarded_of_idled idled, directCycle_of_ok legal, ran]
  rfl

/-! #### WINT (R158) -/

/-- What one sample of a line records: the answer, and the levels it stands for. -/
def State.lineRecord (s : State) (l : Line) (x : Raw) : List Activity :=
  [s.recorded (.sample (lineQuery s.cfg l) x),
    s.recorded (.lineLevel l (lineLevelOf s.cfg l x) (s.cfg.electrical l (lineLevelOf s.cfg l x)))]

/-- The state after a line was sampled with these answers, each counted as a poll. -/
def State.linePolled (s : State) (l : Line) (xs rest : List Raw) : State :=
  { s with polls := s.polls + xs.length, script := rest, activity := s.activity ++ xs.flatMap (s.lineRecord l) }

theorem linePolled_nil {s : State} {rest : List Raw} (l : Line) (h : s.script = rest) : s.linePolled l [] rest = s := by
  rw [State.linePolled, ← h, List.flatMap_nil, List.append_nil, List.length_nil, Nat.add_zero]

theorem linePolled_append (s : State) (l : Line) (xs ys rest rest' : List Raw) :
    (s.linePolled l xs rest).linePolled l ys rest' = s.linePolled l (xs ++ ys) rest' := by
  simp only [State.linePolled, List.flatMap_append, List.length_append, ← List.append_assoc, ← Nat.add_assoc]
  rfl

theorem lineNow_of_script {s : State} {x : Raw} {rest : List Raw} (h : s.script = x :: rest) (l : Line) :
    s.lineNow l = lineLevelOf s.cfg l x := by
  rw [State.lineNow, reply_of_script h]

theorem lineSampled_of_script {s : State} {x : Raw} {rest : List Raw} (h : s.script = x :: rest) (l : Line) :
    s.lineSampled l = s.linePolled l [x] rest := by
  rw [State.lineSampled, lineNow_of_script h, State.log, State.sampled, h, reply_of_script h]
  simp [State.linePolled, State.lineRecord, State.recorded]

/-- Polling from 0 counts the samples. -/
theorem linePolled_zero (s : State) (l : Line) (xs rest : List Raw) :
    State.linePolled { s with polls := 0 } l xs rest
      = { s with polls := xs.length, script := rest, activity := s.activity ++ xs.flatMap (s.lineRecord l) } := by
  rw [State.linePolled, Nat.zero_add]
  rfl

/-- The wait goes on past samples that are not at the level. -/
theorem waitLoop_misses {l : Line} {level : Bool} {misses rest : List Raw} {s : State} (k : Nat)
    (h : ∀ x ∈ misses, lineLevelOf s.cfg l x ≠ level) (script : s.script = misses ++ rest) :
    waitLoop l level (misses.length + k) s = waitLoop l level k (s.linePolled l misses rest) := by
  induction misses generalizing s with
  | nil => rw [linePolled_nil (rest := rest) l script, List.length_nil, Nat.zero_add]
  | cons x misses ih =>
    have miss : ¬ s.lineNow l = level := lineNow_of_script script l ▸ h x List.mem_cons_self
    have later := ih (s := s.linePolled l [x] (misses ++ rest)) (fun y mem => h y (List.mem_cons_of_mem x mem)) rfl
    rw [linePolled_append] at later
    rw [List.length_cons, Nat.add_right_comm, waitLoop, if_neg miss, lineSampled_of_script script]
    exact later

theorem waitLine_misses {l : Line} {level : Bool} {timeout : Word} {misses rest : List Raw} {s : State}
    (h : ∀ x ∈ misses, lineLevelOf s.cfg l x ≠ level) (all : misses.length = s.cfg.samples timeout)
    (script : s.script = misses ++ rest) :
    waitLine l level timeout s = (false, State.linePolled { s with polls := 0 } l misses rest) := by
  rw [waitLine, ← all, ← Nat.add_zero misses.length]
  exact waitLoop_misses (s := { s with polls := 0 }) 0 h script

theorem waitLine_hits {l : Line} {level : Bool} {timeout : Word} {misses rest : List Raw} {hit : Raw} {s : State}
    (h : ∀ x ∈ misses, lineLevelOf s.cfg l x ≠ level) (hits : lineLevelOf s.cfg l hit = level)
    (few : misses.length < s.cfg.samples timeout) (script : s.script = misses ++ hit :: rest) :
    waitLine l level timeout s = (true, State.linePolled { s with polls := 0 } l (misses ++ [hit]) rest) := by
  obtain ⟨k, bound⟩ := Nat.exists_eq_add_of_lt few
  have waited := waitLoop_misses (s := { s with polls := 0 }) (k + 1) h script
  have now : (State.linePolled { s with polls := 0 } l misses (hit :: rest)).lineNow l = level :=
    (lineNow_of_script rfl l).trans hits
  rw [waitLoop, if_pos now, lineSampled_of_script rfl, linePolled_append] at waited
  rw [waitLine, bound]
  exact waited

theorem Cfg.samples_zero (c : Cfg) : c.samples 0 = 1 := by
  have noStep : ∀ p : Nat × Nat, (if 0 < p.1 ∧ p.1 ≤ (0 : Word).toNat then p.2 else 0) = 0 :=
    fun _ => if_neg fun ⟨above, atMost⟩ => absurd atMost (Nat.not_le_of_lt above)
  simp only [Cfg.samples, noStep, List.map_const', List.sum_replicate, nsmul_zero, Nat.add_zero]

section
variable {idx : Byte} {level : Bool} {timeout : Word} {l : Line} {s t : State}

theorem exec_wint_found (idled : s.idled = true) (line : s.cfg.lineAt idx = some l)
    (waited : waitLine l level timeout s = (true, t)) :
    exec (.wint idx level timeout) s = .next (finish (lineFound idx) t) := by
  rw [exec, execWint, guarded_of_idled idled]
  simp only [line, waited, complete_ok]

theorem exec_wint_timeout (idled : s.idled = true) (line : s.cfg.lineAt idx = some l)
    (waited : waitLine l level timeout s = (false, t)) :
    exec (.wint idx level timeout) s = .next (trapEntry (lineTimeout idx) t) := by
  rw [exec, execWint, guarded_of_idled idled]
  simp only [line, waited, complete_raise]

theorem exec_wint_noSuchLine (idled : s.idled = true) (hi : s.EngineIdle) (lacks : s.cfg.lineAt idx = none) :
    exec (.wint idx level timeout) s = .next (finish (Result.noSuchLine idx) s) := by
  rw [exec, execWint]
  exact guarded_raise_of_engineIdle idled hi (by rw [lacks])

end

/-- Settles O32: the wait polls the line up to the first sample at the level, or through all its samples, and trap entry
has nothing to restore. -/
theorem waitForInterruptLine : Obligations.WaitForInterruptLine := by
  intro s idx level timeout idled hi
  refine ⟨s.cfg.samples_zero, fun l misses hit rest line few misses_ne hits script => ⟨lineFound idx, ?_, rfl⟩,
    fun l misses rest line all misses_ne script => ⟨lineTimeout idx, ?_, rfl⟩,
    fun lacks => ⟨Result.noSuchLine idx, exec_wint_noSuchLine idled hi lacks, rfl⟩⟩
  · rw [exec_wint_found idled line (waitLine_hits misses_ne hits few script), linePolled_zero, List.length_append]
    rfl
  · have idle : State.EngineIdle { s with
        polls := misses.length, script := rest, activity := s.activity ++ misses.flatMap (s.lineRecord l) } := hi
    rw [exec_wint_timeout idled line (waitLine_misses misses_ne all script), linePolled_zero, trapEntry,
      restoreIdle_of_engineIdle idle]
    rfl

/-! #### IACK (R159, 41_bus_engine.md R230 to R234) -/

/-- The autovector of an acknowledge, which only the kind `iack` has (41_bus_engine.md R234). -/
def AckReply.autovector (c : Cfg) (a : AckReply) : Option Byte :=
  if c.ackKind = .iack then some (c.autovectorAt (priorityOf a.level)) else none

theorem extractLsb'_zeroExtend_byte (b : Byte) : (b.zeroExtend 16 : Datum).extractLsb' 0 8 = b := by
  apply BitVec.eq_of_toNat_eq
  simpa [BitVec.extractLsb'_toNat] using b.isLt

/-- The datum of an acknowledge cycle is its vector. -/
theorem cycleDatum_autovector (c : Cfg) (a : AckReply) (r : Reply) :
    cycleDatum (a.autovector c) r.hs.seen (sampledDatum .low r.last) = (a.cycleVector c r).zeroExtend 16 := by
  unfold AckReply.autovector AckReply.cycleVector
  by_cases iack : c.ackKind = .iack
  · cases r.hs.seen <;> simp [iack, cycleDatum, sampledDatum]
  · simp [iack, cycleDatum, sampledDatum]

/-- The event of one acknowledge cycle. -/
def AckReply.event (c : Cfg) (a : AckReply) (r : Reply) : Event :=
  .cyc .ack .mem (a.address c) .one .low ((a.cycleVector c r).zeroExtend 16)

theorem AckReply.address_of_ne_iack {c : Cfg} (a : AckReply) (h : c.ackKind ≠ .iack) :
    a.address c = c.drivenBits (c.ackAddrAt 0) := by
  rw [AckReply.address, if_neg h]

theorem AckReply.autovector_of_ne_iack {c : Cfg} (a : AckReply) (h : c.ackKind ≠ .iack) : a.autovector c = none :=
  if_neg h

theorem AckReply.address_of_iack {c : Cfg} (a : AckReply) (h : c.ackKind = .iack) :
    a.address c = c.drivenBits (c.ackAddrAt (priorityOf a.level)) := by
  rw [AckReply.address, if_pos h]

theorem AckReply.autovector_of_iack {c : Cfg} (a : AckReply) (h : c.ackKind = .iack) :
    a.autovector c = some (c.autovectorAt (priorityOf a.level)) :=
  if_pos h

section
variable {a : AckReply} {r : Reply} {rest : List Raw} {s : State}

/-- One acknowledge cycle completes on answers that fit, with its vector. -/
theorem ackCycle_completes {addr : PhysAddr} {av : Option Byte} (hi : s.EngineIdle)
    (address : a.address s.cfg = s.cfg.drivenBits addr) (autovector : a.autovector s.cfg = av)
    (fits : r.hs.fits s.cfg .ack .none = true) (script : s.script = r.hs.answers ++ r.last :: rest) :
    ∃ t, ackCycle addr av s = .ok (a.cycleVector s.cfg r) t ∧ Transacted s [a.event s.cfg r] rest t := by
  obtain ⟨-, -, unmasked⟩ := hi
  obtain ⟨t, ran, done, left⟩ := busCycle_reads (kind := .ack)
    (a := ⟨.mem, .none, s.cfg.drivenBits addr, .one, .low⟩) (wdata := 0) (av := av) (by decide) unmasked fits script
  have datum : pinsDatum ⟨.mem, .none, s.cfg.drivenBits addr, .one, .low⟩ av r.hs.seen r.last
      = (a.cycleVector s.cfg r).zeroExtend 16 := autovector ▸ cycleDatum_autovector s.cfg a r
  have transacted := done.transacted left
  rw [datum] at ran transacted
  rw [← address] at transacted
  exact ⟨t, by rw [ackCycle, ran, Res.bind_ok, extractLsb'_zeroExtend_byte], transacted⟩

/-- A cycle of the kinds `single` and `double`, which read no level (41_bus_engine.md R232, R233). -/
theorem ackCycle_completes_of_ne_iack (hi : s.EngineIdle) (kind : s.cfg.ackKind ≠ .iack)
    (fits : r.hs.fits s.cfg .ack .none = true) (script : s.script = r.hs.answers ++ r.last :: rest) :
    ∃ t, ackCycle (s.cfg.ackAddrAt 0) none s = .ok (a.cycleVector s.cfg r) t
      ∧ Transacted s [a.event s.cfg r] rest t :=
  ackCycle_completes hi (a.address_of_ne_iack kind) (a.autovector_of_ne_iack kind) fits script

theorem AckReply.fits_iff {c : Cfg} : a.fits c = true ↔
    a.cycles.length = c.ackCycles ∧ ∀ r ∈ a.cycles, r.hs.fits c .ack .none = true := by
  rw [AckReply.fits, Bool.and_eq_true, decide_eq_true_eq, List.all_eq_true]

theorem AckReply.answers_of_ne_iack {c : Cfg} (h : c.ackKind ≠ .iack) :
    a.answers c = a.cycles.flatMap fun r => r.hs.answers ++ [r.last] := by
  rw [AckReply.answers, if_neg h, List.nil_append]

/-- The acknowledge completes on answers that fit, with its vector and one event for each cycle. -/
theorem ackFsm_completes (hi : s.EngineIdle) (fits : a.fits s.cfg = true)
    (script : s.script = a.answers s.cfg ++ rest) :
    ∃ t, ackFsm s = .ok (a.vector s.cfg) t ∧ Transacted s (a.events s.cfg) rest t := by
  obtain ⟨length, fits⟩ := AckReply.fits_iff.mp fits
  obtain ⟨level, cycles⟩ := a
  rw [Cfg.ackCycles] at length
  rw [ackFsm]
  cases kind : s.cfg.ackKind with
  | none =>
    rw [kind] at length
    obtain rfl := List.length_eq_zero_iff.mp length
    rw [AckReply.answers_of_ne_iack (by rw [kind]; decide)] at script
    exact ⟨s, rfl, Transacted.refl hi script⟩
  | single =>
    have plain : s.cfg.ackKind ≠ .iack := by rw [kind]; decide
    rw [kind] at length
    obtain ⟨r, rfl⟩ := List.length_eq_one_iff.mp length
    rw [AckReply.answers_of_ne_iack plain] at script
    exact ackCycle_completes_of_ne_iack hi plain (fits r List.mem_cons_self) (by simpa using script)
  | double =>
    have plain : s.cfg.ackKind ≠ .iack := by rw [kind]; decide
    rw [kind] at length
    obtain ⟨r, q, rfl⟩ := List.length_eq_two.mp length
    rw [AckReply.answers_of_ne_iack plain] at script
    obtain ⟨t, ran, first⟩ := ackCycle_completes_of_ne_iack (a := ⟨level, [r, q]⟩) (r := r)
      (rest := q.hs.answers ++ q.last :: rest) hi plain (fits r (by simp)) (by simpa using script)
    obtain ⟨u, ran', second⟩ := ackCycle_completes_of_ne_iack (a := ⟨level, [r, q]⟩) (r := q) first.engineIdle
      (first.cfg ▸ plain) (first.cfg ▸ fits q (by simp)) first.answersLeft
    rw [first.cfg] at second
    refine ⟨u, ?_, first.trans second⟩
    dsimp only
    rw [ran, Res.bind_ok, ran', first.cfg]
    rfl
  | iack =>
    rw [kind] at length
    obtain ⟨r, rfl⟩ := List.length_eq_one_iff.mp length
    have script : s.script = level :: (r.hs.answers ++ r.last :: rest) := by
      simpa [AckReply.answers, kind] using script
    obtain ⟨t, ran, transacted⟩ := ackCycle_completes (s := s.sampled .priorityLevel) hi
      (AckReply.address_of_iack ⟨level, [r]⟩ kind) (AckReply.autovector_of_iack _ kind) (fits r List.mem_cons_self)
      (sampled_script_of script _)
    refine ⟨t, ?_, transacted.after_sampled⟩
    dsimp only
    rw [reply_of_script script]
    exact ran

end

/-- Settles O34: IACK reports the vector of its acknowledge. -/
theorem acknowledgeCompletes : Obligations.AcknowledgeCompletes := by
  intro s a rest idled hi fits script
  obtain ⟨t, ran, transacted⟩ := ackFsm_completes hi fits script
  refine ⟨_, ?_, transacted.finished _⟩
  rw [exec, execIack, guarded_of_idled idled, ran]
  rfl

end Sys2Proof.Machine

/-! ### The bus engine (41_bus_engine.md): the clock phases, the signals of a cycle, and its timeouts -/

namespace Sys2Proof.Machine

/-! #### The clock invariant (R207) -/

/-- An update of neither the configuration, the clock phases nor the signal-level record keeps the clock invariant. -/
theorem State.ClockInv.of_fields {s t : State} (h : s.ClockInv) (cfg : t.cfg = s.cfg) (idled : t.idled = s.idled)
    (booted : t.booted = s.booted) (clk : t.clk = s.clk) (activity : t.activity = s.activity) : t.ClockInv :=
  ClockInv.of_undriven cfg idled booted clk (as := []) (activity.trans (List.append_nil _).symm) (fun _ => rfl) h

theorem refuse_clockInv {s : State} (h : s.ClockInv) (info : Info) : (refuse info s).ClockInv :=
  h.of_fields rfl rfl rfl rfl rfl

theorem advance_clockInv {s : State} (h : s.ClockInv) : (advance s).ClockInv :=
  h.of_fields rfl rfl rfl rfl rfl

theorem complete_clockInv {x : Res Result} (h : x.state.ClockInv) : (complete x).ClockInv := by
  cases x with
  | ok r t => exact State.ClockInv.of_fields h rfl rfl rfl rfl rfl
  | raise r t => exact State.ClockInv.of_fields h rfl rfl rfl rfl rfl

/-- CHECK drives no clock phase (40_contract.md R153). -/
theorem checkEnd_clockInv (items : List CheckItem) {s : State} (h : s.ClockInv) (booted : s.booted = true) :
    (checkEnd (testItems items s)).ClockInv := by
  have after := (testItems_calm items s).clocks booted h
  rcases tested : testItems items s with ⟨_ | failure, t⟩ <;> rw [tested] at after
  · exact ClockInv.of_undriven (s := t) rfl rfl rfl rfl (as := [t.recorded .idlePins]) rfl (fun _ => rfl) after
  · exact ⟨nofun, after.clkLength, after.undrivenBeforeBoot, after.recordsLastLevel, after.alternates⟩

theorem idleState_cfg (s : State) : (idleState s).cfg = s.cfg := by rw [idleState_eq]

theorem idleState_booted (s : State) : (idleState s).booted = true := by rw [idleState_eq]

theorem idleState_clk (s : State) : (idleState s).clk
    = if s.cfg.clockMaster = true ∧ s.booted = false then s.cfg.idleClockLevel else s.clk := by
  rw [idleState_eq]

theorem idleState_trace (s : State) : (idleState s).trace = s.trace := by rw [idleState_eq]

/-- The levels driven up to the end of an IDLE: its own come last. -/
theorem drivenLevels_idleState (s : State) (p : Nat) : drivenLevels p (idleState s).activity
    = drivenLevels p s.activity
      ++ if s.cfg.clockMaster = true ∧ s.booted = false then s.cfg.idleClockLevel[p]?.toList else [] := by
  have driven := drivenLevels_of_idle (s := s) (t := idleState s) rfl p
  rw [newActivity_of_eq (idleState_activity s)] at driven
  rw [idleState_activity, drivenLevels_append, driven]

/-- The first IDLE of a clock-master engine drives each phase once, from no level to its idle level; every other IDLE
drives none (40_contract.md R152). -/
theorem idleState_clockInv {s : State} (h : s.ClockInv) : (idleState s).ClockInv := by
  have notUnbooted : (idleState s).booted ≠ false := by rw [idleState_booted]; decide
  have clk := idleState_clk s
  have driven := drivenLevels_idleState s
  by_cases first : s.cfg.clockMaster = true ∧ s.booted = false
  · simp only [if_pos first, h.undrivenBeforeBoot first.2, List.nil_append] at clk driven
    refine ⟨fun _ => idleState_booted s, ?_, fun unbooted => absurd unbooted notUnbooted, fun _ p inRange => ?_,
      fun p => ?_⟩
    · rw [clk, idleState_cfg, if_pos first.1, Cfg.clockPhases]
    · rw [clk] at inRange
      rw [driven, clk, List.getElem?_eq_getElem inRange]
      simp [inRange]
    · rw [driven]
      cases s.cfg.idleClockLevel[p]? <;> simp
  · simp only [if_neg first, List.append_nil] at clk driven
    refine ⟨fun _ => idleState_booted s, ?_, fun unbooted => absurd unbooted notUnbooted, fun _ p inRange => ?_,
      fun p => ?_⟩
    · rw [clk, idleState_cfg]
      exact h.clkLength
    · rw [clk] at inRange
      rw [driven, clk]
      cases booted : s.booted with
      | true => exact h.recordsLastLevel booted p inRange
      | false =>
        have notMaster : ¬ s.cfg.clockMaster = true := fun master => first ⟨master, booted⟩
        rw [h.clkLength, if_neg notMaster] at inRange
        exact absurd inRange (Nat.not_lt_zero p)
    · rw [driven]
      exact h.alternates p

theorem exec_clockInv {i : Instr} {s t : State} (hs : s.Inv) (h : s.ClockInv) (ran : exec i s = .next t) :
    t.ClockInv := by
  rcases exec_shape i s hs with ⟨-, shape⟩ | ⟨-, -, shape⟩ | ⟨idled, -, shape⟩ | ⟨idled, -, -, x, shape, course, -⟩
  all_goals cases shape.symm.trans ran
  · exact (idleState_clockInv h).of_fields rfl rfl rfl rfl rfl
  · exact refuse_clockInv h .notIdled
  · exact checkEnd_clockInv _ h (h.bootedIfIdled idled)
  · exact complete_clockInv (course.within.clocks (h.bootedIfIdled idled) h)

/-- Settles O12: only the first IDLE and a clock-master half-cycle drive a clock phase, the one from no level, the other
to the other level than the last. -/
theorem stepKeepsClockInv : Obligations.StepKeepsClockInv := by
  intro s t hs h stepped
  rcases step_shape s t stepped with rfl | ⟨i, u, ran, rfl⟩
  · exact advance_clockInv (refuse_clockInv h .illegalCommand)
  · exact advance_clockInv (exec_clockInv hs h ran)

/-! #### The signals of a step (R208 to R211, R214, R215, R217, R218, R221) -/

/-- What was done at the signal level: all of it under the ruled mask, and on the bus exactly what the events ask for. -/
def SignalsRuled (s t : State) : Prop :=
  (∀ a ∈ newActivity s t, maskAsRuled s.cfg a)
    ∧ busDrives (newActivity s t) = (newEvents s t).flatMap s.cfg.signalsOf

/-- An update of neither record does nothing at the signal level. -/
theorem SignalsRuled.of_kept {s t : State} (activity : t.activity = s.activity) (trace : t.trace = s.trace) :
    SignalsRuled s t := by
  rw [SignalsRuled, newActivity_of_eq (activity.trans (List.append_nil _).symm),
    newEvents_of_eq (trace.trans (List.append_nil _).symm)]
  exact ⟨nofun, rfl⟩

/-- What a command did at the signal level is not changed by how it ends. -/
theorem complete_signalsRuled {s : State} {x : Res Result} (h : SignalsRuled s x.state) :
    SignalsRuled s (complete x) := by
  cases x <;> exact h

theorem advance_signalsRuled {s t : State} (h : SignalsRuled s t) : SignalsRuled s (advance t) := h

theorem exec_signalsRuled {i : Instr} {s t : State} (hs : s.Inv) (ran : exec i s = .next t) : SignalsRuled s t := by
  rcases exec_shape i s hs with ⟨-, shape⟩ | ⟨-, -, shape⟩ | ⟨idled, -, shape⟩ | ⟨-, -, -, x, shape, course, -⟩
  all_goals cases shape.symm.trans ran
  · obtain ⟨ruled, undriven⟩ := idleState_quiet s
    have noEvent : newEvents s (finish Result.blank (idleState s)) = [] :=
      newEvents_of_eq ((idleState_trace s).trans (List.append_nil _).symm)
    exact ⟨ruled, undriven.trans (by rw [noEvent]; rfl)⟩
  · exact SignalsRuled.of_kept rfl rfl
  · obtain ⟨ruled, undriven, noEvent, -⟩ := checkEnd_quiet s.cfg.checkItems s ⟨hs.pinsIdle idled, hs.betweenCycles⟩
    exact ⟨ruled, undriven.trans (by rw [noEvent]; rfl)⟩
  · exact complete_signalsRuled ⟨course.ruled, course.drives⟩

theorem step_signalsRuled {s t : State} (hs : s.Inv) (stepped : step s = .next t) : SignalsRuled s t := by
  rcases step_shape s t stepped with rfl | ⟨i, u, ran, rfl⟩
  · exact SignalsRuled.of_kept rfl rfl
  · exact advance_signalsRuled (exec_signalsRuled hs ran)

/-- Where the address is latched, each byte of it is latched exactly once (R209). -/
theorem Cfg.latches_every_byte {c : Cfg} (wf : c.wf = true) (latched : c.latchBytes ≠ 0) :
    c.latchOrder.Perm (List.range c.latchBytes) ∧ c.physAddrBits ≤ 8 * c.latchBytes := by
  simp only [Cfg.wf, Bool.and_eq_true] at wf
  obtain ⟨⟨⟨⟨-, complete⟩, -⟩, -⟩, -⟩ := wf
  rcases c.latchComplete_iff.mp complete with ⟨none, -⟩ | ⟨all, order⟩
  · exact absurd none latched
  · exact ⟨order, by omega⟩

/-- Settles O13: every part of a command drives the signals of its own events (`Course`), no step ends inside a cycle,
and the configuration passed construction. -/
theorem signalsFollowTheirPhases : Obligations.SignalsFollowTheirPhases := by
  intro s t hs stepped
  obtain ⟨ruled, drives⟩ := step_signalsRuled hs stepped
  obtain ⟨-, unmasked⟩ := (stepKeepsInv s t hs stepped).betweenCycles
  exact ⟨ruled, unmasked, drives, Cfg.latches_every_byte hs.cfgWf⟩

/-! #### Transactions that time out (R203 to R205, R211, R216, R221) -/

/-- A command that raises a record after its transactions. -/
theorem Transacted.trapped {s t : State} {es : List Event} {rest : List Raw} (h : Transacted s es rest t)
    (r : Result) : Completed s (trapEntry r t) r es rest ∧ BusOnly s (trapEntry r t) := by
  have only : BusOnly s (trapEntry r t) := h.toBusWithin.complete_busOnly (x := .raise r t)
  exact ⟨⟨only.toCarried, rfl, congrArg (· ++ [r]) h.results, h.events, h.answersLeft, rfl, rfl, rfl⟩, only⟩

section
variable {s t : State} {kind : CycleKind} {a : Access} {wdata : Datum} {rest : List Raw}

/-- A cycle that is not acknowledged leaves its Abort. -/
theorem CycleFailed.transacted_ack (h : CycleFailed s kind a wdata (Result.error .timeout .ackTimeout) t)
    (left : t.script = rest) : Transacted s [.abort kind a.space a.paddr a.w a.lane .p3] rest t := by
  rcases h.exit with ⟨-, -, event, -⟩ | ⟨-, early⟩
  · exact ⟨h.toBusWithin, event, left, h.engineIdle⟩
  · simp [Result.error] at early

/-- A cycle that times out before phase 2 leaves no event. -/
theorem CycleFailed.transacted_early {why : Info} (h : CycleFailed s kind a wdata (Result.error .timeout why) t)
    (notAck : why ≠ .ackTimeout) (left : t.script = rest) : Transacted s [] rest t := by
  rcases h.exit with ⟨ack, -⟩ | ⟨kept, -⟩
  · exact absurd (congrArg Result.info ack) notAck
  · exact ⟨h.toBusWithin, kept.trans (List.append_nil _).symm, left, h.engineIdle⟩

end

/-! #### MRD and MWR that time out -/

section
variable {s t : State} {i : Instr} {addr : Word} {a : Access} {kind : CycleKind} {wdata : Datum} {why : Info}
  {es : List Event} {rest : List Raw}

theorem DirectAccess.exists_wdata (a : Access)
    (h : i = .mrd addr ∧ kind = .read ∨ (∃ data, i = .mwr addr data) ∧ kind = .write) :
    ∃ wdata, DirectAccess i addr a kind wdata := by
  rcases h with ⟨mrd, read⟩ | ⟨⟨data, mwr⟩, write⟩
  · exact ⟨_, .inl ⟨mrd, read, rfl⟩⟩
  · exact ⟨_, .inr ⟨⟨data, mwr, rfl⟩, write⟩⟩

/-- MRD and MWR report the timeout of their cycle, with their address (30_encoding.md R122). -/
theorem DirectAccess.exec_times_out (access : DirectAccess i addr a kind wdata) (idled : s.idled = true)
    (legal : s.cfg.decodeAddr addr = .ok a)
    (cycle : busCycle kind a wdata none s = .raise (Result.error .timeout why) t) (transacted : Transacted s es rest t) :
    ∃ u, exec i s = .next u
      ∧ Completed s u { Result.blank with code := .timeout, info := why, addr := addr } es rest := by
  obtain ⟨report, -, direct⟩ := access.exec_eq legal idled
  rw [cycle] at direct
  obtain ⟨completed, -⟩ := transacted.trapped ((Result.error .timeout why).atAddr addr)
  exact ⟨_, direct, completed⟩

/-- P0 of MRD and MWR times out on samples without a toggle, as many as its limit and one (R203, R204). -/
theorem DirectAccess.exec_untoggled (access : DirectAccess i addr a kind wdata) (idled : s.idled = true)
    (unmasked : s.hostMask = false) (legal : s.cfg.decodeAddr addr = .ok a) {h : Handshake}
    (untoggled : h.untoggled s.cfg a.pre = true) (script : s.script = h.pre ++ rest) :
    ∃ u, exec i s = .next u ∧ Completed s u
      { Result.blank with
        code := .timeout, info := if a.pre = .vsync then .vsyncTimeout else .waitSpaceTimeout, addr := addr }
      [] rest := by
  obtain ⟨t, cycle, failed, left⟩ := busCycle_untoggled (wdata := wdata) (av := none) unmasked untoggled script
  exact access.exec_times_out idled legal cycle (failed.transacted_early (by split <;> decide) left)

end

/-- The answers of a cycle that comes no further than P0. -/
def Handshake.ofPre (samples : List Raw) : Handshake := ⟨samples, [], [], [], [], [], .unpolled⟩

/-- Settles O31: the one bus cycle of MRD or MWR raises the timeout of its wait, and trap entry reports it. -/
theorem boundedWaitsTimeOut : Obligations.BoundedWaitsTimeOut := by
  rintro s addr i kind a idled ⟨-, -, unmasked⟩ command legal
  obtain ⟨wdata, access⟩ := DirectAccess.exists_wdata a command
  refine ⟨fun h rest unanswered script => ?_, fun h rest unsynchronized script => ?_,
    fun x xs rest pre length never script => ?_, fun x xs rest pre length never script => ?_⟩
  · obtain ⟨t, cycle, failed, left⟩ := busCycle_unanswered (wdata := wdata) (av := none) unmasked unanswered script
    exact access.exec_times_out idled legal cycle (failed.transacted_ack left)
  · obtain ⟨t, cycle, failed, left⟩ := busCycle_unsynchronized (kind := kind) (wdata := wdata) (av := none) unmasked
      unsynchronized script
    exact access.exec_times_out idled legal cycle (failed.transacted_early (by decide) left)
  · have ended := access.exec_untoggled idled unmasked legal (h := .ofPre (x :: xs))
      (by simp [Handshake.untoggled, Handshake.ofPre, pre, length, never]) script
    rwa [pre] at ended
  · have ended := access.exec_untoggled idled unmasked legal (h := .ofPre (x :: xs))
      (by simp [Handshake.untoggled, Handshake.ofPre, pre, length, never]) script
    rwa [pre] at ended

/-! #### IACK that times out (R233 to R235) -/

/-- The answers `last` by which one acknowledge cycle times out for a reason, and what it leaves. -/
def AckCycleStops (c : Cfg) (level : Raw) (why : Info) (last : List Raw) (aborts : List Event) : Prop :=
  ∃ h : Handshake,
    h.unanswered c .ack .none = true ∧ why = .ackTimeout ∧ last = h.answersToAck
        ∧ aborts = [.abort .ack .mem (AckReply.address c ⟨level, []⟩) .one .low .p3]
      ∨ h.unsynchronized c .none = true ∧ why = .syncTimeout ∧ last = h.pre ++ h.edge ∧ aborts = []

section
variable {s : State} {level : Raw} {why : Info} {last answers rest : List Raw} {aborts events : List Event}

theorem ackCycle_stops {addr : PhysAddr} (av : Option Byte) (hi : s.EngineIdle)
    (address : AckReply.address s.cfg ⟨level, []⟩ = s.cfg.drivenBits addr)
    (stops : AckCycleStops s.cfg level why last aborts) (script : s.script = last ++ rest) :
    ∃ t, ackCycle addr av s = .raise (Result.error .timeout why) t ∧ Transacted s aborts rest t := by
  obtain ⟨-, -, unmasked⟩ := hi
  rw [ackCycle, ← address]
  obtain ⟨h, ⟨unanswered, rfl, rfl, rfl⟩ | ⟨unsynchronized, rfl, rfl, rfl⟩⟩ := stops
  · obtain ⟨t, cycle, failed, left⟩ := busCycle_unanswered
      (a := ⟨.mem, .none, AckReply.address s.cfg ⟨level, []⟩, .one, .low⟩) (wdata := 0) (av := av) unmasked unanswered
      script
    exact ⟨t, by rw [cycle]; rfl, failed.transacted_ack left⟩
  · obtain ⟨t, cycle, failed, left⟩ := busCycle_unsynchronized (kind := .ack)
      (a := ⟨.mem, .none, AckReply.address s.cfg ⟨level, []⟩, .one, .low⟩) (wdata := 0) (av := av) unmasked
      unsynchronized script
    exact ⟨t, by rw [cycle]; rfl, failed.transacted_early (by decide) left⟩

/-- The acknowledge stops in its first cycle. -/
theorem ackFsm_stops_first (hi : s.EngineIdle) (acks : s.cfg.ackKind ≠ .none)
    (stops : AckCycleStops s.cfg level why last aborts)
    (script : s.script = (if s.cfg.ackKind = .iack then [level] else []) ++ last ++ rest) :
    ∃ t, ackFsm s = .raise (Result.error .timeout why) t ∧ Transacted s aborts rest t := by
  rw [ackFsm]
  cases kind : s.cfg.ackKind with
  | none => exact absurd kind acks
  | single =>
    have plain : s.cfg.ackKind ≠ .iack := by rw [kind]; decide
    rw [if_neg plain] at script
    exact ackCycle_stops none hi (AckReply.address_of_ne_iack _ plain) stops script
  | double =>
    have plain : s.cfg.ackKind ≠ .iack := by rw [kind]; decide
    rw [if_neg plain] at script
    obtain ⟨t, ran, transacted⟩ := ackCycle_stops none hi (AckReply.address_of_ne_iack _ plain) stops script
    exact ⟨t, by dsimp only; rw [ran, Res.bind_raise], transacted⟩
  | iack =>
    rw [if_pos kind] at script
    obtain ⟨t, ran, transacted⟩ := ackCycle_stops (s := s.sampled .priorityLevel)
      (some (s.cfg.autovectorAt (priorityOf level))) hi (AckReply.address_of_iack _ kind) stops
      (sampled_script_of script _)
    exact ⟨t, by dsimp only; rw [reply_of_script script]; exact ran, transacted.after_sampled⟩

/-- Where no autovector can answer, a cycle's event carries what was sampled (R232, R233). -/
theorem AckReply.event_of_ne_iack {c : Cfg} (a : AckReply) (r : Reply) (h : c.ackKind ≠ .iack) :
    a.event c r = .cyc .ack .mem (a.address c) .one .low ((r.last.extractLsb' 0 8).zeroExtend 16) := by
  rw [AckReply.event, AckReply.cycleVector, if_neg fun iack => h iack.1]

/-- The acknowledge of the kind `double` stops in its second cycle (R233). -/
theorem ackFsm_stops_second {first : Reply} (hi : s.EngineIdle) (double : s.cfg.ackKind = .double)
    (fits : first.hs.fits s.cfg .ack .none = true) (stops : AckCycleStops s.cfg level why last aborts)
    (script : s.script = first.hs.answers ++ first.last :: last ++ rest) :
    ∃ t, ackFsm s = .raise (Result.error .timeout why) t
      ∧ Transacted s (AckReply.event s.cfg ⟨level, []⟩ first :: aborts) rest t := by
  have plain : s.cfg.ackKind ≠ .iack := by rw [double]; decide
  rw [List.append_assoc] at script
  obtain ⟨t, ran, done⟩ := ackCycle_completes_of_ne_iack (a := ⟨level, []⟩) hi plain fits script
  rw [← done.cfg] at plain stops
  obtain ⟨u, stopped, failed⟩ := ackCycle_stops none done.engineIdle (AckReply.address_of_ne_iack _ plain) stops
    done.answersLeft
  refine ⟨u, ?_, done.trans failed⟩
  rw [ackFsm, double]
  dsimp only
  rw [ran, Res.bind_ok, stopped]

theorem ackFsm_stops (hi : s.EngineIdle) (acks : s.cfg.ackKind ≠ .none) (stops : AckStops s.cfg level why answers events)
    (script : s.script = answers ++ rest) :
    ∃ t, ackFsm s = .raise (Result.error .timeout why) t ∧ Transacted s events rest t := by
  obtain ⟨h, last, aborts, cycle, ⟨rfl, rfl⟩ | ⟨first, double, fits, rfl, rfl⟩⟩ := stops
  · exact ackFsm_stops_first hi acks ⟨h, cycle⟩ script
  · rw [← AckReply.event_of_ne_iack _ _ (by rw [double]; decide)]
    exact ackFsm_stops_second hi double fits ⟨h, cycle⟩ script

end

/-- Settles O35: IACK reports the timeout of its acknowledge. -/
theorem acknowledgeTimesOut : Obligations.AcknowledgeTimesOut := by
  intro s level why answers events rest idled hi acks stops script
  obtain ⟨t, ran, transacted⟩ := ackFsm_stops hi acks stops script
  refine ⟨_, ?_, transacted.trapped (Result.error .timeout why)⟩
  rw [exec, execIack, guarded_of_idled idled, ran]
  rfl

end Sys2Proof.Machine

/-! ### RomCheck (42_rom_check.md R250 to R265): how its commands end, and the bank switches and
indices of every sequencer -/

namespace Sys2Proof.Machine

/-! #### An index outside its table (R255) -/

theorem oneOf_of_none {α β : Type} {table : List α} {idx : Byte} (beyond : table.length ≤ idx.toNat) (tag : TableTag)
    (pass : α → State → Res β) (s : State) : oneOf table tag idx pass s = .raise (Result.indexRange tag idx) s := by
  rw [oneOf, List.getElem?_eq_none beyond]

/-- A single-region command whose index is beyond its table writes the record only. -/
theorem exec_oneOf_of_none {α β : Type} {s : State} {i : Instr} {table : List α} {tag : TableTag} {idx : Byte}
    {pass : α → State → Res β} {report : β → Result} (idled : s.idled = true) (hi : s.EngineIdle)
    (beyond : table.length ≤ idx.toNat)
    (ran : exec i s = guarded s (reporting (oneOf table tag idx pass) report)) :
    exec i s = .next (finish (Result.indexRange tag idx) s) := by
  rw [ran]
  exact guarded_raise_of_engineIdle idled hi (by rw [reporting, oneOf_of_none beyond, Res.bind_raise])

/-- Settles O57: the lookup of the index raises in the state the command began in, whose engine is idle. -/
theorem indexRangeRefused : Obligations.IndexRangeRefused := by
  intro s idx table i idled hi command
  refine ⟨Result.indexRange table idx, ?_, rfl⟩
  rcases command with ⟨rfl, beyond, rfl | rfl⟩
    | ⟨rfl, beyond, ⟨seed, rfl⟩ | rfl | ⟨value, rfl⟩ | rfl⟩ | ⟨rfl, beyond, rfl⟩ | ⟨rfl, beyond, active, rfl⟩
  all_goals exact exec_oneOf_of_none idled hi beyond rfl

/-! #### The end of a command whose plan ran -/

section
variable {s t : State} {i : Instr} {ms : List Move} {rs : List Reply} {rest : List Raw}

/-- A sequencer command that ends after its plan. -/
theorem Ran.finished (h : Ran s ms rs t) (hi : s.EngineIdle) (left : t.script = rest) (r : Result) :
    Completed s (finish r t) r (planEvents s.cfg ms rs) rest where
  toCarried := h.toCarried.trans (complete_carried (.ok r t))
  result := rfl
  results := by rw [finish_results, h.results]
  events := h.events
  answersLeft := left
  engineIdle := h.engineIdle hi

theorem HasBody.finished {body : State → Res Result} {r : Result} (h : HasBody s.cfg i body) (idled : s.idled = true)
    (hi : s.EngineIdle) (ran : body s = .ok r t) (through : Ran s ms rs t) (left : t.script = rest) :
    ∃ t, exec i s = .next t ∧ Completed s t r (planEvents s.cfg ms rs) rest :=
  ⟨finish r t, by rw [(h s rfl idled).1, ran, complete_ok], through.finished hi left r⟩

end

/-! #### The passes of RomCheck, up to the compare of the CRC (R258, R259) -/

section
variable {c : Cfg} {s : State} {r idx : Byte} {rom : RomRegion} {ps qs : List Reply} {rest : List Raw}

/-- A CRC pass that compares nothing ends with the CRC. -/
theorem crcEnd_capture (r : Byte) (rom : RomRegion) (s : State) :
    crcEnd r rom false s = .ok (s.cfg.crc.final s.work.crc) s := rfl

/-- A CRC pass ends with the CRC where it is the region's. -/
theorem crcEnd_right (right : s.cfg.crc.final s.work.crc = rom.crc32) : crcEnd r rom true s = .ok rom.crc32 s := by
  simp [crcEnd, right]

/-- A CRC that is not the region's is reported. -/
theorem crcEnd_wrong (wrong : s.cfg.crc.final s.work.crc ≠ rom.crc32) :
    crcEnd r rom true s = .raise (crcMismatch r rom (s.cfg.crc.final s.work.crc)) s := by
  simp [crcEnd, wrong]

/-- On answers that fit, the CRC pass comes to its end with the CRC of the values the cells gave in its register. -/
theorem crcPass_reaches_end (compare : Bool) (hi : s.EngineIdle)
    (accepted : planAccepts s.cfg (s.cfg.romPlan r rom) qs = true)
    (script : s.script = planAnswers s.cfg (s.cfg.romPlan r rom) qs ++ rest) :
    ∃ t, crcPass r rom compare s = crcEnd r rom compare t ∧ Ran s (s.cfg.romPlan r rom) qs t ∧ t.script = rest
      ∧ t.cfg.crc.final t.work.crc = s.cfg.crcOf rom (planValues s.cfg (s.cfg.romPlan r rom) qs) := by
  rw [Cfg.romPlan] at accepted script ⊢
  obtain ⟨ps, qs, rfl, bankAccepted, cellsAccepted⟩ := planAccepts_append.mp accepted
  have bankLength := planAccepts_length bankAccepted
  rw [planAnswers_append bankLength, List.append_assoc] at script
  obtain ⟨t, ran, through, left, -⟩ := callBank_run bankAccepted script
  obtain ⟨⟨⟩, u, ran', through', left', -, crc⟩ := (romCrcLoop_performs (c := s.cfg) r rom).completes t qs rest
    through.cfg (through.engineIdle hi) trivial (by rwa [movesOf_atSpot]) (by rwa [movesOf_atSpot])
  rw [movesOf_atSpot] at through'
  have both := through.trans through'
  refine ⟨u, by rw [crcPass_eq, ran, Res.bind_ok, ran', Res.bind_ok], both, left', ?_⟩
  rw [both.cfg, crc, planValues_append bankLength, planValues_bankMoves, List.nil_append]
  rfl

/-- On answers that fit, with every sample right, both passes over a region come to the end of the second. -/
theorem romPasses_reaches_end (hi : s.EngineIdle) (samples : planAccepts s.cfg (s.cfg.samplePlan r rom) ps = true)
    (cells : planAccepts s.cfg (s.cfg.romPlan r rom) qs = true)
    (script : s.script = planAnswers s.cfg (s.cfg.samplePlan r rom) ps
      ++ (planAnswers s.cfg (s.cfg.romPlan r rom) qs ++ rest)) :
    ∃ t, romPasses r rom s = crcEnd r rom true t
      ∧ Ran s (s.cfg.samplePlan r rom ++ s.cfg.romPlan r rom) (ps ++ qs) t ∧ t.script = rest
      ∧ t.cfg.crc.final t.work.crc = s.cfg.crcOf rom (planValues s.cfg (s.cfg.romPlan r rom) qs) := by
  obtain ⟨⟨⟩, t, ran, through, left, -⟩ := (samplePass_performs (c := s.cfg) r rom).completes s ps _ rfl hi trivial
    (by rwa [movesOf_atSpot]) (by rwa [movesOf_atSpot])
  rw [movesOf_atSpot] at through
  have hc := through.cfg
  obtain ⟨u, ran', through', left', crc⟩ := crcPass_reaches_end (r := r) (rom := rom) (qs := qs) (rest := rest) true
    (through.engineIdle hi) (hc ▸ cells) (hc ▸ left)
  exact ⟨u, by rw [romPasses, ran, Res.bind_ok, ran'], through.trans (hc ▸ through'), left', hc ▸ crc⟩

/-! #### ROMCHK, ROMCRC, ROMRAW and ROMALL on answers that fit (R261 to R264) -/

theorem romchk_hasBody (found : c.romTable[idx.toNat]? = some rom) :
    HasBody c (.romchk idx) (reporting (romPasses idx rom) (romResult idx)) :=
  hasBody_oneOf Cfg.romTable found (fun _ => ⟨rfl, rfl⟩) fun _ => rfl

theorem romcrc_hasBody (found : c.romTable[idx.toNat]? = some rom) :
    HasBody c (.romcrc idx) (reporting (crcPass idx rom false) (romResult idx)) :=
  hasBody_oneOf Cfg.romTable (pass := fun rom => crcPass idx rom false) found (fun _ => ⟨rfl, rfl⟩) fun _ => rfl

theorem romraw_hasBody : HasBody c .romraw (reporting (fullSet c.romTable rawPass) fun _ => Result.blank) :=
  hasBody_reporting (x := fun c => fullSet c.romTable rawPass) (fun _ => ⟨rfl, rfl⟩) fun _ => rfl

/-- ROMRAW's moves, each at its spot. -/
theorem romRaw_performs : Performs c anyWork (c.moves .romraw) (fullSet c.romTable rawPass) fun _ => anyWork :=
  Performs.forEach c.romTable.zipIdx fun e _ => rawPass_performs _ e.1

theorem movesOf_romraw (c : Cfg) : movesOf (c.moves .romraw) = c.romRawPlan := by
  rw [movesOf, Cfg.moves, List.map_flatMap]
  exact List.flatMap_congr fun e _ => movesOf_atSpot _ _ _ _

end

/-- Settles O37: both passes come to the compare of the CRC, which agrees. -/
theorem romChkCompletes : Obligations.RomChkCompletes := by
  intro s idx rom ps qs rest idled hi found samples cells right script
  rw [List.append_assoc] at script
  obtain ⟨t, ran, through, left, crc⟩ := romPasses_reaches_end hi samples cells script
  rw [← planEvents_append (planAccepts_length samples)]
  refine (romchk_hasBody found).finished idled hi ?_ through left
  rw [reporting, ran, crcEnd_right (crc.trans right), Res.bind_ok]
  rfl

/-- Settles O38: the CRC pass comes to its end, which reports the CRC as it is. -/
theorem romCrcCompletes : Obligations.RomCrcCompletes := by
  intro s idx rom qs rest idled hi found cells script
  obtain ⟨t, ran, through, left, crc⟩ := crcPass_reaches_end false hi cells script
  refine (romcrc_hasBody found).finished idled hi ?_ through left
  rw [reporting, ran, crcEnd_capture, crc, Res.bind_ok]
  rfl

/-- Settles O39: the raw reads of the regions perform the command's plan. -/
theorem romRawCompletes : Obligations.RomRawCompletes := by
  intro s qs rest idled hi cells script
  rw [← movesOf_romraw] at cells script ⊢
  obtain ⟨⟨⟩, t, ran, through, left, -⟩ := romRaw_performs.completes s qs rest rfl hi trivial cells script
  exact romraw_hasBody.finished idled hi (by rw [reporting, ran, Res.bind_ok]) through left

/-- Settles O40: every region's turn runs to its end. -/
theorem romAllCompletes : Obligations.RomAllCompletes := by
  intro s ps rest idled hi right script
  obtain ⟨t, ran, through, left⟩ := romAllTurns_complete hi right script
  exact romall_hasBody.finished idled hi (by rw [reporting, romAllTurns, ran, Res.bind_ok]) through left

/-! #### The first mismatch (R258, R259, R265) -/

/-- What comes before `k` in a range, and what comes after it. -/
theorem range_around {k n : Nat} (h : k < n) : ∃ later, List.range n = List.range k ++ k :: later := by
  refine ⟨(List.range n).drop (k + 1), ?_⟩
  conv_lhs => rw [← List.take_append_drop k (List.range n), List.drop_eq_getElem_cons (by simpa using h)]
  rw [List.take_range, Nat.min_eq_left h.le, List.getElem_range]

/-- A compare of all bits reports the values as they are. -/
theorem Cfg.mismatchRecord_allOnes (c : Cfg) (table : TableTag) (i : Byte) (r : Reply) (la : Word) (e : Datum) :
    c.mismatchRecord ⟨table, i, 0⟩ r la e (BitVec.allOnes 16)
      = Result.dataMismatch la e (c.readValue la r) table i := by
  rw [Cfg.mismatchRecord, BitVec.and_allOnes, BitVec.and_allOnes]
  rfl

section
variable {s : State} {idx : Byte} {rom : RomRegion} {qs : List Reply} {rest : List Raw}

/-- A region's moves come to its sample `k` after its bank switch and the samples before. -/
theorem romPasses_moves_at_sample (c : Cfg) (r : Byte) {k : Nat} (h : k < sampleCount rom.length) :
    ∃ later, atSpot .rom r 0 (c.samplePlan r rom ++ c.romPlan r rom)
      = atSpot .rom r 0 (bankMoves .rom r rom.bankSwitch ++ (List.range k).map fun j =>
          .read ((c.romGeometry rom).cell (2 ^ j)) (c.romSample rom j) (BitVec.allOnes 16))
        ++ (⟨.rom, r, 0⟩, .read ((c.romGeometry rom).cell (2 ^ k)) (c.romSample rom k) (BitVec.allOnes 16))
          :: later := by
  obtain ⟨later, split⟩ := range_around h
  rw [Cfg.samplePlan, split, List.map_append, List.map_cons, List.append_assoc, List.append_assoc, List.cons_append,
    ← List.append_assoc, atSpot_append _ _ _ (_ ++ _)]
  exact ⟨_, rfl⟩

/-- ROMCHK stops at a sample that differs. -/
theorem romchk_sample_stops {k : Nat} {r : Reply} {before : List Move} (idled : s.idled = true)
    (hi : s.EngineIdle) (found : s.cfg.romTable[idx.toNat]? = some rom) (inRange : k < sampleCount rom.length)
    (isBefore : before = bankMoves .rom idx rom.bankSwitch ++ (List.range k).map fun j =>
      .read ((s.cfg.romGeometry rom).cell (2 ^ j)) (s.cfg.romSample rom j) (BitVec.allOnes 16))
    (accepted : planAccepts s.cfg before qs = true)
    (disagrees : s.cfg.disagrees ((s.cfg.romGeometry rom).cell (2 ^ k)) (s.cfg.romSample rom k) (BitVec.allOnes 16) r
      = true)
    (script : s.script = planAnswers s.cfg before qs
      ++ (Move.read ((s.cfg.romGeometry rom).cell (2 ^ k)) 0 0).answers s.cfg r ++ rest) :
    ∃ t, exec (.romchk idx) s = .next t
      ∧ Completed s t
        (s.cfg.mismatchRecord ⟨.rom, idx, 0⟩ r ((s.cfg.romGeometry rom).cell (2 ^ k)) (s.cfg.romSample rom k)
          (BitVec.allOnes 16))
        (planEvents s.cfg before qs ++ (Move.read ((s.cfg.romGeometry rom).cell (2 ^ k)) 0 0).events s.cfg r) rest := by
  obtain ⟨later, moves⟩ := romPasses_moves_at_sample s.cfg idx inRange
  rw [← isBefore] at moves
  have spots : movesOf (atSpot .rom idx 0 before) = before := movesOf_atSpot _ _ _ _
  have stop := PlanStops.at (first := atSpot .rom idx 0 before) (later := later) (rest := rest) (spots.symm ▸ accepted)
    (MoveStops.compare (spot := ⟨.rom, idx, 0⟩) _ _ _ r disagrees)
  rw [← moves, spots, ← List.append_assoc] at stop
  obtain ⟨t, raised, stopped⟩ := ((romPasses_stopsAlong idx rom).reporting (romResult idx)).stops s _ _ rest rfl hi
    trivial (script ▸ stop)
  exact (romchk_hasBody found).completed idled raised stopped

end

/-- Settles O41: a sample that differs is a move that stops the command, and a CRC that differs stops it at the end of
its region's passes. -/
theorem romFirstMismatch : Obligations.RomFirstMismatch := by
  refine ⟨fun s idx rom ps rest idled hi found => ⟨?sample, ?crc⟩, ?romallSample, ?romallCrc⟩
  case sample =>
    intro k r d before inRange isBefore accepted completes value differs script
    have runs : s.cfg.accessRuns .read ((s.cfg.romGeometry rom).cell (2 ^ k)) r = true := by
      simpa only [Move.accepts, maskedEq_zero, Bool.and_true] using completes
    have disagrees : s.cfg.disagrees ((s.cfg.romGeometry rom).cell (2 ^ k)) (s.cfg.romSample rom k)
        (BitVec.allOnes 16) r = true := by
      simp only [Cfg.disagrees, runs, maskedEq_allOnes, ← value, differs, decide_false, Bool.not_false, Bool.and_true]
    have stops := romchk_sample_stops idled hi found inRange isBefore accepted disagrees script
    rwa [Cfg.mismatchRecord_allOnes, ← value] at stops
  case crc =>
    rintro qs f samples cells rfl wrong script
    rw [List.append_assoc] at script
    obtain ⟨t, ran, through, left, crc⟩ := romPasses_reaches_end hi samples cells script
    rw [← planEvents_append (planAccepts_length samples)]
    refine (romchk_hasBody found).completed idled ?_ (through.stopped left)
    rw [reporting, ran, crcEnd_wrong (crc ▸ wrong), crc, Res.bind_raise]
    rfl
  case romallSample =>
    intro s before qs spot la e m r rest idled hi reaches disagrees script
    obtain ⟨t, raised, stopped⟩ := romAllTurns_stops hi reaches (.compare la e m r disagrees) script
    exact romall_hasBody.completed idled (by rw [reporting, raised, Res.bind_raise]) stopped
  case romallCrc =>
    rintro s k idx rom before done ps qs f rest idled hi found rfl rfl right samples cells rfl wrong script
    have regions := planAccepts_length (romAllAccepts_planAccepts right)
    rw [List.append_assoc, List.append_assoc, planAnswers_append regions,
      planAnswers_append (planAccepts_length samples), List.append_assoc, List.append_assoc] at script
    obtain ⟨t, ran, through, left⟩ := romAllTurns_complete hi right script
    have hc := through.cfg
    obtain ⟨u, ran', through', left', crc⟩ := romPasses_reaches_end (through.engineIdle hi) (hc ▸ samples)
      (hc ▸ cells) (hc ▸ left)
    rw [hc] at through' crc
    rw [List.append_assoc, List.append_assoc]
    refine romall_hasBody.completed idled ?_ ((through.trans through').stopped left')
    rw [reporting, romAllTurns, zipIdx_around found, forEach_append, ran, Res.bind_ok, forEach_cons, romAllTurn,
      reporting, ran', crcEnd_wrong (crc ▸ wrong), crc]
    rfl

/-! #### Bank switches that fail (R252, 60_exceptions.md R374) -/

section
variable {α β : Type} {s : State} {i : Instr} {table : TableTag} {idx : Byte} {raw : Raw} {rest : List Raw}

/-- A single-region command whose pass opens with the entry's bank switch stops there where that fails. -/
theorem exec_bank_stops {entries : List α} {e : α} {hasBank : Bool} {pass : α → State → Res β}
    {afterBank : Unit → State → Res β} {report : β → Result} (idled : s.idled = true) (hi : s.EngineIdle)
    (failed : codeOf raw ≠ .success) (script : s.script = raw :: rest) (found : entries[idx.toNat]? = some e)
    (banked : hasBank = true) (ran : exec i s = guarded s (reporting (oneOf entries table idx pass) report))
    (opens : pass e s = (callBank table idx hasBank s).bind afterBank) :
    ∃ t, exec i s = .next t ∧ Completed s t (bankFailure (codeOf raw) table idx) [.bank table idx] rest := by
  subst banked
  have stop : PlanStops s.cfg [(⟨table, idx, 0⟩, .bank table idx)] s.script [.bank table idx]
      (bankFailure (codeOf raw) table idx) rest :=
    script ▸ .here (.bank table idx raw failed)
  obtain ⟨t, raised, stopped⟩ := (callBank_performs anyWork table idx 0 true).stops s _ _ _ rfl hi trivial stop
  refine ⟨_, ?_, stopped.completed _⟩
  rw [ran, guarded_of_idled idled, reporting, oneOf_of_some found, opens, raised, Res.bind_raise, Res.bind_raise,
    complete_raise]

end

/-! #### Where the bank switches of a command stand -/

/-- Every bank switch of a plan is that of the region its spot names. -/
def BanksAtSpots (plan : List (Spot × Move)) : Prop :=
  ∀ spot table r, (spot, .bank table r) ∈ plan → table = spot.table ∧ r = spot.index

theorem BanksAtSpots.append {ps qs : List (Spot × Move)} (hp : BanksAtSpots ps) (hq : BanksAtSpots qs) :
    BanksAtSpots (ps ++ qs) := fun spot table r mem =>
  (List.mem_append.mp mem).elim (hp spot table r) (hq spot table r)

theorem BanksAtSpots.flatMap {α : Type} {plan : α → List (Spot × Move)} (h : ∀ x, BanksAtSpots (plan x)) (l : List α) :
    BanksAtSpots (l.flatMap plan) := by
  intro spot table r mem
  obtain ⟨x, -, inTurn⟩ := List.mem_flatMap.mp mem
  exact h x spot table r inTurn

/-- Moves without a bank switch, at one spot. -/
theorem BanksAtSpots.unbanked {ms : List Move} (noBank : ∀ t r, .bank t r ∉ ms) (table : TableTag) (index : Byte)
    (step : BitVec 2) : BanksAtSpots (atSpot table index step ms) := by
  intro spot t r mem
  obtain ⟨m, inPlan, eq⟩ := List.mem_map.mp mem
  cases eq
  exact absurd inPlan (noBank t r)

/-- A pass that opens with its region's bank switch, and makes no other. -/
theorem BanksAtSpots.pass {ms : List Move} (noBank : ∀ t r, .bank t r ∉ ms) (table : TableTag) (index : Byte)
    (hasBank : Bool) (step : BitVec 2) :
    BanksAtSpots (atSpot table index step (bankMoves table index hasBank ++ ms)) := by
  rw [atSpot_append]
  refine BanksAtSpots.append ?_ (unbanked noBank table index step)
  cases hasBank with
  | false => exact nofun
  | true =>
    intro spot t r mem
    cases List.mem_singleton.mp mem
    exact ⟨rfl, rfl⟩

section
variable (c : Cfg)

theorem bank_notMem_writePlan (ram : RamRegion) (seed : Word) (inverted : Bool) (t : TableTag) (r : Byte) :
    .bank t r ∉ c.writePlan ram seed inverted := by simp [Cfg.writePlan]

theorem bank_notMem_verifyPlan (ram : RamRegion) (seed : Word) (inverted : Bool) (t : TableTag) (r : Byte) :
    .bank t r ∉ c.verifyPlan ram seed inverted := by simp [Cfg.verifyPlan]

theorem bank_notMem_boundaryTurn (ram : RamRegion) (j : Nat) (t : TableTag) (r : Byte) :
    .bank t r ∉ c.boundaryTurn ram j := by
  simp [Cfg.boundaryTurn]

theorem romPlan_banksAtSpots (r : Byte) (rom : RomRegion) : BanksAtSpots (atSpot .rom r 0 (c.romPlan r rom)) :=
  BanksAtSpots.pass (by simp) .rom r rom.bankSwitch 0

theorem romPasses_banksAtSpots (r : Byte) (rom : RomRegion) :
    BanksAtSpots (atSpot .rom r 0 (c.samplePlan r rom ++ c.romPlan r rom)) := by
  rw [atSpot_append]
  exact (BanksAtSpots.pass (by simp) .rom r rom.bankSwitch 0).append (romPlan_banksAtSpots c r rom)

theorem boundaryPlan_banksAtSpots (r : Byte) (ram : RamRegion) :
    BanksAtSpots (atSpot .ram r 0 (c.boundaryPlan r ram)) := by
  rw [Cfg.boundaryPlan, List.append_assoc]
  exact BanksAtSpots.pass (by simp [bank_notMem_boundaryTurn]) .ram r ram.bankSwitch 0

end

/-- Every bank switch of every command is that of the region whose pass it opens. -/
theorem moves_banksAtSpots (c : Cfg) (i : Instr) : BanksAtSpots (c.moves i) := by
  cases i with
  | romall => exact .flatMap (fun e : RomRegion × Nat => romPasses_banksAtSpots c _ e.1) _
  | romraw => exact .flatMap (fun e : RomRegion × Nat => romPlan_banksAtSpots c _ e.1) _
  | ramcs seed =>
    exact .append (.flatMap (fun _ => .pass (bank_notMem_writePlan c _ _ _) .ram _ _ 0) _)
      (.flatMap (fun _ => .pass (bank_notMem_verifyPlan c _ _ _) .ram _ _ 0) _)
  | romchk idx =>
    rw [Cfg.moves]
    split
    exacts [romPasses_banksAtSpots c idx _, nofun]
  | romcrc idx =>
    rw [Cfg.moves]
    split
    exacts [romPlan_banksAtSpots c idx _, nofun]
  | rammarch idx seed =>
    rw [Cfg.moves]
    split
    · exact .append (.append (.append (.pass (bank_notMem_writePlan c _ _ _) .ram idx _ 0)
        (.unbanked (bank_notMem_verifyPlan c _ _ _) .ram idx 1))
        (.unbanked (bank_notMem_writePlan c _ _ _) .ram idx 0))
        (.unbanked (bank_notMem_verifyPlan c _ _ _) .ram idx 2)
    · exact nofun
  | ramaddr idx =>
    rw [Cfg.moves]
    split
    exacts [boundaryPlan_banksAtSpots c idx _, nofun]
  | ramfill idx value =>
    rw [Cfg.moves]
    split
    exacts [.pass (by simp) .ram idx _ 0, nofun]
  | ramread idx =>
    rw [Cfg.moves]
    split
    exacts [.pass (by simp) .ram idx _ 0, nofun]
  | ioin idx =>
    rw [Cfg.moves]
    split
    exacts [.pass (by simp) .input idx _ 0, nofun]
  | ioout idx active =>
    rw [Cfg.moves]
    split
    exacts [.pass (by simp) .output idx _ 0, nofun]
  | _ => exact nofun

/-- Settles O58: a single-region command's pass opens with its bank switch, and any bank switch a sequencer comes to is
a move that stops it. -/
theorem bankSwitchFailureStops : Obligations.BankSwitchFailureStops := by
  refine ⟨fun s idx table i raw rest idled hi failed script command => ?first,
    fun s i before qs spot table idx raw rest idled hi fit reaches failed script => ?any⟩
  case first =>
    rcases command with ⟨rom, rfl, found, banked, rfl | rfl⟩
      | ⟨ram, rfl, found, banked, ⟨seed, rfl⟩ | rfl | ⟨value, rfl⟩ | rfl⟩ | ⟨e, rfl, found, banked, rfl⟩
      | ⟨e, rfl, found, banked, active, rfl⟩
    · exact exec_bank_stops (pass := romPasses idx) idled hi failed script found banked rfl (Res.bind_assoc _ _ _)
    all_goals exact exec_bank_stops idled hi failed script found banked rfl rfl
  case any =>
    obtain ⟨first, later, moves, -⟩ := reaches.plan
    obtain ⟨rfl, rfl⟩ := moves_banksAtSpots s.cfg i spot table idx (by simp [moves])
    refine ⟨rfl, rfl, exec_stops idled hi fit reaches (.bank _ _ raw failed) ?_⟩
    rw [script, List.append_assoc]
    rfl

end Sys2Proof.Machine

/-! ### RamCheck (43_ram_check.md R280 to R289): how its commands end, their first mismatch, and what a march that
succeeds has read -/

namespace Sys2Proof.Machine

/-! #### The march generator (R281) -/

theorem Width.cut_toNat (w : Width) (d : Datum) : (w.cut d).toNat = d.toNat % 2 ^ (8 * w.bytes) := by
  cases w with
  | one => simp [Width.cut, Width.bytes, BitVec.extractLsb'_toNat]; omega
  | two => exact (Nat.mod_eq_of_lt d.isLt).symm

/-- Settles O49: the generator's step is arithmetic modulo `2^32`, and its value the upper half of the state. -/
theorem marchGenerator : Obligations.MarchGenerator := by
  refine fun s => ⟨?next, fun w => ?value⟩
  case next =>
    have multiplier : (1664525 : Word).toNat = 1664525 := by decide
    have increment : (1013904223 : Word).toNat = 1013904223 := by decide
    rw [Generator.next, BitVec.toNat_add, BitVec.toNat_mul, Nat.mod_add_mod, multiplier, increment]
  case value =>
    have upperHalf : (s.extractLsb' 16 16).toNat = s.toNat / 2 ^ 16 := by
      rw [BitVec.extractLsb'_toNat, Nat.shiftRight_eq_div_pow]
      exact Nat.mod_eq_of_lt (by omega)
    rw [Generator.value, Width.cut_toNat, upperHalf]

/-! #### The commands that complete (R282 to R288) -/

section
variable {α : Type} {c : Cfg} {idx : Byte} {ram : RamRegion}

/-- A sequencer command whose part performs a plan completes on answers that fit that plan. -/
theorem HasBody.completes {s : State} {i : Instr} {x : State → Res α} {report : α → Result} {r : Result}
    {Q : List Reply → Work → Prop} {plan : List (Spot × Move)} {ms : List Move} {qs : List Reply} {rest : List Raw}
    (h : HasBody s.cfg i (reporting x report)) (performs : Performs s.cfg anyWork plan x Q)
    (moves : movesOf plan = ms) (reports : ∀ a, report a = r) (idled : s.idled = true) (hi : s.EngineIdle)
    (accepted : planAccepts s.cfg ms qs = true) (script : s.script = planAnswers s.cfg ms qs ++ rest) :
    ∃ t, exec i s = .next t ∧ Completed s t r (planEvents s.cfg ms qs) rest := by
  subst moves
  obtain ⟨a, t, ran, through, left, -⟩ := performs.completes s qs rest rfl hi trivial accepted script
  exact h.finished idled hi (by rw [reporting, ran, Res.bind_ok, reports]) through left

theorem rammarch_hasBody (seed : Word) (found : c.ramTable[idx.toNat]? = some ram) :
    HasBody c (.rammarch idx seed) (reporting (marchRegion idx seed ram) fun _ => ramResult idx) :=
  hasBody_oneOf Cfg.ramTable found (fun _ => ⟨rfl, rfl⟩) fun _ => rfl

theorem ramaddr_hasBody (found : c.ramTable[idx.toNat]? = some ram) :
    HasBody c (.ramaddr idx) (reporting (boundaryRegion idx ram) fun _ => ramResult idx) :=
  hasBody_oneOf Cfg.ramTable found (fun _ => ⟨rfl, rfl⟩) fun _ => rfl

theorem ramfill_hasBody (value : Datum) (found : c.ramTable[idx.toNat]? = some ram) :
    HasBody c (.ramfill idx value) (reporting (fillRegion idx value ram) fun _ => ramResult idx) :=
  hasBody_oneOf Cfg.ramTable found (fun _ => ⟨rfl, rfl⟩) fun _ => rfl

theorem ramread_hasBody (found : c.ramTable[idx.toNat]? = some ram) :
    HasBody c (.ramread idx) (reporting (readRegion idx ram) fun _ => ramResult idx) :=
  hasBody_oneOf Cfg.ramTable found (fun _ => ⟨rfl, rfl⟩) fun _ => rfl

theorem ramcs_hasBody (seed : Word) :
    HasBody c (.ramcs seed) (reporting (crossPasses seed c) fun _ => Result.blank.inTable .ram 0) :=
  hasBody_reporting (x := crossPasses seed) (fun _ => ⟨rfl, rfl⟩) (exec_ramcs seed)

/-- The march's moves on a region, each at its spot: a read reports its pass as the step (R284). -/
def Cfg.marchMoves (c : Cfg) (r : Byte) (ram : RamRegion) (seed : Word) : List (Spot × Move) :=
  atSpot .ram r 0 (bankMoves .ram r ram.bankSwitch ++ c.writePlan ram seed false)
    ++ atSpot .ram r 1 (c.verifyPlan ram seed false) ++ atSpot .ram r 0 (c.writePlan ram seed true)
    ++ atSpot .ram r 2 (c.verifyPlan ram seed true)

theorem marchRegion_performs_marchMoves (r : Byte) (seed : Word) (ram : RamRegion) :
    Performs c anyWork (c.marchMoves r ram seed) (marchRegion r seed ram) fun _ => anyWork :=
  marchRegion_performs r seed ram

theorem movesOf_marchMoves (c : Cfg) (r : Byte) (ram : RamRegion) (seed : Word) :
    movesOf (c.marchMoves r ram seed) = c.marchPlan r ram seed := by
  simp only [Cfg.marchMoves, movesOf_append, movesOf_atSpot, Cfg.marchPlan]

/-- The chip-select test's moves, each at its spot (R285). -/
theorem movesOf_ramcs (c : Cfg) (seed : Word) : movesOf (c.moves (.ramcs seed)) = c.crossPlan seed := by
  rw [Cfg.moves, movesOf_append, movesOf, movesOf, List.map_flatMap, List.map_flatMap, Cfg.crossPlan]
  congr 1 <;> exact List.flatMap_congr fun e _ => movesOf_atSpot _ _ _ _

end

/-- Settles O42: the march on the region performs its plan. -/
theorem ramMarchCompletes : Obligations.RamMarchCompletes := by
  intro s idx seed ram qs rest idled hi found accepted script
  exact (rammarch_hasBody seed found).completes (marchRegion_performs_marchMoves idx seed ram)
    (movesOf_marchMoves _ _ _ _) (fun _ => rfl) idled hi accepted script

/-- Settles O44: both walks over the table perform their plans, and an index byte names every region of a table that
fits, so that each region's seed is its own. -/
theorem ramCsCompletes : Obligations.RamCsCompletes := by
  intro s seed qs rest idled hi fit accepted script
  exact (ramcs_hasBody seed).completes (crossPasses_performs seed fit) (movesOf_ramcs s.cfg seed) (fun _ => rfl) idled
    hi accepted script

/-- Settles O45: the address-line walk on the region performs its plan. -/
theorem ramAddrCompletes : Obligations.RamAddrCompletes := by
  intro s idx ram qs rest idled hi found accepted script
  exact (ramaddr_hasBody found).completes (boundaryRegion_performs idx ram) (movesOf_atSpot _ _ _ _) (fun _ => rfl)
    idled hi accepted script

/-- Settles O46: the fill of the region performs its plan. -/
theorem ramFillCompletes : Obligations.RamFillCompletes := by
  intro s idx value ram qs rest idled hi found accepted script
  exact (ramfill_hasBody value found).completes (fillRegion_performs idx value ram) (movesOf_atSpot _ _ _ _)
    (fun _ => rfl) idled hi accepted script

/-- Settles O47: the raw read of the region performs its plan. -/
theorem ramReadCompletes : Obligations.RamReadCompletes := by
  intro s idx ram qs rest idled hi found accepted script
  exact (ramread_hasBody found).completes (readRegion_performs idx ram) (movesOf_atSpot _ _ _ _) (fun _ => rfl) idled
    hi accepted script

/-! #### The first mismatch (R283 to R286) -/

section
variable {c : Cfg} {spot : Spot} {m : Move}

/-- The reads of a pattern pass around that of cell `i`. -/
theorem verifyPlan_around {ram : RamRegion} (seed : Word) (inverted : Bool) {i : Nat}
    (inRange : i < (c.ramGeometry ram).count) :
    ∃ later, c.verifyPlan ram seed inverted = (c.verifyPlan ram seed inverted).take i
      ++ .read ((c.ramGeometry ram).cell i) (c.marchValue ram seed inverted i) (c.ramMask ram) :: later := by
  obtain ⟨later, split⟩ := range_around inRange
  have first : (c.verifyPlan ram seed inverted).take i = (List.range i).map fun k =>
      .read ((c.ramGeometry ram).cell k) (c.marchValue ram seed inverted k) (c.ramMask ram) := by
    rw [Cfg.verifyPlan, ← List.map_take, List.take_range, Nat.min_eq_left inRange.le]
  rw [first, Cfg.verifyPlan, split, List.map_append, List.map_cons]
  exact ⟨_, rfl⟩

/-- The march comes to the read of cell `i`, in either pass, after the pass's writes and its reads of the cells before,
and reports the pass there (R284). -/
theorem marchMoves_around (idx : Byte) (seed : Word) {ram : RamRegion} (second : Bool) {i : Nat}
    (inRange : i < (c.ramGeometry ram).count) :
    ∃ first later, c.marchMoves idx ram seed
        = first ++ (⟨.ram, idx, if second then 2 else 1⟩,
          .read ((c.ramGeometry ram).cell i) (c.marchValue ram seed second i) (c.ramMask ram)) :: later
      ∧ movesOf first = bankMoves .ram idx ram.bankSwitch ++ c.writePlan ram seed false
        ++ (if second then c.verifyPlan ram seed false ++ c.writePlan ram seed true else [])
        ++ (c.verifyPlan ram seed second).take i := by
  obtain ⟨later, split⟩ := verifyPlan_around seed second inRange
  rw [Cfg.marchMoves]
  cases second with
  | false =>
    refine ⟨atSpot .ram idx 0 (bankMoves .ram idx ram.bankSwitch ++ c.writePlan ram seed false)
      ++ atSpot .ram idx 1 ((c.verifyPlan ram seed false).take i), atSpot .ram idx 1 later
        ++ atSpot .ram idx 0 (c.writePlan ram seed true) ++ atSpot .ram idx 2 (c.verifyPlan ram seed true), ?_,
      by simp⟩
    conv_lhs => rw [split]
    simp [atSpot]
  | true =>
    refine ⟨atSpot .ram idx 0 (bankMoves .ram idx ram.bankSwitch ++ c.writePlan ram seed false)
      ++ atSpot .ram idx 1 (c.verifyPlan ram seed false) ++ atSpot .ram idx 0 (c.writePlan ram seed true)
      ++ atSpot .ram idx 2 ((c.verifyPlan ram seed true).take i), atSpot .ram idx 2 later, ?_, by simp⟩
    conv_lhs => rw [split]
    simp [atSpot]

theorem spot_of_mem_atSpot {table : TableTag} {i : Byte} {step : BitVec 2} {ms : List Move}
    (mem : (spot, m) ∈ atSpot table i step ms) : spot = ⟨table, i, step⟩ := by
  obtain ⟨_, -, eq⟩ := List.mem_map.mp mem
  cases eq
  rfl

/-- The moves of RAMCS and of RAMADDR concern the RAM table, and report no step (assumption 33). -/
theorem spot_of_mem_moves {i : Instr} (command : (∃ seed, i = .ramcs seed) ∨ ∃ idx, i = .ramaddr idx)
    (mem : (spot, m) ∈ c.moves i) : spot.table = .ram ∧ spot.step = 0 := by
  obtain ⟨index, rfl⟩ : ∃ index, spot = ⟨.ram, index, 0⟩ := by
    rcases command with ⟨seed, rfl⟩ | ⟨idx, rfl⟩
    · rcases List.mem_append.mp mem with mem | mem
      all_goals
        obtain ⟨e, -, inRegion⟩ := List.mem_flatMap.mp mem
        exact ⟨_, spot_of_mem_atSpot inRegion⟩
    · rw [Cfg.moves] at mem
      split at mem
      · exact ⟨idx, spot_of_mem_atSpot mem⟩
      · cases mem
  exact ⟨rfl, rfl⟩

end

/-- Settles O43: a cell that disagrees is a move that stops the command. -/
theorem ramFirstMismatch : Obligations.RamFirstMismatch := by
  refine ⟨?march, ?others⟩
  case march =>
    rintro s idx seed ram second i _ qs r _ _ rest idled hi found inRange rfl accepted rfl completes rfl differs script
    have disagrees : s.cfg.disagrees ((s.cfg.ramGeometry ram).cell i) (s.cfg.marchValue ram seed second i)
        (s.cfg.ramMask ram) r = true := by
      have runs : s.cfg.accessRuns .read ((s.cfg.ramGeometry ram).cell i) r = true := by
        simpa only [Move.accepts, maskedEq_zero, Bool.and_true] using completes
      simp only [Cfg.disagrees, runs, maskedEq, differs, decide_false, Bool.not_false, Bool.and_true]
    obtain ⟨first, later, moves, isBefore⟩ := marchMoves_around idx seed second inRange
    rw [← isBefore] at accepted script ⊢
    have stop := PlanStops.at (later := later) (rest := rest) accepted
      (MoveStops.compare (spot := ⟨.ram, idx, if second then 2 else 1⟩) _ _ _ r disagrees)
    rw [← moves, ← List.append_assoc] at stop
    obtain ⟨t, raised, stopped⟩ := ((marchRegion_performs_marchMoves idx seed
      ram).toStopsAlong.reporting fun _ => ramResult idx).stops s _ _ rest rfl hi trivial (script ▸ stop)
    exact (rammarch_hasBody seed found).completed idled raised stopped
  case others =>
    intro s i before qs spot la e m r rest command idled hi fit reaches disagrees script
    obtain ⟨first, later, moves, -⟩ := reaches.plan
    obtain ⟨table, step⟩ := spot_of_mem_moves command (show (spot, .read la e m) ∈ s.cfg.moves i by simp [moves])
    exact ⟨table, step, exec_stops idled hi fit reaches (.compare la e m r disagrees) script⟩

/-! #### What a march that succeeds has read (R289) -/

section
variable {α : Type} {n : Nat} {x : Res α} {v : α} {s t u : State}

/-- What a part appended, the command it is a part of appended. -/
theorem newEvents_subset_left (first : Within s t) (second : Within t u) : newEvents s t ⊆ newEvents s u := by
  rw [newEvents_trans first.trace second.trace]
  exact List.subset_append_left _ _

theorem newEvents_subset_right (first : Within s t) (second : Within t u) : newEvents t u ⊆ newEvents s u := by
  rw [newEvents_trans first.trace second.trace]
  exact List.subset_append_right _ _

theorem Course.of_ok (h : Course n s x) (ran : x = .ok v t) : Within s t ∧ t.EngineIdle := by
  have within := h.within
  have idle := h.engineIdle
  rw [ran] at within idle
  exact ⟨within, idle⟩

/-- A loop over an index range that runs to its end came to each turn, ended it, and went on. -/
theorem forEach_range_turn {body : Nat → State → Res Unit} {i : Nat} (inRange : i < n)
    (ran : forEach body (List.range n) s = .ok () t) :
    ∃ before after later, forEach body (List.range i) s = .ok () before ∧ body i before = .ok () after
      ∧ forEach body later after = .ok () t := by
  obtain ⟨later, split⟩ := range_around inRange
  rw [split, forEach_append] at ran
  obtain ⟨⟨⟩, before, ranBefore, ran⟩ := Res.bind_eq_ok.mp ran
  obtain ⟨⟨⟩, after, turn, ranLater⟩ := Res.bind_eq_ok.mp ran
  exact ⟨before, after, later, ranBefore, turn, ranLater⟩

end

/-- The access path without remap callbacks. -/
def Cfg.Unmapped (c : Cfg) : Prop := c.addressRemap = none ∧ c.dataRemap = none

/-- These events show a read of a cell that sampled a datum which, cut to the width of the access, agrees with `e` under
the mask `m` (R283). -/
def ReadAgreed (c : Cfg) (la : Word) (e m : Datum) (es : List Event) : Prop :=
  ∃ a d, c.decodeAddr la = .ok a ∧ Event.cyc .read a.space a.paddr a.w a.lane d ∈ es ∧ maskedEq (a.w.cut d) e m = true

theorem ReadAgreed.mono {c : Cfg} {la : Word} {e m : Datum} {es fs : List Event} (h : ReadAgreed c la e m es)
    (subset : es ⊆ fs) : ReadAgreed c la e m fs := by
  obtain ⟨a, d, legal, mem, agrees⟩ := h
  exact ⟨a, d, legal, subset mem, agrees⟩

section
variable {c : Cfg} {s t : State} {g : Geometry} {ram : RamRegion} {r : Byte} {m : Datum} {i : Nat} {seed : Word}
  {inverted : Bool} {step : BitVec 2}

/-- Without remaps, a sequencer read that completes is one read cycle, and gives what that sampled, cut to the width
(42_rom_check.md R250). -/
theorem seqRead_sampled {la : Word} {table : TableTag} {v : Datum} (hi : s.EngineIdle) (unmapped : s.cfg.Unmapped)
    (ran : seqRead la table r s = .ok v t) :
    ∃ a d, s.cfg.decodeAddr la = .ok a ∧ Event.cyc .read a.space a.paddr a.w a.lane d ∈ newEvents s t ∧ v = a.w.cut d
      ∧ t.work = s.work := by
  obtain ⟨-, -, unmasked⟩ := hi
  obtain ⟨noAddressRemap, noDataRemap⟩ := unmapped
  have address : callAddressRemap la table r s = (la, s) := by rw [callAddressRemap, noAddressRemap]
  rw [seqRead, address] at ran
  cases legal : s.cfg.decodeAddr la with
  | error e => rw [legal] at ran; cases ran
  | ok a =>
    rw [legal] at ran
    obtain ⟨d, u, cycle, remap⟩ := Res.bind_eq_ok.mp ran
    rw [Res.onRaise_eq_ok] at cycle
    rcases busCycle_spec .read a 0 none s unmasked with ⟨d', u', completed, done, -⟩ | ⟨_, _, raised, -⟩
    · rw [completed] at cycle
      cases cycle
      have datum : callDataRemap la d table r u = (d, u) := by rw [callDataRemap, done.cfg, noDataRemap]
      rw [datum] at remap
      cases remap
      exact ⟨a, d, rfl, by simp [newEvents_of_eq done.event], rfl, done.work⟩
    · rw [raised] at cycle
      cases cycle

/-- A compare that lets the command go on agreed, and left the generator alone. -/
theorem compareCell_eq_ok {la : Word} {e d : Datum} (ran : compareCell r la m step e d s = .ok () t) :
    maskedEq d e m = true ∧ t = setActual d s := by
  rw [compareCell] at ran
  split at ran
  · next agrees => exact ⟨agrees, by cases ran; rfl⟩
  · cases ran

/-- Reading a cell back shows a read that agreed with the pattern's next value, and steps the generator. -/
theorem patternReadStep_agreed (hi : s.EngineIdle) (unmapped : s.cfg.Unmapped)
    (ran : patternReadStep r g m inverted step i s = .ok () t) :
    ReadAgreed s.cfg (g.cell i) (patternValue s.cfg g.w inverted s.work.rng) m (newEvents s t)
      ∧ t.work.rng = s.cfg.prng.next s.work.rng := by
  obtain ⟨v, u, read, compare⟩ := Res.bind_eq_ok.mp ran
  obtain ⟨a, d, legal, mem, rfl, work⟩ := seqRead_sampled (s := patternCell r g inverted i s) hi unmapped read
  obtain ⟨agrees, rfl⟩ := compareCell_eq_ok compare
  exact ⟨⟨a, d, legal, mem, agrees⟩, congrArg Work.rng work⟩

theorem patternReads_course (r : Byte) (g : Geometry) (m : Datum) (inverted : Bool) (step : BitVec 2) (l : List Nat)
    (hi : s.EngineIdle) : Course (l.map fun _ => 1).sum s (forEach (patternReadStep r g m inverted step) l s) :=
  forEach_course l (fun k _ _ hu _ => patternReadStep_course r g m inverted step k hu) hi rfl

/-- After `i` cells read back, the generator stands before cell `i` of the pattern (R282). -/
theorem patternReads_patternAt (hi : s.EngineIdle) (unmapped : s.cfg.Unmapped) (seeded : s.work.rng = seed)
    (ran : forEach (patternReadStep r g m inverted step) (List.range i) s = .ok () t) :
    PatternAt s.cfg seed i t.work := by
  induction i generalizing t with
  | zero => cases ran; exact seeded
  | succ i ih =>
    rw [List.range_succ, forEach_append] at ran
    obtain ⟨⟨⟩, u, before, turn⟩ := Res.bind_eq_ok.mp ran
    obtain ⟨⟨⟩, v, turn, ended⟩ := Res.bind_eq_ok.mp turn
    cases ended
    obtain ⟨within, idle⟩ := (patternReads_course r g m inverted step (List.range i) hi).of_ok before
    obtain ⟨-, next⟩ := patternReadStep_agreed idle (within.cfg ▸ unmapped) turn
    rw [PatternAt, next, ih before, within.cfg]
    rfl

/-- A verify phase that runs to its end read every cell as its pattern value, under the mask (R284). -/
theorem verifyPattern_agreed (hi : s.EngineIdle) (unmapped : s.cfg.Unmapped)
    (inRange : i < (s.cfg.ramGeometry ram).count)
    (ran : verifyPattern r (s.cfg.ramGeometry ram) m inverted step seed s = .ok () t) :
    ReadAgreed s.cfg ((s.cfg.ramGeometry ram).cell i) (s.cfg.marchValue ram seed inverted i) m (newEvents s t) := by
  obtain ⟨u, v, later, before, turn, after⟩ := forEach_range_turn inRange ran
  obtain ⟨reads, idle⟩ := (patternReads_course r (s.cfg.ramGeometry ram) m inverted step (List.range i)
    (s := setRng seed s) hi).of_ok before
  have upToCell : Within s u := (work_within s (setRng seed s).work).trans reads
  obtain ⟨cell, idle'⟩ := (patternReadStep_course r (s.cfg.ramGeometry ram) m inverted step i idle).of_ok turn
  obtain ⟨rest, -⟩ := (patternReads_course r (s.cfg.ramGeometry ram) m inverted step later idle').of_ok after
  have cfg : u.cfg = s.cfg := upToCell.cfg
  have rng : PatternAt s.cfg seed i u.work := patternReads_patternAt (s := setRng seed s) hi unmapped rfl before
  obtain ⟨agreed, -⟩ := patternReadStep_agreed idle (cfg ▸ unmapped) turn
  rw [cfg, patternValue_eq_marchValue ram inverted rng] at agreed
  exact (agreed.mono (newEvents_subset_left cell rest)).mono (newEvents_subset_right upToCell (cell.trans rest))

/-- A pass of the march that runs to its end read every cell as its pattern value (R284). -/
theorem marchPass_agreed {pass : BitVec 2} (hi : s.EngineIdle) (unmapped : s.cfg.Unmapped)
    (inRange : i < (s.cfg.ramGeometry ram).count)
    (ran : marchPass r (s.cfg.ramGeometry ram) m seed pass inverted s = .ok () t) :
    ReadAgreed s.cfg ((s.cfg.ramGeometry ram).cell i) (s.cfg.marchValue ram seed inverted i) m (newEvents s t) := by
  obtain ⟨⟨⟩, u, written, verified⟩ := Res.bind_eq_ok.mp ran
  obtain ⟨writesFromPass, idle⟩ := (writePattern_course r (s.cfg.ramGeometry ram) inverted seed
    (s := setPass pass s) hi).of_ok written
  have writes : Within s u := (work_within s (setPass pass s).work).trans writesFromPass
  obtain ⟨reads, -⟩ := (verifyPattern_course r (s.cfg.ramGeometry ram) m inverted pass seed idle).of_ok verified
  have cfg : u.cfg = s.cfg := writes.cfg
  rw [← cfg] at verified inRange unmapped ⊢
  exact (verifyPattern_agreed idle unmapped inRange verified).mono (newEvents_subset_right writes reads)

/-- A march that runs to its end read every cell as its pattern value and as the complement (R284). -/
theorem marchRegion_agreed (hi : s.EngineIdle) (unmapped : s.cfg.Unmapped) (inRange : i < (s.cfg.ramGeometry ram).count)
    (ran : marchRegion r seed ram s = .ok () t) (inverted : Bool) :
    ReadAgreed s.cfg ((s.cfg.ramGeometry ram).cell i) (s.cfg.marchValue ram seed inverted i) (s.cfg.ramMask ram)
      (newEvents s t) := by
  obtain ⟨⟨⟩, t₁, banked, ran⟩ := Res.bind_eq_ok.mp ran
  obtain ⟨⟨⟩, t₂, passed₁, passed₂⟩ := Res.bind_eq_ok.mp ran
  obtain ⟨bank, idle₁⟩ := (callBank_course .ram r ram.bankSwitch hi).of_ok banked
  obtain ⟨first, idle₂⟩ := (marchPass_course r (s.cfg.ramGeometry ram) (s.cfg.ramMask ram) seed 1 false idle₁).of_ok
    passed₁
  obtain ⟨second, -⟩ := (marchPass_course r (s.cfg.ramGeometry ram) (s.cfg.ramMask ram) seed 2 true idle₂).of_ok passed₂
  have cfg₁ : t₁.cfg = s.cfg := bank.cfg
  have cfg₂ : t₂.cfg = s.cfg := first.cfg.trans bank.cfg
  cases inverted with
  | false =>
    rw [← cfg₁] at passed₁ inRange unmapped ⊢
    exact ((marchPass_agreed idle₁ unmapped inRange passed₁).mono (newEvents_subset_left first second)).mono
      (newEvents_subset_right bank (first.trans second))
  | true =>
    rw [← cfg₂] at passed₂ inRange unmapped ⊢
    exact (marchPass_agreed idle₂ unmapped inRange passed₂).mono (newEvents_subset_right (bank.trans first) second)

/-- A march that ends in Success ran to its end. -/
theorem march_succeeded {idx : Byte} (hi : s.EngineIdle) (idled : s.idled = true)
    (found : s.cfg.ramTable[idx.toNat]? = some ram)
    (ran : exec (.rammarch idx seed) s = .next t) (success : t.result.code = .success) :
    ∃ u, marchRegion idx seed ram s = .ok () u ∧ t = finish (ramResult idx) u := by
  obtain ⟨runs, -⟩ := rammarch_hasBody seed found s rfl idled
  rw [ran, reporting] at runs
  cases ended : marchRegion idx seed ram s with
  | ok v u => rw [ended] at runs; cases runs; exact ⟨u, rfl, rfl⟩
  | raise rec u =>
    rw [ended] at runs
    cases runs
    obtain ⟨failed, -⟩ := (marchRegion_course idx seed ram hi).raised rec u ended
    exact absurd success failed

end

/-! #### The bits of a pattern value and of a datum read (R282, R283) -/

theorem Width.getLsbD_cut (w : Width) (d : Datum) (b : Nat) :
    (w.cut d).getLsbD b = (decide (b < 8 * w.bytes) && d.getLsbD b) := by
  cases w with
  | one =>
    simp only [Width.cut, Width.bytes, BitVec.truncate_eq_setWidth, BitVec.getLsbD_setWidth, BitVec.getLsbD_extractLsb']
    grind
  | two =>
    have beyond : ¬ b < 16 → d.getLsbD b = false := fun h => BitVec.getLsbD_of_ge d b (by omega)
    simp only [Width.cut, Width.bytes]
    grind

/-- The complement at a width flips every bit of the width. -/
theorem Width.getLsbD_invert {w : Width} {b : Nat} (inWidth : b < 8 * w.bytes) (d : Datum) :
    (w.invert d).getLsbD b = !d.getLsbD b := by
  have inDatum : b < 16 := by cases w <;> simp only [Width.bytes] at inWidth <;> omega
  rw [Width.invert, BitVec.getLsbD_xor, Width.getLsbD_cut, BitVec.getLsbD_allOnes, decide_eq_true inWidth,
    decide_eq_true inDatum, Bool.and_true, Bool.xor_true]

section
variable {c : Cfg} {ram : RamRegion} {a : Access} {b i : Nat}

/-- Every bit of the width is 0 in the one pass and 1 in the other. -/
theorem exists_marchValue_getLsbD (seed : Word) (inWidth : b < 8 * (c.ramGeometry ram).w.bytes) (v : Bool) :
    ∃ inverted, (c.marchValue ram seed inverted i).getLsbD b = v := by
  have flips : (c.marchValue ram seed true i).getLsbD b = !(c.marchValue ram seed false i).getLsbD b :=
    Width.getLsbD_invert inWidth _
  by_cases straight : (c.marchValue ram seed false i).getLsbD b = v
  · exact ⟨false, straight⟩
  · exact ⟨true, by rw [flips, Bool.not_eq.mpr straight]⟩

/-- The mask selects bits of the region's width only (R280). -/
theorem inWidth_of_ramMask (masked : (c.ramMask ram).getLsbD b = true) : b < 8 * (c.ramGeometry ram).w.bytes := by
  rw [Cfg.ramMask, Width.getLsbD_cut, Bool.and_eq_true, decide_eq_true_eq] at masked
  obtain ⟨inWidth, -⟩ := masked
  exact inWidth

theorem maskedEq_getLsbD {d e m : Datum} (agrees : maskedEq d e m = true) (masked : m.getLsbD b = true) :
    d.getLsbD b = e.getLsbD b := by
  have bits := congrArg (BitVec.getLsbD · b) (of_decide_eq_true agrees)
  simpa only [BitVec.getLsbD_and, masked, Bool.and_true] using bits

theorem decodeAddr_eq_accessOf {la : Word} (legal : c.decodeAddr la = .ok a) : a = c.accessOf la := by
  unfold Cfg.decodeAddr at legal
  repeat' split at legal
  all_goals cases legal
  rfl

/-- The access width is in the selectors, which the cells of a region share (30_encoding.md R113). -/
theorem dataAccessWidth_cell (c : Cfg) (ram : RamRegion) (i : Nat) :
    c.dataAccessWidth ((c.ramGeometry ram).cell i) = (c.ramGeometry ram).w := by
  have laneBit : ∀ la : Word, la.getLsbD 26 = (selectors la).getLsbD 2 := fun la => by simp [selectors]
  have same : ((c.ramGeometry ram).cell i).getLsbD 26 = ram.start.getLsbD 26 := by
    rw [laneBit, laneBit, Geometry.cell, selectors_cellAddr]
    rfl
  rw [Cfg.dataAccessWidth_eq_ite, same, ← Cfg.dataAccessWidth_eq_ite]
  rfl

end

/-- Settles O48: each pass of a march that succeeds read the cell as its pattern value under the mask, and a masked bit
has the one value in the pattern and the other in its complement. -/
theorem stuckBitIsCaught : Obligations.StuckBitIsCaught := by
  intro s t idx seed ram a i b v inv idled noAddressRemap noDataRemap found ran success inRange legal masked
  have hi : s.EngineIdle := ⟨inv.pinsIdle idled, inv.betweenCycles⟩
  have inWidth := inWidth_of_ramMask masked
  obtain ⟨inverted, value⟩ := exists_marchValue_getLsbD (i := i) seed inWidth v
  obtain ⟨u, ended, rfl⟩ := march_succeeded hi idled found ran success
  obtain ⟨a', d, legal', mem, agrees⟩ := marchRegion_agreed hi ⟨noAddressRemap, noDataRemap⟩ inRange ended inverted
  obtain rfl : a' = a := Except.ok.inj (legal'.symm.trans legal)
  have width : a'.w = (s.cfg.ramGeometry ram).w := by
    rw [decodeAddr_eq_accessOf legal]
    exact dataAccessWidth_cell s.cfg ram i
  have bit := maskedEq_getLsbD agrees masked
  rw [Width.getLsbD_cut, width, decide_eq_true inWidth, Bool.true_and, value] at bit
  exact ⟨d, mem, bit⟩

end Sys2Proof.Machine

/-! ### IoCheck and the Interrupt check (44_io_interrupt_check.md R320 to R324): how their commands end -/

namespace Sys2Proof.Machine

/-! #### IOIN and IOOUT on answers that fit (R320 to R322) -/

/-- A plan that ends in one move takes the last reply for that move. -/
theorem planAccepts_concat {c : Cfg} {ms : List Move} {m : Move} {ps : List Reply} {r : Reply} :
    planAccepts c (ms ++ [m]) (ps ++ [r]) = true ↔ planAccepts c ms ps = true ∧ m.accepts c r = true := by
  rw [planAccepts_append]
  constructor
  · rintro ⟨qs, rs, split, first, last⟩
    obtain ⟨q, rfl, accepts⟩ := planAccepts_singleton last
    obtain ⟨rfl, same⟩ := List.append_inj' split rfl
    obtain rfl := List.singleton_inj.mp same
    exact ⟨first, accepts⟩
  · rintro ⟨first, accepts⟩
    exact ⟨ps, [r], rfl, first, by simp [planAccepts, accepts]⟩

/-- On answers that fit, IOIN's body gives the masked value of its one read. -/
theorem inputEntry_run {idx : Byte} {e : InputEntry} {ps : List Reply} {r : Reply} {rest : List Raw} {s : State}
    (hi : s.EngineIdle) (accepted : planAccepts s.cfg (inputPlan idx e) (ps ++ [r]) = true)
    (script : s.script = planAnswers s.cfg (inputPlan idx e) (ps ++ [r]) ++ rest) :
    ∃ t, inputEntry idx e s = .ok (s.cfg.inputValue e (s.cfg.readValue e.address r)) t
      ∧ Ran s (inputPlan idx e) (ps ++ [r]) t ∧ t.script = rest := by
  rw [inputPlan] at accepted script ⊢
  obtain ⟨bank, read⟩ := planAccepts_concat.mp accepted
  rw [planAnswers_append (planAccepts_length bank), List.append_assoc] at script
  obtain ⟨t, switched, through, left, -⟩ := callBank_run bank script
  have hc : (setLa e.address t).cfg = s.cfg := through.cfg
  obtain ⟨u, ran, through', left', -⟩ := seqRead_run (s := setLa e.address t) (table := .input) (i := idx)
    (rest := rest) (through.engineIdle hi) (hc ▸ read) (by rw [hc]; simpa [planAnswers] using left)
  refine ⟨setActual (s.cfg.readValue e.address r) u, ?_, (through.trans through'.after_work).then_work _, left'⟩
  rw [inputEntry, switched, Res.bind_ok, ran, Res.bind_ok, through'.cfg, hc]

/-- Settles O52: the one read of the input gives the reported value. -/
theorem ioInCompletes : Obligations.IoInCompletes := by
  intro s idx e ps r rest idled hi found accepted script
  obtain ⟨t, ran, through, left⟩ := inputEntry_run hi accepted script
  obtain ⟨u, ended, completed⟩ :=
    (ioin_hasBody found).finished idled hi (by rw [reporting, ran, Res.bind_ok]) through left
  exact ⟨u, _, ended, rfl, completed⟩

/-- Settles O53: the write of the output performs its plan. -/
theorem ioOutCompletes : Obligations.IoOutCompletes := by
  rintro s idx active e v ps rest idled hi found rfl accepted script
  exact (ioout_hasBody found).completes (outputEntry_performs idx active e) (movesOf_atSpot _ _ _ _) (fun _ => rfl)
    idled hi accepted script

/-! #### Parts that end idle, however they end -/

/-- A part ended on an idle engine: its events recorded and its answers used up. -/
structure Passed (s : State) (es : List Event) (rest : List Raw) (t : State) : Prop extends Stopped s es rest t where
  engineIdle : t.EngineIdle

theorem Passed.refl {s : State} {rest : List Raw} (hi : s.EngineIdle) (script : s.script = rest) :
    Passed s [] rest s :=
  ⟨⟨Within.refl s, (List.append_nil _).symm, script⟩, hi⟩

theorem Passed.trans {s t u : State} {es fs : List Event} {rest rest' : List Raw} (h : Passed s es rest t)
    (k : Passed t fs rest' u) : Passed s (es ++ fs) rest' u :=
  ⟨⟨h.toWithin.trans k.toWithin, by rw [k.events, h.events, List.append_assoc], k.answersLeft⟩, k.engineIdle⟩

theorem Transacted.passed {s t : State} {es : List Event} {rest : List Raw} (h : Transacted s es rest t) :
    Passed s es rest t :=
  ⟨⟨h.toWithin, h.events, h.answersLeft⟩, h.engineIdle⟩

theorem Calm.passed {s t : State} {rest : List Raw} (h : Calm s t) (hi : s.EngineIdle) (left : t.script = rest) :
    Passed s [] rest t :=
  ⟨⟨h.toWithin, h.traceKept.trans (List.append_nil _).symm, left⟩, h.engineIdle hi⟩

/-- The end of a command, its record written or by trap entry. -/
theorem Passed.completed {s : State} {x : Res Result} {es : List Event} {rest : List Raw}
    (h : Passed s es rest x.state) : Completed s (complete x) (complete x).result es rest where
  toCarried := h.toCarried.trans (complete_carried x)
  result := rfl
  results := by rw [complete_results, h.results]
  events := by cases x <;> exact h.events
  answersLeft := by cases x <;> exact h.answersLeft
  engineIdle := by
    cases x with
    | ok r t => exact h.engineIdle
    | raise r t => exact ⟨rfl, rfl, rfl⟩

variable {α β : Type} {c : Cfg} {answers more : List Raw} {es fs : List Event}

/-- On these answers of the Board a part begun on the idle engine of a configuration comes to this outcome, `.ok a` or
`.raise r`, with these events, and leaves the engine idle. -/
def Yields (c : Cfg) (body : State → Res α) (answers : List Raw) (outcome : State → Res α) (es : List Event) : Prop :=
  ∀ s rest, s.cfg = c → s.EngineIdle → s.script = answers ++ rest → ∃ t, body s = outcome t ∧ Passed s es rest t

theorem Yields.ok (a : α) : Yields c (.ok a) [] (.ok a) [] :=
  fun s _ _ hi script => ⟨s, rfl, Passed.refl hi script⟩

theorem Yields.bind {x : State → Res α} {f : α → State → Res β} {a : α} {outcome : State → Res β}
    (hx : Yields c x answers (.ok a) es) (hf : Yields c (f a) more outcome fs) :
    Yields c (fun s => (x s).bind f) (answers ++ more) outcome (es ++ fs) := by
  intro s rest hc hi script
  rw [List.append_assoc] at script
  obtain ⟨t, ran, passed⟩ := hx s _ hc hi script
  obtain ⟨u, ran', passed'⟩ := hf t rest (passed.cfg.trans hc) passed.engineIdle passed.answersLeft
  exact ⟨u, by dsimp only; rw [ran, Res.bind_ok, ran'], passed.trans passed'⟩

theorem Yields.bind_raise {x : State → Res α} {r : Result} (hx : Yields c x answers (.raise r) es)
    (f : α → State → Res β) : Yields c (fun s => (x s).bind f) answers (.raise r) es := by
  intro s rest hc hi script
  obtain ⟨t, ran, passed⟩ := hx s rest hc hi script
  exact ⟨t, by dsimp only; rw [ran, Res.bind_raise], passed⟩

theorem Yields.after_setStep {x : State → Res α} {outcome : State → Res α} (v : BitVec 2)
    (h : Yields c x answers outcome es) : Yields c (fun s => x (setStep v s)) answers outcome es := by
  intro s rest hc hi script
  obtain ⟨t, ran, passed⟩ := h (setStep v s) rest hc hi script
  exact ⟨t, ran, passed.toStopped.after_work, passed.engineIdle⟩

/-! #### The three steps of INTCHK (R323) -/

/-- The first step of INTCHK as a part of its own: the wait for the line. -/
def lineStep (idx : Byte) (l : Line) (timeout : Word) (s : State) : Res Unit :=
  match waitLine l true timeout s with
  | (true, t) => .ok () t
  | (false, t) => .raise (atLineStep idx 1 (Result.error .timeout .lineTimeout)) t

/-- INTCHK is its three steps in sequence. -/
theorem interruptSteps_eq (idx : Byte) (l : Line) (extVec : Bool) (timeout : Word) (vector : Byte) :
    interruptSteps idx l extVec timeout vector = fun s => (lineStep idx l timeout (setStep 1 s)).bind fun _ t =>
      (vectorStep idx extVec vector (setStep 2 t)).bind fun v u => clearStep idx l v (setStep 3 u) := by
  funext s
  rw [interruptSteps, lineStep]
  rcases waitLine l true timeout (setStep 1 s) with ⟨_ | _, t⟩ <;> rfl

section
variable {idx : Byte} {l : Line} {timeout : Word} {vector v : Byte} {extVec : Bool} {misses rest : List Raw} {x : Raw}

/-! ##### Step 1: the line -/

theorem waitLine_passed {level seen : Bool} {s t : State} (hi : s.EngineIdle)
    (waited : waitLine l level timeout s = (seen, t)) (left : t.script = rest) : Passed s [] rest t := by
  have calm := waitLine_calm l level timeout s
  rw [waited] at calm
  exact calm.passed hi left

theorem lineStep_active (idx : Byte) (few : misses.length < c.samples timeout)
    (inactive : ∀ y ∈ misses, lineLevelOf c l y = false) (active : lineLevelOf c l x = true) :
    Yields c (lineStep idx l timeout) (misses ++ [x]) (.ok ()) [] := by
  rintro s rest rfl hi script
  rw [List.append_assoc] at script
  have waited := waitLine_hits (fun y mem => Bool.eq_false_iff.mp (inactive y mem)) active few script
  exact ⟨_, by rw [lineStep, waited], waitLine_passed hi waited rfl⟩

theorem lineStep_inactive (idx : Byte) (all : misses.length = c.samples timeout)
    (inactive : ∀ y ∈ misses, lineLevelOf c l y = false) :
    Yields c (lineStep idx l timeout) misses (.raise (atLineStep idx 1 (Result.error .timeout .lineTimeout))) [] := by
  rintro s rest rfl hi script
  have waited := waitLine_misses (fun y mem => Bool.eq_false_iff.mp (inactive y mem)) all script
  exact ⟨_, by rw [lineStep, waited], waitLine_passed hi waited rfl⟩

/-! ##### Step 2: the acknowledge and its vector -/

theorem vectorStep_not_asked (idx vector : Byte) : Yields c (vectorStep idx false vector) [] (.ok 0) [] := Yields.ok 0

theorem vectorStep_noVector (idx vector : Byte) (lacks : c.ackKind = .none) :
    Yields c (vectorStep idx true vector) []
      (.raise (atLineStep idx 2 (Result.error .unimplemented .noVector))) [] := by
  rintro s rest rfl hi script
  exact ⟨s, by rw [vectorStep, if_pos rfl, if_pos lacks], Passed.refl hi script⟩

/-- A family that acknowledges runs its acknowledge, and compares the vector. -/
theorem vectorStep_of_acks (idx vector : Byte) {s : State} (acks : s.cfg.ackKind ≠ .none) :
    vectorStep idx true vector s = ((ackFsm s).onRaise (atLineStep idx 2)).bind fun v t =>
      if v = vector then .ok v t
      else .raise (atLineStep idx 2 (Result.mismatch .vectorMismatch (vector.zeroExtend 32) (v.zeroExtend 32))) t := by
  rw [vectorStep, if_pos rfl, if_neg acks]

theorem vectorStep_stops (idx vector : Byte) {level : Raw} {why : Info} (acks : c.ackKind ≠ .none)
    (stops : AckStops c level why answers es) :
    Yields c (vectorStep idx true vector) answers (.raise (atLineStep idx 2 (Result.error .timeout why))) es := by
  rintro s rest rfl hi script
  obtain ⟨t, ran, transacted⟩ := ackFsm_stops hi acks stops script
  exact ⟨t, by rw [vectorStep_of_acks idx vector acks, ran, Res.onRaise_raise, Res.bind_raise], transacted.passed⟩

theorem vectorStep_right (idx : Byte) {a : AckReply} (acks : c.ackKind ≠ .none) (fits : a.fits c = true)
    (right : a.vector c = vector) :
    Yields c (vectorStep idx true vector) (a.answers c) (.ok vector) (a.events c) := by
  rintro s rest rfl hi script
  obtain ⟨t, ran, transacted⟩ := ackFsm_completes hi fits script
  exact ⟨t, by rw [vectorStep_of_acks idx vector acks, ran, Res.onRaise_ok, Res.bind_ok, if_pos right, right],
    transacted.passed⟩

theorem vectorStep_wrong (idx : Byte) {a : AckReply} (acks : c.ackKind ≠ .none) (fits : a.fits c = true)
    (wrong : a.vector c ≠ vector) :
    Yields c (vectorStep idx true vector) (a.answers c)
      (.raise (atLineStep idx 2
        (Result.mismatch .vectorMismatch (vector.zeroExtend 32) ((a.vector c).zeroExtend 32)))) (a.events c) := by
  rintro s rest rfl hi script
  obtain ⟨t, ran, transacted⟩ := ackFsm_completes hi fits script
  exact ⟨t, by rw [vectorStep_of_acks idx vector acks, ran, Res.onRaise_ok, Res.bind_ok, if_neg wrong],
    transacted.passed⟩

/-! ##### Step 3: the one sample after it -/

theorem clearStep_inactive (idx v : Byte) (inactive : lineLevelOf c l x = false) :
    Yields c (clearStep idx l v) [x] (.ok ((Result.value32 (v.zeroExtend 32)).inTable .line idx)) [] := by
  rintro s rest rfl hi script
  have waited := waitLine_misses (l := l) (level := true) (timeout := 0) (misses := [x]) (by simp [inactive])
    s.cfg.samples_zero.symm script
  exact ⟨_, by rw [clearStep, waited], waitLine_passed hi waited rfl⟩

theorem clearStep_active (idx v : Byte) (active : lineLevelOf c l x = true) :
    Yields c (clearStep idx l v) [x] (.raise (atLineStep idx 3 (Result.error .unexpected .lineStillActive))) [] := by
  rintro s rest rfl hi script
  have oneSample : ([] : List Raw).length < s.cfg.samples 0 := s.cfg.samples_zero ▸ Nat.one_pos
  have waited := waitLine_hits (misses := []) nofun active oneSample script
  exact ⟨_, by rw [clearStep, waited], waitLine_passed hi waited rfl⟩

/-! ##### The steps in sequence -/

theorem interruptSteps_line_raises {r : Result} (extVec : Bool) (vector : Byte)
    (line : Yields c (lineStep idx l timeout) answers (.raise r) es) :
    Yields c (interruptSteps idx l extVec timeout vector) answers (.raise r) es := by
  rw [interruptSteps_eq]
  exact (line.after_setStep 1).bind_raise _

theorem interruptSteps_vector_raises {r : Result} (line : Yields c (lineStep idx l timeout) answers (.ok ()) [])
    (acknowledged : Yields c (vectorStep idx extVec vector) more (.raise r) es) :
    Yields c (interruptSteps idx l extVec timeout vector) (answers ++ more) (.raise r) es := by
  rw [interruptSteps_eq]
  exact (line.after_setStep 1).bind ((acknowledged.after_setStep 2).bind_raise _)

/-- Past its first two steps INTCHK ends as its last sample says. -/
theorem interruptSteps_clear {outcome : State → Res Result}
    (line : Yields c (lineStep idx l timeout) answers (.ok ()) [])
    (acknowledged : Yields c (vectorStep idx extVec vector) more (.ok v) es)
    (clear : Yields c (clearStep idx l v) [x] outcome []) :
    Yields c (interruptSteps idx l extVec timeout vector) (answers ++ (more ++ [x])) outcome es := by
  rw [interruptSteps_eq, ← List.append_nil es]
  exact (line.after_setStep 1).bind ((acknowledged.after_setStep 2).bind (clear.after_setStep 3))

/-- INTCHK on a line the family has reports what its steps end with. -/
theorem exec_intchk_completed {s : State} {r : Result} {outcome : State → Res Result} (idled : s.idled = true)
    (hi : s.EngineIdle) (line : s.cfg.lineAt idx = some l)
    (steps : Yields s.cfg (interruptSteps idx l extVec timeout vector) answers outcome es)
    (reports : ∀ t, (outcome t).state = t ∧ (complete (outcome t)).result = r) (script : s.script = answers ++ rest) :
    ∃ t, exec (.intchk idx extVec timeout vector) s = .next t ∧ Completed s t r es rest := by
  obtain ⟨t, ran, passed⟩ := steps s rest rfl hi script
  obtain ⟨left, reported⟩ := reports t
  refine ⟨complete (outcome t), ?_, reported ▸ Passed.completed (left.symm ▸ passed)⟩
  rw [exec, execIntchk, guarded_of_idled idled]
  simp only [line, ran]

end

/-- Settles O55: each of the three steps runs to its end. -/
theorem intChkCompletes : Obligations.IntChkCompletes := by
  intro s idx timeout vector l misses hit off rest idled hi line few inactive active cleared
  have seen := lineStep_active idx few inactive active
  refine ⟨fun script => ?_, fun a acks fits right script => ?_⟩
  · exact exec_intchk_completed idled hi line
      (interruptSteps_clear seen (vectorStep_not_asked idx vector) (clearStep_inactive idx 0 cleared))
      (fun _ => ⟨rfl, rfl⟩) (by simpa using script)
  · exact exec_intchk_completed idled hi line
      (interruptSteps_clear seen (vectorStep_right idx acks fits right) (clearStep_inactive idx vector cleared))
      (fun _ => ⟨rfl, rfl⟩) (by simpa using script)

/-- Settles O56: the steps before the one that finds the fault run to their end, and that step raises its record. -/
theorem intChkFailures : Obligations.IntChkFailures := by
  intro s idx extVec timeout vector l misses hit on rest idled hi line inactive active stillActive
  refine ⟨fun all script => ?notSeen, fun few => ?seen⟩
  case notSeen =>
    exact exec_intchk_completed idled hi line
      (interruptSteps_line_raises extVec vector (lineStep_inactive idx all inactive)) (fun _ => ⟨rfl, rfl⟩) script
  case seen =>
    have seen := lineStep_active idx few inactive active
    refine ⟨fun lacks script => ?noVector, fun level why answers events acks stops script => ?timesOut,
      fun a acks fits wrong script => ?wrongVector, fun script => ?activeUnasked,
      fun a acks fits right script => ?activeAcknowledged⟩
    case noVector =>
      exact exec_intchk_completed idled hi line
        (interruptSteps_vector_raises seen (vectorStep_noVector idx vector lacks)) (fun _ => ⟨rfl, rfl⟩)
        (by simpa using script)
    case timesOut =>
      exact exec_intchk_completed idled hi line
        (interruptSteps_vector_raises seen (vectorStep_stops idx vector acks stops)) (fun _ => ⟨rfl, rfl⟩)
        (by simpa using script)
    case wrongVector =>
      exact exec_intchk_completed idled hi line
        (interruptSteps_vector_raises seen (vectorStep_wrong idx acks fits wrong)) (fun _ => ⟨rfl, rfl⟩)
        (by simpa using script)
    case activeUnasked =>
      exact exec_intchk_completed idled hi line
        (interruptSteps_clear seen (vectorStep_not_asked idx vector) (clearStep_active idx 0 stillActive))
        (fun _ => ⟨rfl, rfl⟩) (by simpa using script)
    case activeAcknowledged =>
      exact exec_intchk_completed idled hi line
        (interruptSteps_clear seen (vectorStep_right idx acks fits right) (clearStep_active idx vector stillActive))
        (fun _ => ⟨rfl, rfl⟩) (by simpa using script)

end Sys2Proof.Machine

/-! ### Errors (60_exceptions.md): how every command ends, what its record says, and which commands report a Mismatch or
an Unexpected -/

namespace Sys2Proof.Machine

/-! #### Every command ends, with one record (R366, R367, R373) -/

theorem guarded_ends (s : State) (body : State → Res Result) : ∃ t, guarded s body = .next t := by
  rcases guarded_next s body with ⟨-, ended⟩ | ⟨-, refused⟩
  · exact ⟨_, ended⟩
  · exact ⟨_, refused⟩

/-- Every command but IDLE and CHECK is a body under the guard (40_contract.md R151). -/
theorem exec_eq_guarded {i : Instr} (notIdle : i ≠ .idle) (notCheck : i ≠ .check) :
    ∃ body, ∀ s, exec i s = guarded s body := by
  cases i with
  | idle => exact absurd rfl notIdle
  | check => exact absurd rfl notCheck
  | _ => exact ⟨_, fun _ => rfl⟩

theorem exec_check_of_idled {s : State} (idled : s.idled = true) :
    exec .check s = .next (checkEnd (testItems s.cfg.checkItems s)) := if_pos idled

/-- Settles O17: IDLE always ends, CHECK ends by its tests or its refusal, and so does every body under its guard. -/
theorem everyCommandEnds : Obligations.EveryCommandEnds := by
  intro i s
  by_cases idle : i = .idle
  · exact ⟨_, idle ▸ exec_idle_eq s⟩
  by_cases check : i = .check
  · subst check
    cases idled : s.idled with
    | true => exact ⟨_, exec_check_of_idled idled⟩
    | false => exact ⟨_, exec_refused idled idle⟩
  obtain ⟨body, ran⟩ := exec_eq_guarded idle check
  exact ran s ▸ guarded_ends s body

/-- Settles O15: the step is the refusal, which advances the pc. -/
theorem notIdledIsRefused : Obligations.NotIdledIsRefused := by
  intro s f i fetched decoded notIdle notIdled
  rw [step_of_decode fetched decoded, exec_refused notIdled notIdle]
  rfl

theorem CommandEnd.advance_record {s t : State} (h : CommandEnd s t) :
    (advance t).results = s.results ++ [(advance t).result] ∧ (advance t).pc = s.pc + 1
      ∧ (advance t).cfg = s.cfg ∧ (advance t).program = s.program :=
  ⟨h.results, congrArg (· + 1) h.pc, h.cfg, h.program⟩

/-- Settles O16: the refusal of an illegal frame and every command end with one record, and the step then advances. -/
theorem oneRecordPerStep : Obligations.OneRecordPerStep := by
  intro s t hs h
  rcases step_shape s t h with rfl | ⟨i, u, ran, rfl⟩
  · exact (refuse_commandEnd .illegalCommand hs).advance_record
  · exact (exec_commandEnd hs ran).advance_record

/-! #### Errors are precise (R350, R361, R364) -/

theorem Precise.of_noAbort {r : Result} {es : List Event} (code : r.code ≠ .success) (info : r.info ≠ .none)
    (ack : r.info ≠ .ackTimeout) (clean : NoAbort es) : Precise r es :=
  ⟨code, info, fun _ => clean, fun timedOut => absurd timedOut ack⟩

theorem NoAbort.nil : NoAbort [] := nofun

/-- A record of Success and no reason after events without an Abort, or a record that is precise. -/
def EndsPrecisely (r : Result) (es : List Event) : Prop :=
  (r.code = .success ∧ r.info = .none ∧ NoAbort es) ∨ Precise r es

theorem newEvents_of_trace_eq {s t : State} (h : t.trace = s.trace) : newEvents s t = [] :=
  newEvents_of_eq (h.trans (List.append_nil _).symm)

theorem newEvents_complete (s : State) (x : Res Result) : newEvents s (complete x) = newEvents s x.state := by
  cases x <;> rfl

theorem Course.endsPrecisely {n : Nat} {s : State} {x : Res Result} (course : Course n s x) (success : Completes x) :
    EndsPrecisely (complete x).result (newEvents s (complete x)) := by
  rw [newEvents_complete]
  cases x with
  | ok r t =>
    obtain ⟨code, info⟩ := success r t rfl
    exact .inl ⟨code, info, (course.completed r t rfl).1⟩
  | raise r t => exact .inr (course.raised r t rfl)

theorem checkEnd_endsPrecisely (x : Option PinFailure × State) : EndsPrecisely (checkEnd x).result [] := by
  rcases x with ⟨_ | failure, t⟩
  · exact .inl ⟨rfl, rfl, NoAbort.nil⟩
  · exact .inr (Precise.of_noAbort nofun nofun nofun NoAbort.nil)

/-- Every command's record says of its events what R350 and R364 ask. -/
theorem exec_endsPrecisely {i : Instr} {s t : State} (hs : s.Inv) (ran : exec i s = .next t) :
    EndsPrecisely t.result (newEvents s t) := by
  rcases exec_shape i s hs with ⟨-, shape⟩ | ⟨-, -, shape⟩ | ⟨idled, -, shape⟩ | ⟨-, -, -, x, shape, course, success⟩
  all_goals cases shape.symm.trans ran
  · have silent : newEvents s (finish Result.blank (idleState s)) = [] :=
      newEvents_of_trace_eq (by rw [finish_trace, idleState_eq])
    exact .inl ⟨rfl, rfl, silent ▸ NoAbort.nil⟩
  · have silent : newEvents s (refuse .notIdled s) = [] := newEvents_of_trace_eq rfl
    rw [silent]
    exact .inr (Precise.of_noAbort nofun nofun nofun NoAbort.nil)
  · obtain ⟨-, -, silent, -⟩ := checkEnd_quiet s.cfg.checkItems s ⟨hs.pinsIdle idled, hs.betweenCycles⟩
    rw [silent]
    exact checkEnd_endsPrecisely _
  · exact course.endsPrecisely success

/-- Settles O18: a precise record has a code and a reason, every other record is Success with none. -/
theorem successHasNoReason : Obligations.SuccessHasNoReason := by
  intro i s t hs ran
  rcases exec_endsPrecisely hs ran with ⟨code, info, -⟩ | ⟨code, info, -, -⟩
  · exact iff_of_true code info
  · exact iff_of_false code info

/-- Settles O59: a precise record is an AckTimeout exactly where an Abort stands last, and after a Success none
stands. -/
theorem abortIffAckTimeout : Obligations.AbortIffAckTimeout := by
  intro i s t hs ran
  rcases exec_endsPrecisely hs ran with ⟨-, info, clean⟩ | ⟨-, -, others, timedOut⟩
  · exact ⟨fun _ => clean, fun ack => absurd (info.symm.trans ack) nofun⟩
  · exact ⟨others, timedOut⟩

/-! #### A failed CHECK (R363) -/

theorem clockFailure_names {seen : ClockSeen} {failure : PinFailure} (failed : clockFailure seen = some failure) :
    failure.item = .clock := by
  cases seen <;> cases failed <;> rfl

theorem pinFailure_names {item : CheckItem} {level : Bool} {failure : PinFailure}
    (failed : pinFailure item level = some failure) : failure.item = item := by
  rw [pinFailure] at failed
  split at failed <;> cases failed
  rfl

theorem testItem_names {item : CheckItem} {failure : PinFailure} {s t : State}
    (failed : testItem item s = (some failure, t)) : failure.item = item := by
  cases item with
  | clock => exact clockFailure_names (Prod.mk.inj failed).1
  | _ => exact pinFailure_names (Prod.mk.inj failed).1

/-- The item a CHECK reports is one it was to test (40_contract.md R153). -/
theorem testItems_names {items : List CheckItem} {failure : PinFailure} {s t : State}
    (failed : testItems items s = (some failure, t)) : failure.item ∈ items := by
  induction items generalizing s with
  | nil => cases failed
  | cons item rest ih =>
    rw [testItems] at failed
    rcases tested : testItem item s with ⟨_ | first, u⟩ <;> rw [tested] at failed
    · exact List.mem_cons_of_mem item (ih failed)
    · cases failed
      exact testItem_names tested ▸ List.mem_cons_self

/-- Settles O21: a failed CHECK holds its item and leaves the engine not idled, so all but IDLE are refused. -/
theorem failedCheckForcesIdle : Obligations.FailedCheckForcesIdle := by
  intro s t idled ran failed
  cases (exec_check_of_idled idled).symm.trans ran
  rcases tested : testItems s.cfg.checkItems s with ⟨_ | failure, u⟩ <;> rw [tested] at failed
  · exact absurd rfl failed
  · refine ⟨⟨failure.item, testItems_names tested, rfl, rfl⟩, rfl, fun i notIdle => ?_, ?_⟩
    · exact ⟨_, exec_refused rfl notIdle, rfl, rfl, rfl, rfl, rfl⟩
    · exact ⟨_, exec_idle_eq _, rfl, ⟨rfl, rfl, rfl⟩, rfl⟩

/-! #### Who reports a Mismatch or an Unexpected (R352, R354, R374) -/

/-- A record's Mismatch has one of these reasons, and its Unexpected is one of these records. -/
structure Faults (reasons : List Info) (unexpected : Result → Prop) (r : Result) : Prop where
  mismatch : r.code = .mismatch → r.info ∈ reasons
  unexpected : r.code = .unexpected → unexpected r

section
variable {reasons : List Info} {unexpected : Result → Prop} {r : Result}

theorem Faults.of_code (notMismatch : r.code ≠ .mismatch) (notUnexpected : r.code ≠ .unexpected) :
    Faults reasons unexpected r :=
  ⟨fun code => absurd code notMismatch, fun code => absurd code notUnexpected⟩

theorem Faults.of_timeout (code : r.code = .timeout) : Faults reasons unexpected r :=
  .of_code (code ▸ nofun) (code ▸ nofun)

theorem Faults.of_unimplemented (code : r.code = .unimplemented) : Faults reasons unexpected r :=
  .of_code (code ▸ nofun) (code ▸ nofun)

end

/-- The records of a sequencer whose own Mismatches have these reasons; its bank switches may answer any code (R374). -/
abbrev SequencerFaults (own : List Info) : Result → Prop :=
  Faults (own ++ [.bankSwitchFailed]) (·.info = .bankSwitchFailed)

/-- The records of INTCHK: a vector that differs, and step 3 finding the line still active (R323). -/
abbrev InterruptFaults (line : Byte) : Result → Prop :=
  Faults [.vectorMismatch] (· = atLineStep line 3 (Result.error .unexpected .lineStillActive))

/-- The Mismatch and Unexpected records of each command (R352, R354, R374). -/
def FaultsOf : Instr → Result → Prop
  | .check => Faults [.pinMismatch] fun _ => False
  | .romall | .romchk _ => SequencerFaults [.dataMismatch, .crcMismatch]
  | .rammarch _ _ | .ramcs _ | .ramaddr _ => SequencerFaults [.dataMismatch]
  | .romraw | .romcrc _ | .ramfill _ _ | .ramread _ | .ioin _ | .ioout _ _ => SequencerFaults []
  | .intchk line _ _ _ => InterruptFaults line
  | .idle | .busw _ | .accw _ | .mrd _ | .mwr _ _ | .wint _ _ _ | .iack => Faults [] fun _ => False

theorem FaultsOf.of_code {i : Instr} {r : Result} (notMismatch : r.code ≠ .mismatch)
    (notUnexpected : r.code ≠ .unexpected) : FaultsOf i r := by
  cases i <;> exact Faults.of_code notMismatch notUnexpected

/-! ##### What the parts of a command raise -/

theorem IsCycleTimeout.code {r : Result} (h : IsCycleTimeout r) : r.code = .timeout := by
  rcases h with rfl | rfl | rfl | rfl <;> rfl

theorem directCycle_faults {reasons : List Info} {unexpected : Result → Prop} {kind : CycleKind} {addr : Word}
    {w : Access → Datum} {s : State} : Raises (Faults reasons unexpected) (directCycle kind addr w s) := by
  refine (directCycle_raises kind addr w s).mono ?_
  rintro r ⟨r', rfl, timedOut | ⟨e, rfl, -⟩⟩
  · exact .of_timeout timedOut.code
  · exact .of_unimplemented rfl

theorem Raises.ite {α : Type} {P : Result → Prop} {p : Prop} [Decidable p] {x y : Res α} (hx : Raises P x)
    (hy : Raises P y) : Raises P (if p then x else y) := by
  split
  · exact hx
  · exact hy

theorem oneOf_raises {α β : Type} {P : Result → Prop} {table : List α} {tag : TableTag} {idx : Byte}
    {pass : α → State → Res β} {s : State} (outside : P (Result.indexRange tag idx)) (h : ∀ e, Raises P (pass e s)) :
    Raises P (oneOf table tag idx pass s) := by
  rw [oneOf]
  split
  · exact .raise outside
  · exact h _

theorem fullSet_raises {α : Type} {P : Result → Prop} {pass : Byte → α → State → Res Unit} (table : List α)
    (h : ∀ r e s, Raises P (pass r e s)) (s : State) : Raises P (fullSet table pass s) :=
  forEach_raises _ (fun _ _ => h _ _ _) s

section
variable {own : List Info}

theorem SequencerFaults.of_own {r : Result} (info : r.info ∈ own) (code : r.code ≠ .unexpected) :
    SequencerFaults own r :=
  ⟨fun _ => List.mem_append_left _ info, fun unexpected => absurd unexpected code⟩

/-- A failed bank switch may be either, an access neither. -/
theorem IsEntryError.faults {la : Word} {table : TableTag} {idx : Byte} {r : Result} (h : IsEntryError la table idx r) :
    SequencerFaults own r := by
  rcases h with bank | access
  · exact ⟨fun _ => bank ▸ List.mem_append_right own (List.mem_singleton_self _), fun _ => bank⟩
  · obtain ⟨timeout | unimplemented, -⟩ := access.located
    · exact .of_timeout timeout
    · exact .of_unimplemented unimplemented

theorem callBank_faults {table : TableTag} {r : Byte} {hasBank : Bool} {s : State} :
    Raises (SequencerFaults own) (callBank table r hasBank s) :=
  (callBank_raises_entryError 0 table r hasBank s).mono fun _ => IsEntryError.faults

theorem seqRead_faults {la : Word} {table : TableTag} {r : Byte} {s : State} :
    Raises (SequencerFaults own) (seqRead la table r s) :=
  (seqRead_raises la table r s).mono fun _ access => IsEntryError.faults (.inr access)

theorem seqWrite_faults {la : Word} {v : Datum} {table : TableTag} {r : Byte} {s : State} :
    Raises (SequencerFaults own) (seqWrite la v table r s) :=
  (seqWrite_raises la v table r s).mono fun _ access => IsEntryError.faults (.inr access)

/-- A single-region command, whose index may lie outside its table (R255). -/
theorem oneOf_faults {α β : Type} {table : List α} {tag : TableTag} {idx : Byte} {pass : α → State → Res β} {s : State}
    (h : ∀ e, Raises (SequencerFaults own) (pass e s)) : Raises (SequencerFaults own) (oneOf table tag idx pass s) :=
  oneOf_raises (.of_unimplemented rfl) h

/-! ###### RomCheck -/

theorem samplePass_faults (data : .dataMismatch ∈ own) {r : Byte} {rom : RomRegion} {s : State} :
    Raises (SequencerFaults own) (samplePass r rom s) := by
  refine callBank_faults.bind fun _ t => forEach_raises _ (fun _ _ => ?_) t
  exact seqRead_faults.bind fun _ _ => .ite (.ok _ _) (.raise (.of_own data nofun))

/-- A CRC pass that compares nothing reports no Mismatch of its own (42_rom_check.md R259, R264). -/
theorem crcPass_faults {compare : Bool} (crc : compare = true → .crcMismatch ∈ own) {r : Byte} {rom : RomRegion}
    {s : State} : Raises (SequencerFaults own) (crcPass r rom compare s) := by
  refine callBank_faults.bind fun _ t => (forEach_raises _ (fun _ _ => ?_) _).bind fun _ _ => ?_
  · exact seqRead_faults.bind fun _ _ => .ok _ _
  · split
    · next differs => exact .raise (.of_own (crc (Bool.and_eq_true_iff.mp differs).1) nofun)
    · exact .ok _ _

theorem rawPass_faults {r : Byte} {rom : RomRegion} {s : State} : Raises (SequencerFaults own) (rawPass r rom s) :=
  callBank_faults.bind fun _ t =>
    forEach_raises _ (fun _ _ => seqRead_faults.bind fun _ _ => .ok _ _) t

/-! ###### RamCheck -/

theorem writePattern_faults {r : Byte} {g : Geometry} {inverted : Bool} {seed : Word} {s : State} :
    Raises (SequencerFaults own) (writePattern r g inverted seed s) :=
  forEach_raises _ (fun _ _ => seqWrite_faults) _

theorem verifyPattern_faults (data : .dataMismatch ∈ own) {r : Byte} {g : Geometry} {m : Datum} {inverted : Bool}
    {step : BitVec 2} {seed : Word} {s : State} :
    Raises (SequencerFaults own) (verifyPattern r g m inverted step seed s) := by
  refine forEach_raises _ (fun _ _ => seqRead_faults.bind fun _ _ => ?_) _
  exact .ite (.ok _ _) (.raise (.of_own data nofun))

theorem marchRegion_faults (data : .dataMismatch ∈ own) {r : Byte} {seed : Word} {ram : RamRegion} {s : State} :
    Raises (SequencerFaults own) (marchRegion r seed ram s) := by
  refine callBank_faults.bind fun _ _ => Raises.bind ?_ fun _ _ => ?_
  all_goals exact writePattern_faults.bind fun _ _ => verifyPattern_faults data

theorem crossWrite_faults {seed : Word} {r : Byte} {ram : RamRegion} {s : State} :
    Raises (SequencerFaults own) (crossWrite seed r ram s) :=
  callBank_faults.bind fun _ _ => writePattern_faults

theorem crossVerify_faults (data : .dataMismatch ∈ own) {seed : Word} {r : Byte} {ram : RamRegion} {s : State} :
    Raises (SequencerFaults own) (crossVerify seed r ram s) :=
  callBank_faults.bind fun _ _ => verifyPattern_faults data

theorem fixedWriteStep_faults {r : Byte} {g : Geometry} {v : Datum} {i : Nat} {s : State} :
    Raises (SequencerFaults own) (fixedWriteStep r g v i s) :=
  seqWrite_faults

theorem boundaryReadStep_faults (data : .dataMismatch ∈ own) {r : Byte} {g : Geometry} {m : Datum} {j q : Nat}
    {s : State} : Raises (SequencerFaults own) (boundaryReadStep r g m j q s) :=
  seqRead_faults.bind fun _ _ => .ite (.ok _ _) (.raise (.of_own data nofun))

theorem boundaryStep_faults (data : .dataMismatch ∈ own) {r : Byte} {g : Geometry} {m : Datum} {j : Nat} {s : State} :
    Raises (SequencerFaults own) (boundaryStep r g m j s) :=
  fixedWriteStep_faults.bind fun _ _ =>
    (forEach_raises _ (fun _ _ => boundaryReadStep_faults data) _).bind fun _ _ => fixedWriteStep_faults

theorem boundaryRegion_faults (data : .dataMismatch ∈ own) {r : Byte} {ram : RamRegion} {s : State} :
    Raises (SequencerFaults own) (boundaryRegion r ram s) :=
  callBank_faults.bind fun _ _ =>
    (forEach_raises _ (fun _ _ => fixedWriteStep_faults) _).bind fun _ _ =>
      forEach_raises _ (fun _ _ => boundaryStep_faults data) _

theorem fillRegion_faults {r : Byte} {value : Datum} {ram : RamRegion} {s : State} :
    Raises (SequencerFaults own) (fillRegion r value ram s) :=
  callBank_faults.bind fun _ _ => forEach_raises _ (fun _ _ => fixedWriteStep_faults) _

theorem readRegion_faults {r : Byte} {ram : RamRegion} {s : State} :
    Raises (SequencerFaults own) (readRegion r ram s) :=
  callBank_faults.bind fun _ _ =>
    forEach_raises _ (fun _ _ => seqRead_faults.bind fun _ _ => .ok _ _) _

end

/-! ###### The Interrupt check -/

theorem lineStep_faults {line : Byte} {l : Line} {timeout : Word} {s : State} :
    Raises (InterruptFaults line) (lineStep line l timeout s) := by
  rw [lineStep]
  split
  · exact .ok _ _
  · exact .raise (.of_timeout rfl)

theorem vectorStep_faults {line : Byte} {extVec : Bool} {vector : Byte} {s : State} :
    Raises (InterruptFaults line) (vectorStep line extVec vector s) := by
  refine .ite (.ite (.raise (.of_unimplemented rfl)) ?_) (.ok _ _)
  have acknowledged := (ackFsm_raises s).onRaise (f := atLineStep line 2) (Q := InterruptFaults line) fun _ timedOut =>
    .of_timeout timedOut.code
  exact acknowledged.bind fun _ _ => .ite (.ok _ _) (.raise ⟨fun _ => List.mem_singleton_self _, nofun⟩)

/-! ##### What a command reports -/

/-- The record a command ends with, whether its body completed or raised it. -/
def Reports (P : Result → Prop) (x : Res Result) : Prop := P (complete x).result

theorem Reports.bind {α : Type} {P : Result → Prop} {x : Res α} {f : α → State → Res Result} (hx : Raises P x)
    (hf : ∀ a t, Reports P (f a t)) : Reports P (x.bind f) := by
  cases x with
  | ok a t => exact hf a t
  | raise r t => exact hx r t rfl

theorem guarded_reports {P : Result → Prop} {body : State → Res Result} {s t : State}
    (refused : P (Result.error .unimplemented .notIdled)) (reports : Reports P (body s))
    (ran : guarded s body = .next t) : P t.result := by
  rcases guarded_next s body with ⟨-, ended⟩ | ⟨-, ended⟩ <;> cases ended.symm.trans ran
  · exact reports
  · exact refused

/-- A body that completed reports Success. -/
theorem reports_success {i : Instr} {r : Result} (s : State) (code : r.code = .success) :
    Reports (FaultsOf i) (.ok r s) :=
  FaultsOf.of_code (show r.code ≠ _ from code ▸ nofun) (show r.code ≠ _ from code ▸ nofun)

theorem clearStep_reports (line : Byte) (l : Line) (v : Byte) (s : State) :
    Reports (InterruptFaults line) (clearStep line l v s) := by
  rw [clearStep]
  split
  · exact ⟨nofun, fun _ => rfl⟩
  · exact Faults.of_code nofun nofun

theorem interruptSteps_reports (line : Byte) (l : Line) (extVec : Bool) (timeout : Word) (vector : Byte) (s : State) :
    Reports (InterruptFaults line) (interruptSteps line l extVec timeout vector s) := by
  rw [interruptSteps_eq]
  exact .bind lineStep_faults fun _ _ => .bind vectorStep_faults fun _ _ => clearStep_reports ..

/-- Every command but IDLE and CHECK: a body under the guard that reports the command's records only. -/
theorem exec_body_faults {i : Instr} (notIdle : i ≠ .idle) (notCheck : i ≠ .check) :
    ∃ body, (∀ s, exec i s = guarded s body) ∧ ∀ s, Reports (FaultsOf i) (body s) := by
  have data : Info.dataMismatch ∈ [Info.dataMismatch] := List.mem_singleton_self _
  have romData : Info.dataMismatch ∈ [Info.dataMismatch, .crcMismatch] := List.mem_cons_self
  have romCrc : Info.crcMismatch ∈ [Info.dataMismatch, .crcMismatch] :=
    List.mem_cons_of_mem _ (List.mem_singleton_self _)
  cases i with
  | idle => exact absurd rfl notIdle
  | check => exact absurd rfl notCheck
  | busw addr | accw addr => exact ⟨_, fun _ => rfl, fun s => reports_success s rfl⟩
  | mrd addr | mwr addr data =>
    exact ⟨_, fun _ => rfl, fun s => .bind directCycle_faults fun _ t => reports_success t rfl⟩
  | wint line level timeout =>
    refine ⟨_, fun _ => rfl, fun s => ?_⟩
    split
    · exact Faults.of_unimplemented rfl
    · split
      · exact reports_success _ rfl
      · exact Faults.of_timeout rfl
  | iack =>
    exact ⟨_, fun _ => rfl, fun s => .bind ((ackFsm_raises s).mono fun _ timedOut => .of_timeout timedOut.code)
      fun _ t => reports_success t rfl⟩
  | romall =>
    exact ⟨_, fun _ => rfl, fun s => .bind (fullSet_raises _ (fun _ _ _ => (samplePass_faults romData).bind fun _ _ =>
      (crcPass_faults (fun _ => romCrc)).bind fun _ _ => .ok _ _) _) fun _ t => reports_success t rfl⟩
  | romchk region =>
    exact ⟨_, fun _ => rfl, fun s => .bind (oneOf_faults fun _ => (samplePass_faults romData).bind fun _ _ =>
      crcPass_faults (fun _ => romCrc)) fun _ t => reports_success t rfl⟩
  | romraw =>
    exact ⟨_, fun _ => rfl, fun s => .bind (fullSet_raises _ (fun _ _ _ => rawPass_faults) _) fun _ t =>
      reports_success t rfl⟩
  | romcrc region =>
    exact ⟨_, fun _ => rfl, fun s => .bind (oneOf_faults fun _ => crcPass_faults (compare := false) nofun) fun _ t =>
      reports_success t rfl⟩
  | rammarch region seed =>
    exact ⟨_, fun _ => rfl, fun s => .bind (oneOf_faults fun _ => marchRegion_faults data) fun _ t =>
      reports_success t rfl⟩
  | ramcs seed =>
    exact ⟨_, fun _ => rfl, fun s => .bind (fullSet_raises _ (fun _ _ _ => crossWrite_faults) _) fun _ _ =>
      .bind (fullSet_raises _ (fun _ _ _ => crossVerify_faults data) _) fun _ t => reports_success t rfl⟩
  | ramaddr region =>
    exact ⟨_, fun _ => rfl, fun s => .bind (oneOf_faults fun _ => boundaryRegion_faults data) fun _ t =>
      reports_success t rfl⟩
  | ramfill region value =>
    exact ⟨_, fun _ => rfl, fun s => .bind (oneOf_faults fun _ => fillRegion_faults) fun _ t =>
      reports_success t rfl⟩
  | ramread region =>
    exact ⟨_, fun _ => rfl, fun s => .bind (oneOf_faults fun _ => readRegion_faults) fun _ t =>
      reports_success t rfl⟩
  | ioin input =>
    exact ⟨_, fun _ => rfl, fun s => .bind (oneOf_faults fun e => (inputEntry_raises input e _).mono fun _ =>
      IsEntryError.faults) fun _ t => reports_success t rfl⟩
  | ioout output active =>
    exact ⟨_, fun _ => rfl, fun s => .bind (oneOf_faults fun e => (outputEntry_raises output active e _).mono fun _ =>
      IsEntryError.faults) fun _ t => reports_success t rfl⟩
  | intchk line extVec timeout vector =>
    refine ⟨_, fun _ => rfl, fun s => ?_⟩
    split
    · exact Faults.of_unimplemented rfl
    · exact interruptSteps_reports ..

theorem checkEnd_faults (x : Option PinFailure × State) : FaultsOf .check (checkEnd x).result := by
  rcases x with ⟨_ | failure, t⟩
  · exact Faults.of_code nofun nofun
  · exact ⟨fun _ => List.mem_singleton_self _, nofun⟩

/-- Every command in every state: a refusal and a Success report neither code, a failure only the command's own
records. -/
theorem exec_faults {i : Instr} {s t : State} (ran : exec i s = .next t) : FaultsOf i t.result := by
  have refused : FaultsOf i (Result.error .unimplemented .notIdled) := FaultsOf.of_code nofun nofun
  by_cases idle : i = .idle
  · subst idle
    cases (exec_idle_eq s).symm.trans ran
    exact FaultsOf.of_code nofun nofun
  by_cases check : i = .check
  · subst check
    cases idled : s.idled with
    | true =>
      cases (exec_check_of_idled idled).symm.trans ran
      exact checkEnd_faults _
    | false =>
      cases (exec_refused idled idle).symm.trans ran
      exact refused
  obtain ⟨body, guards, reports⟩ := exec_body_faults idle check
  exact guarded_reports refused (reports s) ((guards s).symm.trans ran)

/-- Settles O19: the reasons of a Mismatch, command by command. -/
theorem whoRaisesMismatch : Obligations.WhoRaisesMismatch := by
  intro i s t ran code
  have faults := exec_faults ran
  cases i <;> simpa using Faults.mismatch faults code

/-- Settles O20: an Unexpected is step 3's record or a bank switch's. -/
theorem whoRaisesUnexpected : Obligations.WhoRaisesUnexpected := by
  intro i s t ran code
  have faults := exec_faults ran
  cases i with
  | intchk line extVec timeout vector =>
    have stillActive := Faults.unexpected faults code
    rw [stillActive]
    exact ⟨rfl, rfl, rfl, rfl⟩
  | _ => exact Faults.unexpected faults code

end Sys2Proof.Machine

/-! ### Where a run stops, and how many bus cycles a command performs (70_reset_and_hazards.md R403, R412) -/

namespace Sys2Proof.Machine

/-! #### The end of the command list (R403) -/

/-- Where the list has a frame a step has a next state, since the refusal of a frame and every command end. -/
theorem step_next_of_fetched {s : State} {f : Frame} (fetched : s.program[s.pc]? = some f) :
    ∃ t, step s = .next t := by
  cases decoded : decode f with
  | error e => exact ⟨_, by simp only [step, State.fetch, fetched, decoded]; rfl⟩
  | ok i =>
    obtain ⟨t, ran⟩ := everyCommandEnds i s
    exact ⟨advance t, by rw [step_of_decode fetched decoded, ran]; rfl⟩

theorem step_of_not_fetched {s : State} (ended : s.program[s.pc]? = none) : step s = .fault .runEnded := by
  simp only [step, State.fetch, ended]

/-- Settles O8: without a frame at the pc the step is the fault, with one it has a next state. -/
theorem runEndsAfterLastCommand : Obligations.RunEndsAfterLastCommand := by
  intro s
  rw [← List.getElem?_eq_none_iff]
  refine ⟨fun stopped => ?_, step_of_not_fetched⟩
  cases fetched : s.program[s.pc]? with
  | none => rfl
  | some f =>
    obtain ⟨t, stepped⟩ := step_next_of_fetched fetched
    cases stepped.symm.trans stopped

/-! #### Bus cycles on a path with no error (R412) -/

/-- A raised record is no Success, so a Success is the record of a body that raised nothing. -/
theorem Course.cycles_of_success {n : Nat} {s : State} {x : Res Result} (course : Course n s x)
    (success : (complete x).result.code = .success) : cycles (newEvents s (complete x)) = n := by
  rw [newEvents_complete]
  cases x with
  | ok r t => exact (course.completed r t rfl).2
  | raise r t =>
    obtain ⟨noSuccess, -⟩ := course.raised r t rfl
    exact absurd success noSuccess

theorem cycles_of_trace_eq {s t : State} (kept : t.trace = s.trace) : cycles (newEvents s t) = 0 :=
  congrArg cycles (newEvents_of_trace_eq kept)

/-- Settles O60: IDLE and CHECK leave the trace alone, a refusal is no Success, and every other command follows a
course of exactly its cycles. -/
theorem exactCycleCounts : Obligations.ExactCycleCounts := by
  intro i s t hs ran success
  rcases exec_shape i s hs with ⟨rfl, shape⟩ | ⟨-, -, shape⟩ | ⟨idled, rfl, shape⟩ | ⟨-, -, -, x, shape, course, -⟩
  all_goals cases shape.symm.trans ran
  case inl => exact cycles_of_trace_eq (idleState_trace s)
  case inr.inl => exact absurd success nofun
  case inr.inr.inl =>
    obtain ⟨-, -, silent, -⟩ := checkEnd_quiet s.cfg.checkItems s ⟨hs.pinsIdle idled, hs.betweenCycles⟩
    exact congrArg cycles silent
  case inr.inr.inr => exact course.cycles_of_success success

end Sys2Proof.Machine

/-! ### The words of the spec's encoding vectors (30_encoding.md R114, R115, R118, 95_test_vectors.md 2.1) -/

namespace Sys2Proof

/-! #### A word that is the frame of a command -/

/-- R127: a frame decodes to the one command whose frame it is. -/
theorem decode_eq_ok_iff_encode {f : Frame} {i : Instr} : decode f = .ok i ↔ encode i = f := by
  refine ⟨encodeOfDecode f i, ?_⟩
  rintro rfl
  exact decodeOfEncode i

/-! #### The first check of R118 that a frame fails names its error -/

theorem decode_of_no_row {f : Frame} (noRow : opcodeRow (opField f) = none) :
    decode f = .error (.unknownOpcode (opField f)) := by
  simp only [decode, noRow]

section
variable {f : Frame} {row : OpcodeRow} (found : opcodeRow (opField f) = some row)
include found

theorem decode_of_reservedBits (rsv : rsvField f ≠ 0) : decode f = .error .reservedBits := by
  simp only [decode, found]
  rw [if_pos rsv]

theorem decode_of_nonzeroB (rsv : rsvField f = 0) (idx : row.usesIdx = false → idxField f = 0)
    (unusedB : row.usesB = false) (b : bField f = true) : decode f = .error .nonzeroB := by
  simp only [decode, found]
  rw [if_neg (by simpa using rsv), if_neg (by simpa using idx), if_pos (by simpa using ⟨unusedB, b⟩)]

theorem decode_of_nonzeroX (rsv : rsvField f = 0) (idx : row.usesIdx = false → idxField f = 0)
    (b : row.usesB = false → bField f = false) (unusedX : row.usesX = false) (x : xField f ≠ 0) :
    decode f = .error .nonzeroX := by
  simp only [decode, found]
  rw [if_neg (by simpa using rsv), if_neg (by simpa using idx), if_neg (by simpa using b),
    if_pos (by simpa using ⟨unusedX, x⟩)]

theorem decode_of_nonzeroY (rsv : rsvField f = 0) (idx : row.usesIdx = false → idxField f = 0)
    (b : row.usesB = false → bField f = false) (x : row.usesX = false → xField f = 0)
    (y : 2 ^ row.yBits ≤ (yField f).toNat) : decode f = .error .nonzeroY := by
  simp only [decode, found]
  rw [if_neg (by simpa using rsv), if_neg (by simpa using idx), if_neg (by simpa using b),
    if_neg (by simpa using x), if_pos (by simpa using y)]

end

/-! #### ENC-3 to ENC-36 -/

/-- Settles O5: a legal word is the frame of its command, and an illegal one fails the check its error names, with every
check before it passed. -/
theorem decodesWrittenWords : Obligations.DecodesWrittenWords := by
  refine ⟨?accw, ?mwr, ?wint, ?rammarch, ?ramfill, ?intchk, ?opcode, ?reserved, ?idleX, ?mwrY, ?romchkB, ?intchkY⟩
  case accw | mwr | wint | rammarch | ramfill | intchk => exact decode_eq_ok_iff_encode.mpr (by decide)
  case opcode => exact decode_of_no_row rfl
  case reserved => exact decode_of_reservedBits rfl (by decide)
  case idleX => exact decode_of_nonzeroX rfl rfl (fun _ => rfl) (fun _ => rfl) rfl (by decide)
  case mwrY => exact decode_of_nonzeroY rfl rfl (fun _ => rfl) (fun _ => rfl) nofun (by decide)
  case romchkB => exact decode_of_nonzeroB rfl rfl nofun rfl rfl
  case intchkY => exact decode_of_nonzeroY rfl rfl nofun nofun nofun (by decide)

end Sys2Proof
